-- ==== Sys2Proof/Word.lean ====
section
/-!
DEFINITION. Sys2Proof/Word.lean: the word types and the sparse map every memory and register file of the model uses.
-/
namespace Sys2Proof

/-- A 32-bit word: a vector register of one lane, or an instruction word (R89, R100). -/
abbrev Word := BitVec 32

/-- A 64-bit word: a uniform register, a status register or an address. -/
abbrev DWord := BitVec 64

/-- A byte of memory. -/
abbrev Byte := BitVec 8

/-- A set of lanes of one group: lane l in bit l. W is 64 on the LX9640 (R15, R28). -/
abbrev LaneMask := BitVec 64

/-- A sparse store: pairs of a key and a value, keys strictly rising, no pair holding the value an unlisted key reads
as. `NMap Byte` is a list of `Host.Cell`. -/
abbrev NMap (α : Type) := List (Nat × α)

end Sys2Proof
end

