-- ==== Sys2Proof/Machine/Cells.lean ====
section
/-!
DEFINITION. Sys2Proof/Machine/Cells.lean: reading and writing sparse stores, and little-endian byte strings (R4).
-/
namespace Sys2Proof.Machine

/-- The value at key `k`; `d` where no pair lists it. -/
def mapGet {α : Type} (d : α) : NMap α → Nat → α
  | [], _ => d
  | (k', v) :: t, k => if k' = k then v else mapGet d t k

/-- Put a pair before the first larger key. -/
def mapInsert {α : Type} (k : Nat) (v : α) : NMap α → NMap α
  | [] => [(k, v)]
  | (k', v') :: t => if k < k' then (k, v) :: (k', v') :: t else (k', v') :: mapInsert k v t

/-- Drop the pairs of key `k`. -/
def mapErase {α : Type} (k : Nat) : NMap α → NMap α
  | [] => []
  | (k', v) :: t => if k' = k then mapErase k t else (k', v) :: mapErase k t

/-- Write `v` at key `k`; writing what an unlisted key reads as removes the pair. -/
def mapSet {α : Type} [DecidableEq α] (d : α) (m : NMap α) (k : Nat) (v : α) : NMap α :=
  if v = d then mapErase k m else mapInsert k v (mapErase k m)

/-- Keys strictly rising, and no pair that holds what an unlisted key reads as. -/
def mapWf {α : Type} [DecidableEq α] (d : α) : NMap α → Bool
  | [] => true
  | [(_, v)] => decide (v ≠ d)
  | (k, v) :: (k', v') :: t => decide (v ≠ d) && decide (k < k') && mapWf d ((k', v') :: t)

/-- Make every key from `lo` to `lo + n - 1` read as an unlisted one. -/
def mapClear {α : Type} (lo n : Nat) (m : NMap α) : NMap α :=
  m.filter fun p => decide (p.1 < lo) || decide (lo + n ≤ p.1)

/-! ## Bytes -/

/-- The `n` bytes from address `a` on. -/
def memRead (m : NMap Byte) (a n : Nat) : List Byte := (List.range n).map fun i => mapGet 0 m (a + i)

/-- Write bytes from address `a` on. -/
def memWrite (m : NMap Byte) (a : Nat) : List Byte → NMap Byte
  | [] => m
  | b :: bs => memWrite (mapSet 0 m a b) (a + 1) bs

/-- The number that bytes hold, the first the least significant (R4). -/
def leNat : List Byte → Nat
  | [] => 0
  | b :: bs => b.toNat + 256 * leNat bs

/-- The `n` little-endian bytes of a number (R4). -/
def natLe : Nat → Nat → List Byte
  | 0, _ => []
  | n + 1, x => BitVec.ofNat 8 x :: natLe n (x / 256)

/-- A little-endian number of `n` bytes in memory. -/
def memNat (m : NMap Byte) (a n : Nat) : Nat := leNat (memRead m a n)

/-- Write a little-endian number of `n` bytes. -/
def memWriteNat (m : NMap Byte) (a n x : Nat) : NMap Byte := memWrite m a (natLe n x)

/-- Bits `hi` down to `lo` of a number (R4). -/
def bitField (x hi lo : Nat) : Nat := x / 2 ^ lo % 2 ^ (hi - lo + 1)

/-- The lanes of a mask, in increasing order. -/
def lanesOf (m : LaneMask) : List Nat := (List.range 64).filter fun l => m.getLsbD l

/-- The mask of the lanes that satisfy a test. -/
def maskOf (f : Nat → Bool) : LaneMask :=
  (List.range 64).foldl (fun m l => if f l then m ||| BitVec.twoPow 64 l else m) 0

/-- How many lanes a mask has. -/
def popCount (m : LaneMask) : Nat := (lanesOf m).length

/-- Write `f l` at key 64 n + l for every lane l of the mask: one register of a group's lanes. -/
def writeLanes (m : NMap Word) (n : Nat) (mask : LaneMask) (f : Nat → Word) : NMap Word :=
  (List.range 64).foldl (fun m l => if mask.getLsbD l then mapSet 0 m (64 * n + l) (f l) else m) m

end Sys2Proof.Machine
end

