-- ==== Sys2Proof/Config.lean ====
section
/-!
DEFINITION. Sys2Proof/Config.lean: the figures of the LX9640 (R15, R18) and the values the spec leaves open.
-/
namespace Sys2Proof.Config

/-- W, the lanes of a group (R15). -/
def width : Nat := 64
/-- Scratchpad bytes of a core (Table 1.1). -/
def coreScratch : Nat := 262144
/-- Vector-register bytes of a quadrant (Table 1.1). -/
def quadrantRegs : Nat := 131072
/-- Resident groups of a quadrant (Table 1.1). -/
def quadrantGroups : Nat := 16
/-- Resident teams of a core (Table 1.1). -/
def coreTeams : Nat := 16
/-- Accumulator tiles of a core (Table 1.1). -/
def coreTiles : Nat := 64
/-- L1 data lines of a core: 128 KiB of 128-byte lines (Table 1.1). -/
def l1Lines : Nat := 1024
/-- First-level TLB entries (Table 1.1). -/
def tlbEntries : Nat := 96
/-- Second-level TLB entries (Table 1.2). -/
def tlb2Entries : Nat := 4096
/-- Carillon memo SRAM bytes of a core (Table 1.1). -/
def carillonBytes : Nat := 65536
/-- The ready pool (R67). -/
def readyPool : Nat := 4096

/-- A value the spec leaves open, a fresh one for each argument. DESIGN CHOICE of form only: nothing constrains it. -/
opaque freeValue : Nat → BitVec 64
/-- Core clocks since reset, as CYCLE reads them (R99): the spec gives no clock count to an instruction. -/
opaque clocks : Nat → BitVec 64
/-- The TLB or cache entry that a full store gives up, of `n` (R174): the spec names no replacement rule. -/
opaque victim : Nat → Nat → Nat
/-- FP32 depth of the plane through three screen vertices at a pixel centre (R273): the spec says a fixed
interpolation and gives no formula. -/
opaque planeDepth : List (Int × Int × Word) → Nat → Nat → Word
/-- FP32 barycentrics u and v of a pixel centre (R274): the spec gives no formula. -/
opaque barycentrics : List (Int × Int × Word × Word) → Nat → Nat → Word × Word
/-- Whether a ray enters a box within an interval, and where (R277): origin, direction, tmin, tmax, box. -/
opaque boxEntry : List Word → List Word → Option Word
/-- A watertight hit of a triangle (R277): t, u, v and whether the face is a back face. -/
opaque triangleHit : List Word → List Word → Option (Word × Word × Word × Bool)
/-- The content signature of a bound shader image (Table 14.2), of memory, a translation root and its node's IMAGE: the spec does
not say where the device takes it from. -/
opaque imageSignature : List (Nat × BitVec 8) → Nat → BitVec 64 → BitVec 128
/-- The content signature of a draw's constant data, of the IMAGE and NODEARG addresses of its stages. -/
opaque constantSignature : List (Nat × BitVec 8) → Nat → List (BitVec 64) → List (BitVec 64) → BitVec 128
/-- The content signatures of a draw's bound resources in binding order, of the BRECBASE addresses of its stages. -/
opaque resourceSignatures : List (Nat × BitVec 8) → Nat → List (BitVec 64) → List (BitVec 128)
/-- Whether the content signature at a physical address is one that a draw of these addresses covers. -/
opaque drawCovers : List (Nat × BitVec 8) → Nat → List (BitVec 64) → Nat → Bool
/-- Register vt + 1 + n of a MISS record, for n below 5, and for n = 5 bit 0 of vt + 6 (R277, Table 15.3): the spec states
them for HIT only. -/
opaque missField : List Word → Nat → Word

end Sys2Proof.Config
end

