-- ==== Sys2Proof/Syntax.lean ====
section
/-!
DEFINITION. Sys2Proof/Syntax.lean: the instructions and events of the LX9640, one constructor per row of the
opcode table. Register operands keep the full width of their field (R101, R102); `WellFormed` says which values the
verifier accepts. A row that is a device or host event carries the choices the spec leaves to that event.
-/
namespace Sys2Proof

/-- Where an uncorrectable storage error strikes (R291, Table 16.6). -/
inductive ErrorSite where
  | instructionCache (core : Nat)
  | dataCacheLine (core : Nat) (line : Nat)
  | tlb (core : Nat) (index : Nat)
  | clusterTlb (cluster : Nat) (index : Nat)
  | memoEntry (region : Nat) (slot : Nat) (core : Nat) (entry : Nat)
  | teamState (team : Nat) (group : Nat) (address : BitVec 64)
  | memoryWord (address : Nat)
  | keyStore
deriving DecidableEq, Repr

/-- The instructions of Tables 6.6 and 6.7, PFX, and the device and host events of the opcode table. -/
inductive Instr where
  /-- IADD (R346). -/
  | iadd (vd va vb : BitVec 7) (ha hb : Bool)
  /-- ISUB (R346). -/
  | isub (vd va vb : BitVec 7) (ha hb : Bool)
  /-- IMIN (R346). -/
  | imin (vd va vb : BitVec 7) (ha hb : Bool)
  /-- IMAX (R346). -/
  | imax (vd va vb : BitVec 7) (ha hb : Bool)
  /-- IMINU (R350). -/
  | iminu (vd va vb : BitVec 7) (ha hb : Bool)
  /-- IMAXU (R350). -/
  | imaxu (vd va vb : BitVec 7) (ha hb : Bool)
  /-- IABSD (R350). -/
  | iabsd (vd va vb : BitVec 7) (ha hb : Bool)
  /-- IMUL (R351). -/
  | imul (vd va vb : BitVec 7) (ha hb : Bool)
  /-- IMULHS (R351). -/
  | imulhs (vd va vb : BitVec 7) (ha hb : Bool)
  /-- IMULHU (R351). -/
  | imulhu (vd va vb : BitVec 7) (ha hb : Bool)
  /-- IMAD (R351). -/
  | imad (vd va vb : BitVec 7) (ha hb : Bool)
  /-- AND (R310). -/
  | and (vd va vb : BitVec 7) (ha hb : Bool)
  /-- OR (R310). -/
  | or (vd va vb : BitVec 7) (ha hb : Bool)
  /-- XOR (R310). -/
  | xor (vd va vb : BitVec 7) (ha hb : Bool)
  /-- ANDN (R310). -/
  | andn (vd va vb : BitVec 7) (ha hb : Bool)
  /-- SHL (R398). -/
  | shl (vd va vb : BitVec 7) (ha hb : Bool)
  /-- SHR (R398). -/
  | shr (vd va vb : BitVec 7) (ha hb : Bool)
  /-- SAR (R398). -/
  | sar (vd va vb : BitVec 7) (ha hb : Bool)
  /-- ROTL (R398). -/
  | rotl (vd va vb : BitVec 7) (ha hb : Bool)
  /-- POPC (R385). -/
  | popc (vd va : BitVec 7) (ha : Bool)
  /-- CLZ (R385). -/
  | clz (vd va : BitVec 7) (ha : Bool)
  /-- BREV (R385). -/
  | brev (vd va : BitVec 7) (ha : Bool)
  /-- BFX (R385). -/
  | bfx (vd va vb : BitVec 7) (ha hb : Bool)
  /-- ICMP (R349). -/
  | icmp (pd : BitVec 3) (va vb : BitVec 7) (rel : BitVec 2) (ha hb : Bool)
  /-- ICMP_UNSIGNED (R349). -/
  | icmpUnsigned (pd : BitVec 3) (va vb : BitVec 7) (rel : BitVec 2) (ha hb : Bool)
  /-- SEL (R396). -/
  | sel (vd va vb : BitVec 7) (ps : BitVec 2) (ha hb : Bool)
  /-- IADD64 (R347). -/
  | iadd64 (vd va vb : BitVec 7) (ha hb : Bool)
  /-- ISUB64 (R347). -/
  | isub64 (vd va vb : BitVec 7) (ha hb : Bool)
  /-- IMUL64 (R347). -/
  | imul64 (vd va vb : BitVec 7) (ha hb : Bool)
  /-- MADW (R347). -/
  | madw (vd va vb : BitVec 7) (ha hb : Bool)
  /-- IADDI (R348). -/
  | iaddi (vd va : BitVec 7) (imm : BitVec 10) (ha : Bool)
  /-- ANDI (R311). -/
  | andi (vd va : BitVec 7) (imm : BitVec 10) (ha : Bool)
  /-- ORI (R383). -/
  | ori (vd va : BitVec 7) (imm : BitVec 10) (ha : Bool)
  /-- XORI (R429). -/
  | xori (vd va : BitVec 7) (imm : BitVec 10) (ha : Bool)
  /-- SHLI (R399). -/
  | shli (vd va : BitVec 7) (imm : BitVec 10) (ha : Bool)
  /-- SHRI (R400). -/
  | shri (vd va : BitVec 7) (imm : BitVec 10) (ha : Bool)
  /-- SARI (R395). -/
  | sari (vd va : BitVec 7) (imm : BitVec 10) (ha : Bool)
  /-- MOVI (R377). -/
  | movi (vd : BitVec 7) (imm : BitVec 10)
  /-- FADD (R339). -/
  | fadd (vd va vb : BitVec 7) (ha hb : Bool)
  /-- FSUB (R339). -/
  | fsub (vd va vb : BitVec 7) (ha hb : Bool)
  /-- FMUL (R339). -/
  | fmul (vd va vb : BitVec 7) (ha hb : Bool)
  /-- FFMA (R339). -/
  | ffma (vd va vb : BitVec 7) (ha hb : Bool)
  /-- FMIN (R343). -/
  | fmin (vd va vb : BitVec 7) (ha hb : Bool)
  /-- FMAX (R343). -/
  | fmax (vd va vb : BitVec 7) (ha hb : Bool)
  /-- FABS (R343). -/
  | fabs (vd va : BitVec 7) (ha : Bool)
  /-- FNEG (R343). -/
  | fneg (vd va : BitVec 7) (ha : Bool)
  /-- FCMP (R340). -/
  | fcmp (pd : BitVec 3) (va vb : BitVec 7) (rel : BitVec 2) (ha hb : Bool)
  /-- HADDP (R345). -/
  | haddp (vd va vb : BitVec 7) (ha hb : Bool)
  /-- HMULP (R345). -/
  | hmulp (vd va vb : BitVec 7) (ha hb : Bool)
  /-- HFMAP (R345). -/
  | hfmap (vd va vb : BitVec 7) (ha hb : Bool)
  /-- HMAXP (R345). -/
  | hmaxp (vd va vb : BitVec 7) (ha hb : Bool)
  /-- BADD2 (R316). -/
  | badd2 (vd va vb : BitVec 7) (ha hb : Bool)
  /-- BMUL2 (R316). -/
  | bmul2 (vd va vb : BitVec 7) (ha hb : Bool)
  /-- BFMA2 (R316). -/
  | bfma2 (vd va vb : BitVec 7) (ha hb : Bool)
  /-- BMAX2 (R316). -/
  | bmax2 (vd va vb : BitVec 7) (ha hb : Bool)
  /-- RCP (R391). -/
  | rcp (vd va : BitVec 7) (ha : Bool)
  /-- RSQ (R391). -/
  | rsq (vd va : BitVec 7) (ha : Bool)
  /-- SQRT (R391). -/
  | sqrt (vd va : BitVec 7) (ha : Bool)
  /-- EXP2 (R391). -/
  | exp2 (vd va : BitVec 7) (ha : Bool)
  /-- LOG2 (R363). -/
  | log2 (vd va : BitVec 7) (ha : Bool)
  /-- SIN (R363). -/
  | sin (vd va : BitVec 7) (ha : Bool)
  /-- COS (R363). -/
  | cos (vd va : BitVec 7) (ha : Bool)
  /-- TANH (R363). -/
  | tanh (vd va : BitVec 7) (ha : Bool)
  /-- CVT (R332). -/
  | cvt (vd va : BitVec 7) (src : BitVec 3) (dst : BitVec 4) (mode : BitVec 2) (ha : Bool)
  /-- QE4 (R388). -/
  | qe4 (vd va vb : BitVec 7) (ha hb : Bool)
  /-- QE5 (R388). -/
  | qe5 (vd va vb : BitVec 7) (ha hb : Bool)
  /-- QI8 (R388). -/
  | qi8 (vd va vb : BitVec 7) (ha hb : Bool)
  /-- QF4 (R388). -/
  | qf4 (vd va vb : BitVec 7) (ha hb : Bool)
  /-- DE4 (R333). -/
  | de4 (vd va vb : BitVec 7) (ha hb : Bool)
  /-- DE5 (R333). -/
  | de5 (vd va vb : BitVec 7) (ha hb : Bool)
  /-- DI8 (R333). -/
  | di8 (vd va vb : BitVec 7) (ha hb : Bool)
  /-- DF4 (R333). -/
  | df4 (vd va vb : BitVec 7) (ha hb : Bool)
  /-- SHFL (R397). -/
  | shfl (vd va vb : BitVec 7) (ha hb : Bool)
  /-- SHFLX (R397). -/
  | shflx (vd va vb : BitVec 7) (ha hb : Bool)
  /-- SHFLR (R397). -/
  | shflr (vd va vb : BitVec 7) (ha hb : Bool)
  /-- SHFLH (R397). -/
  | shflh (vd va k : BitVec 7) (ha : Bool)
  /-- LSTEP (R365). -/
  | lstep (vd va k : BitVec 7) (op : BitVec 2) (ha : Bool)
  /-- MATCH (R367). -/
  | vmatch (vd va : BitVec 7) (ha : Bool)
  /-- MRANK (R367). -/
  | mrank (vd va : BitVec 7) (ha : Bool)
  /-- MCNT (R367). -/
  | mcnt (vd va : BitVec 7) (ha : Bool)
  /-- MLAST (R367). -/
  | mlast (vd va : BitVec 7) (ha : Bool)
  /-- LANEID (R356). -/
  | laneid (vd : BitVec 7)
  /-- VMOV (R356). -/
  | vmov (vd va : BitVec 7) (ha : Bool)
  /-- MOVP (R356). -/
  | movp (vd : BitVec 7) (pn : BitVec 3)
  /-- SETP (R356). -/
  | setp (pd : BitVec 3) (va : BitVec 7) (ha : Bool)
  /-- LDB (R358). -/
  | ldb (vt va : BitVec 7) (wb : BitVec 6) (rec : BitVec 5)
  /-- LDH (R358). -/
  | ldh (vt va : BitVec 7) (wb : BitVec 6) (rec : BitVec 5)
  /-- LDW (R358). -/
  | ldw (vt va : BitVec 7) (wb : BitVec 6) (rec : BitVec 5)
  /-- LDD (R358). -/
  | ldd (vt va : BitVec 7) (wb : BitVec 6) (rec : BitVec 5)
  /-- LDQ (R358). -/
  | ldq (vt va : BitVec 7) (wb : BitVec 6) (rec : BitVec 5)
  /-- STB (R404). -/
  | stb (vt va : BitVec 7) (wb : BitVec 6) (rec : BitVec 5)
  /-- STH (R404). -/
  | sth (vt va : BitVec 7) (wb : BitVec 6) (rec : BitVec 5)
  /-- STW (R404). -/
  | stw (vt va : BitVec 7) (wb : BitVec 6) (rec : BitVec 5)
  /-- STD (R404). -/
  | std (vt va : BitVec 7) (wb : BitVec 6) (rec : BitVec 5)
  /-- STQ (R404). -/
  | stq (vt va : BitVec 7) (wb : BitVec 6) (rec : BitVec 5)
  /-- ATOM (R313). -/
  | atom (vt va : BitVec 7) (wb : BitVec 6) (op : BitVec 5)
  /-- ATOMD (R313). -/
  | atomd (vt va : BitVec 7) (wb : BitVec 6) (op : BitVec 5)
  /-- LDL (R361). -/
  | ldl (vt va : BitVec 7) (wb : BitVec 6) (sz : BitVec 5)
  /-- STL (R406). -/
  | stl (vt va : BitVec 7) (wb : BitVec 6) (sz : BitVec 5)
  /-- ATOML (R313). -/
  | atoml (vt va : BitVec 7) (wb : BitVec 6) (op : BitVec 5)
  /-- TEX (R411). -/
  | tex (vt va : BitVec 7) (wb : BitVec 6) (rec : BitVec 5)
  /-- TEXL (R411). -/
  | texl (vt va : BitVec 7) (wb : BitVec 6) (rec : BitVec 5)
  /-- TEXG (R411). -/
  | texg (vt va : BitVec 7) (wb : BitVec 6) (rec : BitVec 5)
  /-- RAYQ (R277). -/
  | rayq (vt va : BitVec 7) (wb : BitVec 6) (desc : BitVec 5)
  /-- PRF (R387). -/
  | prf (va : BitVec 7) (wb : BitVec 6) (kind : BitVec 2)
  /-- PFX (R105). -/
  | pfx (pm : BitVec 3) (pinv zm : Bool) (rnd scope : BitVec 3) (vc : BitVec 7)
  /-- UADD (R416). -/
  | uadd (wd wa wb : BitVec 6)
  /-- USUB (R416). -/
  | usub (wd wa wb : BitVec 6)
  /-- UMUL (R416). -/
  | umul (wd wa wb : BitVec 6)
  /-- UMULH (R416). -/
  | umulh (wd wa wb : BitVec 6)
  /-- UAND (R416). -/
  | uand (wd wa wb : BitVec 6)
  /-- UOR (R416). -/
  | uor (wd wa wb : BitVec 6)
  /-- UXOR (R416). -/
  | uxor (wd wa wb : BitVec 6)
  /-- UANDN (R416). -/
  | uandn (wd wa wb : BitVec 6)
  /-- USHL (R426). -/
  | ushl (wd wa wb : BitVec 6)
  /-- USHR (R426). -/
  | ushr (wd wa wb : BitVec 6)
  /-- USAR (R426). -/
  | usar (wd wa wb : BitVec 6)
  /-- UMIN (R426). -/
  | umin (wd wa wb : BitVec 6)
  /-- UMAX (R426). -/
  | umax (wd wa wb : BitVec 6)
  /-- UMINU (R426). -/
  | uminu (wd wa wb : BitVec 6)
  /-- UMAXU (R426). -/
  | umaxu (wd wa wb : BitVec 6)
  /-- UPOPC (R426). -/
  | upopc (wd wa : BitVec 6)
  /-- UADDI (R417). -/
  | uaddi (wd wa : BitVec 6) (imm : BitVec 13)
  /-- UMOVI (R417). -/
  | umovi (wd : BitVec 6) (imm : BitVec 13)
  /-- ULI (R425). -/
  | uli (wd : BitVec 6) (lit : BitVec 32)
  /-- ULIH (R425). -/
  | ulih (wd : BitVec 6) (lit : BitVec 32)
  /-- UCMP (R418). -/
  | ucmp (wd wa wb : BitVec 6) (rel : BitVec 3)
  /-- UFADD (R420). -/
  | ufadd (wd wa wb : BitVec 6) (rnd : BitVec 4)
  /-- UFMUL (R420). -/
  | ufmul (wd wa wb : BitVec 6) (rnd : BitVec 4)
  /-- UFFMA (R420). -/
  | uffma (wd wa wb : BitVec 6) (rnd : BitVec 4)
  /-- UFMIN (R420). -/
  | ufmin (wd wa wb : BitVec 6)
  /-- UFMAX (R420). -/
  | ufmax (wd wa wb : BitVec 6)
  /-- UFCVT (R421). -/
  | ufcvt (wd wa : BitVec 6) (src dst : BitVec 3) (rnd : BitVec 4)
  /-- SRD (R98). -/
  | srd (wd : BitVec 6) (num : BitVec 13)
  /-- SWR (R408). -/
  | swr (wa : BitVec 6) (num : BitVec 13)
  /-- BCAST (R323). -/
  | bcast (v : BitVec 7) (w : BitVec 6)
  /-- RDFIRST (R323). -/
  | rdfirst (v : BitVec 7) (w : BitVec 6)
  /-- BALLOT (R323). -/
  | ballot (w : BitVec 6) (pn : BitVec 3) (half : BitVec 4)
  /-- VANY (R323). -/
  | vany (w : BitVec 6) (pn : BitVec 3)
  /-- VALL (R323). -/
  | vall (w : BitVec 6) (pn : BitVec 3)
  /-- VCNT (R323). -/
  | vcnt (w : BitVec 6) (pn : BitVec 3)
  /-- ACTM (R323). -/
  | actm (w : BitVec 6) (half : BitVec 4)
  /-- ULDW (R423). -/
  | uldw (wd wa : BitVec 6) (imm : BitVec 13)
  /-- ULDD (R423). -/
  | uldd (wd wa : BitVec 6) (imm : BitVec 13)
  /-- USTW (R423). -/
  | ustw (wd wa : BitVec 6) (imm : BitVec 13)
  /-- USTD (R423). -/
  | ustd (wd wa : BitVec 6) (imm : BitVec 13)
  /-- BRA (R325). -/
  | bra (disp : BitVec 22)
  /-- BRD (R39). -/
  | brd (pn : BitVec 3) (disp : BitVec 22)
  /-- BRANY (R325). -/
  | brany (pn : BitVec 3) (disp : BitVec 22)
  /-- BRALL (R325). -/
  | brall (pn : BitVec 3) (disp : BitVec 22)
  /-- BZ (R324). -/
  | bz (wa : BitVec 6) (disp : BitVec 13)
  /-- BNZ (R324). -/
  | bnz (wa : BitVec 6) (disp : BitVec 13)
  /-- CALL (R328). -/
  | call (disp : BitVec 22)
  /-- RET (R393). -/
  | ret (wa : BitVec 6)
  /-- JSET (R40). -/
  | jset (disp : BitVec 22)
  /-- JOIN (R41). -/
  | join
  /-- EXIT (R42). -/
  | exit
  /-- NOP (R382). -/
  | nop
  /-- BAR (R318). -/
  | bar (n : BitVec 4)
  /-- BARA (R318). -/
  | bara (n : BitVec 4)
  /-- BARW (R318). -/
  | barw (n : BitVec 4)
  /-- BARR (R319). -/
  | barr (wd vs op : BitVec 6) (n : BitVec 4)
  /-- BARS (R319). -/
  | bars (vd vs op : BitVec 6) (n : BitVec 4)
  /-- FENCE (R342). -/
  | fence (ord : BitVec 3) (scope : BitVec 4)
  /-- BATCH (R209). -/
  | batch (wd : BitVec 6)
  /-- WAITB (R209). -/
  | waitb (wa : BitVec 6)
  /-- TESTB (R209). -/
  | testb (wd wa : BitVec 6)
  /-- MSEND (R217). -/
  | msend (ws wa wb : BitVec 6) (ring : BitVec 2)
  /-- MPOLL (R217). -/
  | mpoll (wd ws : BitVec 6) (ring : BitVec 2)
  /-- MWAIT (R217). -/
  | mwait (wd : BitVec 6) (ring : BitVec 2)
  /-- MPOP (R217). -/
  | mpop (wd : BitVec 6) (ring : BitVec 2)
  /-- MRING (R216). -/
  | mring (wa wb : BitVec 6) (ring : BitVec 2)
  /-- CPY (R199). -/
  | cpy (wa : BitVec 6)
  /-- DCMP (R212). -/
  | dcmp (wa : BitVec 6)
  /-- CPYQ (R207). -/
  | cpyq (wa wb : BitVec 6)
  /-- MMA (R222). -/
  | mma (an : BitVec 4) (wa wb : BitVec 6)
  /-- MMAZ (R222). -/
  | mmaz (an : BitVec 4) (wa wb : BitVec 6)
  /-- MMAS (R233). -/
  | mmas (an : BitVec 4) (wa wb : BitVec 6)
  /-- MMASZ (R233). -/
  | mmasz (an : BitVec 4) (wa wb : BitVec 6)
  /-- ACCRD (R226). -/
  | accrd (an : BitVec 4) (v : BitVec 7) (wa : BitVec 6)
  /-- ACCWR (R226). -/
  | accwr (an : BitVec 4) (v : BitVec 7) (wa : BitVec 6)
  /-- ACCZ (R226). -/
  | accz (an : BitVec 4)
  /-- ACCST (R227). -/
  | accst (an : BitVec 4) (wa : BitVec 6)
  /-- WMARK (R226). -/
  | wmark (an : BitVec 4) (wa : BitVec 6)
  /-- XFT (R237). -/
  | xft (wa wb : BitVec 6) (lb : BitVec 4)
  /-- IXFT (R238). -/
  | ixft (an : BitVec 4) (wb : BitVec 6)
  /-- IXFT_SCRATCHPAD (R238). -/
  | ixftScratchpad (wa wb : BitVec 6)
  /-- XACT (R239). -/
  | xact (an : BitVec 4) (wb : BitVec 6) (f : BitVec 2)
  /-- XACT_BIAS (R239). -/
  | xactBias (an : BitVec 4) (wa wb : BitVec 6) (f : BitVec 2)
  /-- DTAG (R241). -/
  | dtag (wa wb : BitVec 6)
  /-- DTAG_TILE (R241). -/
  | dtagTile (an : BitVec 4) (wb : BitVec 6)
  /-- DSET (R241). -/
  | dset (wa wb : BitVec 6)
  /-- EMSET (R336). -/
  | emset (wa : BitVec 6) (m : BitVec 4)
  /-- EMGEN (R336). -/
  | emgen (wa : BitVec 6)
  /-- EPOST (R73). -/
  | epost (wa wb : BitVec 6) (e : BitVec 4)
  /-- ETAKE (R73). -/
  | etake (wd ws : BitVec 6) (e : BitVec 4)
  /-- ETEST (R73). -/
  | etest (wd : BitVec 6) (e : BitVec 4)
  /-- MBEGIN (R253). -/
  | mbegin (wa g : BitVec 6) (c : BitVec 3) (h : BitVec 4)
  /-- MKEY (R255). -/
  | mkey (v : BitVec 7) (t : BitVec 5)
  /-- MKEY_UNIFORM (R255). -/
  | mkeyUniform (w : BitVec 6)
  /-- MKEY_PREDICATE (R255). -/
  | mkeyPredicate (pd : BitVec 3)
  /-- MXCL (R380). -/
  | mxcl (v : BitVec 7)
  /-- MXCL_UNIFORM (R380). -/
  | mxclUniform (w : BitVec 6)
  /-- MXCL_PREDICATE (R380). -/
  | mxclPredicate (pd : BitVec 3)
  /-- MOUT (R376). -/
  | mout (v : BitVec 7)
  /-- MOUT_UNIFORM (R376). -/
  | moutUniform (w : BitVec 6)
  /-- MOUT_PREDICATE (R376). -/
  | moutPredicate (pd : BitVec 3)
  /-- MLOOK (R259). -/
  | mlook (pn : BitVec 3) (disp : BitVec 22)
  /-- MEND (R260). -/
  | mend
  /-- MINV (R250). -/
  | minv (h : BitVec 4)
  /-- MGEN (R261). -/
  | mgen (wd : BitVec 6) (h : BitVec 4)
  /-- MSTAT (R261). -/
  | mstat (wd k : BitVec 6) (h : BitVec 4)
  /-- MKEYT (R255). -/
  | mkeyt (wa wb : BitVec 6) (f : BitVec 4)
  /-- MDECL (R272). -/
  | mdecl (wa wb : BitVec 6) (t : BitVec 1)
  /-- MEMIT (R272). -/
  | memit (wa : BitVec 6)
  /-- FOUT (R275). -/
  | fout (v : BitVec 7) (w : BitVec 6) (f : BitVec 5) (m : BitVec 4)
  /-- DISC (R334). -/
  | disc (pn : BitVec 3)
  /-- REGRP (R276). -/
  | regrp (vk : BitVec 6) (n : BitVec 4)
  /-- TRAP (R283). -/
  | trap (code : BitVec 13)
  /-- RTE (R284). -/
  | rte
  /-- TSAVE (R284). -/
  | tsave (wa : BitVec 6)
  /-- TREST (R284). -/
  | trest (wa : BitVec 6)
  /-- SWPT (R62). -/
  | swpt (n : BitVec 4)
  /-- RGROW (R60). -/
  | rgrow (wd : BitVec 6) (v : BitVec 2)
  /-- RGROWW (R60). -/
  | rgroww (wd : BitVec 6) (v : BitVec 2)
  /-- SPACE (R401). -/
  | space (wd wa : BitVec 6)
  /-- SCAST (R401). -/
  | scast (wd wa : BitVec 6)
  /-- SCASTL (R401). -/
  | scastl (wd wa : BitVec 6)
  /-- CCTLF (R330). -/
  | cctlf
  /-- CCTLI (R330). -/
  | cctli (wa wb : BitVec 6)
  /-- CCTLW (R330). -/
  | cctlw
  /-- YIELD (R431). -/
  | yieldIssue
  /-- SLEEP (R431). -/
  | sleep (wa : BitVec 6)
  /-- TAIL_WRITE: the host writes tail register `region` (R68, R294). -/
  | tailWrite (region : BitVec 8) (value : BitVec 64)
  /-- INTERRUPT_STATUS: the host writes the interrupt status register (R294). -/
  | interruptStatus (ones : BitVec 64)
  /-- REGISTER_WRITE: the host writes another register of the page (R294). -/
  | registerWrite (offset : BitVec 16) (value : BitVec 64)
  /-- NODE_VALIDATE: Gamelan reads and validates the next record of the region's queue (R67). -/
  | nodeValidate (region : Nat)
  /-- NODE_FAIL: a node with a failed predecessor or a pending failure enters FAILED (R69). -/
  | nodeFail (node : Nat)
  /-- NODE_READY: a node whose conditions hold leaves WAITING for READY (R71). -/
  | nodeReady (node : Nat)
  /-- ENSEMBLE_PLACEMENT: Gamelan places the next ensemble: the core of each team in ENSIX order, the save-area offset of each team image and the arena offset of each group's private area (R82, R83). -/
  | ensemblePlacement (node : Nat) (cores images privs : List Nat)
  /-- PLACEMENT_HOLD: the node's clusters are held for it (R80). -/
  | placementHold (node : Nat)
  /-- TEAM_RETIRE: a finished team frees its resources (R49). -/
  | teamRetire (team : Nat)
  /-- TRY_GRANT: waiting variant requests of the core are granted, oldest team first (R60). -/
  | tryGrant (core : Nat)
  /-- GROW_DEADLOCK_SPILL: the youngest waiting team's ensemble is spilled (R61). -/
  | growDeadlockSpill (core : Nat)
  /-- VARIANT_SWITCH: the team's state moves to the target variant: the offset of its resized image and of the new groups' private areas (R64). -/
  | variantSwitch (team image : Nat) (privs : List Nat)
  /-- PREEMPTION: Gamelan halts one victim ensemble (R86). -/
  | preemption (node ens : Nat)
  /-- CONTEXT_SAVE: the halted team's image is written (R289). -/
  | contextSave (team : Nat)
  /-- ENSEMBLE_RESTORE: a pre-empted ensemble is written back onto chosen cores (R88). -/
  | ensembleRestore (node ens : Nat) (cores : List Nat)
  /-- FAULT_QUEUE_SPACE: a waiting fault writes its record once the host has consumed one (R295). -/
  | faultQueueSpace (region : Nat)
  /-- FAULT_DELIVERY: a pending delivered fault is taken (R280). -/
  | faultDelivery (team group : Nat) (slot : Bool)
  /-- UNCORRECTABLE_ERROR: an uncorrectable storage error (R291). -/
  | uncorrectableError (site : ErrorSite)
  /-- CORRECTED_ERROR: a corrected storage error is counted (R291). -/
  | correctedError (region : Nat)
  /-- SECURITY_ALARM: a glitch or shield breach (R293). -/
  | securityAlarm
  /-- RESET: the part is reset (R307). -/
  | reset
  /-- GOVERNOR_SAMPLE: the power governor samples every region (R306). -/
  | governorSample
  /-- CREDIT_REFILL: a regulator refills a region's credit (R77). -/
  | creditRefill (region controller : Nat)
  /-- BUDGET_PERIOD_START: a time-budget period restarts (R78). -/
  | budgetPeriodStart (region : Nat)
  /-- SCANOUT_LINE: a display head publishes its position (R81). -/
  | scanoutLine (head : Nat) (scanning : Bool) (fc ln vt lp : Nat)
  /-- ENGINE_SLOT_RELEASE: a media engine or display head releases a hand-off slot (R304). -/
  | engineSlotRelease (slot : Nat) (next : BitVec 12)
  /-- PATH_SWITCH_COUNT: issue switches after 256 consecutive issues (R43). -/
  | pathSwitchCount (team group : Nat)
  /-- GROUP_AGING: a group that could issue for 256 cycles is chosen next (R51). -/
  | groupAging (team group : Nat)
  /-- YIELD_HOLD_EXPIRE: the hold after YIELD expires (R431). -/
  | yieldHoldExpire (team group : Nat)
  /-- SLEEP_EXPIRE: a sleeping path's count expires (R431). -/
  | sleepExpire (team group : Nat) (slot : Bool)
  /-- SLEEP_WAKE: a wake event ends a sleep (R431). -/
  | sleepWake (team group : Nat) (slot : Bool)
  /-- TABLE_WALK_COMPLETE: every walk of a parked instruction has ended (R176). -/
  | tableWalkComplete (team group : Nat) (slot : Bool)
  /-- FOOTPRINT_WAIT_END: the engine has passed the bytes an access waits on (R193). -/
  | footprintWaitEnd (team group : Nat) (slot : Bool)
  /-- WATERMARK_WAIT_END: the row or the tile an instruction waits on is final (R194). -/
  | watermarkWaitEnd (team group : Nat) (slot : Bool)
  /-- ENGINE_QUEUE_SPACE: an engine queue has space (R208). -/
  | engineQueueSpace (team group : Nat) (slot : Bool)
  /-- EDGE_SLOT_FREE: a waiting EPOST writes its token (R73). -/
  | edgeSlotFree (team group : Nat) (slot : Bool)
  /-- EDGE_TOKEN_ARRIVE: a waiting ETAKE takes a token or finds the edge closed (R73). -/
  | edgeTokenArrive (team group : Nat) (slot : Bool)
  /-- RING_SPACE: a waiting MSEND writes its entry (R217). -/
  | ringSpace (team group : Nat) (slot : Bool)
  /-- RING_ENTRY_ARRIVE: a waiting MWAIT or MPOP reads an entry (R217). -/
  | ringEntryArrive (team group : Nat) (slot : Bool)
  /-- BATCH_WAIT_END: a waiting WAITB proceeds (R209). -/
  | batchWaitEnd (team group : Nat) (slot : Bool)
  /-- COPY_CHUNK: the copy engine writes one chunk (R211). -/
  | copyChunk (core : Nat)
  /-- DCMP_CHUNK: the decompression engine decodes one chunk (R213). -/
  | dcmpChunk (cluster : Nat)
  /-- MATRIX_OP_START: the matrix engine starts its next operation (R228). -/
  | matrixOpStart (core : Nat)
  /-- MATRIX_ROW_FINAL: a row of the started operation becomes final (R194). -/
  | matrixRowFinal (core : Nat)
  /-- TRANSFORM_OP_COMPLETE: the transform unit finishes an operation (R240). -/
  | transformOpComplete (core : Nat)
  /-- BINNING_JOB: the binning unit bins one committed primitive (R273). -/
  | binningJob (cluster : Nat)
  /-- ACTIVATE: command 0x01 (R76). -/
  | activate (node : Nat)
  /-- DEACTIVATE: command 0x02 (R302). -/
  | deactivate (node : Nat)
  /-- DEACTIVATE_DONE: the region has no unfinished node (R302). -/
  | deactivateDone (node : Nat)
  /-- PRE_EMPT: command 0x03 (R85). -/
  | preEmpt (node : Nat)
  /-- KILL: command 0x04 (R79). -/
  | kill (node : Nat)
  /-- MAP_EXECUTABLE: command 0x05 (R118). -/
  | mapExecutable (node : Nat)
  /-- UNMAP_EXECUTABLE: command 0x06 (R118). -/
  | unmapExecutable (node : Nat)
  /-- TLB_INVALIDATE: command 0x07 (R173). -/
  | tlbInvalidate (node : Nat)
  /-- FAULT_RESUME_REPLAY: command 0x08 with D = 0 (R280). -/
  | faultResumeReplay (node : Nat)
  /-- FAULT_RESUME_DELIVER: command 0x08 with D = 1 (R280). -/
  | faultResumeDeliver (node : Nat)
  /-- FAULT_RESUME_KILL: command 0x08 with D = 2 (R280). -/
  | faultResumeKill (node : Nat)
  /-- MEMO_SLOT_CREATE: command 0x09 with D = 0 (R296). -/
  | memoSlotCreate (node : Nat)
  /-- MEMO_SLOT_FREE: command 0x09 with D = 1 (R296). -/
  | memoSlotFree (node : Nat)
  /-- MEMO_SLOT_FREE_DONE: no live node binds the slot (R296). -/
  | memoSlotFreeDone (node : Nat)
  /-- KEY_WRITE: command 0x0A (R305). -/
  | keyWrite (node : Nat)
  /-- POWER_LEVEL: command 0x0B (R306). -/
  | powerLevel (node : Nat)
  /-- SLOT_RELEASE: command 0x0C (R304). -/
  | slotRelease (node : Nat)
  /-- BUDGET_EXHAUSTED: a region has spent its time budget (R78). -/
  | budgetExhausted (region : Nat)
  /-- STORES_REACH_SYSTEM_CACHE: the group's earlier stores reach the system cache (R163). -/
  | storesReachSystemCache (team group : Nat)
  /-- MEMO_INSTANCES_ACTED: every core's instance has carried out a MINV or MGEN (R250). -/
  | memoInstancesActed (team group : Nat) (slot : Bool)
  /-- HOST_CORE_WRITE: a host core writes physical memory (R117). -/
  | hostCoreWrite (address : Nat) (bytes : List (BitVec 8))
deriving DecidableEq, Repr

end Sys2Proof
end

