-- ==== Sys2Proof/WellFormed.lean ====
section
/-!
DEFINITION. Sys2Proof/WellFormed.lean: what the code verifier accepts of one instruction (R113, R114, R119): the
reason codes of Table 6.9, the sub-code and operand checks, and `Instr.wellFormed`.
-/
namespace Sys2Proof

/-- The verifier's reason codes (Table 6.9). -/
inductive Reason where
  | reservedMajor | reservedFn | mustBeZero | writeP0 | misalignedRegister | operandRange | holdBit
  | prefixGroupSpace | prefixPrefix | lastPosition | prefixField | prefixAbsent | notReadable
deriving DecidableEq, Repr

/-- The code of a reason (Table 6.9). -/
def Reason.code : Reason → BitVec 8
  | .reservedMajor => 0x01
  | .reservedFn => 0x02
  | .mustBeZero => 0x03
  | .writeP0 => 0x04
  | .misalignedRegister => 0x05
  | .operandRange => 0x06
  | .holdBit => 0x07
  | .prefixGroupSpace => 0x08
  | .prefixPrefix => 0x09
  | .lastPosition => 0x0A
  | .prefixField => 0x0B
  | .prefixAbsent => 0x0C
  | .notReadable => 0x0D

/-- A register number is a multiple of `n` (R90). -/
def aligned {w : Nat} (n : Nat) (r : BitVec w) : Bool := r.toNat % n == 0

/-- A word whose wb is w0 holds a generic address pair, so its va is even (the generic-pair rule of R113). -/
def genericPairOk (va : BitVec 7) (wb : BitVec 6) : Bool := wb != 0 || aligned 2 va

/-- ATOMD accepts op 0 and 3 to 9 (Table 6.6). -/
def atomdOpOk (op : BitVec 5) : Bool := op == 0 || (decide (3 ≤ op.toNat) && decide (op.toNat ≤ 9))

/-- How many registers an LDL or STL size takes (Table 20.3): one, a pair for a double, a quad for a quad. -/
def sizeRegs (sz : BitVec 5) : Nat := if sz = 3 then 2 else if sz = 4 then 4 else 1

/-- ETAKE and MPOLL forbid ws equal to wd or wd + 1 (R119). -/
def statusDistinct (ws wd : BitVec 6) : Bool := ws != wd && ws != wd + 1

/-- The first rule of a list that does not hold. -/
def firstFault : List (Reason × Bool) → Option Reason
  | [] => none
  | (r, ok) :: rest => if ok then firstFault rest else some r

/-- The sub-code and conversion-code fields the verifier accepts (reason 0x02). -/
def Instr.subCodesOk : Instr → Bool
  | .iadd _ _ _ _ _ => true
  | .isub _ _ _ _ _ => true
  | .imin _ _ _ _ _ => true
  | .imax _ _ _ _ _ => true
  | .iminu _ _ _ _ _ => true
  | .imaxu _ _ _ _ _ => true
  | .iabsd _ _ _ _ _ => true
  | .imul _ _ _ _ _ => true
  | .imulhs _ _ _ _ _ => true
  | .imulhu _ _ _ _ _ => true
  | .imad _ _ _ _ _ => true
  | .and _ _ _ _ _ => true
  | .or _ _ _ _ _ => true
  | .xor _ _ _ _ _ => true
  | .andn _ _ _ _ _ => true
  | .shl _ _ _ _ _ => true
  | .shr _ _ _ _ _ => true
  | .sar _ _ _ _ _ => true
  | .rotl _ _ _ _ _ => true
  | .popc _ _ _ => true
  | .clz _ _ _ => true
  | .brev _ _ _ => true
  | .bfx _ _ _ _ _ => true
  | .icmp _ _ _ _ _ _ => true
  | .icmpUnsigned _ _ _ rel _ _ => decide (rel.toNat ≤ 1)
  | .sel _ _ _ _ _ _ => true
  | .iadd64 _ _ _ _ _ => true
  | .isub64 _ _ _ _ _ => true
  | .imul64 _ _ _ _ _ => true
  | .madw _ _ _ _ _ => true
  | .iaddi _ _ _ _ => true
  | .andi _ _ _ _ => true
  | .ori _ _ _ _ => true
  | .xori _ _ _ _ => true
  | .shli _ _ _ _ => true
  | .shri _ _ _ _ => true
  | .sari _ _ _ _ => true
  | .movi _ _ => true
  | .fadd _ _ _ _ _ => true
  | .fsub _ _ _ _ _ => true
  | .fmul _ _ _ _ _ => true
  | .ffma _ _ _ _ _ => true
  | .fmin _ _ _ _ _ => true
  | .fmax _ _ _ _ _ => true
  | .fabs _ _ _ => true
  | .fneg _ _ _ => true
  | .fcmp _ _ _ _ _ _ => true
  | .haddp _ _ _ _ _ => true
  | .hmulp _ _ _ _ _ => true
  | .hfmap _ _ _ _ _ => true
  | .hmaxp _ _ _ _ _ => true
  | .badd2 _ _ _ _ _ => true
  | .bmul2 _ _ _ _ _ => true
  | .bfma2 _ _ _ _ _ => true
  | .bmax2 _ _ _ _ _ => true
  | .rcp _ _ _ => true
  | .rsq _ _ _ => true
  | .sqrt _ _ _ => true
  | .exp2 _ _ _ => true
  | .log2 _ _ _ => true
  | .sin _ _ _ => true
  | .cos _ _ _ => true
  | .tanh _ _ _ => true
  | .cvt _ _ src dst _ _ => decide (src.toNat ≤ 6) && decide (dst.toNat ≤ 10)
  | .qe4 _ _ _ _ _ => true
  | .qe5 _ _ _ _ _ => true
  | .qi8 _ _ _ _ _ => true
  | .qf4 _ _ _ _ _ => true
  | .de4 _ _ _ _ _ => true
  | .de5 _ _ _ _ _ => true
  | .di8 _ _ _ _ _ => true
  | .df4 _ _ _ _ _ => true
  | .shfl _ _ _ _ _ => true
  | .shflx _ _ _ _ _ => true
  | .shflr _ _ _ _ _ => true
  | .shflh _ _ _ _ => true
  | .lstep _ _ _ _ _ => true
  | .vmatch _ _ _ => true
  | .mrank _ _ _ => true
  | .mcnt _ _ _ => true
  | .mlast _ _ _ => true
  | .laneid _ => true
  | .vmov _ _ _ => true
  | .movp _ _ => true
  | .setp _ _ _ => true
  | .ldb _ _ _ _ => true
  | .ldh _ _ _ _ => true
  | .ldw _ _ _ _ => true
  | .ldd _ _ _ _ => true
  | .ldq _ _ _ _ => true
  | .stb _ _ _ _ => true
  | .sth _ _ _ _ => true
  | .stw _ _ _ _ => true
  | .std _ _ _ _ => true
  | .stq _ _ _ _ => true
  | .atom _ _ _ op => decide (op.toNat ≤ 12)
  | .atomd _ _ _ op => atomdOpOk op
  | .ldl _ _ _ sz => decide (sz.toNat ≤ 4)
  | .stl _ _ _ sz => decide (sz.toNat ≤ 4)
  | .atoml _ _ _ op => decide (op.toNat ≤ 12)
  | .tex _ _ _ _ => true
  | .texl _ _ _ _ => true
  | .texg _ _ _ _ => true
  | .rayq _ _ _ _ => true
  | .prf _ _ _ => true
  | .pfx _ _ _ _ _ _ => true
  | .uadd _ _ _ => true
  | .usub _ _ _ => true
  | .umul _ _ _ => true
  | .umulh _ _ _ => true
  | .uand _ _ _ => true
  | .uor _ _ _ => true
  | .uxor _ _ _ => true
  | .uandn _ _ _ => true
  | .ushl _ _ _ => true
  | .ushr _ _ _ => true
  | .usar _ _ _ => true
  | .umin _ _ _ => true
  | .umax _ _ _ => true
  | .uminu _ _ _ => true
  | .umaxu _ _ _ => true
  | .upopc _ _ => true
  | .uaddi _ _ _ => true
  | .umovi _ _ => true
  | .uli _ _ => true
  | .ulih _ _ => true
  | .ucmp _ _ _ rel => decide (rel.toNat ≤ 5)
  | .ufadd _ _ _ _ => true
  | .ufmul _ _ _ _ => true
  | .uffma _ _ _ _ => true
  | .ufmin _ _ _ => true
  | .ufmax _ _ _ => true
  | .ufcvt _ _ src dst _ => decide (src.toNat ≤ 4) && decide (dst.toNat ≤ 4)
  | .srd _ _ => true
  | .swr _ _ => true
  | .bcast _ _ => true
  | .rdfirst _ _ => true
  | .ballot _ _ _ => true
  | .vany _ _ => true
  | .vall _ _ => true
  | .vcnt _ _ => true
  | .actm _ _ => true
  | .uldw _ _ _ => true
  | .uldd _ _ _ => true
  | .ustw _ _ _ => true
  | .ustd _ _ _ => true
  | .bra _ => true
  | .brd _ _ => true
  | .brany _ _ => true
  | .brall _ _ => true
  | .bz _ _ => true
  | .bnz _ _ => true
  | .call _ => true
  | .ret _ => true
  | .jset _ => true
  | .join => true
  | .exit => true
  | .nop => true
  | .bar _ => true
  | .bara _ => true
  | .barw _ => true
  | .barr _ _ op _ => decide (op.toNat ≤ 4)
  | .bars _ _ op _ => decide (op.toNat ≤ 4)
  | .fence ord scope => decide (ord.toNat ≤ 3) && decide (scope.toNat ≤ 4)
  | .batch _ => true
  | .waitb _ => true
  | .testb _ _ => true
  | .msend _ _ _ _ => true
  | .mpoll _ _ _ => true
  | .mwait _ _ => true
  | .mpop _ _ => true
  | .mring _ _ _ => true
  | .cpy _ => true
  | .dcmp _ => true
  | .cpyq _ _ => true
  | .mma _ _ _ => true
  | .mmaz _ _ _ => true
  | .mmas _ _ _ => true
  | .mmasz _ _ _ => true
  | .accrd _ _ _ => true
  | .accwr _ _ _ => true
  | .accz _ => true
  | .accst _ _ => true
  | .wmark _ _ => true
  | .xft _ _ _ => true
  | .ixft _ _ => true
  | .ixftScratchpad _ _ => true
  | .xact _ _ _ => true
  | .xactBias _ _ _ _ => true
  | .dtag _ _ => true
  | .dtagTile _ _ => true
  | .dset _ _ => true
  | .emset _ _ => true
  | .emgen _ => true
  | .epost _ _ _ => true
  | .etake _ _ _ => true
  | .etest _ _ => true
  | .mbegin _ _ _ _ => true
  | .mkey _ t => decide (t.toNat ≤ 4)
  | .mkeyUniform _ => true
  | .mkeyPredicate _ => true
  | .mxcl _ => true
  | .mxclUniform _ => true
  | .mxclPredicate _ => true
  | .mout _ => true
  | .moutUniform _ => true
  | .moutPredicate _ => true
  | .mlook _ _ => true
  | .mend => true
  | .minv _ => true
  | .mgen _ _ => true
  | .mstat _ _ _ => true
  | .mkeyt _ _ _ => true
  | .mdecl _ _ _ => true
  | .memit _ => true
  | .fout _ _ _ _ => true
  | .disc _ => true
  | .regrp _ _ => true
  | .trap _ => true
  | .rte => true
  | .tsave _ => true
  | .trest _ => true
  | .swpt _ => true
  | .rgrow _ _ => true
  | .rgroww _ _ => true
  | .space _ _ => true
  | .scast _ _ => true
  | .scastl _ _ => true
  | .cctlf => true
  | .cctli _ _ => true
  | .cctlw => true
  | .yieldIssue => true
  | .sleep _ => true
  | .tailWrite _ _ => true
  | .interruptStatus _ => true
  | .registerWrite _ _ => true
  | .nodeValidate _ => true
  | .nodeFail _ => true
  | .nodeReady _ => true
  | .ensemblePlacement _ _ _ _ => true
  | .placementHold _ => true
  | .teamRetire _ => true
  | .tryGrant _ => true
  | .growDeadlockSpill _ => true
  | .variantSwitch _ _ _ => true
  | .preemption _ _ => true
  | .contextSave _ => true
  | .ensembleRestore _ _ _ => true
  | .faultQueueSpace _ => true
  | .faultDelivery _ _ _ => true
  | .uncorrectableError _ => true
  | .correctedError _ => true
  | .securityAlarm => true
  | .reset => true
  | .governorSample => true
  | .creditRefill _ _ => true
  | .budgetPeriodStart _ => true
  | .scanoutLine _ _ _ _ _ _ => true
  | .engineSlotRelease _ _ => true
  | .pathSwitchCount _ _ => true
  | .groupAging _ _ => true
  | .yieldHoldExpire _ _ => true
  | .sleepExpire _ _ _ => true
  | .sleepWake _ _ _ => true
  | .tableWalkComplete _ _ _ => true
  | .footprintWaitEnd _ _ _ => true
  | .watermarkWaitEnd _ _ _ => true
  | .engineQueueSpace _ _ _ => true
  | .edgeSlotFree _ _ _ => true
  | .edgeTokenArrive _ _ _ => true
  | .ringSpace _ _ _ => true
  | .ringEntryArrive _ _ _ => true
  | .batchWaitEnd _ _ _ => true
  | .copyChunk _ => true
  | .dcmpChunk _ => true
  | .matrixOpStart _ => true
  | .matrixRowFinal _ => true
  | .transformOpComplete _ => true
  | .binningJob _ => true
  | .activate _ => true
  | .deactivate _ => true
  | .deactivateDone _ => true
  | .preEmpt _ => true
  | .kill _ => true
  | .mapExecutable _ => true
  | .unmapExecutable _ => true
  | .tlbInvalidate _ => true
  | .faultResumeReplay _ => true
  | .faultResumeDeliver _ => true
  | .faultResumeKill _ => true
  | .memoSlotCreate _ => true
  | .memoSlotFree _ => true
  | .memoSlotFreeDone _ => true
  | .keyWrite _ => true
  | .powerLevel _ => true
  | .slotRelease _ => true
  | .budgetExhausted _ => true
  | .storesReachSystemCache _ _ => true
  | .memoInstancesActed _ _ _ => true
  | .hostCoreWrite _ _ => true

/-- The first operand rule that an instruction breaks, in the order of Table 6.9. MKEY.p of p0 is reason 0x03 (R373).
DEDUCED (log entry 42): MXCL and MOUT of p0 are reason 0x06, a register the member forbids (R119). DEDUCED (log entry 59):
RAYQ takes wb = w0 under the generic-pair rule of R113 alone. -/
def Instr.operandFault : Instr → Option Reason
  | .iadd _ _ _ _ _ => none
  | .isub _ _ _ _ _ => none
  | .imin _ _ _ _ _ => none
  | .imax _ _ _ _ _ => none
  | .iminu _ _ _ _ _ => none
  | .imaxu _ _ _ _ _ => none
  | .iabsd _ _ _ _ _ => none
  | .imul _ _ _ _ _ => none
  | .imulhs _ _ _ _ _ => none
  | .imulhu _ _ _ _ _ => none
  | .imad _ _ _ _ _ => none
  | .and _ _ _ _ _ => none
  | .or _ _ _ _ _ => none
  | .xor _ _ _ _ _ => none
  | .andn _ _ _ _ _ => none
  | .shl _ _ _ _ _ => none
  | .shr _ _ _ _ _ => none
  | .sar _ _ _ _ _ => none
  | .rotl _ _ _ _ _ => none
  | .popc _ _ _ => none
  | .clz _ _ _ => none
  | .brev _ _ _ => none
  | .bfx _ _ _ _ _ => none
  | .icmp pd _ _ _ _ _ => firstFault [(.writeP0, pd != 0), (.misalignedRegister, true), (.operandRange, true)]
  | .icmpUnsigned pd _ _ _ _ _ => firstFault [(.writeP0, pd != 0), (.misalignedRegister, true), (.operandRange, true)]
  | .sel _ _ _ _ _ _ => none
  | .iadd64 vd va vb _ _ => firstFault [(.writeP0, true), (.misalignedRegister, aligned 2 vd && aligned 2 va && aligned 2 vb), (.operandRange, true)]
  | .isub64 vd va vb _ _ => firstFault [(.writeP0, true), (.misalignedRegister, aligned 2 vd && aligned 2 va && aligned 2 vb), (.operandRange, true)]
  | .imul64 vd va vb _ _ => firstFault [(.writeP0, true), (.misalignedRegister, aligned 2 vd && aligned 2 va && aligned 2 vb), (.operandRange, true)]
  | .madw vd _ _ _ _ => firstFault [(.writeP0, true), (.misalignedRegister, aligned 2 vd), (.operandRange, true)]
  | .iaddi _ _ _ _ => none
  | .andi _ _ _ _ => none
  | .ori _ _ _ _ => none
  | .xori _ _ _ _ => none
  | .shli _ _ imm _ => firstFault [(.writeP0, true), (.misalignedRegister, true), (.operandRange, decide (imm.toNat ≤ 31))]
  | .shri _ _ imm _ => firstFault [(.writeP0, true), (.misalignedRegister, true), (.operandRange, decide (imm.toNat ≤ 31))]
  | .sari _ _ imm _ => firstFault [(.writeP0, true), (.misalignedRegister, true), (.operandRange, decide (imm.toNat ≤ 31))]
  | .movi _ _ => none
  | .fadd _ _ _ _ _ => none
  | .fsub _ _ _ _ _ => none
  | .fmul _ _ _ _ _ => none
  | .ffma _ _ _ _ _ => none
  | .fmin _ _ _ _ _ => none
  | .fmax _ _ _ _ _ => none
  | .fabs _ _ _ => none
  | .fneg _ _ _ => none
  | .fcmp pd _ _ _ _ _ => firstFault [(.writeP0, pd != 0), (.misalignedRegister, true), (.operandRange, true)]
  | .haddp _ _ _ _ _ => none
  | .hmulp _ _ _ _ _ => none
  | .hfmap _ _ _ _ _ => none
  | .hmaxp _ _ _ _ _ => none
  | .badd2 _ _ _ _ _ => none
  | .bmul2 _ _ _ _ _ => none
  | .bfma2 _ _ _ _ _ => none
  | .bmax2 _ _ _ _ _ => none
  | .rcp _ _ _ => none
  | .rsq _ _ _ => none
  | .sqrt _ _ _ => none
  | .exp2 _ _ _ => none
  | .log2 _ _ _ => none
  | .sin _ _ _ => none
  | .cos _ _ _ => none
  | .tanh _ _ _ => none
  | .cvt _ _ _ _ _ _ => none
  | .qe4 _ va _ _ _ => firstFault [(.writeP0, true), (.misalignedRegister, aligned 4 va), (.operandRange, true)]
  | .qe5 _ va _ _ _ => firstFault [(.writeP0, true), (.misalignedRegister, aligned 4 va), (.operandRange, true)]
  | .qi8 _ va _ _ _ => firstFault [(.writeP0, true), (.misalignedRegister, aligned 4 va), (.operandRange, true)]
  | .qf4 _ va _ _ _ => firstFault [(.writeP0, true), (.misalignedRegister, aligned 8 va), (.operandRange, true)]
  | .de4 vd _ _ _ _ => firstFault [(.writeP0, true), (.misalignedRegister, aligned 4 vd), (.operandRange, true)]
  | .de5 vd _ _ _ _ => firstFault [(.writeP0, true), (.misalignedRegister, aligned 4 vd), (.operandRange, true)]
  | .di8 vd _ _ _ _ => firstFault [(.writeP0, true), (.misalignedRegister, aligned 4 vd), (.operandRange, true)]
  | .df4 vd _ _ _ _ => firstFault [(.writeP0, true), (.misalignedRegister, aligned 8 vd), (.operandRange, true)]
  | .shfl _ _ _ _ _ => none
  | .shflx _ _ _ _ _ => none
  | .shflr _ _ _ _ _ => none
  | .shflh _ _ k _ => firstFault [(.writeP0, true), (.misalignedRegister, true), (.operandRange, decide (1 ≤ k.toNat ∧ k.toNat ≤ 7))]
  | .lstep _ _ k _ _ => firstFault [(.writeP0, true), (.misalignedRegister, true), (.operandRange, decide (k.toNat ≤ 6))]
  | .vmatch _ _ _ => none
  | .mrank _ _ _ => none
  | .mcnt _ _ _ => none
  | .mlast _ _ _ => none
  | .laneid _ => none
  | .vmov _ _ _ => none
  | .movp _ _ => none
  | .setp pd _ _ => firstFault [(.writeP0, pd != 0), (.misalignedRegister, true), (.operandRange, true)]
  | .ldb _ va wb _ => firstFault [(.writeP0, true), (.misalignedRegister, genericPairOk va wb), (.operandRange, true)]
  | .ldh _ va wb _ => firstFault [(.writeP0, true), (.misalignedRegister, genericPairOk va wb), (.operandRange, true)]
  | .ldw _ va wb _ => firstFault [(.writeP0, true), (.misalignedRegister, genericPairOk va wb), (.operandRange, true)]
  | .ldd vt va wb _ => firstFault [(.writeP0, true), (.misalignedRegister, aligned 2 vt && genericPairOk va wb), (.operandRange, true)]
  | .ldq vt va wb _ => firstFault [(.writeP0, true), (.misalignedRegister, aligned 4 vt && genericPairOk va wb), (.operandRange, true)]
  | .stb _ va wb _ => firstFault [(.writeP0, true), (.misalignedRegister, genericPairOk va wb), (.operandRange, true)]
  | .sth _ va wb _ => firstFault [(.writeP0, true), (.misalignedRegister, genericPairOk va wb), (.operandRange, true)]
  | .stw _ va wb _ => firstFault [(.writeP0, true), (.misalignedRegister, genericPairOk va wb), (.operandRange, true)]
  | .std vt va wb _ => firstFault [(.writeP0, true), (.misalignedRegister, aligned 2 vt && genericPairOk va wb), (.operandRange, true)]
  | .stq vt va wb _ => firstFault [(.writeP0, true), (.misalignedRegister, aligned 4 vt && genericPairOk va wb), (.operandRange, true)]
  | .atom _ va wb _ => firstFault [(.writeP0, true), (.misalignedRegister, genericPairOk va wb), (.operandRange, true)]
  | .atomd vt va wb _ => firstFault [(.writeP0, true), (.misalignedRegister, aligned 2 vt && genericPairOk va wb), (.operandRange, true)]
  | .ldl vt va wb sz => firstFault [(.writeP0, true), (.misalignedRegister, aligned (sizeRegs sz) vt && genericPairOk va wb), (.operandRange, true)]
  | .stl vt va wb sz => firstFault [(.writeP0, true), (.misalignedRegister, aligned (sizeRegs sz) vt && genericPairOk va wb), (.operandRange, true)]
  | .atoml _ va wb _ => firstFault [(.writeP0, true), (.misalignedRegister, genericPairOk va wb), (.operandRange, true)]
  | .tex vt va wb _ => firstFault [(.writeP0, true), (.misalignedRegister, aligned 4 vt && genericPairOk va wb), (.operandRange, true)]
  | .texl vt va wb _ => firstFault [(.writeP0, true), (.misalignedRegister, aligned 4 vt && genericPairOk va wb), (.operandRange, true)]
  | .texg vt va wb _ => firstFault [(.writeP0, true), (.misalignedRegister, aligned 4 vt && genericPairOk va wb), (.operandRange, true)]
  | .rayq vt va wb _ => firstFault [(.writeP0, true), (.misalignedRegister, aligned 8 vt && genericPairOk va wb), (.operandRange, true)]
  | .prf va wb _ => firstFault [(.writeP0, true), (.misalignedRegister, genericPairOk va wb), (.operandRange, true)]
  | .pfx _ _ _ rnd scope _ => firstFault [(.writeP0, true), (.misalignedRegister, true), (.operandRange, decide (rnd.toNat ≤ 5) && decide (scope.toNat ≤ 4))]
  | .uadd _ _ _ => none
  | .usub _ _ _ => none
  | .umul _ _ _ => none
  | .umulh _ _ _ => none
  | .uand _ _ _ => none
  | .uor _ _ _ => none
  | .uxor _ _ _ => none
  | .uandn _ _ _ => none
  | .ushl _ _ _ => none
  | .ushr _ _ _ => none
  | .usar _ _ _ => none
  | .umin _ _ _ => none
  | .umax _ _ _ => none
  | .uminu _ _ _ => none
  | .umaxu _ _ _ => none
  | .upopc _ _ => none
  | .uaddi _ _ _ => none
  | .umovi _ _ => none
  | .uli _ _ => none
  | .ulih _ _ => none
  | .ucmp _ _ _ _ => none
  | .ufadd _ _ _ rnd => firstFault [(.writeP0, true), (.misalignedRegister, true), (.operandRange, decide (rnd.toNat ≤ 5))]
  | .ufmul _ _ _ rnd => firstFault [(.writeP0, true), (.misalignedRegister, true), (.operandRange, decide (rnd.toNat ≤ 5))]
  | .uffma _ _ _ rnd => firstFault [(.writeP0, true), (.misalignedRegister, true), (.operandRange, decide (rnd.toNat ≤ 5))]
  | .ufmin _ _ _ => none
  | .ufmax _ _ _ => none
  | .ufcvt _ _ _ _ rnd => firstFault [(.writeP0, true), (.misalignedRegister, true), (.operandRange, decide (rnd.toNat ≤ 5))]
  | .srd _ _ => none
  | .swr _ _ => none
  | .bcast _ _ => none
  | .rdfirst _ _ => none
  | .ballot _ _ half => firstFault [(.writeP0, true), (.misalignedRegister, true), (.operandRange, decide (half.toNat ≤ 1))]
  | .vany _ _ => none
  | .vall _ _ => none
  | .vcnt _ _ => none
  | .actm _ half => firstFault [(.writeP0, true), (.misalignedRegister, true), (.operandRange, decide (half.toNat ≤ 1))]
  | .uldw _ _ _ => none
  | .uldd _ _ _ => none
  | .ustw _ _ _ => none
  | .ustd _ _ _ => none
  | .bra _ => none
  | .brd _ _ => none
  | .brany _ _ => none
  | .brall _ _ => none
  | .bz _ _ => none
  | .bnz _ _ => none
  | .call _ => none
  | .ret _ => none
  | .jset _ => none
  | .join => none
  | .exit => none
  | .nop => none
  | .bar _ => none
  | .bara _ => none
  | .barw _ => none
  | .barr _ _ _ _ => none
  | .bars _ _ _ _ => none
  | .fence _ _ => none
  | .batch _ => none
  | .waitb _ => none
  | .testb _ _ => none
  | .msend _ _ _ _ => none
  | .mpoll wd ws _ => firstFault [(.writeP0, true), (.misalignedRegister, aligned 2 wd), (.operandRange, wd != 0 && statusDistinct ws wd)]
  | .mwait wd _ => firstFault [(.writeP0, true), (.misalignedRegister, aligned 2 wd), (.operandRange, wd != 0)]
  | .mpop wd _ => firstFault [(.writeP0, true), (.misalignedRegister, aligned 2 wd), (.operandRange, wd != 0)]
  | .mring _ _ _ => none
  | .cpy wa => firstFault [(.writeP0, true), (.misalignedRegister, true), (.operandRange, decide (wa.toNat ≤ 59))]
  | .dcmp _ => none
  | .cpyq _ _ => none
  | .mma _ wa wb => firstFault [(.writeP0, true), (.misalignedRegister, true), (.operandRange, decide (wa.toNat ≤ 62) && decide (wb.toNat ≤ 62))]
  | .mmaz _ wa wb => firstFault [(.writeP0, true), (.misalignedRegister, true), (.operandRange, decide (wa.toNat ≤ 62) && decide (wb.toNat ≤ 62))]
  | .mmas _ wa wb => firstFault [(.writeP0, true), (.misalignedRegister, true), (.operandRange, decide (wa.toNat ≤ 62) && decide (wb.toNat ≤ 62))]
  | .mmasz _ wa wb => firstFault [(.writeP0, true), (.misalignedRegister, true), (.operandRange, decide (wa.toNat ≤ 62) && decide (wb.toNat ≤ 62))]
  | .accrd _ _ _ => none
  | .accwr _ _ _ => none
  | .accz _ => none
  | .accst _ _ => none
  | .wmark _ _ => none
  | .xft _ _ lb => firstFault [(.writeP0, true), (.misalignedRegister, true), (.operandRange, decide (lb.toNat ≤ 4))]
  | .ixft _ _ => none
  | .ixftScratchpad _ _ => none
  | .xact _ _ _ => none
  | .xactBias _ _ _ _ => none
  | .dtag _ _ => none
  | .dtagTile _ _ => none
  | .dset _ _ => none
  | .emset _ m => firstFault [(.writeP0, true), (.misalignedRegister, true), (.operandRange, decide (m.toNat ≤ 7))]
  | .emgen _ => none
  | .epost _ _ e => firstFault [(.writeP0, true), (.misalignedRegister, true), (.operandRange, decide (8 ≤ e.toNat ∧ e.toNat ≤ 15))]
  | .etake wd ws e => firstFault [(.writeP0, true), (.misalignedRegister, aligned 2 wd), (.operandRange, wd != 0 && statusDistinct ws wd && decide (e.toNat ≤ 7))]
  | .etest _ _ => none
  | .mbegin _ g _ _ => firstFault [(.writeP0, true), (.misalignedRegister, true), (.operandRange, decide (g.toNat ≤ 3))]
  | .mkey _ _ => none
  | .mkeyUniform _ => none
  | .mkeyPredicate pd => firstFault [(.mustBeZero, pd != 0)]
  | .mxcl _ => none
  | .mxclUniform _ => none
  | .mxclPredicate pd => firstFault [(.writeP0, true), (.misalignedRegister, true), (.operandRange, pd != 0)]
  | .mout _ => none
  | .moutUniform _ => none
  | .moutPredicate pd => firstFault [(.writeP0, true), (.misalignedRegister, true), (.operandRange, pd != 0)]
  | .mlook pn _ => firstFault [(.writeP0, pn != 0), (.misalignedRegister, true), (.operandRange, true)]
  | .mend => none
  | .minv _ => none
  | .mgen _ _ => none
  | .mstat _ k _ => firstFault [(.writeP0, true), (.misalignedRegister, true), (.operandRange, decide (k.toNat ≤ 6))]
  | .mkeyt _ _ f => firstFault [(.writeP0, true), (.misalignedRegister, true), (.operandRange, decide (f.toNat ≤ 3))]
  | .mdecl _ _ _ => none
  | .memit _ => none
  | .fout v _ f m => firstFault [(.writeP0, true), (.misalignedRegister, aligned (if f = 0 then 4 else if f = 1 then 2 else 1) v), (.operandRange, decide (f.toNat ≤ 1) && m != 0)]
  | .disc _ => none
  | .regrp _ _ => none
  | .trap _ => none
  | .rte => none
  | .tsave _ => none
  | .trest _ => none
  | .swpt _ => none
  | .rgrow _ _ => none
  | .rgroww _ _ => none
  | .space _ _ => none
  | .scast _ _ => none
  | .scastl _ _ => none
  | .cctlf => none
  | .cctli _ _ => none
  | .cctlw => none
  | .yieldIssue => none
  | .sleep _ => none
  | .tailWrite _ _ => none
  | .interruptStatus _ => none
  | .registerWrite _ _ => none
  | .nodeValidate _ => none
  | .nodeFail _ => none
  | .nodeReady _ => none
  | .ensemblePlacement _ _ _ _ => none
  | .placementHold _ => none
  | .teamRetire _ => none
  | .tryGrant _ => none
  | .growDeadlockSpill _ => none
  | .variantSwitch _ _ _ => none
  | .preemption _ _ => none
  | .contextSave _ => none
  | .ensembleRestore _ _ _ => none
  | .faultQueueSpace _ => none
  | .faultDelivery _ _ _ => none
  | .uncorrectableError _ => none
  | .correctedError _ => none
  | .securityAlarm => none
  | .reset => none
  | .governorSample => none
  | .creditRefill _ _ => none
  | .budgetPeriodStart _ => none
  | .scanoutLine _ _ _ _ _ _ => none
  | .engineSlotRelease _ _ => none
  | .pathSwitchCount _ _ => none
  | .groupAging _ _ => none
  | .yieldHoldExpire _ _ => none
  | .sleepExpire _ _ _ => none
  | .sleepWake _ _ _ => none
  | .tableWalkComplete _ _ _ => none
  | .footprintWaitEnd _ _ _ => none
  | .watermarkWaitEnd _ _ _ => none
  | .engineQueueSpace _ _ _ => none
  | .edgeSlotFree _ _ _ => none
  | .edgeTokenArrive _ _ _ => none
  | .ringSpace _ _ _ => none
  | .ringEntryArrive _ _ _ => none
  | .batchWaitEnd _ _ _ => none
  | .copyChunk _ => none
  | .dcmpChunk _ => none
  | .matrixOpStart _ => none
  | .matrixRowFinal _ => none
  | .transformOpComplete _ => none
  | .binningJob _ => none
  | .activate _ => none
  | .deactivate _ => none
  | .deactivateDone _ => none
  | .preEmpt _ => none
  | .kill _ => none
  | .mapExecutable _ => none
  | .unmapExecutable _ => none
  | .tlbInvalidate _ => none
  | .faultResumeReplay _ => none
  | .faultResumeDeliver _ => none
  | .faultResumeKill _ => none
  | .memoSlotCreate _ => none
  | .memoSlotFree _ => none
  | .memoSlotFreeDone _ => none
  | .keyWrite _ => none
  | .powerLevel _ => none
  | .slotRelease _ => none
  | .budgetExhausted _ => none
  | .storesReachSystemCache _ _ => none
  | .memoInstancesActed _ _ _ => none
  | .hostCoreWrite _ _ => none

/-- The instruction has a word: it is no device or host event. -/
def Instr.isWord : Instr → Bool
  | .iadd _ _ _ _ _ => true
  | .isub _ _ _ _ _ => true
  | .imin _ _ _ _ _ => true
  | .imax _ _ _ _ _ => true
  | .iminu _ _ _ _ _ => true
  | .imaxu _ _ _ _ _ => true
  | .iabsd _ _ _ _ _ => true
  | .imul _ _ _ _ _ => true
  | .imulhs _ _ _ _ _ => true
  | .imulhu _ _ _ _ _ => true
  | .imad _ _ _ _ _ => true
  | .and _ _ _ _ _ => true
  | .or _ _ _ _ _ => true
  | .xor _ _ _ _ _ => true
  | .andn _ _ _ _ _ => true
  | .shl _ _ _ _ _ => true
  | .shr _ _ _ _ _ => true
  | .sar _ _ _ _ _ => true
  | .rotl _ _ _ _ _ => true
  | .popc _ _ _ => true
  | .clz _ _ _ => true
  | .brev _ _ _ => true
  | .bfx _ _ _ _ _ => true
  | .icmp _ _ _ _ _ _ => true
  | .icmpUnsigned _ _ _ _ _ _ => true
  | .sel _ _ _ _ _ _ => true
  | .iadd64 _ _ _ _ _ => true
  | .isub64 _ _ _ _ _ => true
  | .imul64 _ _ _ _ _ => true
  | .madw _ _ _ _ _ => true
  | .iaddi _ _ _ _ => true
  | .andi _ _ _ _ => true
  | .ori _ _ _ _ => true
  | .xori _ _ _ _ => true
  | .shli _ _ _ _ => true
  | .shri _ _ _ _ => true
  | .sari _ _ _ _ => true
  | .movi _ _ => true
  | .fadd _ _ _ _ _ => true
  | .fsub _ _ _ _ _ => true
  | .fmul _ _ _ _ _ => true
  | .ffma _ _ _ _ _ => true
  | .fmin _ _ _ _ _ => true
  | .fmax _ _ _ _ _ => true
  | .fabs _ _ _ => true
  | .fneg _ _ _ => true
  | .fcmp _ _ _ _ _ _ => true
  | .haddp _ _ _ _ _ => true
  | .hmulp _ _ _ _ _ => true
  | .hfmap _ _ _ _ _ => true
  | .hmaxp _ _ _ _ _ => true
  | .badd2 _ _ _ _ _ => true
  | .bmul2 _ _ _ _ _ => true
  | .bfma2 _ _ _ _ _ => true
  | .bmax2 _ _ _ _ _ => true
  | .rcp _ _ _ => true
  | .rsq _ _ _ => true
  | .sqrt _ _ _ => true
  | .exp2 _ _ _ => true
  | .log2 _ _ _ => true
  | .sin _ _ _ => true
  | .cos _ _ _ => true
  | .tanh _ _ _ => true
  | .cvt _ _ _ _ _ _ => true
  | .qe4 _ _ _ _ _ => true
  | .qe5 _ _ _ _ _ => true
  | .qi8 _ _ _ _ _ => true
  | .qf4 _ _ _ _ _ => true
  | .de4 _ _ _ _ _ => true
  | .de5 _ _ _ _ _ => true
  | .di8 _ _ _ _ _ => true
  | .df4 _ _ _ _ _ => true
  | .shfl _ _ _ _ _ => true
  | .shflx _ _ _ _ _ => true
  | .shflr _ _ _ _ _ => true
  | .shflh _ _ _ _ => true
  | .lstep _ _ _ _ _ => true
  | .vmatch _ _ _ => true
  | .mrank _ _ _ => true
  | .mcnt _ _ _ => true
  | .mlast _ _ _ => true
  | .laneid _ => true
  | .vmov _ _ _ => true
  | .movp _ _ => true
  | .setp _ _ _ => true
  | .ldb _ _ _ _ => true
  | .ldh _ _ _ _ => true
  | .ldw _ _ _ _ => true
  | .ldd _ _ _ _ => true
  | .ldq _ _ _ _ => true
  | .stb _ _ _ _ => true
  | .sth _ _ _ _ => true
  | .stw _ _ _ _ => true
  | .std _ _ _ _ => true
  | .stq _ _ _ _ => true
  | .atom _ _ _ _ => true
  | .atomd _ _ _ _ => true
  | .ldl _ _ _ _ => true
  | .stl _ _ _ _ => true
  | .atoml _ _ _ _ => true
  | .tex _ _ _ _ => true
  | .texl _ _ _ _ => true
  | .texg _ _ _ _ => true
  | .rayq _ _ _ _ => true
  | .prf _ _ _ => true
  | .pfx _ _ _ _ _ _ => true
  | .uadd _ _ _ => true
  | .usub _ _ _ => true
  | .umul _ _ _ => true
  | .umulh _ _ _ => true
  | .uand _ _ _ => true
  | .uor _ _ _ => true
  | .uxor _ _ _ => true
  | .uandn _ _ _ => true
  | .ushl _ _ _ => true
  | .ushr _ _ _ => true
  | .usar _ _ _ => true
  | .umin _ _ _ => true
  | .umax _ _ _ => true
  | .uminu _ _ _ => true
  | .umaxu _ _ _ => true
  | .upopc _ _ => true
  | .uaddi _ _ _ => true
  | .umovi _ _ => true
  | .uli _ _ => true
  | .ulih _ _ => true
  | .ucmp _ _ _ _ => true
  | .ufadd _ _ _ _ => true
  | .ufmul _ _ _ _ => true
  | .uffma _ _ _ _ => true
  | .ufmin _ _ _ => true
  | .ufmax _ _ _ => true
  | .ufcvt _ _ _ _ _ => true
  | .srd _ _ => true
  | .swr _ _ => true
  | .bcast _ _ => true
  | .rdfirst _ _ => true
  | .ballot _ _ _ => true
  | .vany _ _ => true
  | .vall _ _ => true
  | .vcnt _ _ => true
  | .actm _ _ => true
  | .uldw _ _ _ => true
  | .uldd _ _ _ => true
  | .ustw _ _ _ => true
  | .ustd _ _ _ => true
  | .bra _ => true
  | .brd _ _ => true
  | .brany _ _ => true
  | .brall _ _ => true
  | .bz _ _ => true
  | .bnz _ _ => true
  | .call _ => true
  | .ret _ => true
  | .jset _ => true
  | .join => true
  | .exit => true
  | .nop => true
  | .bar _ => true
  | .bara _ => true
  | .barw _ => true
  | .barr _ _ _ _ => true
  | .bars _ _ _ _ => true
  | .fence _ _ => true
  | .batch _ => true
  | .waitb _ => true
  | .testb _ _ => true
  | .msend _ _ _ _ => true
  | .mpoll _ _ _ => true
  | .mwait _ _ => true
  | .mpop _ _ => true
  | .mring _ _ _ => true
  | .cpy _ => true
  | .dcmp _ => true
  | .cpyq _ _ => true
  | .mma _ _ _ => true
  | .mmaz _ _ _ => true
  | .mmas _ _ _ => true
  | .mmasz _ _ _ => true
  | .accrd _ _ _ => true
  | .accwr _ _ _ => true
  | .accz _ => true
  | .accst _ _ => true
  | .wmark _ _ => true
  | .xft _ _ _ => true
  | .ixft _ _ => true
  | .ixftScratchpad _ _ => true
  | .xact _ _ _ => true
  | .xactBias _ _ _ _ => true
  | .dtag _ _ => true
  | .dtagTile _ _ => true
  | .dset _ _ => true
  | .emset _ _ => true
  | .emgen _ => true
  | .epost _ _ _ => true
  | .etake _ _ _ => true
  | .etest _ _ => true
  | .mbegin _ _ _ _ => true
  | .mkey _ _ => true
  | .mkeyUniform _ => true
  | .mkeyPredicate _ => true
  | .mxcl _ => true
  | .mxclUniform _ => true
  | .mxclPredicate _ => true
  | .mout _ => true
  | .moutUniform _ => true
  | .moutPredicate _ => true
  | .mlook _ _ => true
  | .mend => true
  | .minv _ => true
  | .mgen _ _ => true
  | .mstat _ _ _ => true
  | .mkeyt _ _ _ => true
  | .mdecl _ _ _ => true
  | .memit _ => true
  | .fout _ _ _ _ => true
  | .disc _ => true
  | .regrp _ _ => true
  | .trap _ => true
  | .rte => true
  | .tsave _ => true
  | .trest _ => true
  | .swpt _ => true
  | .rgrow _ _ => true
  | .rgroww _ _ => true
  | .space _ _ => true
  | .scast _ _ => true
  | .scastl _ _ => true
  | .cctlf => true
  | .cctli _ _ => true
  | .cctlw => true
  | .yieldIssue => true
  | .sleep _ => true
  | .tailWrite _ _ => false
  | .interruptStatus _ => false
  | .registerWrite _ _ => false
  | .nodeValidate _ => false
  | .nodeFail _ => false
  | .nodeReady _ => false
  | .ensemblePlacement _ _ _ _ => false
  | .placementHold _ => false
  | .teamRetire _ => false
  | .tryGrant _ => false
  | .growDeadlockSpill _ => false
  | .variantSwitch _ _ _ => false
  | .preemption _ _ => false
  | .contextSave _ => false
  | .ensembleRestore _ _ _ => false
  | .faultQueueSpace _ => false
  | .faultDelivery _ _ _ => false
  | .uncorrectableError _ => false
  | .correctedError _ => false
  | .securityAlarm => false
  | .reset => false
  | .governorSample => false
  | .creditRefill _ _ => false
  | .budgetPeriodStart _ => false
  | .scanoutLine _ _ _ _ _ _ => false
  | .engineSlotRelease _ _ => false
  | .pathSwitchCount _ _ => false
  | .groupAging _ _ => false
  | .yieldHoldExpire _ _ => false
  | .sleepExpire _ _ _ => false
  | .sleepWake _ _ _ => false
  | .tableWalkComplete _ _ _ => false
  | .footprintWaitEnd _ _ _ => false
  | .watermarkWaitEnd _ _ _ => false
  | .engineQueueSpace _ _ _ => false
  | .edgeSlotFree _ _ _ => false
  | .edgeTokenArrive _ _ _ => false
  | .ringSpace _ _ _ => false
  | .ringEntryArrive _ _ _ => false
  | .batchWaitEnd _ _ _ => false
  | .copyChunk _ => false
  | .dcmpChunk _ => false
  | .matrixOpStart _ => false
  | .matrixRowFinal _ => false
  | .transformOpComplete _ => false
  | .binningJob _ => false
  | .activate _ => false
  | .deactivate _ => false
  | .deactivateDone _ => false
  | .preEmpt _ => false
  | .kill _ => false
  | .mapExecutable _ => false
  | .unmapExecutable _ => false
  | .tlbInvalidate _ => false
  | .faultResumeReplay _ => false
  | .faultResumeDeliver _ => false
  | .faultResumeKill _ => false
  | .memoSlotCreate _ => false
  | .memoSlotFree _ => false
  | .memoSlotFreeDone _ => false
  | .keyWrite _ => false
  | .powerLevel _ => false
  | .slotRelease _ => false
  | .budgetExhausted _ => false
  | .storesReachSystemCache _ _ => false
  | .memoInstancesActed _ _ _ => false
  | .hostCoreWrite _ _ => false

/-- The verifier accepts the instruction's own fields. A prefixed pair is judged by `pairFault` as well. -/
def Instr.wellFormed (i : Instr) : Bool := i.isWord && i.subCodesOk && i.operandFault.isNone

end Sys2Proof
end

