-- ==== Sys2Proof/Decode.lean ====
section
/-!
DEFINITION. Sys2Proof/Decode.lean: the formats of Tables 6.2 to 6.4, the decoder of one instruction (R100 to R114),
the encoder written from the same tables, and the verifier's rules for a prefixed pair and a verification unit
(R105 to R111, R115, R119).
-/
namespace Sys2Proof

/-- Lane-space format LR (Table 6.2). -/
structure LR where
  vd : BitVec 7
  va : BitVec 7
  vb : BitVec 7
  fn : BitVec 2
  ha : Bool
  hb : Bool
deriving DecidableEq, Repr

/-- Lane-space format LI (Table 6.2). -/
structure LI where
  vd : BitVec 7
  va : BitVec 7
  imm : BitVec 10
  ha : Bool
deriving DecidableEq, Repr

/-- Lane-space format LM (Table 6.2). -/
structure LM where
  vt : BitVec 7
  va : BitVec 7
  wb : BitVec 6
  aux : BitVec 5
deriving DecidableEq, Repr

/-- Group-space format GR (Table 6.3). -/
structure GR where
  wd : BitVec 6
  wa : BitVec 6
  wb : BitVec 6
  fn : BitVec 3
  aux : BitVec 4
deriving DecidableEq, Repr

/-- Group-space format GI, and the base word of GL (Table 6.3). -/
structure GI where
  wd : BitVec 6
  wa : BitVec 6
  imm : BitVec 13
deriving DecidableEq, Repr

/-- Group-space format GB (Table 6.3). -/
structure GB where
  pn : BitVec 3
  disp : BitVec 22
deriving DecidableEq, Repr

/-- Group-space format GX (Table 6.3). -/
structure GX where
  v : BitVec 7
  w : BitVec 6
  pn : BitVec 3
  fn : BitVec 5
  aux : BitVec 4
deriving DecidableEq, Repr

/-- Group-space format GE (Table 6.3). -/
structure GE where
  an : BitVec 4
  wa : BitVec 6
  wb : BitVec 6
  fn : BitVec 5
  aux : BitVec 4
deriving DecidableEq, Repr

/-- Group-space format GA (Table 6.3). -/
structure GA where
  an : BitVec 4
  v : BitVec 7
  wa : BitVec 6
  fn : BitVec 4
  aux : BitVec 4
deriving DecidableEq, Repr

/-- The fields of a PFX word (Table 6.4). -/
structure PFXF where
  pm : BitVec 3
  pinv : Bool
  zm : Bool
  rnd : BitVec 3
  scope : BitVec 3
  vc : BitVec 7
  low : BitVec 7
deriving DecidableEq, Repr

/-- A lane-space word: bit 31 clear, the major, 25 bits of fields (R100). -/
def laneWord (major : Nat) (fields : BitVec 25) : BitVec 32 := 0#1 ++ BitVec.ofNat 6 major ++ fields

/-- A group-space word: bit 31 set, the major, 25 bits of fields (R100). -/
def groupWord (major : Nat) (fields : BitVec 25) : BitVec 32 := 1#1 ++ BitVec.ofNat 6 major ++ fields

def LR.toWord (major : Nat) (f : LR) : BitVec 32 :=
  laneWord major (f.vd ++ f.va ++ f.vb ++ f.fn ++ BitVec.ofBool f.ha ++ BitVec.ofBool f.hb)
def LR.ofWord (w : BitVec 32) : LR :=
  ⟨w.extractLsb' 18 7, w.extractLsb' 11 7, w.extractLsb' 4 7, w.extractLsb' 2 2, w.getLsbD 1, w.getLsbD 0⟩

def LI.toWord (major : Nat) (f : LI) : BitVec 32 :=
  laneWord major (f.vd ++ f.va ++ f.imm ++ BitVec.ofBool f.ha)
def LI.ofWord (w : BitVec 32) : LI :=
  ⟨w.extractLsb' 18 7, w.extractLsb' 11 7, w.extractLsb' 1 10, w.getLsbD 0⟩

def LM.toWord (major : Nat) (f : LM) : BitVec 32 := laneWord major (f.vt ++ f.va ++ f.wb ++ f.aux)
def LM.ofWord (w : BitVec 32) : LM :=
  ⟨w.extractLsb' 18 7, w.extractLsb' 11 7, w.extractLsb' 5 6, w.extractLsb' 0 5⟩

def GR.toWord (major : Nat) (f : GR) : BitVec 32 := groupWord major (f.wd ++ f.wa ++ f.wb ++ f.fn ++ f.aux)
def GR.ofWord (w : BitVec 32) : GR :=
  ⟨w.extractLsb' 19 6, w.extractLsb' 13 6, w.extractLsb' 7 6, w.extractLsb' 4 3, w.extractLsb' 0 4⟩

def GI.toWord (major : Nat) (f : GI) : BitVec 32 := groupWord major (f.wd ++ f.wa ++ f.imm)
def GI.ofWord (w : BitVec 32) : GI := ⟨w.extractLsb' 19 6, w.extractLsb' 13 6, w.extractLsb' 0 13⟩

def GB.toWord (major : Nat) (f : GB) : BitVec 32 := groupWord major (f.pn ++ f.disp)
def GB.ofWord (w : BitVec 32) : GB := ⟨w.extractLsb' 22 3, w.extractLsb' 0 22⟩

def GX.toWord (major : Nat) (f : GX) : BitVec 32 := groupWord major (f.v ++ f.w ++ f.pn ++ f.fn ++ f.aux)
def GX.ofWord (w : BitVec 32) : GX :=
  ⟨w.extractLsb' 18 7, w.extractLsb' 12 6, w.extractLsb' 9 3, w.extractLsb' 4 5, w.extractLsb' 0 4⟩

def GE.toWord (major : Nat) (f : GE) : BitVec 32 := groupWord major (f.an ++ f.wa ++ f.wb ++ f.fn ++ f.aux)
def GE.ofWord (w : BitVec 32) : GE :=
  ⟨w.extractLsb' 21 4, w.extractLsb' 15 6, w.extractLsb' 9 6, w.extractLsb' 4 5, w.extractLsb' 0 4⟩

def GA.toWord (major : Nat) (f : GA) : BitVec 32 := groupWord major (f.an ++ f.v ++ f.wa ++ f.fn ++ f.aux)
def GA.ofWord (w : BitVec 32) : GA :=
  ⟨w.extractLsb' 21 4, w.extractLsb' 14 7, w.extractLsb' 8 6, w.extractLsb' 4 4, w.extractLsb' 0 4⟩

def PFXF.toWord (f : PFXF) : BitVec 32 :=
  groupWord 0x3F (f.pm ++ BitVec.ofBool f.pinv ++ BitVec.ofBool f.zm ++ f.rnd ++ f.scope ++ f.vc ++ f.low)
def PFXF.ofWord (w : BitVec 32) : PFXF :=
  ⟨w.extractLsb' 22 3, w.getLsbD 21, w.getLsbD 20, w.extractLsb' 17 3, w.extractLsb' 14 3, w.extractLsb' 7 7,
   w.extractLsb' 0 7⟩

/-- The checks of one member, lowest reason first (R119): its sub-codes, the fields that must be zero, its operands,
and the hold bits of fields that are no source. -/
def accept (zeros : List Nat) (holds : List Bool) (i : Instr) : Except Reason Instr :=
  if i.subCodesOk = false then .error .reservedFn
  else if zeros.any (· != 0) then .error .mustBeZero
  else match i.operandFault with
    | some r => .error r
    | none => if holds.any id then .error .holdBit else .ok i


/-- Lane-space major 0x00: IADD, ISUB, IMIN, IMAX. -/
def decodeLane00 (f : LR) : Except Reason Instr :=
  match f.fn.toNat with
  | 0 => accept [] [] (.iadd f.vd f.va f.vb f.ha f.hb)
  | 1 => accept [] [] (.isub f.vd f.va f.vb f.ha f.hb)
  | 2 => accept [] [] (.imin f.vd f.va f.vb f.ha f.hb)
  | 3 => accept [] [] (.imax f.vd f.va f.vb f.ha f.hb)
  | _ => .error .reservedFn

/-- Lane-space major 0x01: IMINU, IMAXU, IABSD. -/
def decodeLane01 (f : LR) : Except Reason Instr :=
  match f.fn.toNat with
  | 0 => accept [] [] (.iminu f.vd f.va f.vb f.ha f.hb)
  | 1 => accept [] [] (.imaxu f.vd f.va f.vb f.ha f.hb)
  | 2 => accept [] [] (.iabsd f.vd f.va f.vb f.ha f.hb)
  | _ => .error .reservedFn

/-- Lane-space major 0x02: IMUL, IMULHS, IMULHU, IMAD. -/
def decodeLane02 (f : LR) : Except Reason Instr :=
  match f.fn.toNat with
  | 0 => accept [] [] (.imul f.vd f.va f.vb f.ha f.hb)
  | 1 => accept [] [] (.imulhs f.vd f.va f.vb f.ha f.hb)
  | 2 => accept [] [] (.imulhu f.vd f.va f.vb f.ha f.hb)
  | 3 => accept [] [] (.imad f.vd f.va f.vb f.ha f.hb)
  | _ => .error .reservedFn

/-- Lane-space major 0x03: AND, OR, XOR, ANDN. -/
def decodeLane03 (f : LR) : Except Reason Instr :=
  match f.fn.toNat with
  | 0 => accept [] [] (.and f.vd f.va f.vb f.ha f.hb)
  | 1 => accept [] [] (.or f.vd f.va f.vb f.ha f.hb)
  | 2 => accept [] [] (.xor f.vd f.va f.vb f.ha f.hb)
  | 3 => accept [] [] (.andn f.vd f.va f.vb f.ha f.hb)
  | _ => .error .reservedFn

/-- Lane-space major 0x04: SHL, SHR, SAR, ROTL. -/
def decodeLane04 (f : LR) : Except Reason Instr :=
  match f.fn.toNat with
  | 0 => accept [] [] (.shl f.vd f.va f.vb f.ha f.hb)
  | 1 => accept [] [] (.shr f.vd f.va f.vb f.ha f.hb)
  | 2 => accept [] [] (.sar f.vd f.va f.vb f.ha f.hb)
  | 3 => accept [] [] (.rotl f.vd f.va f.vb f.ha f.hb)
  | _ => .error .reservedFn

/-- Lane-space major 0x05: POPC, CLZ, BREV, BFX. -/
def decodeLane05 (f : LR) : Except Reason Instr :=
  match f.fn.toNat with
  | 0 => accept [f.vb.toNat] [f.hb] (.popc f.vd f.va f.ha)
  | 1 => accept [f.vb.toNat] [f.hb] (.clz f.vd f.va f.ha)
  | 2 => accept [f.vb.toNat] [f.hb] (.brev f.vd f.va f.ha)
  | 3 => accept [] [] (.bfx f.vd f.va f.vb f.ha f.hb)
  | _ => .error .reservedFn

/-- Lane-space major 0x06: ICMP. -/
def decodeLane06 (f : LR) : Except Reason Instr :=
  accept [(f.vd.extractLsb' 3 4).toNat] [] (.icmp (f.vd.extractLsb' 0 3) f.va f.vb f.fn f.ha f.hb)

/-- Lane-space major 0x07: ICMP_UNSIGNED. -/
def decodeLane07 (f : LR) : Except Reason Instr :=
  accept [(f.vd.extractLsb' 3 4).toNat] [] (.icmpUnsigned (f.vd.extractLsb' 0 3) f.va f.vb f.fn f.ha f.hb)

/-- Lane-space major 0x08: SEL. -/
def decodeLane08 (f : LR) : Except Reason Instr :=
  accept [] [] (.sel f.vd f.va f.vb f.fn f.ha f.hb)

/-- Lane-space major 0x09: IADD64, ISUB64, IMUL64, MADW. -/
def decodeLane09 (f : LR) : Except Reason Instr :=
  match f.fn.toNat with
  | 0 => accept [] [] (.iadd64 f.vd f.va f.vb f.ha f.hb)
  | 1 => accept [] [] (.isub64 f.vd f.va f.vb f.ha f.hb)
  | 2 => accept [] [] (.imul64 f.vd f.va f.vb f.ha f.hb)
  | 3 => accept [] [] (.madw f.vd f.va f.vb f.ha f.hb)
  | _ => .error .reservedFn

/-- Lane-space major 0x0A: IADDI. -/
def decodeLane0A (f : LI) : Except Reason Instr :=
  accept [] [] (.iaddi f.vd f.va f.imm f.ha)

/-- Lane-space major 0x0B: ANDI. -/
def decodeLane0B (f : LI) : Except Reason Instr :=
  accept [] [] (.andi f.vd f.va f.imm f.ha)

/-- Lane-space major 0x0C: ORI. -/
def decodeLane0C (f : LI) : Except Reason Instr :=
  accept [] [] (.ori f.vd f.va f.imm f.ha)

/-- Lane-space major 0x0D: XORI. -/
def decodeLane0D (f : LI) : Except Reason Instr :=
  accept [] [] (.xori f.vd f.va f.imm f.ha)

/-- Lane-space major 0x0E: SHLI. -/
def decodeLane0E (f : LI) : Except Reason Instr :=
  accept [] [] (.shli f.vd f.va f.imm f.ha)

/-- Lane-space major 0x0F: SHRI. -/
def decodeLane0F (f : LI) : Except Reason Instr :=
  accept [] [] (.shri f.vd f.va f.imm f.ha)

/-- Lane-space major 0x10: SARI. -/
def decodeLane10 (f : LI) : Except Reason Instr :=
  accept [] [] (.sari f.vd f.va f.imm f.ha)

/-- Lane-space major 0x11: MOVI. -/
def decodeLane11 (f : LI) : Except Reason Instr :=
  accept [f.va.toNat] [f.ha] (.movi f.vd f.imm)

/-- Lane-space major 0x12: FADD, FSUB, FMUL, FFMA. -/
def decodeLane12 (f : LR) : Except Reason Instr :=
  match f.fn.toNat with
  | 0 => accept [] [] (.fadd f.vd f.va f.vb f.ha f.hb)
  | 1 => accept [] [] (.fsub f.vd f.va f.vb f.ha f.hb)
  | 2 => accept [] [] (.fmul f.vd f.va f.vb f.ha f.hb)
  | 3 => accept [] [] (.ffma f.vd f.va f.vb f.ha f.hb)
  | _ => .error .reservedFn

/-- Lane-space major 0x13: FMIN, FMAX, FABS, FNEG. -/
def decodeLane13 (f : LR) : Except Reason Instr :=
  match f.fn.toNat with
  | 0 => accept [] [] (.fmin f.vd f.va f.vb f.ha f.hb)
  | 1 => accept [] [] (.fmax f.vd f.va f.vb f.ha f.hb)
  | 2 => accept [f.vb.toNat] [f.hb] (.fabs f.vd f.va f.ha)
  | 3 => accept [f.vb.toNat] [f.hb] (.fneg f.vd f.va f.ha)
  | _ => .error .reservedFn

/-- Lane-space major 0x14: FCMP. -/
def decodeLane14 (f : LR) : Except Reason Instr :=
  accept [(f.vd.extractLsb' 3 4).toNat] [] (.fcmp (f.vd.extractLsb' 0 3) f.va f.vb f.fn f.ha f.hb)

/-- Lane-space major 0x15: HADDP, HMULP, HFMAP, HMAXP. -/
def decodeLane15 (f : LR) : Except Reason Instr :=
  match f.fn.toNat with
  | 0 => accept [] [] (.haddp f.vd f.va f.vb f.ha f.hb)
  | 1 => accept [] [] (.hmulp f.vd f.va f.vb f.ha f.hb)
  | 2 => accept [] [] (.hfmap f.vd f.va f.vb f.ha f.hb)
  | 3 => accept [] [] (.hmaxp f.vd f.va f.vb f.ha f.hb)
  | _ => .error .reservedFn

/-- Lane-space major 0x16: BADD2, BMUL2, BFMA2, BMAX2. -/
def decodeLane16 (f : LR) : Except Reason Instr :=
  match f.fn.toNat with
  | 0 => accept [] [] (.badd2 f.vd f.va f.vb f.ha f.hb)
  | 1 => accept [] [] (.bmul2 f.vd f.va f.vb f.ha f.hb)
  | 2 => accept [] [] (.bfma2 f.vd f.va f.vb f.ha f.hb)
  | 3 => accept [] [] (.bmax2 f.vd f.va f.vb f.ha f.hb)
  | _ => .error .reservedFn

/-- Lane-space major 0x17: RCP, RSQ, SQRT, EXP2. -/
def decodeLane17 (f : LR) : Except Reason Instr :=
  match f.fn.toNat with
  | 0 => accept [f.vb.toNat] [f.hb] (.rcp f.vd f.va f.ha)
  | 1 => accept [f.vb.toNat] [f.hb] (.rsq f.vd f.va f.ha)
  | 2 => accept [f.vb.toNat] [f.hb] (.sqrt f.vd f.va f.ha)
  | 3 => accept [f.vb.toNat] [f.hb] (.exp2 f.vd f.va f.ha)
  | _ => .error .reservedFn

/-- Lane-space major 0x18: LOG2, SIN, COS, TANH. -/
def decodeLane18 (f : LR) : Except Reason Instr :=
  match f.fn.toNat with
  | 0 => accept [f.vb.toNat] [f.hb] (.log2 f.vd f.va f.ha)
  | 1 => accept [f.vb.toNat] [f.hb] (.sin f.vd f.va f.ha)
  | 2 => accept [f.vb.toNat] [f.hb] (.cos f.vd f.va f.ha)
  | 3 => accept [f.vb.toNat] [f.hb] (.tanh f.vd f.va f.ha)
  | _ => .error .reservedFn

/-- Lane-space major 0x19: CVT. -/
def decodeLane19 (f : LR) : Except Reason Instr :=
  accept [] [f.hb] (.cvt f.vd f.va (f.vb.extractLsb' 4 3) (f.vb.extractLsb' 0 4) f.fn f.ha)

/-- Lane-space major 0x1A: QE4, QE5, QI8, QF4. -/
def decodeLane1A (f : LR) : Except Reason Instr :=
  match f.fn.toNat with
  | 0 => accept [] [] (.qe4 f.vd f.va f.vb f.ha f.hb)
  | 1 => accept [] [] (.qe5 f.vd f.va f.vb f.ha f.hb)
  | 2 => accept [] [] (.qi8 f.vd f.va f.vb f.ha f.hb)
  | 3 => accept [] [] (.qf4 f.vd f.va f.vb f.ha f.hb)
  | _ => .error .reservedFn

/-- Lane-space major 0x1B: DE4, DE5, DI8, DF4. -/
def decodeLane1B (f : LR) : Except Reason Instr :=
  match f.fn.toNat with
  | 0 => accept [] [] (.de4 f.vd f.va f.vb f.ha f.hb)
  | 1 => accept [] [] (.de5 f.vd f.va f.vb f.ha f.hb)
  | 2 => accept [] [] (.di8 f.vd f.va f.vb f.ha f.hb)
  | 3 => accept [] [] (.df4 f.vd f.va f.vb f.ha f.hb)
  | _ => .error .reservedFn

/-- Lane-space major 0x1C: SHFL, SHFLX, SHFLR, SHFLH. -/
def decodeLane1C (f : LR) : Except Reason Instr :=
  match f.fn.toNat with
  | 0 => accept [] [] (.shfl f.vd f.va f.vb f.ha f.hb)
  | 1 => accept [] [] (.shflx f.vd f.va f.vb f.ha f.hb)
  | 2 => accept [] [] (.shflr f.vd f.va f.vb f.ha f.hb)
  | 3 => accept [] [f.hb] (.shflh f.vd f.va f.vb f.ha)
  | _ => .error .reservedFn

/-- Lane-space major 0x1D: LSTEP. -/
def decodeLane1D (f : LR) : Except Reason Instr :=
  accept [] [f.hb] (.lstep f.vd f.va f.vb f.fn f.ha)

/-- Lane-space major 0x1E: MATCH, MRANK, MCNT, MLAST. -/
def decodeLane1E (f : LR) : Except Reason Instr :=
  match f.fn.toNat with
  | 0 => accept [f.vb.toNat] [f.hb] (.vmatch f.vd f.va f.ha)
  | 1 => accept [f.vb.toNat] [f.hb] (.mrank f.vd f.va f.ha)
  | 2 => accept [f.vb.toNat] [f.hb] (.mcnt f.vd f.va f.ha)
  | 3 => accept [f.vb.toNat] [f.hb] (.mlast f.vd f.va f.ha)
  | _ => .error .reservedFn

/-- Lane-space major 0x1F: LANEID, VMOV, MOVP, SETP. -/
def decodeLane1F (f : LR) : Except Reason Instr :=
  match f.fn.toNat with
  | 0 => accept [f.va.toNat, f.vb.toNat] [f.ha, f.hb] (.laneid f.vd)
  | 1 => accept [f.vb.toNat] [f.hb] (.vmov f.vd f.va f.ha)
  | 2 => accept [(f.va.extractLsb' 3 4).toNat, f.vb.toNat] [f.ha, f.hb] (.movp f.vd (f.va.extractLsb' 0 3))
  | 3 => accept [(f.vd.extractLsb' 3 4).toNat, f.vb.toNat] [f.hb] (.setp (f.vd.extractLsb' 0 3) f.va f.ha)
  | _ => .error .reservedFn

/-- Lane-space major 0x20: LDB. -/
def decodeLane20 (f : LM) : Except Reason Instr :=
  accept [] [] (.ldb f.vt f.va f.wb f.aux)

/-- Lane-space major 0x21: LDH. -/
def decodeLane21 (f : LM) : Except Reason Instr :=
  accept [] [] (.ldh f.vt f.va f.wb f.aux)

/-- Lane-space major 0x22: LDW. -/
def decodeLane22 (f : LM) : Except Reason Instr :=
  accept [] [] (.ldw f.vt f.va f.wb f.aux)

/-- Lane-space major 0x23: LDD. -/
def decodeLane23 (f : LM) : Except Reason Instr :=
  accept [] [] (.ldd f.vt f.va f.wb f.aux)

/-- Lane-space major 0x24: LDQ. -/
def decodeLane24 (f : LM) : Except Reason Instr :=
  accept [] [] (.ldq f.vt f.va f.wb f.aux)

/-- Lane-space major 0x25: STB. -/
def decodeLane25 (f : LM) : Except Reason Instr :=
  accept [] [] (.stb f.vt f.va f.wb f.aux)

/-- Lane-space major 0x26: STH. -/
def decodeLane26 (f : LM) : Except Reason Instr :=
  accept [] [] (.sth f.vt f.va f.wb f.aux)

/-- Lane-space major 0x27: STW. -/
def decodeLane27 (f : LM) : Except Reason Instr :=
  accept [] [] (.stw f.vt f.va f.wb f.aux)

/-- Lane-space major 0x28: STD. -/
def decodeLane28 (f : LM) : Except Reason Instr :=
  accept [] [] (.std f.vt f.va f.wb f.aux)

/-- Lane-space major 0x29: STQ. -/
def decodeLane29 (f : LM) : Except Reason Instr :=
  accept [] [] (.stq f.vt f.va f.wb f.aux)

/-- Lane-space major 0x2A: ATOM. -/
def decodeLane2A (f : LM) : Except Reason Instr :=
  accept [] [] (.atom f.vt f.va f.wb f.aux)

/-- Lane-space major 0x2B: ATOMD. -/
def decodeLane2B (f : LM) : Except Reason Instr :=
  accept [] [] (.atomd f.vt f.va f.wb f.aux)

/-- Lane-space major 0x2C: LDL. -/
def decodeLane2C (f : LM) : Except Reason Instr :=
  accept [] [] (.ldl f.vt f.va f.wb f.aux)

/-- Lane-space major 0x2D: STL. -/
def decodeLane2D (f : LM) : Except Reason Instr :=
  accept [] [] (.stl f.vt f.va f.wb f.aux)

/-- Lane-space major 0x2E: ATOML. -/
def decodeLane2E (f : LM) : Except Reason Instr :=
  accept [] [] (.atoml f.vt f.va f.wb f.aux)

/-- Lane-space major 0x30: TEX. -/
def decodeLane30 (f : LM) : Except Reason Instr :=
  accept [] [] (.tex f.vt f.va f.wb f.aux)

/-- Lane-space major 0x31: TEXL. -/
def decodeLane31 (f : LM) : Except Reason Instr :=
  accept [] [] (.texl f.vt f.va f.wb f.aux)

/-- Lane-space major 0x32: TEXG. -/
def decodeLane32 (f : LM) : Except Reason Instr :=
  accept [] [] (.texg f.vt f.va f.wb f.aux)

/-- Lane-space major 0x33: RAYQ. -/
def decodeLane33 (f : LM) : Except Reason Instr :=
  accept [] [] (.rayq f.vt f.va f.wb f.aux)

/-- Lane-space major 0x34: PRF. -/
def decodeLane34 (f : LM) : Except Reason Instr :=
  accept [f.vt.toNat, (f.aux.extractLsb' 2 3).toNat] [] (.prf f.va f.wb (f.aux.extractLsb' 0 2))

/-- The lane-space opcode map (Table 6.6): the major chooses the format and the members. -/
def decodeLane (w : BitVec 32) : Except Reason Instr :=
  match (w.extractLsb' 25 6).toNat with
  | 0x00 => decodeLane00 (LR.ofWord w)
  | 0x01 => decodeLane01 (LR.ofWord w)
  | 0x02 => decodeLane02 (LR.ofWord w)
  | 0x03 => decodeLane03 (LR.ofWord w)
  | 0x04 => decodeLane04 (LR.ofWord w)
  | 0x05 => decodeLane05 (LR.ofWord w)
  | 0x06 => decodeLane06 (LR.ofWord w)
  | 0x07 => decodeLane07 (LR.ofWord w)
  | 0x08 => decodeLane08 (LR.ofWord w)
  | 0x09 => decodeLane09 (LR.ofWord w)
  | 0x0A => decodeLane0A (LI.ofWord w)
  | 0x0B => decodeLane0B (LI.ofWord w)
  | 0x0C => decodeLane0C (LI.ofWord w)
  | 0x0D => decodeLane0D (LI.ofWord w)
  | 0x0E => decodeLane0E (LI.ofWord w)
  | 0x0F => decodeLane0F (LI.ofWord w)
  | 0x10 => decodeLane10 (LI.ofWord w)
  | 0x11 => decodeLane11 (LI.ofWord w)
  | 0x12 => decodeLane12 (LR.ofWord w)
  | 0x13 => decodeLane13 (LR.ofWord w)
  | 0x14 => decodeLane14 (LR.ofWord w)
  | 0x15 => decodeLane15 (LR.ofWord w)
  | 0x16 => decodeLane16 (LR.ofWord w)
  | 0x17 => decodeLane17 (LR.ofWord w)
  | 0x18 => decodeLane18 (LR.ofWord w)
  | 0x19 => decodeLane19 (LR.ofWord w)
  | 0x1A => decodeLane1A (LR.ofWord w)
  | 0x1B => decodeLane1B (LR.ofWord w)
  | 0x1C => decodeLane1C (LR.ofWord w)
  | 0x1D => decodeLane1D (LR.ofWord w)
  | 0x1E => decodeLane1E (LR.ofWord w)
  | 0x1F => decodeLane1F (LR.ofWord w)
  | 0x20 => decodeLane20 (LM.ofWord w)
  | 0x21 => decodeLane21 (LM.ofWord w)
  | 0x22 => decodeLane22 (LM.ofWord w)
  | 0x23 => decodeLane23 (LM.ofWord w)
  | 0x24 => decodeLane24 (LM.ofWord w)
  | 0x25 => decodeLane25 (LM.ofWord w)
  | 0x26 => decodeLane26 (LM.ofWord w)
  | 0x27 => decodeLane27 (LM.ofWord w)
  | 0x28 => decodeLane28 (LM.ofWord w)
  | 0x29 => decodeLane29 (LM.ofWord w)
  | 0x2A => decodeLane2A (LM.ofWord w)
  | 0x2B => decodeLane2B (LM.ofWord w)
  | 0x2C => decodeLane2C (LM.ofWord w)
  | 0x2D => decodeLane2D (LM.ofWord w)
  | 0x2E => decodeLane2E (LM.ofWord w)
  | 0x30 => decodeLane30 (LM.ofWord w)
  | 0x31 => decodeLane31 (LM.ofWord w)
  | 0x32 => decodeLane32 (LM.ofWord w)
  | 0x33 => decodeLane33 (LM.ofWord w)
  | 0x34 => decodeLane34 (LM.ofWord w)
  | _ => .error .reservedMajor

/-- Group-space major 0x00: UADD, USUB, UMUL, UMULH, UAND, UOR, UXOR, UANDN. -/
def decodeGroup00 (f : GR) : Except Reason Instr :=
  match f.fn.toNat with
  | 0 => accept [f.aux.toNat] [] (.uadd f.wd f.wa f.wb)
  | 1 => accept [f.aux.toNat] [] (.usub f.wd f.wa f.wb)
  | 2 => accept [f.aux.toNat] [] (.umul f.wd f.wa f.wb)
  | 3 => accept [f.aux.toNat] [] (.umulh f.wd f.wa f.wb)
  | 4 => accept [f.aux.toNat] [] (.uand f.wd f.wa f.wb)
  | 5 => accept [f.aux.toNat] [] (.uor f.wd f.wa f.wb)
  | 6 => accept [f.aux.toNat] [] (.uxor f.wd f.wa f.wb)
  | 7 => accept [f.aux.toNat] [] (.uandn f.wd f.wa f.wb)
  | _ => .error .reservedFn

/-- Group-space major 0x01: USHL, USHR, USAR, UMIN, UMAX, UMINU, UMAXU, UPOPC. -/
def decodeGroup01 (f : GR) : Except Reason Instr :=
  match f.fn.toNat with
  | 0 => accept [f.aux.toNat] [] (.ushl f.wd f.wa f.wb)
  | 1 => accept [f.aux.toNat] [] (.ushr f.wd f.wa f.wb)
  | 2 => accept [f.aux.toNat] [] (.usar f.wd f.wa f.wb)
  | 3 => accept [f.aux.toNat] [] (.umin f.wd f.wa f.wb)
  | 4 => accept [f.aux.toNat] [] (.umax f.wd f.wa f.wb)
  | 5 => accept [f.aux.toNat] [] (.uminu f.wd f.wa f.wb)
  | 6 => accept [f.aux.toNat] [] (.umaxu f.wd f.wa f.wb)
  | 7 => accept [f.wb.toNat, f.aux.toNat] [] (.upopc f.wd f.wa)
  | _ => .error .reservedFn

/-- Group-space major 0x02: UADDI. -/
def decodeGroup02 (f : GI) : Except Reason Instr :=
  accept [] [] (.uaddi f.wd f.wa f.imm)

/-- Group-space major 0x03: UMOVI. -/
def decodeGroup03 (f : GI) : Except Reason Instr :=
  accept [f.wa.toNat] [] (.umovi f.wd f.imm)

/-- Group-space major 0x04: ULI. -/
def decodeGroup04 (f : GI) (lit : BitVec 32) : Except Reason Instr :=
  accept [f.wa.toNat, f.imm.toNat] [] (.uli f.wd lit)

/-- Group-space major 0x05: ULIH. -/
def decodeGroup05 (f : GI) (lit : BitVec 32) : Except Reason Instr :=
  accept [f.wa.toNat, f.imm.toNat] [] (.ulih f.wd lit)

/-- Group-space major 0x06: UCMP. -/
def decodeGroup06 (f : GR) : Except Reason Instr :=
  accept [f.aux.toNat] [] (.ucmp f.wd f.wa f.wb f.fn)

/-- Group-space major 0x07: UFADD, UFMUL, UFFMA, UFMIN, UFMAX, UFCVT. -/
def decodeGroup07 (f : GR) : Except Reason Instr :=
  match f.fn.toNat with
  | 0 => accept [] [] (.ufadd f.wd f.wa f.wb f.aux)
  | 1 => accept [] [] (.ufmul f.wd f.wa f.wb f.aux)
  | 2 => accept [] [] (.uffma f.wd f.wa f.wb f.aux)
  | 3 => accept [f.aux.toNat] [] (.ufmin f.wd f.wa f.wb)
  | 4 => accept [f.aux.toNat] [] (.ufmax f.wd f.wa f.wb)
  | 5 => accept [] [] (.ufcvt f.wd f.wa (f.wb.extractLsb' 3 3) (f.wb.extractLsb' 0 3) f.aux)
  | _ => .error .reservedFn

/-- Group-space major 0x08: SRD. -/
def decodeGroup08 (f : GI) : Except Reason Instr :=
  accept [f.wa.toNat] [] (.srd f.wd f.imm)

/-- Group-space major 0x09: SWR. -/
def decodeGroup09 (f : GI) : Except Reason Instr :=
  accept [f.wd.toNat] [] (.swr f.wa f.imm)

/-- Group-space major 0x0A: BCAST, RDFIRST, BALLOT, VANY, VALL, VCNT, ACTM. -/
def decodeGroup0A (f : GX) : Except Reason Instr :=
  match f.fn.toNat with
  | 0 => accept [f.pn.toNat, f.aux.toNat] [] (.bcast f.v f.w)
  | 1 => accept [f.pn.toNat, f.aux.toNat] [] (.rdfirst f.v f.w)
  | 2 => accept [f.v.toNat] [] (.ballot f.w f.pn f.aux)
  | 3 => accept [f.v.toNat, f.aux.toNat] [] (.vany f.w f.pn)
  | 4 => accept [f.v.toNat, f.aux.toNat] [] (.vall f.w f.pn)
  | 5 => accept [f.v.toNat, f.aux.toNat] [] (.vcnt f.w f.pn)
  | 6 => accept [f.v.toNat, f.pn.toNat] [] (.actm f.w f.aux)
  | _ => .error .reservedFn

/-- Group-space major 0x0B: ULDW. -/
def decodeGroup0B (f : GI) : Except Reason Instr :=
  accept [] [] (.uldw f.wd f.wa f.imm)

/-- Group-space major 0x0C: ULDD. -/
def decodeGroup0C (f : GI) : Except Reason Instr :=
  accept [] [] (.uldd f.wd f.wa f.imm)

/-- Group-space major 0x0D: USTW. -/
def decodeGroup0D (f : GI) : Except Reason Instr :=
  accept [] [] (.ustw f.wd f.wa f.imm)

/-- Group-space major 0x0E: USTD. -/
def decodeGroup0E (f : GI) : Except Reason Instr :=
  accept [] [] (.ustd f.wd f.wa f.imm)

/-- Group-space major 0x10: BRA. -/
def decodeGroup10 (f : GB) : Except Reason Instr :=
  accept [f.pn.toNat] [] (.bra f.disp)

/-- Group-space major 0x11: BRD. -/
def decodeGroup11 (f : GB) : Except Reason Instr :=
  accept [] [] (.brd f.pn f.disp)

/-- Group-space major 0x12: BRANY. -/
def decodeGroup12 (f : GB) : Except Reason Instr :=
  accept [] [] (.brany f.pn f.disp)

/-- Group-space major 0x13: BRALL. -/
def decodeGroup13 (f : GB) : Except Reason Instr :=
  accept [] [] (.brall f.pn f.disp)

/-- Group-space major 0x14: BZ. -/
def decodeGroup14 (f : GI) : Except Reason Instr :=
  accept [f.wd.toNat] [] (.bz f.wa f.imm)

/-- Group-space major 0x15: BNZ. -/
def decodeGroup15 (f : GI) : Except Reason Instr :=
  accept [f.wd.toNat] [] (.bnz f.wa f.imm)

/-- Group-space major 0x16: CALL. -/
def decodeGroup16 (f : GB) : Except Reason Instr :=
  accept [f.pn.toNat] [] (.call f.disp)

/-- Group-space major 0x17: RET. -/
def decodeGroup17 (f : GR) : Except Reason Instr :=
  accept [f.wd.toNat, f.wb.toNat, f.fn.toNat, f.aux.toNat] [] (.ret f.wa)

/-- Group-space major 0x18: JSET. -/
def decodeGroup18 (f : GB) : Except Reason Instr :=
  accept [f.pn.toNat] [] (.jset f.disp)

/-- Group-space major 0x19: JOIN. -/
def decodeGroup19 (f : GR) : Except Reason Instr :=
  accept [f.wd.toNat, f.wa.toNat, f.wb.toNat, f.fn.toNat, f.aux.toNat] [] (.join)

/-- Group-space major 0x1A: EXIT. -/
def decodeGroup1A (f : GR) : Except Reason Instr :=
  accept [f.wd.toNat, f.wa.toNat, f.wb.toNat, f.fn.toNat, f.aux.toNat] [] (.exit)

/-- Group-space major 0x1B: NOP. -/
def decodeGroup1B (f : GR) : Except Reason Instr :=
  accept [f.wd.toNat, f.wa.toNat, f.wb.toNat, f.fn.toNat, f.aux.toNat] [] (.nop)

/-- Group-space major 0x1C: BAR, BARA, BARW, BARR, BARS. -/
def decodeGroup1C (f : GR) : Except Reason Instr :=
  match f.fn.toNat with
  | 0 => accept [f.wd.toNat, f.wa.toNat, f.wb.toNat] [] (.bar f.aux)
  | 1 => accept [f.wd.toNat, f.wa.toNat, f.wb.toNat] [] (.bara f.aux)
  | 2 => accept [f.wd.toNat, f.wa.toNat, f.wb.toNat] [] (.barw f.aux)
  | 3 => accept [] [] (.barr f.wd f.wa f.wb f.aux)
  | 4 => accept [] [] (.bars f.wd f.wa f.wb f.aux)
  | _ => .error .reservedFn

/-- Group-space major 0x1D: FENCE. -/
def decodeGroup1D (f : GR) : Except Reason Instr :=
  accept [f.wd.toNat, f.wa.toNat, f.wb.toNat] [] (.fence f.fn f.aux)

/-- Group-space major 0x1E: BATCH, WAITB, TESTB. -/
def decodeGroup1E (f : GR) : Except Reason Instr :=
  match f.fn.toNat with
  | 0 => accept [f.wa.toNat, f.wb.toNat, f.aux.toNat] [] (.batch f.wd)
  | 1 => accept [f.wd.toNat, f.wb.toNat, f.aux.toNat] [] (.waitb f.wa)
  | 2 => accept [f.wb.toNat, f.aux.toNat] [] (.testb f.wd f.wa)
  | _ => .error .reservedFn

/-- Group-space major 0x1F: MSEND, MPOLL, MWAIT, MPOP, MRING. -/
def decodeGroup1F (f : GR) : Except Reason Instr :=
  match f.fn.toNat with
  | 0 => accept [(f.aux.extractLsb' 2 2).toNat] [] (.msend f.wd f.wa f.wb (f.aux.extractLsb' 0 2))
  | 1 => accept [f.wb.toNat, (f.aux.extractLsb' 2 2).toNat] [] (.mpoll f.wd f.wa (f.aux.extractLsb' 0 2))
  | 2 => accept [f.wa.toNat, f.wb.toNat, (f.aux.extractLsb' 2 2).toNat] [] (.mwait f.wd (f.aux.extractLsb' 0 2))
  | 3 => accept [f.wa.toNat, f.wb.toNat, (f.aux.extractLsb' 2 2).toNat] [] (.mpop f.wd (f.aux.extractLsb' 0 2))
  | 4 => accept [f.wd.toNat, (f.aux.extractLsb' 2 2).toNat] [] (.mring f.wa f.wb (f.aux.extractLsb' 0 2))
  | _ => .error .reservedFn

/-- Group-space major 0x20: CPY, DCMP, CPYQ. -/
def decodeGroup20 (f : GR) : Except Reason Instr :=
  match f.fn.toNat with
  | 0 => accept [f.wd.toNat, f.wb.toNat, f.aux.toNat] [] (.cpy f.wa)
  | 1 => accept [f.wd.toNat, f.wb.toNat, f.aux.toNat] [] (.dcmp f.wa)
  | 2 => accept [f.wd.toNat, f.aux.toNat] [] (.cpyq f.wa f.wb)
  | _ => .error .reservedFn

/-- Group-space major 0x21: MMA, MMAZ, MMAS, MMASZ. -/
def decodeGroup21 (f : GE) : Except Reason Instr :=
  match f.fn.toNat with
  | 0 => accept [f.aux.toNat] [] (.mma f.an f.wa f.wb)
  | 1 => accept [f.aux.toNat] [] (.mmaz f.an f.wa f.wb)
  | 2 => accept [f.aux.toNat] [] (.mmas f.an f.wa f.wb)
  | 3 => accept [f.aux.toNat] [] (.mmasz f.an f.wa f.wb)
  | _ => .error .reservedFn

/-- Group-space major 0x22: ACCRD, ACCWR, ACCZ, ACCST, WMARK. -/
def decodeGroup22 (f : GA) : Except Reason Instr :=
  match f.fn.toNat with
  | 0 => accept [f.aux.toNat] [] (.accrd f.an f.v f.wa)
  | 1 => accept [f.aux.toNat] [] (.accwr f.an f.v f.wa)
  | 2 => accept [f.v.toNat, f.wa.toNat, f.aux.toNat] [] (.accz f.an)
  | 3 => accept [f.v.toNat, f.aux.toNat] [] (.accst f.an f.wa)
  | 4 => accept [f.v.toNat, f.aux.toNat] [] (.wmark f.an f.wa)
  | _ => .error .reservedFn

/-- Group-space major 0x23: XFT, IXFT, IXFT_SCRATCHPAD, XACT, XACT_BIAS, DTAG, DTAG_TILE, DSET. -/
def decodeGroup23 (f : GE) : Except Reason Instr :=
  match f.fn.toNat with
  | 0 => accept [f.an.toNat] [] (.xft f.wa f.wb f.aux)
  | 1 =>
    match f.aux.toNat with
    | 0 => accept [f.wa.toNat] [] (.ixft f.an f.wb)
    | 1 => accept [f.an.toNat] [] (.ixftScratchpad f.wa f.wb)
    | _ => .error .operandRange
  | 2 =>
    match f.aux.toNat with
    | 0 | 1 | 2 | 3 => accept [f.wa.toNat] [] (.xact f.an f.wb (f.aux.extractLsb' 0 2))
    | 4 | 5 | 6 | 7 => accept [] [] (.xactBias f.an f.wa f.wb (f.aux.extractLsb' 0 2))
    | _ => .error .operandRange
  | 3 =>
    match f.aux.toNat with
    | 0 => accept [f.an.toNat] [] (.dtag f.wa f.wb)
    | 1 => accept [f.wa.toNat] [] (.dtagTile f.an f.wb)
    | _ => .error .operandRange
  | 4 =>
    match f.aux.toNat with
    | 0 => accept [f.an.toNat] [] (.dset f.wa f.wb)
    | _ => .error (if f.an = 0 then .operandRange else .mustBeZero)
  | _ => .error .reservedFn

/-- Group-space major 0x24: EMSET, EMGEN. -/
def decodeGroup24 (f : GR) : Except Reason Instr :=
  match f.fn.toNat with
  | 0 => accept [f.wd.toNat, f.wb.toNat] [] (.emset f.wa f.aux)
  | 1 => accept [f.wd.toNat, f.wb.toNat, f.aux.toNat] [] (.emgen f.wa)
  | _ => .error .reservedFn

/-- Group-space major 0x25: EPOST, ETAKE, ETEST. -/
def decodeGroup25 (f : GR) : Except Reason Instr :=
  match f.fn.toNat with
  | 0 => accept [f.wd.toNat] [] (.epost f.wa f.wb f.aux)
  | 1 => accept [f.wb.toNat] [] (.etake f.wd f.wa f.aux)
  | 2 => accept [f.wa.toNat, f.wb.toNat] [] (.etest f.wd f.aux)
  | _ => .error .reservedFn

/-- Group-space major 0x28: MBEGIN. -/
def decodeGroup28 (f : GR) : Except Reason Instr :=
  accept [f.wd.toNat] [] (.mbegin f.wa f.wb f.fn f.aux)

/-- Group-space major 0x29: MKEY, MKEY_UNIFORM, MKEY_PREDICATE. -/
def decodeGroup29 (f : GX) : Except Reason Instr :=
  match f.fn.toNat with
  | 0 => accept [f.w.toNat, f.pn.toNat, f.aux.toNat] [] (.mkey f.v f.fn)
  | 1 => accept [f.w.toNat, f.pn.toNat, f.aux.toNat] [] (.mkey f.v f.fn)
  | 2 => accept [f.w.toNat, f.pn.toNat, f.aux.toNat] [] (.mkey f.v f.fn)
  | 3 => accept [f.w.toNat, f.pn.toNat, f.aux.toNat] [] (.mkey f.v f.fn)
  | 4 => accept [f.w.toNat, f.pn.toNat, f.aux.toNat] [] (.mkey f.v f.fn)
  | 5 => accept [f.v.toNat, f.pn.toNat, f.aux.toNat] [] (.mkeyUniform f.w)
  | 6 => accept [(f.v.extractLsb' 3 4).toNat, f.w.toNat, f.pn.toNat, f.aux.toNat] [] (.mkeyPredicate (f.v.extractLsb' 0 3))
  | _ => .error .reservedFn

/-- Group-space major 0x2A: MXCL, MXCL_UNIFORM, MXCL_PREDICATE. -/
def decodeGroup2A (f : GX) : Except Reason Instr :=
  match f.aux.toNat with
  | 0 => accept [f.w.toNat, f.pn.toNat, f.fn.toNat] [] (.mxcl f.v)
  | 1 => accept [f.v.toNat, f.pn.toNat, f.fn.toNat] [] (.mxclUniform f.w)
  | 2 => accept [(f.v.extractLsb' 3 4).toNat, f.w.toNat, f.pn.toNat, f.fn.toNat] [] (.mxclPredicate (f.v.extractLsb' 0 3))
  | _ => .error .reservedFn

/-- Group-space major 0x2B: MOUT, MOUT_UNIFORM, MOUT_PREDICATE. -/
def decodeGroup2B (f : GX) : Except Reason Instr :=
  match f.fn.toNat with
  | 0 => accept [f.w.toNat, f.pn.toNat, f.aux.toNat] [] (.mout f.v)
  | 1 => accept [f.v.toNat, f.pn.toNat, f.aux.toNat] [] (.moutUniform f.w)
  | 2 => accept [(f.v.extractLsb' 3 4).toNat, f.w.toNat, f.pn.toNat, f.aux.toNat] [] (.moutPredicate (f.v.extractLsb' 0 3))
  | _ => .error .reservedFn

/-- Group-space major 0x2C: MLOOK. -/
def decodeGroup2C (f : GB) : Except Reason Instr :=
  accept [] [] (.mlook f.pn f.disp)

/-- Group-space major 0x2D: MEND. -/
def decodeGroup2D (f : GR) : Except Reason Instr :=
  accept [f.wd.toNat, f.wa.toNat, f.wb.toNat, f.fn.toNat, f.aux.toNat] [] (.mend)

/-- Group-space major 0x2E: MINV, MGEN, MSTAT, MKEYT. -/
def decodeGroup2E (f : GR) : Except Reason Instr :=
  match f.fn.toNat with
  | 0 => accept [f.wd.toNat, f.wa.toNat, f.wb.toNat] [] (.minv f.aux)
  | 1 => accept [f.wa.toNat, f.wb.toNat] [] (.mgen f.wd f.aux)
  | 2 => accept [f.wa.toNat] [] (.mstat f.wd f.wb f.aux)
  | 3 => accept [f.wd.toNat] [] (.mkeyt f.wa f.wb f.aux)
  | _ => .error .reservedFn

/-- Group-space major 0x30: MDECL, MEMIT. -/
def decodeGroup30 (f : GR) : Except Reason Instr :=
  match f.fn.toNat with
  | 0 => accept [f.wd.toNat, (f.aux.extractLsb' 1 3).toNat] [] (.mdecl f.wa f.wb (f.aux.extractLsb' 0 1))
  | 1 => accept [f.wd.toNat, f.wb.toNat, f.aux.toNat] [] (.memit f.wa)
  | _ => .error .reservedFn

/-- Group-space major 0x31: FOUT. -/
def decodeGroup31 (f : GX) : Except Reason Instr :=
  accept [f.pn.toNat] [] (.fout f.v f.w f.fn f.aux)

/-- Group-space major 0x32: DISC. -/
def decodeGroup32 (f : GX) : Except Reason Instr :=
  accept [f.v.toNat, f.w.toNat, f.fn.toNat, f.aux.toNat] [] (.disc f.pn)

/-- Group-space major 0x33: REGRP. -/
def decodeGroup33 (f : GR) : Except Reason Instr :=
  accept [f.wd.toNat, f.wb.toNat, f.fn.toNat] [] (.regrp f.wa f.aux)

/-- Group-space major 0x38: TRAP. -/
def decodeGroup38 (f : GI) : Except Reason Instr :=
  accept [f.wd.toNat, f.wa.toNat] [] (.trap f.imm)

/-- Group-space major 0x39: RTE, TSAVE, TREST. -/
def decodeGroup39 (f : GR) : Except Reason Instr :=
  match f.fn.toNat with
  | 0 => accept [f.wd.toNat, f.wa.toNat, f.wb.toNat, f.aux.toNat] [] (.rte)
  | 1 => accept [f.wd.toNat, f.wb.toNat, f.aux.toNat] [] (.tsave f.wa)
  | 2 => accept [f.wd.toNat, f.wb.toNat, f.aux.toNat] [] (.trest f.wa)
  | _ => .error .reservedFn

/-- Group-space major 0x3A: SWPT, RGROW, RGROWW. -/
def decodeGroup3A (f : GR) : Except Reason Instr :=
  match f.fn.toNat with
  | 0 => accept [f.wd.toNat, f.wa.toNat, f.wb.toNat] [] (.swpt f.aux)
  | 1 => accept [f.wa.toNat, f.wb.toNat, (f.aux.extractLsb' 2 2).toNat] [] (.rgrow f.wd (f.aux.extractLsb' 0 2))
  | 2 => accept [f.wa.toNat, f.wb.toNat, (f.aux.extractLsb' 2 2).toNat] [] (.rgroww f.wd (f.aux.extractLsb' 0 2))
  | _ => .error .reservedFn

/-- Group-space major 0x3B: SPACE, SCAST, SCASTL. -/
def decodeGroup3B (f : GR) : Except Reason Instr :=
  match f.fn.toNat with
  | 0 => accept [f.wb.toNat, f.aux.toNat] [] (.space f.wd f.wa)
  | 1 => accept [f.wb.toNat, f.aux.toNat] [] (.scast f.wd f.wa)
  | 2 => accept [f.wb.toNat, f.aux.toNat] [] (.scastl f.wd f.wa)
  | _ => .error .reservedFn

/-- Group-space major 0x3C: CCTLF, CCTLI, CCTLW. -/
def decodeGroup3C (f : GR) : Except Reason Instr :=
  match f.fn.toNat with
  | 0 => accept [f.wd.toNat, f.wa.toNat, f.wb.toNat, f.aux.toNat] [] (.cctlf)
  | 1 => accept [f.wd.toNat, f.aux.toNat] [] (.cctli f.wa f.wb)
  | 2 => accept [f.wd.toNat, f.wa.toNat, f.wb.toNat, f.aux.toNat] [] (.cctlw)
  | _ => .error .reservedFn

/-- Group-space major 0x3D: YIELD, SLEEP. -/
def decodeGroup3D (f : GR) : Except Reason Instr :=
  match f.fn.toNat with
  | 0 => accept [f.wd.toNat, f.wa.toNat, f.wb.toNat, f.aux.toNat] [] (.yieldIssue)
  | 1 => accept [f.wd.toNat, f.wb.toNat, f.aux.toNat] [] (.sleep f.wa)
  | _ => .error .reservedFn

/-- Group-space major 0x3F: PFX. -/
def decodeGroup3F (f : PFXF) : Except Reason Instr :=
  accept [f.low.toNat] [] (.pfx f.pm f.pinv f.zm f.rnd f.scope f.vc)

/-- The group-space opcode map (Table 6.7): the major chooses the format and the members. -/
def decodeGroup (w lit : BitVec 32) : Except Reason Instr :=
  match (w.extractLsb' 25 6).toNat with
  | 0x00 => decodeGroup00 (GR.ofWord w)
  | 0x01 => decodeGroup01 (GR.ofWord w)
  | 0x02 => decodeGroup02 (GI.ofWord w)
  | 0x03 => decodeGroup03 (GI.ofWord w)
  | 0x04 => decodeGroup04 (GI.ofWord w) lit
  | 0x05 => decodeGroup05 (GI.ofWord w) lit
  | 0x06 => decodeGroup06 (GR.ofWord w)
  | 0x07 => decodeGroup07 (GR.ofWord w)
  | 0x08 => decodeGroup08 (GI.ofWord w)
  | 0x09 => decodeGroup09 (GI.ofWord w)
  | 0x0A => decodeGroup0A (GX.ofWord w)
  | 0x0B => decodeGroup0B (GI.ofWord w)
  | 0x0C => decodeGroup0C (GI.ofWord w)
  | 0x0D => decodeGroup0D (GI.ofWord w)
  | 0x0E => decodeGroup0E (GI.ofWord w)
  | 0x10 => decodeGroup10 (GB.ofWord w)
  | 0x11 => decodeGroup11 (GB.ofWord w)
  | 0x12 => decodeGroup12 (GB.ofWord w)
  | 0x13 => decodeGroup13 (GB.ofWord w)
  | 0x14 => decodeGroup14 (GI.ofWord w)
  | 0x15 => decodeGroup15 (GI.ofWord w)
  | 0x16 => decodeGroup16 (GB.ofWord w)
  | 0x17 => decodeGroup17 (GR.ofWord w)
  | 0x18 => decodeGroup18 (GB.ofWord w)
  | 0x19 => decodeGroup19 (GR.ofWord w)
  | 0x1A => decodeGroup1A (GR.ofWord w)
  | 0x1B => decodeGroup1B (GR.ofWord w)
  | 0x1C => decodeGroup1C (GR.ofWord w)
  | 0x1D => decodeGroup1D (GR.ofWord w)
  | 0x1E => decodeGroup1E (GR.ofWord w)
  | 0x1F => decodeGroup1F (GR.ofWord w)
  | 0x20 => decodeGroup20 (GR.ofWord w)
  | 0x21 => decodeGroup21 (GE.ofWord w)
  | 0x22 => decodeGroup22 (GA.ofWord w)
  | 0x23 => decodeGroup23 (GE.ofWord w)
  | 0x24 => decodeGroup24 (GR.ofWord w)
  | 0x25 => decodeGroup25 (GR.ofWord w)
  | 0x28 => decodeGroup28 (GR.ofWord w)
  | 0x29 => decodeGroup29 (GX.ofWord w)
  | 0x2A => decodeGroup2A (GX.ofWord w)
  | 0x2B => decodeGroup2B (GX.ofWord w)
  | 0x2C => decodeGroup2C (GB.ofWord w)
  | 0x2D => decodeGroup2D (GR.ofWord w)
  | 0x2E => decodeGroup2E (GR.ofWord w)
  | 0x30 => decodeGroup30 (GR.ofWord w)
  | 0x31 => decodeGroup31 (GX.ofWord w)
  | 0x32 => decodeGroup32 (GX.ofWord w)
  | 0x33 => decodeGroup33 (GR.ofWord w)
  | 0x38 => decodeGroup38 (GI.ofWord w)
  | 0x39 => decodeGroup39 (GR.ofWord w)
  | 0x3A => decodeGroup3A (GR.ofWord w)
  | 0x3B => decodeGroup3B (GR.ofWord w)
  | 0x3C => decodeGroup3C (GR.ofWord w)
  | 0x3D => decodeGroup3D (GR.ofWord w)
  | 0x3F => decodeGroup3F (PFXF.ofWord w)
  | _ => .error .reservedMajor

/-- One instruction word, with the word after it as the literal a GL base word takes (R104). Bit 31 chooses the space
(Table 6.1). -/
def decodeWord (w lit : BitVec 32) : Except Reason Instr :=
  if w.getLsbD 31 then decodeGroup w lit else decodeLane w


/-- The first word of an instruction, from the encoding tables; an event has no word. -/
def Instr.firstWord : Instr → BitVec 32
  | .iadd vd va vb ha hb => LR.toWord 0x00 ⟨vd, va, vb, 0, ha, hb⟩
  | .isub vd va vb ha hb => LR.toWord 0x00 ⟨vd, va, vb, 1, ha, hb⟩
  | .imin vd va vb ha hb => LR.toWord 0x00 ⟨vd, va, vb, 2, ha, hb⟩
  | .imax vd va vb ha hb => LR.toWord 0x00 ⟨vd, va, vb, 3, ha, hb⟩
  | .iminu vd va vb ha hb => LR.toWord 0x01 ⟨vd, va, vb, 0, ha, hb⟩
  | .imaxu vd va vb ha hb => LR.toWord 0x01 ⟨vd, va, vb, 1, ha, hb⟩
  | .iabsd vd va vb ha hb => LR.toWord 0x01 ⟨vd, va, vb, 2, ha, hb⟩
  | .imul vd va vb ha hb => LR.toWord 0x02 ⟨vd, va, vb, 0, ha, hb⟩
  | .imulhs vd va vb ha hb => LR.toWord 0x02 ⟨vd, va, vb, 1, ha, hb⟩
  | .imulhu vd va vb ha hb => LR.toWord 0x02 ⟨vd, va, vb, 2, ha, hb⟩
  | .imad vd va vb ha hb => LR.toWord 0x02 ⟨vd, va, vb, 3, ha, hb⟩
  | .and vd va vb ha hb => LR.toWord 0x03 ⟨vd, va, vb, 0, ha, hb⟩
  | .or vd va vb ha hb => LR.toWord 0x03 ⟨vd, va, vb, 1, ha, hb⟩
  | .xor vd va vb ha hb => LR.toWord 0x03 ⟨vd, va, vb, 2, ha, hb⟩
  | .andn vd va vb ha hb => LR.toWord 0x03 ⟨vd, va, vb, 3, ha, hb⟩
  | .shl vd va vb ha hb => LR.toWord 0x04 ⟨vd, va, vb, 0, ha, hb⟩
  | .shr vd va vb ha hb => LR.toWord 0x04 ⟨vd, va, vb, 1, ha, hb⟩
  | .sar vd va vb ha hb => LR.toWord 0x04 ⟨vd, va, vb, 2, ha, hb⟩
  | .rotl vd va vb ha hb => LR.toWord 0x04 ⟨vd, va, vb, 3, ha, hb⟩
  | .popc vd va ha => LR.toWord 0x05 ⟨vd, va, 0, 0, ha, false⟩
  | .clz vd va ha => LR.toWord 0x05 ⟨vd, va, 0, 1, ha, false⟩
  | .brev vd va ha => LR.toWord 0x05 ⟨vd, va, 0, 2, ha, false⟩
  | .bfx vd va vb ha hb => LR.toWord 0x05 ⟨vd, va, vb, 3, ha, hb⟩
  | .icmp pd va vb rel ha hb => LR.toWord 0x06 ⟨0#4 ++ pd, va, vb, rel, ha, hb⟩
  | .icmpUnsigned pd va vb rel ha hb => LR.toWord 0x07 ⟨0#4 ++ pd, va, vb, rel, ha, hb⟩
  | .sel vd va vb ps ha hb => LR.toWord 0x08 ⟨vd, va, vb, ps, ha, hb⟩
  | .iadd64 vd va vb ha hb => LR.toWord 0x09 ⟨vd, va, vb, 0, ha, hb⟩
  | .isub64 vd va vb ha hb => LR.toWord 0x09 ⟨vd, va, vb, 1, ha, hb⟩
  | .imul64 vd va vb ha hb => LR.toWord 0x09 ⟨vd, va, vb, 2, ha, hb⟩
  | .madw vd va vb ha hb => LR.toWord 0x09 ⟨vd, va, vb, 3, ha, hb⟩
  | .iaddi vd va imm ha => LI.toWord 0x0A ⟨vd, va, imm, ha⟩
  | .andi vd va imm ha => LI.toWord 0x0B ⟨vd, va, imm, ha⟩
  | .ori vd va imm ha => LI.toWord 0x0C ⟨vd, va, imm, ha⟩
  | .xori vd va imm ha => LI.toWord 0x0D ⟨vd, va, imm, ha⟩
  | .shli vd va imm ha => LI.toWord 0x0E ⟨vd, va, imm, ha⟩
  | .shri vd va imm ha => LI.toWord 0x0F ⟨vd, va, imm, ha⟩
  | .sari vd va imm ha => LI.toWord 0x10 ⟨vd, va, imm, ha⟩
  | .movi vd imm => LI.toWord 0x11 ⟨vd, 0, imm, false⟩
  | .fadd vd va vb ha hb => LR.toWord 0x12 ⟨vd, va, vb, 0, ha, hb⟩
  | .fsub vd va vb ha hb => LR.toWord 0x12 ⟨vd, va, vb, 1, ha, hb⟩
  | .fmul vd va vb ha hb => LR.toWord 0x12 ⟨vd, va, vb, 2, ha, hb⟩
  | .ffma vd va vb ha hb => LR.toWord 0x12 ⟨vd, va, vb, 3, ha, hb⟩
  | .fmin vd va vb ha hb => LR.toWord 0x13 ⟨vd, va, vb, 0, ha, hb⟩
  | .fmax vd va vb ha hb => LR.toWord 0x13 ⟨vd, va, vb, 1, ha, hb⟩
  | .fabs vd va ha => LR.toWord 0x13 ⟨vd, va, 0, 2, ha, false⟩
  | .fneg vd va ha => LR.toWord 0x13 ⟨vd, va, 0, 3, ha, false⟩
  | .fcmp pd va vb rel ha hb => LR.toWord 0x14 ⟨0#4 ++ pd, va, vb, rel, ha, hb⟩
  | .haddp vd va vb ha hb => LR.toWord 0x15 ⟨vd, va, vb, 0, ha, hb⟩
  | .hmulp vd va vb ha hb => LR.toWord 0x15 ⟨vd, va, vb, 1, ha, hb⟩
  | .hfmap vd va vb ha hb => LR.toWord 0x15 ⟨vd, va, vb, 2, ha, hb⟩
  | .hmaxp vd va vb ha hb => LR.toWord 0x15 ⟨vd, va, vb, 3, ha, hb⟩
  | .badd2 vd va vb ha hb => LR.toWord 0x16 ⟨vd, va, vb, 0, ha, hb⟩
  | .bmul2 vd va vb ha hb => LR.toWord 0x16 ⟨vd, va, vb, 1, ha, hb⟩
  | .bfma2 vd va vb ha hb => LR.toWord 0x16 ⟨vd, va, vb, 2, ha, hb⟩
  | .bmax2 vd va vb ha hb => LR.toWord 0x16 ⟨vd, va, vb, 3, ha, hb⟩
  | .rcp vd va ha => LR.toWord 0x17 ⟨vd, va, 0, 0, ha, false⟩
  | .rsq vd va ha => LR.toWord 0x17 ⟨vd, va, 0, 1, ha, false⟩
  | .sqrt vd va ha => LR.toWord 0x17 ⟨vd, va, 0, 2, ha, false⟩
  | .exp2 vd va ha => LR.toWord 0x17 ⟨vd, va, 0, 3, ha, false⟩
  | .log2 vd va ha => LR.toWord 0x18 ⟨vd, va, 0, 0, ha, false⟩
  | .sin vd va ha => LR.toWord 0x18 ⟨vd, va, 0, 1, ha, false⟩
  | .cos vd va ha => LR.toWord 0x18 ⟨vd, va, 0, 2, ha, false⟩
  | .tanh vd va ha => LR.toWord 0x18 ⟨vd, va, 0, 3, ha, false⟩
  | .cvt vd va src dst mode ha => LR.toWord 0x19 ⟨vd, va, src ++ dst, mode, ha, false⟩
  | .qe4 vd va vb ha hb => LR.toWord 0x1A ⟨vd, va, vb, 0, ha, hb⟩
  | .qe5 vd va vb ha hb => LR.toWord 0x1A ⟨vd, va, vb, 1, ha, hb⟩
  | .qi8 vd va vb ha hb => LR.toWord 0x1A ⟨vd, va, vb, 2, ha, hb⟩
  | .qf4 vd va vb ha hb => LR.toWord 0x1A ⟨vd, va, vb, 3, ha, hb⟩
  | .de4 vd va vb ha hb => LR.toWord 0x1B ⟨vd, va, vb, 0, ha, hb⟩
  | .de5 vd va vb ha hb => LR.toWord 0x1B ⟨vd, va, vb, 1, ha, hb⟩
  | .di8 vd va vb ha hb => LR.toWord 0x1B ⟨vd, va, vb, 2, ha, hb⟩
  | .df4 vd va vb ha hb => LR.toWord 0x1B ⟨vd, va, vb, 3, ha, hb⟩
  | .shfl vd va vb ha hb => LR.toWord 0x1C ⟨vd, va, vb, 0, ha, hb⟩
  | .shflx vd va vb ha hb => LR.toWord 0x1C ⟨vd, va, vb, 1, ha, hb⟩
  | .shflr vd va vb ha hb => LR.toWord 0x1C ⟨vd, va, vb, 2, ha, hb⟩
  | .shflh vd va k ha => LR.toWord 0x1C ⟨vd, va, k, 3, ha, false⟩
  | .lstep vd va k op ha => LR.toWord 0x1D ⟨vd, va, k, op, ha, false⟩
  | .vmatch vd va ha => LR.toWord 0x1E ⟨vd, va, 0, 0, ha, false⟩
  | .mrank vd va ha => LR.toWord 0x1E ⟨vd, va, 0, 1, ha, false⟩
  | .mcnt vd va ha => LR.toWord 0x1E ⟨vd, va, 0, 2, ha, false⟩
  | .mlast vd va ha => LR.toWord 0x1E ⟨vd, va, 0, 3, ha, false⟩
  | .laneid vd => LR.toWord 0x1F ⟨vd, 0, 0, 0, false, false⟩
  | .vmov vd va ha => LR.toWord 0x1F ⟨vd, va, 0, 1, ha, false⟩
  | .movp vd pn => LR.toWord 0x1F ⟨vd, 0#4 ++ pn, 0, 2, false, false⟩
  | .setp pd va ha => LR.toWord 0x1F ⟨0#4 ++ pd, va, 0, 3, ha, false⟩
  | .ldb vt va wb rec => LM.toWord 0x20 ⟨vt, va, wb, rec⟩
  | .ldh vt va wb rec => LM.toWord 0x21 ⟨vt, va, wb, rec⟩
  | .ldw vt va wb rec => LM.toWord 0x22 ⟨vt, va, wb, rec⟩
  | .ldd vt va wb rec => LM.toWord 0x23 ⟨vt, va, wb, rec⟩
  | .ldq vt va wb rec => LM.toWord 0x24 ⟨vt, va, wb, rec⟩
  | .stb vt va wb rec => LM.toWord 0x25 ⟨vt, va, wb, rec⟩
  | .sth vt va wb rec => LM.toWord 0x26 ⟨vt, va, wb, rec⟩
  | .stw vt va wb rec => LM.toWord 0x27 ⟨vt, va, wb, rec⟩
  | .std vt va wb rec => LM.toWord 0x28 ⟨vt, va, wb, rec⟩
  | .stq vt va wb rec => LM.toWord 0x29 ⟨vt, va, wb, rec⟩
  | .atom vt va wb op => LM.toWord 0x2A ⟨vt, va, wb, op⟩
  | .atomd vt va wb op => LM.toWord 0x2B ⟨vt, va, wb, op⟩
  | .ldl vt va wb sz => LM.toWord 0x2C ⟨vt, va, wb, sz⟩
  | .stl vt va wb sz => LM.toWord 0x2D ⟨vt, va, wb, sz⟩
  | .atoml vt va wb op => LM.toWord 0x2E ⟨vt, va, wb, op⟩
  | .tex vt va wb rec => LM.toWord 0x30 ⟨vt, va, wb, rec⟩
  | .texl vt va wb rec => LM.toWord 0x31 ⟨vt, va, wb, rec⟩
  | .texg vt va wb rec => LM.toWord 0x32 ⟨vt, va, wb, rec⟩
  | .rayq vt va wb desc => LM.toWord 0x33 ⟨vt, va, wb, desc⟩
  | .prf va wb kind => LM.toWord 0x34 ⟨0, va, wb, 0#3 ++ kind⟩
  | .pfx pm pinv zm rnd scope vc => PFXF.toWord ⟨pm, pinv, zm, rnd, scope, vc, 0⟩
  | .uadd wd wa wb => GR.toWord 0x00 ⟨wd, wa, wb, 0, 0⟩
  | .usub wd wa wb => GR.toWord 0x00 ⟨wd, wa, wb, 1, 0⟩
  | .umul wd wa wb => GR.toWord 0x00 ⟨wd, wa, wb, 2, 0⟩
  | .umulh wd wa wb => GR.toWord 0x00 ⟨wd, wa, wb, 3, 0⟩
  | .uand wd wa wb => GR.toWord 0x00 ⟨wd, wa, wb, 4, 0⟩
  | .uor wd wa wb => GR.toWord 0x00 ⟨wd, wa, wb, 5, 0⟩
  | .uxor wd wa wb => GR.toWord 0x00 ⟨wd, wa, wb, 6, 0⟩
  | .uandn wd wa wb => GR.toWord 0x00 ⟨wd, wa, wb, 7, 0⟩
  | .ushl wd wa wb => GR.toWord 0x01 ⟨wd, wa, wb, 0, 0⟩
  | .ushr wd wa wb => GR.toWord 0x01 ⟨wd, wa, wb, 1, 0⟩
  | .usar wd wa wb => GR.toWord 0x01 ⟨wd, wa, wb, 2, 0⟩
  | .umin wd wa wb => GR.toWord 0x01 ⟨wd, wa, wb, 3, 0⟩
  | .umax wd wa wb => GR.toWord 0x01 ⟨wd, wa, wb, 4, 0⟩
  | .uminu wd wa wb => GR.toWord 0x01 ⟨wd, wa, wb, 5, 0⟩
  | .umaxu wd wa wb => GR.toWord 0x01 ⟨wd, wa, wb, 6, 0⟩
  | .upopc wd wa => GR.toWord 0x01 ⟨wd, wa, 0, 7, 0⟩
  | .uaddi wd wa imm => GI.toWord 0x02 ⟨wd, wa, imm⟩
  | .umovi wd imm => GI.toWord 0x03 ⟨wd, 0, imm⟩
  | .uli wd _ => GI.toWord 0x04 ⟨wd, 0, 0⟩
  | .ulih wd _ => GI.toWord 0x05 ⟨wd, 0, 0⟩
  | .ucmp wd wa wb rel => GR.toWord 0x06 ⟨wd, wa, wb, rel, 0⟩
  | .ufadd wd wa wb rnd => GR.toWord 0x07 ⟨wd, wa, wb, 0, rnd⟩
  | .ufmul wd wa wb rnd => GR.toWord 0x07 ⟨wd, wa, wb, 1, rnd⟩
  | .uffma wd wa wb rnd => GR.toWord 0x07 ⟨wd, wa, wb, 2, rnd⟩
  | .ufmin wd wa wb => GR.toWord 0x07 ⟨wd, wa, wb, 3, 0⟩
  | .ufmax wd wa wb => GR.toWord 0x07 ⟨wd, wa, wb, 4, 0⟩
  | .ufcvt wd wa src dst rnd => GR.toWord 0x07 ⟨wd, wa, src ++ dst, 5, rnd⟩
  | .srd wd num => GI.toWord 0x08 ⟨wd, 0, num⟩
  | .swr wa num => GI.toWord 0x09 ⟨0, wa, num⟩
  | .bcast v w => GX.toWord 0x0A ⟨v, w, 0, 0, 0⟩
  | .rdfirst v w => GX.toWord 0x0A ⟨v, w, 0, 1, 0⟩
  | .ballot w pn half => GX.toWord 0x0A ⟨0, w, pn, 2, half⟩
  | .vany w pn => GX.toWord 0x0A ⟨0, w, pn, 3, 0⟩
  | .vall w pn => GX.toWord 0x0A ⟨0, w, pn, 4, 0⟩
  | .vcnt w pn => GX.toWord 0x0A ⟨0, w, pn, 5, 0⟩
  | .actm w half => GX.toWord 0x0A ⟨0, w, 0, 6, half⟩
  | .uldw wd wa imm => GI.toWord 0x0B ⟨wd, wa, imm⟩
  | .uldd wd wa imm => GI.toWord 0x0C ⟨wd, wa, imm⟩
  | .ustw wd wa imm => GI.toWord 0x0D ⟨wd, wa, imm⟩
  | .ustd wd wa imm => GI.toWord 0x0E ⟨wd, wa, imm⟩
  | .bra disp => GB.toWord 0x10 ⟨0, disp⟩
  | .brd pn disp => GB.toWord 0x11 ⟨pn, disp⟩
  | .brany pn disp => GB.toWord 0x12 ⟨pn, disp⟩
  | .brall pn disp => GB.toWord 0x13 ⟨pn, disp⟩
  | .bz wa disp => GI.toWord 0x14 ⟨0, wa, disp⟩
  | .bnz wa disp => GI.toWord 0x15 ⟨0, wa, disp⟩
  | .call disp => GB.toWord 0x16 ⟨0, disp⟩
  | .ret wa => GR.toWord 0x17 ⟨0, wa, 0, 0, 0⟩
  | .jset disp => GB.toWord 0x18 ⟨0, disp⟩
  | .join => GR.toWord 0x19 ⟨0, 0, 0, 0, 0⟩
  | .exit => GR.toWord 0x1A ⟨0, 0, 0, 0, 0⟩
  | .nop => GR.toWord 0x1B ⟨0, 0, 0, 0, 0⟩
  | .bar n => GR.toWord 0x1C ⟨0, 0, 0, 0, n⟩
  | .bara n => GR.toWord 0x1C ⟨0, 0, 0, 1, n⟩
  | .barw n => GR.toWord 0x1C ⟨0, 0, 0, 2, n⟩
  | .barr wd vs op n => GR.toWord 0x1C ⟨wd, vs, op, 3, n⟩
  | .bars vd vs op n => GR.toWord 0x1C ⟨vd, vs, op, 4, n⟩
  | .fence ord scope => GR.toWord 0x1D ⟨0, 0, 0, ord, scope⟩
  | .batch wd => GR.toWord 0x1E ⟨wd, 0, 0, 0, 0⟩
  | .waitb wa => GR.toWord 0x1E ⟨0, wa, 0, 1, 0⟩
  | .testb wd wa => GR.toWord 0x1E ⟨wd, wa, 0, 2, 0⟩
  | .msend ws wa wb ring => GR.toWord 0x1F ⟨ws, wa, wb, 0, 0#2 ++ ring⟩
  | .mpoll wd ws ring => GR.toWord 0x1F ⟨wd, ws, 0, 1, 0#2 ++ ring⟩
  | .mwait wd ring => GR.toWord 0x1F ⟨wd, 0, 0, 2, 0#2 ++ ring⟩
  | .mpop wd ring => GR.toWord 0x1F ⟨wd, 0, 0, 3, 0#2 ++ ring⟩
  | .mring wa wb ring => GR.toWord 0x1F ⟨0, wa, wb, 4, 0#2 ++ ring⟩
  | .cpy wa => GR.toWord 0x20 ⟨0, wa, 0, 0, 0⟩
  | .dcmp wa => GR.toWord 0x20 ⟨0, wa, 0, 1, 0⟩
  | .cpyq wa wb => GR.toWord 0x20 ⟨0, wa, wb, 2, 0⟩
  | .mma an wa wb => GE.toWord 0x21 ⟨an, wa, wb, 0, 0⟩
  | .mmaz an wa wb => GE.toWord 0x21 ⟨an, wa, wb, 1, 0⟩
  | .mmas an wa wb => GE.toWord 0x21 ⟨an, wa, wb, 2, 0⟩
  | .mmasz an wa wb => GE.toWord 0x21 ⟨an, wa, wb, 3, 0⟩
  | .accrd an v wa => GA.toWord 0x22 ⟨an, v, wa, 0, 0⟩
  | .accwr an v wa => GA.toWord 0x22 ⟨an, v, wa, 1, 0⟩
  | .accz an => GA.toWord 0x22 ⟨an, 0, 0, 2, 0⟩
  | .accst an wa => GA.toWord 0x22 ⟨an, 0, wa, 3, 0⟩
  | .wmark an wa => GA.toWord 0x22 ⟨an, 0, wa, 4, 0⟩
  | .xft wa wb lb => GE.toWord 0x23 ⟨0, wa, wb, 0, lb⟩
  | .ixft an wb => GE.toWord 0x23 ⟨an, 0, wb, 1, 0⟩
  | .ixftScratchpad wa wb => GE.toWord 0x23 ⟨0, wa, wb, 1, 1⟩
  | .xact an wb f => GE.toWord 0x23 ⟨an, 0, wb, 2, 0#2 ++ f⟩
  | .xactBias an wa wb f => GE.toWord 0x23 ⟨an, wa, wb, 2, 1#2 ++ f⟩
  | .dtag wa wb => GE.toWord 0x23 ⟨0, wa, wb, 3, 0⟩
  | .dtagTile an wb => GE.toWord 0x23 ⟨an, 0, wb, 3, 1⟩
  | .dset wa wb => GE.toWord 0x23 ⟨0, wa, wb, 4, 0⟩
  | .emset wa m => GR.toWord 0x24 ⟨0, wa, 0, 0, m⟩
  | .emgen wa => GR.toWord 0x24 ⟨0, wa, 0, 1, 0⟩
  | .epost wa wb e => GR.toWord 0x25 ⟨0, wa, wb, 0, e⟩
  | .etake wd ws e => GR.toWord 0x25 ⟨wd, ws, 0, 1, e⟩
  | .etest wd e => GR.toWord 0x25 ⟨wd, 0, 0, 2, e⟩
  | .mbegin wa g c h => GR.toWord 0x28 ⟨0, wa, g, c, h⟩
  | .mkey v t => GX.toWord 0x29 ⟨v, 0, 0, t, 0⟩
  | .mkeyUniform w => GX.toWord 0x29 ⟨0, w, 0, 5, 0⟩
  | .mkeyPredicate pd => GX.toWord 0x29 ⟨0#4 ++ pd, 0, 0, 6, 0⟩
  | .mxcl v => GX.toWord 0x2A ⟨v, 0, 0, 0, 0⟩
  | .mxclUniform w => GX.toWord 0x2A ⟨0, w, 0, 0, 1⟩
  | .mxclPredicate pd => GX.toWord 0x2A ⟨0#4 ++ pd, 0, 0, 0, 2⟩
  | .mout v => GX.toWord 0x2B ⟨v, 0, 0, 0, 0⟩
  | .moutUniform w => GX.toWord 0x2B ⟨0, w, 0, 1, 0⟩
  | .moutPredicate pd => GX.toWord 0x2B ⟨0#4 ++ pd, 0, 0, 2, 0⟩
  | .mlook pn disp => GB.toWord 0x2C ⟨pn, disp⟩
  | .mend => GR.toWord 0x2D ⟨0, 0, 0, 0, 0⟩
  | .minv h => GR.toWord 0x2E ⟨0, 0, 0, 0, h⟩
  | .mgen wd h => GR.toWord 0x2E ⟨wd, 0, 0, 1, h⟩
  | .mstat wd k h => GR.toWord 0x2E ⟨wd, 0, k, 2, h⟩
  | .mkeyt wa wb f => GR.toWord 0x2E ⟨0, wa, wb, 3, f⟩
  | .mdecl wa wb t => GR.toWord 0x30 ⟨0, wa, wb, 0, 0#3 ++ t⟩
  | .memit wa => GR.toWord 0x30 ⟨0, wa, 0, 1, 0⟩
  | .fout v w f m => GX.toWord 0x31 ⟨v, w, 0, f, m⟩
  | .disc pn => GX.toWord 0x32 ⟨0, 0, pn, 0, 0⟩
  | .regrp vk n => GR.toWord 0x33 ⟨0, vk, 0, 0, n⟩
  | .trap code => GI.toWord 0x38 ⟨0, 0, code⟩
  | .rte => GR.toWord 0x39 ⟨0, 0, 0, 0, 0⟩
  | .tsave wa => GR.toWord 0x39 ⟨0, wa, 0, 1, 0⟩
  | .trest wa => GR.toWord 0x39 ⟨0, wa, 0, 2, 0⟩
  | .swpt n => GR.toWord 0x3A ⟨0, 0, 0, 0, n⟩
  | .rgrow wd v => GR.toWord 0x3A ⟨wd, 0, 0, 1, 0#2 ++ v⟩
  | .rgroww wd v => GR.toWord 0x3A ⟨wd, 0, 0, 2, 0#2 ++ v⟩
  | .space wd wa => GR.toWord 0x3B ⟨wd, wa, 0, 0, 0⟩
  | .scast wd wa => GR.toWord 0x3B ⟨wd, wa, 0, 1, 0⟩
  | .scastl wd wa => GR.toWord 0x3B ⟨wd, wa, 0, 2, 0⟩
  | .cctlf => GR.toWord 0x3C ⟨0, 0, 0, 0, 0⟩
  | .cctli wa wb => GR.toWord 0x3C ⟨0, wa, wb, 1, 0⟩
  | .cctlw => GR.toWord 0x3C ⟨0, 0, 0, 2, 0⟩
  | .yieldIssue => GR.toWord 0x3D ⟨0, 0, 0, 0, 0⟩
  | .sleep wa => GR.toWord 0x3D ⟨0, wa, 0, 1, 0⟩
  | .tailWrite _ _ => 0
  | .interruptStatus _ => 0
  | .registerWrite _ _ => 0
  | .nodeValidate _ => 0
  | .nodeFail _ => 0
  | .nodeReady _ => 0
  | .ensemblePlacement _ _ _ _ => 0
  | .placementHold _ => 0
  | .teamRetire _ => 0
  | .tryGrant _ => 0
  | .growDeadlockSpill _ => 0
  | .variantSwitch _ _ _ => 0
  | .preemption _ _ => 0
  | .contextSave _ => 0
  | .ensembleRestore _ _ _ => 0
  | .faultQueueSpace _ => 0
  | .faultDelivery _ _ _ => 0
  | .uncorrectableError _ => 0
  | .correctedError _ => 0
  | .securityAlarm => 0
  | .reset => 0
  | .governorSample => 0
  | .creditRefill _ _ => 0
  | .budgetPeriodStart _ => 0
  | .scanoutLine _ _ _ _ _ _ => 0
  | .engineSlotRelease _ _ => 0
  | .pathSwitchCount _ _ => 0
  | .groupAging _ _ => 0
  | .yieldHoldExpire _ _ => 0
  | .sleepExpire _ _ _ => 0
  | .sleepWake _ _ _ => 0
  | .tableWalkComplete _ _ _ => 0
  | .footprintWaitEnd _ _ _ => 0
  | .watermarkWaitEnd _ _ _ => 0
  | .engineQueueSpace _ _ _ => 0
  | .edgeSlotFree _ _ _ => 0
  | .edgeTokenArrive _ _ _ => 0
  | .ringSpace _ _ _ => 0
  | .ringEntryArrive _ _ _ => 0
  | .batchWaitEnd _ _ _ => 0
  | .copyChunk _ => 0
  | .dcmpChunk _ => 0
  | .matrixOpStart _ => 0
  | .matrixRowFinal _ => 0
  | .transformOpComplete _ => 0
  | .binningJob _ => 0
  | .activate _ => 0
  | .deactivate _ => 0
  | .deactivateDone _ => 0
  | .preEmpt _ => 0
  | .kill _ => 0
  | .mapExecutable _ => 0
  | .unmapExecutable _ => 0
  | .tlbInvalidate _ => 0
  | .faultResumeReplay _ => 0
  | .faultResumeDeliver _ => 0
  | .faultResumeKill _ => 0
  | .memoSlotCreate _ => 0
  | .memoSlotFree _ => 0
  | .memoSlotFreeDone _ => 0
  | .keyWrite _ => 0
  | .powerLevel _ => 0
  | .slotRelease _ => 0
  | .budgetExhausted _ => 0
  | .storesReachSystemCache _ _ => 0
  | .memoInstancesActed _ _ _ => 0
  | .hostCoreWrite _ _ => 0

/-- An instruction that takes a literal word (R104). -/
def Instr.literal : Instr → Option (BitVec 32)
  | .uli _ lit => some lit
  | .ulih _ lit => some lit
  | _ => none

/-- How many words an instruction takes: two for a GL instruction, one for every other. -/
def Instr.wordCount (i : Instr) : Nat := if i.literal.isSome then 2 else 1

/-- The words of a well-formed instruction, in increasing address. -/
def encode (i : Instr) : List (BitVec 32) :=
  match i.literal with
  | some lit => [i.firstWord, lit]
  | none => [i.firstWord]

/-- Decode the first instruction of a list of words: the instruction and the words after it. A GL base word with no
word after it is rejected as standing in the last position. -/
def decode : List (BitVec 32) → Except Reason (Instr × List (BitVec 32))
  | [] => .error .notReadable
  | w :: rest =>
    match decodeWord w (rest.headD 0) with
    | .error r => .error r
    | .ok i =>
      match i.literal, rest with
      | none, _ => .ok (i, rest)
      | some _, _ :: rest' => .ok (i, rest')
      | some _, [] => .error .lastPosition

/-- Little-endian bytes of a word (R4). -/
def wordBytes (w : BitVec 32) : List (BitVec 8) :=
  [w.extractLsb' 0 8, w.extractLsb' 8 8, w.extractLsb' 16 8, w.extractLsb' 24 8]

/-- The words that a list of bytes holds, little-endian (R4, R100). -/
def bytesWords : List (BitVec 8) → List (BitVec 32)
  | b0 :: b1 :: b2 :: b3 :: rest => (b3 ++ b2 ++ b1 ++ b0 : BitVec 32) :: bytesWords rest
  | _ => []

/-- The bytes of an instruction whose bits are `w`, numbered as the opcode table numbers them: its first word, then a
second word, both stored little-endian. -/
def tableBytes (w : Nat) : List (BitVec 8) :=
  wordBytes (BitVec.ofNat 32 w) ++ wordBytes (BitVec.ofNat 32 (w / 2 ^ 32))

/-- What the decoder reads from an instruction whose bits are `w`, laid out as the hardware stores them. -/
def decodeTableWord (nbits w : Nat) : Option Instr :=
  match decode (bytesWords (tableBytes (w % 2 ^ nbits))) with
  | .ok (i, _) => some i
  | .error _ => none

/-! ## The prefixed pair (R105 to R111) -/

/-- A PFX word's fields, as the instruction after it sees them (Table 6.4). -/
structure Prefix where
  pm : BitVec 3 := 0
  pinv : Bool := false
  zm : Bool := false
  rnd : BitVec 3 := 0
  scope : BitVec 3 := 0
  vc : BitVec 7 := 0
deriving DecidableEq, Repr

/-- The lane-space major of an instruction; none for a group-space instruction or an event. -/
def Instr.laneMajor (i : Instr) : Option Nat :=
  if i.isWord && !(i.firstWord.getLsbD 31) then some (i.firstWord.extractLsb' 25 6).toNat else none

/-- The member reads vc and must stand behind a PFX (R110). -/
def Instr.readsVc : Instr → Bool
  | .imad .. => true
  | .bfx .. => true
  | .atom _ _ _ op => op == 9
  | .atomd _ _ _ op => op == 9
  | .atoml _ _ _ op => op == 9
  | _ => false

/-- The highest rounding code or the memory orders a lane-space word accepts in its prefix (Table 6.5). -/
def Instr.prefixRndOk (i : Instr) (r : BitVec 3) : Bool :=
  match i with
  | .fadd .. | .fsub .. | .fmul .. | .ffma .. | .haddp .. | .hmulp .. | .hfmap .. | .badd2 .. | .bmul2 .. | .bfma2 ..
  | .qe4 .. | .qe5 .. | .qi8 .. | .qf4 .. | .de4 .. | .de5 .. | .di8 .. | .df4 .. | .sqrt .. => decide (r.toNat ≤ 5)
  | .cvt _ _ _ _ mode _ => if mode = 0 then decide (r.toNat ≤ 5) else r == 0
  | .lstep _ _ _ op _ => if op = 1 then decide (r.toNat ≤ 5) else r == 0
  | .ldb .. | .ldh .. | .ldw .. | .ldd .. | .ldq .. | .ldl .. => r == 0 || r == 1 || r == 4
  | .stb .. | .sth .. | .stw .. | .std .. | .stq .. | .stl .. => r == 0 || r == 2 || r == 4
  | .atom .. | .atomd .. | .atoml .. => decide (r.toNat ≤ 4)
  | _ => r == 0

/-- The scopes a lane-space word accepts in its prefix (Table 6.5). -/
def Instr.prefixScopeOk (i : Instr) (s : BitVec 3) : Bool :=
  match i with
  | .ldb .. | .ldh .. | .ldw .. | .ldd .. | .ldq .. | .stb .. | .sth .. | .stw .. | .std .. | .stq .. | .atom ..
  | .atomd .. => decide (s.toNat ≤ 4)
  | .ldl .. | .stl .. | .atoml .. => decide (s.toNat ≤ 1)
  | _ => s == 0

/-- Whether a lane-space word accepts zm = 1 (Table 6.5). -/
def Instr.prefixZmOk (i : Instr) (z : Bool) : Bool :=
  match i with
  | .stb .. | .sth .. | .stw .. | .std .. | .stq .. | .stl .. | .prf .. => !z
  | _ => true

/-- The word uses the LM format: its majors are 0x20 and above. -/
def Instr.isLM (i : Instr) : Bool := match i.laneMajor with | some m => decide (0x20 ≤ m) | none => false

/-- What the verifier reports of the PFX of a pair, and of its lane word (R111, R119, Table 6.5): a fault at the PFX
word, else a fault at the lane word. DEDUCED (log entry 42): the odd vc of an ATOMD CAS is a register that the lane word's
member takes misaligned, so it is reported at the lane word. -/
def pairFault (p : Prefix) (i : Instr) : Option (Bool × Reason) :=
  match i with
  | .pfx .. => some (true, .prefixPrefix)
  | _ =>
    if i.laneMajor = none then some (true, .prefixGroupSpace)
    else if i.isLM && decide (4 < p.rnd.toNat) then some (true, .operandRange)
    else if (match i with | .atomd _ _ _ op => op == 9 && !(aligned 2 p.vc) | _ => false) then
      some (false, .misalignedRegister)
    else if !(i.prefixRndOk p.rnd && i.prefixScopeOk p.scope && i.prefixZmOk p.zm && (i.readsVc || p.vc == 0)) then
      some (true, .prefixField)
    else none

/-- The lane-space word's major is one that Table 6.2 defines. -/
def laneMajorDefined (w : BitVec 32) : Bool := match decodeLane w with | .error .reservedMajor => false | _ => true

/-- Where a unit's word breaks a rule: its index, the word and the reason (Table 6.8). -/
structure Rejection where
  index : Nat
  word : BitVec 32
  reason : Reason
deriving DecidableEq, Repr

/-- One pass over the words of a verification unit (R115): the literal positions of the words from `index` on, or the
first rejection in address order (R119). `pfx` is the PFX that stands before the first word, and `lit` says that the
first word is the literal of the GL base word before it. -/
def verifyFrom (index : Nat) (lit : Bool) (pfx : Option (Prefix × BitVec 32)) :
    List (BitVec 32) → Except Rejection (List Nat)
  | [] => .ok []
  | w :: rest =>
    if lit then (verifyFrom (index + 1) false none rest).map (fun l => index :: l)
    else match decodeWord w (rest.headD 0) with
    | .error r =>
      match pfx with
      | some (p, pw) =>
        if w.getLsbD 31 then
          .error ⟨index - 1, pw, if w.extractLsb' 25 6 = 0x3F then .prefixPrefix else .prefixGroupSpace⟩
        else if laneMajorDefined w && 0x40000000#32 ≤ w && decide (4 < p.rnd.toNat) then
          .error ⟨index - 1, pw, .operandRange⟩
        else .error ⟨index, w, r⟩
      | none => .error ⟨index, w, r⟩
    | .ok (.pfx pm pinv zm rnd scope vc) =>
      match pfx with
      | some (_, pw) => .error ⟨index - 1, pw, .prefixPrefix⟩
      | none =>
        if rest.isEmpty then .error ⟨index, w, .lastPosition⟩
        else verifyFrom (index + 1) false (some (⟨pm, pinv, zm, rnd, scope, vc⟩, w)) rest
    | .ok i =>
      match pfx with
      | some (p, pw) =>
        match pairFault p i with
        | some (true, r) => .error ⟨index - 1, pw, r⟩
        | some (false, r) => .error ⟨index, w, r⟩
        | none => verifyFrom (index + 1) false none rest
      | none =>
        if i.readsVc then .error ⟨index, w, .prefixAbsent⟩
        else match i.literal, rest with
          | none, _ => verifyFrom (index + 1) false none rest
          | some _, [] => .error ⟨index, w, .lastPosition⟩
          | some _, _ :: _ => verifyFrom (index + 1) true none rest

/-- The verifier's check of one unit of 1,024 words (R115). -/
def verifyUnit (words : List (BitVec 32)) : Except Rejection (List Nat) := verifyFrom 0 false none words

end Sys2Proof
end

