-- ==== Sys2Proof/Machine/State.lean ====
section
/-!
DEFINITION. Sys2Proof/Machine/State.lean: everything the spec gives the LX9640, as plain data; the reasons a step can
stop; and the machine after reset (R307).
-/
namespace Sys2Proof.Machine

/-! ## Paths and their waits (R36, R46) -/

/-- A register of the memoisation sets K, X and Wr (R253). -/
structure RegSet where
  v : BitVec 128 := 0
  w : BitVec 64 := 0
  p : BitVec 8 := 0
deriving DecidableEq, Repr

/-- A register named in an output list (R255). -/
inductive OutReg where
  | vector (n : BitVec 7)
  | uniform (n : BitVec 6)
  | predicate (n : BitVec 3)
deriving DecidableEq, Repr

/-- The key of one unit of a pure region (R254): its halfwords in key order, whether it holds a signature that equals
nothing (R255), and whether MLOOK found it missing. -/
structure UnitKey where
  halves : List (BitVec 16) := []
  null : Bool := false
  missed : Bool := true
deriving DecidableEq, Repr

/-- An open pure region (R253, R263). Keys stand by unit number: the lane, the quad, or 0 for a group or tile region. -/
structure PureRegion where
  handle : BitVec 4
  cls : BitVec 3
  gran : BitVec 2
  cost : BitVec 32
  keyed : RegSet := {}
  excluded : RegSet := {}
  written : RegSet := {}
  keys : List (Nat × UnitKey) := []
  sawMkeyt : Bool := false
  outputs : List OutReg := []
  hit : LaneMask := 0
  units : LaneMask := 0
  epoch : BitVec 32 := 0
  looked : Bool := false
deriving DecidableEq, Repr

/-- A byte range of a team's scratchpad: first offset and length. -/
structure Span where
  start : Nat
  len : Nat
deriving DecidableEq, Repr

/-- What a trap records (R278, R279). -/
structure TrapInfo where
  cause : BitVec 8
  tpc : BitVec 64
  taddr : BitVec 64 := 0
  tinfo : BitVec 64 := 0
  mask : LaneMask := 0
deriving DecidableEq, Repr

/-- A fault record of 64 bytes (R297). -/
structure FaultRecord where
  info : TrapInfo
  group : Nat
  core : Nat
  node : Nat
deriving DecidableEq, Repr

/-- Which engine queue an instruction waits on (R208, R212, R222, R240). -/
inductive EngineQueue where
  | copy (n : Nat)
  | dcmp
  | matrix
  | transform
deriving DecidableEq, Repr

/-- What a BARR or BARS writes when its phase completes (R319, R320). -/
inductive BarDest where
  | none
  | uniform (wd : BitVec 6) (op : BitVec 6)
  | lanes (vd : BitVec 7) (op : BitVec 6)
deriving DecidableEq, Repr

/-- Why a path does not issue (Table 2.5). -/
inductive Wait where
  /-- a named barrier's open phase (R47) -/
  | barrier (b : Nat) (dest : BarDest)
  /-- the switch barrier of SWPT n (R62) -/
  | switchPoint (n : Nat)
  /-- the team barrier of REGRP (R276) -/
  | regroup (vk : BitVec 7) (n : Nat)
  /-- an ungranted request (R60) -/
  | grow (wd : BitVec 6) (v : BitVec 2)
  /-- the jobs of batches up to a number (R209) -/
  | batch (n : BitVec 64)
  /-- a full or undeclared ring of another team (R217) -/
  | ringSpace (slot ring : Nat) (entry : BitVec 128)
  /-- an empty ring (R217); `pop` for MPOP -/
  | ringEntry (ring : Nat) (wd : BitVec 6) (pop : Bool)
  /-- a full edge (R73) -/
  | edgeSlot (e : Nat) (token : BitVec 128)
  /-- an empty open edge, or an earlier team of the curve (R73) -/
  | edgeToken (e : Nat) (wd ws : BitVec 6)
  /-- pending footprints over bytes to be read or written (R193) -/
  | footprint (spans : List Span) (write : Bool)
  /-- pending footprints over granules whose tags an instruction reads or writes (R195, R241) -/
  | tags (granules : List Nat)
  /-- a row of a tile (R194) -/
  | watermark (tile row : Nat)
  /-- every operation in flight on a tile (R194) -/
  | tileIdle (tile : Nat)
  /-- space in an engine queue -/
  | engineQueue (q : EngineQueue)
  /-- table walks of the pages at these addresses (R176) -/
  | walk (pages : List (BitVec 64))
  /-- a count of clocks (R431) -/
  | sleep (clocks : BitVec 64)
  /-- the group's earlier stores on their way to the system cache (R163) -/
  | stores
  /-- every core's instance of a Carillon-home slot (R250); `advance` is MGEN's destination -/
  | memo (slot : Nat) (advance : Option (BitVec 6))
  /-- the pure region of the sibling path (R253) -/
  | siblingRegion
  /-- the host's answer to a routed fault (R280): the record's index in the region's fault queue -/
  | parked (index : BitVec 32) (info : TrapInfo) (replay : Bool)
  /-- a full fault queue (R295): the record to write -/
  | faultQueue (info : TrapInfo) (replay : Bool)
  /-- a delivered trap not yet taken (R280) -/
  | delivery (info : TrapInfo)
deriving DecidableEq, Repr

/-- What a halted path that had arrived at a barrier or switch point holds (R87): its wait, which it enters again when its
instruction issues after the restore, and whether the phase has completed since. -/
structure Reentry where
  wait : Wait
  ended : Bool := false
deriving DecidableEq, Repr

/-- A path in a slot (R36). -/
structure Path where
  pc : BitVec 64 := 0
  mask : LaneMask := 0
  fi : BitVec 5 := 0
  fv : Bool := false
  wait : Option Wait := none
  region : Option PureRegion := none
  /-- every walk for the instruction has ended: it re-issues (R176) -/
  walked : Bool := false
  /-- the core's stores that the instruction waited for have reached the system cache: it re-issues (R163) -/
  released : Bool := false
  /-- breakpoint matching is suppressed for the next instruction (R284) -/
  bpSkip : Bool := false
  /-- the wait that its instruction enters again after a restore (R87, R320) -/
  again : Option Reentry := none
deriving DecidableEq, Repr

/-! ## Groups (R28, R89) -/

/-- An entry of the operand latch (R95): the slot that issued and the register it holds. -/
structure Latch where
  slot : Bool
  reg : BitVec 7
deriving DecidableEq, Repr

/-- What the device keeps of a group in trap mode (R96, R281): the interrupted slots and pure regions, and the path
block it wrote at TFRAME (Table 16.3). -/
structure TrapContext where
  slot : Bool
  path0 : Option Path
  path1 : Option Path
  cur : Bool
  docc : BitVec 32
  dsbase : BitVec 64
  block : BitVec 1024
  /-- consecutive issues of the interrupted current path (R43, R51) -/
  issues : Nat := 0
deriving DecidableEq, Repr

/-- A group of W lanes. -/
structure Group where
  path0 : Option Path := none
  path1 : Option Path := none
  cur : Bool := false
  /-- consecutive issues of the current path (R43) -/
  issues : Nat := 0
  /-- issue cycles the group could issue in without issuing (R51) -/
  age : Nat := 0
  docc : BitVec 32 := 0
  dsbase : BitVec 64 := 0
  /-- physical address of the group's save record, which TFRAME reads (R299) -/
  record : BitVec 64 := 0
  /-- global address of the private area (R156) -/
  pbase : BitVec 64 := 0
  quadrant : Nat := 0
  retired : Bool := false
  /-- lanes that have not exited (R42) -/
  live : LaneMask := 0
  /-- helper lanes of a fragment team (R274, R275) -/
  helper : LaneMask := 0
  /-- the group in which a lane of a fragment team started, which its pixel goes by (R274, R276) -/
  homes : NMap Nat := []
  /-- v0 to v127 of every lane: register n of lane l at key 64 n + l -/
  vregs : NMap Word := []
  /-- w1 to w63 -/
  wregs : NMap DWord := []
  /-- p1 to p7 -/
  preds : NMap LaneMask := []
  /-- em0 to em7; an unlisted mask is all ones (R93) -/
  masks : NMap Word := []
  flags : BitVec 5 := 0
  tcause : BitVec 8 := 0
  tpc : BitVec 64 := 0
  taddr : BitVec 64 := 0
  tmask : BitVec 64 := 0
  tmaskh : BitVec 64 := 0
  tinfo : BitVec 64 := 0
  trap : Option TrapContext := none
  /-- the shadow set of trap mode: v0 to v15, keyed as `vregs` -/
  shadowV : NMap Word := []
  /-- the shadow set of trap mode: w56 to w63 -/
  shadowW : NMap DWord := []
  latchA : Option Latch := none
  latchB : Option Latch := none
  /-- the batch counter (R209) -/
  batch : BitVec 64 := 1
  /-- not chosen while another group of the quadrant can issue (R431) -/
  yieldHold : Bool := false
  /-- issue cycles of the quadrant since the YIELD that holds the group (R431) -/
  yieldCycles : Nat := 0
deriving DecidableEq, Repr

/-! ## Engine operations and jobs -/

/-- One operand of a matrix operation (R220). -/
structure FormatBlock where
  off : Nat
  stride : Nat
  fmt : BitVec 8
  blc : Nat
  blkoff : Nat
  bandoff : Option Nat
deriving DecidableEq, Repr

/-- What a matrix-queue operation computes (R222, R227, R233). -/
inductive MatrixKind where
  | mma (zero : Bool) (a b : FormatBlock)
  | mmas (zero : Bool) (a b : FormatBlock) (b2 : Nat) (d : Int)
  | accst (off stride : Nat) (fmt : BitVec 8)
deriving DecidableEq, Repr

/-- An accepted operation of a core's matrix queue (R224). -/
structure MatrixOp where
  seq : Nat
  team : Nat
  group : Nat
  batch : BitVec 64
  tile : Nat
  masks : List Word
  kind : MatrixKind
  started : Bool := false
  row : Nat := 0
deriving DecidableEq, Repr

/-- A transform descriptor (Table 13.4). -/
structure TransformDesc where
  off : Nat
  count : Nat
  stride : Nat
  fmt : BitVec 8
  shift : Nat
  reserved : Nat
deriving DecidableEq, Repr

/-- Where a transform reads (R237 to R239). -/
inductive TransformKind where
  | xft (src : TransformDesc)
  | ixftTile (tile : Nat) (et : Int)
  | ixftScratch (src : TransformDesc) (exp : Int)
  | xact (tile : Nat) (et : Int) (f : Nat) (bias : Option TransformDesc)
deriving DecidableEq, Repr

/-- An accepted operation of a core's transform unit (R240). -/
structure TransformOp where
  seq : Nat
  team : Nat
  group : Nat
  batch : BitVec 64
  len : Nat
  dst : TransformDesc
  kind : TransformKind
deriving DecidableEq, Repr

/-- The state of a running SipHash-2-4-128 (R205, R211): the four words, the bytes not yet compressed and the count of
bytes taken. -/
structure SipState where
  v0 : BitVec 64
  v1 : BitVec 64
  v2 : BitVec 64
  v3 : BitVec 64
  tail : List Byte := []
  count : Nat := 0
deriving DecidableEq, Repr

/-- A decoded DCMP card (Table 11.4). -/
structure DcmpCard where
  done : BitVec 64
  badList : BitVec 64
  badCap : Nat
  lastLen : Nat
  ctab : BitVec 64
  alg : Nat
  logChunk : Nat
  nChunk : Nat
  dst : BitVec 64
  src : BitVec 64
deriving DecidableEq, Repr

/-- Consecutive physical bytes, each with the bits in `mask`. -/
structure TakenRun where
  start : Nat
  len : Nat
  mask : BitVec 8
deriving DecidableEq, Repr

/-- A copy job (R199, R211). -/
structure CopyJob where
  seq : Nat
  team : Nat
  group : Nat
  batch : BitVec 64
  card : BitVec 320
  chunk : Nat := 0
  hash : Option SipState := none
  /-- the card of a decompressing copy, once read (R206) -/
  dcmp : Option DcmpCard := none
  /-- the count of its bad-chunk list, as read when it starts (R214) -/
  listCount : Option Nat := none
  suspended : Bool := false
  /-- the key it hashes under has been erased: it fails (R293) -/
  keyLost : Bool := false
  /-- physical bytes that later jobs of its group have written before it, and that it leaves alone (R208; log entry 35) -/
  taken : List TakenRun := []
deriving DecidableEq, Repr

/-- A DCMP job (R212, R214). -/
structure DcmpJob where
  seq : Nat
  team : Nat
  group : Nat
  batch : BitVec 64
  addr : BitVec 64 := 0
  card : BitVec 512
  chunk : Nat := 0
  listCount : Nat := 0
  overflow : Bool := false
  malformed : Bool := false
  /-- its card has been checked and its list's count read (R214) -/
  started : Bool := false
  suspended : Bool := false
  /-- physical bytes that later jobs of its group have written before it, and that it leaves alone (R208; log entry 35) -/
  taken : List TakenRun := []
deriving DecidableEq, Repr

/-- A staged entry of a list that the device writes for a deterministic launch (R84): the list's header, its index slots,
the chunk index, and the job's number of acceptance. -/
structure ListEntry where
  list : BitVec 64
  slots : Nat
  value : BitVec 32
  seq : Nat
deriving DecidableEq, Repr

/-- A run-time failure of a job that WAITB or TESTB has not reported (R210). -/
structure JobFault where
  seq : Nat
  group : Nat
  batch : BitVec 64
  reason : BitVec 8
  taddr : BitVec 64
  /-- reason 0x10: the job stands suspended and resumes when the replayed instruction issues -/
  resumable : Bool
  reported : Bool := false
deriving DecidableEq, Repr

/-! ## Teams (R28, R33) -/

/-- A named barrier, or the switch barrier (R318). -/
structure Barrier where
  phase : BitVec 32 := 0
  arrived : BitVec 16 := 0
  /-- reduction contributions: group, operation and lane values in arrival order (R320) -/
  contributions : List (Nat × BitVec 6 × List (Nat × Word)) := []
  /-- the switch point each arriving group named (R62) -/
  points : List (Nat × Nat) := []
  /-- every group has arrived and the switch is draining (R63) -/
  draining : Bool := false
deriving DecidableEq, Repr

/-- A receive ring (R216). -/
structure Ring where
  base : Nat := 0
  capacity : Nat := 0
  head : BitVec 32 := 0
  tail : BitVec 32 := 0
  declared : Bool := false
  sender : Option (Nat × Nat) := none
  /-- a lane store has reached the ring's area: its entries are undefined (R216) -/
  spoiled : Bool := false
deriving DecidableEq, Repr

/-- A tile tag (R232). -/
structure TileTag where
  spectral : Bool := false
  logb : Nat := 0
  et : Int := 0
deriving DecidableEq, Repr

/-- The team's variant request (R59). -/
structure Request where
  target : BitVec 2 := 0
  valid : Bool := false
  granted : Bool := false
  /-- the quadrants in which a grant reserves places for the groups to come -/
  quads : List Nat := []
deriving DecidableEq, Repr

/-- A mesh declaration (R272). -/
structure MeshDecl where
  off : Nat
  verts : Nat
  prims : Nat
  trapOnFlag : Bool
deriving DecidableEq, Repr

/-- Where a team stands in its life (R34, R49, R86, R286). -/
inductive TeamStatus where
  | resident
  | halted
  | saved
  | retired
  | killed
deriving DecidableEq, Repr

/-- A team. -/
structure Team where
  status : TeamStatus := .resident
  node : Nat := 0
  /-- placement index of the ensemble in its node -/
  ens : Nat := 0
  /-- residence order on the device -/
  residence : Nat := 0
  x : Nat := 0
  y : Nat := 0
  z : Nat := 0
  ensIx : Nat := 0
  rank : Nat := 0
  tag : BitVec 16 := 0
  core : Nat := 0
  variant : BitVec 2 := 0
  groups : List Group := []
  sp : NMap Byte := []
  gtags : NMap Word := []
  /-- tile t, element f at key 1024 t + f -/
  acc : NMap Word := []
  ttags : NMap TileTag := []
  /-- barriers 0 to 15, and 16 for the switch barrier, 17 for REGRP's -/
  barriers : NMap Barrier := []
  rings : NMap Ring := []
  request : Request := {}
  memoHit : BitVec 64 := 0
  memoMiss : BitVec 64 := 0
  meshFlags : BitVec 16 := 0
  decl : Option MeshDecl := none
  /-- the team's image in the save area: physical address and size (R299) -/
  image : Nat := 0
  imageSize : Nat := 0
  /-- staged tokens: group, edge number, token (R75) -/
  tokens : List (Nat × Nat × BitVec 128) := []
  /-- staged list entries, by their jobs' acceptance and then by chunk (R84) -/
  entries : List ListEntry := []
  /-- list headers whose overflow flag is set when the team retires (R84) -/
  entryOverflow : List (BitVec 64) := []
  faults : List JobFault := []
  /-- copy and DCMP jobs suspended by a save (R211) -/
  savedCopies : List CopyJob := []
  savedDcmps : List DcmpJob := []
  relaunches : Nat := 0
  /-- the ensemble's team count, Ex × Ey × Ez (R29) -/
  ensTeams : Nat := 1
deriving DecidableEq, Repr

/-! ## Core and cluster units (R15, R18, R163, R174) -/

/-- A translation entry held in a TLB (R174): its root, the page it maps, and where its leaf stands. -/
structure TlbEntry where
  root : Nat
  va : Nat
  size : Nat
  pa : Nat
  wr : Bool
  cv : Bool
  pte : Nat
deriving DecidableEq, Repr

/-- What writes the bytes of a word (R291): a store instruction, by the step it issued in, or a job, by its number of
acceptance. -/
inductive Writer where
  | store (tick : Nat)
  | job (seq : Nat)
deriving DecidableEq, Repr

/-- The bytes of a poisoned word that one store instruction or one job has written so far (R291). -/
structure PoisonPart where
  word : Nat
  writer : Writer
  bytes : BitVec 8
deriving DecidableEq, Repr

/-- A content signature in memory that the device wrote (R246), and whether it has been voided (R268, R305). -/
structure ContentSignature where
  region : Nat
  address : Nat
  void : Bool := false
deriving DecidableEq, Repr

/-- A write-through store on its way to the system cache (R163). -/
structure PendingStore where
  team : Nat
  group : Nat
  /-- the step its instruction issued in -/
  tick : Nat := 0
  address : Nat
  bytes : List Byte
deriving DecidableEq, Repr

/-- A core's caches, engines and outgoing stores. Its registers, scratchpad and tiles stand with its teams. -/
structure CoreUnit where
  /-- L1 data lines: line number (address / 128) and 128 bytes, byte i in bits 8 i + 7 to 8 i -/
  l1 : List (Nat × BitVec 1024) := []
  tlb : List TlbEntry := []
  outgoing : List PendingStore := []
  matrixQ : List MatrixOp := []
  copyQ : List CopyJob := []
  transformQ : List TransformOp := []
deriving DecidableEq, Repr

/-- A vertex placed on screen (R273): position in 1/256 pixel, depth and w as FP32 bits. -/
structure ScreenVertex where
  x : Int
  y : Int
  z : Word
  cx : Word
  cy : Word
  cz : Word
  cw : Word
deriving DecidableEq, Repr

/-- A primitive passed to the binning unit (R272). -/
structure MeshPrim where
  node : Nat
  team : Nat := 0
  /-- the step that committed it: one job of the unit is what one MEMIT passes -/
  job : Nat := 0
  key : BitVec 32
  draw : BitVec 16
  v0 : BitVec 128
  v1 : BitVec 128
  v2 : BitVec 128
deriving DecidableEq, Repr

/-- A binned primitive (R273). -/
structure BinnedPrim where
  node : Nat
  key : BitVec 32
  draw : BitVec 16
  a : ScreenVertex
  b : ScreenVertex
  c : ScreenVertex
  tiles : List (Nat × Nat)
deriving DecidableEq, Repr

/-- A render target (Table 15.1). -/
structure Target where
  base : BitVec 64
  pitch : BitVec 64
  width : Nat
  height : Nat
  fmt : Nat
  retained : Bool
  sigBase : BitVec 64
  cost : Nat
deriving DecidableEq, Repr

/-- A pass being rendered (R271): its record's address in the region's space, what its record gave, and what has been
binned. -/
structure Pass where
  /-- the node that named it first, which tells it from a later pass of the same record -/
  opener : Nat
  region : Nat
  record : BitVec 64
  arena : Nat := 0
  targets : List Target := []
  arenaSize : Nat := 0
  prims : List BinnedPrim := []
  /-- mesh nodes that named the pass, in submission order, and their draw numbers -/
  draws : List (Nat × BitVec 16) := []
  closed : Bool := false
  /-- tiles to shade, in launch order, once the pass has closed (R274) -/
  tiles : List (Nat × Nat) := []
  /-- signatures to be stored: tile, target, signature (R264) -/
  signatures : List ((Nat × Nat) × Nat × BitVec 128) := []
deriving DecidableEq, Repr

/-- A cluster's second-level TLB, decompression engine and binning unit (R18). -/
structure ClusterUnit where
  tlb : List TlbEntry := []
  dcmpQ : List DcmpJob := []
  /-- the job the decompression engine is at, by its number of acceptance (R18) -/
  dcmpAt : Option Nat := none
  binQ : List MeshPrim := []
  /-- the job the binning unit is at -/
  binJob : Option Nat := none
deriving DecidableEq, Repr

/-! ## Regions (R76, R295) and memo tables (R247) -/

/-- An entry of a memo table (R248). -/
structure MemoEntry where
  gen : BitVec 16
  h : BitVec 32
  key : List Byte
  outputs : List Byte
deriving DecidableEq, Repr

/-- An instance of a memo slot (R247). Entries stand by set * WAYS + way; recency lists the ways of a set, most recent
first. -/
structure MemoInstance where
  entries : NMap (Option MemoEntry) := []
  recency : NMap (List Nat) := []
  gen : BitVec 16 := 0
  epoch : BitVec 32 := 0
  hits : BitVec 64 := 0
  misses : BitVec 64 := 0
  inserts : BitVec 64 := 0
  evictions : BitVec 64 := 0
  collisions : BitVec 64 := 0
  saved : BitVec 64 := 0
deriving DecidableEq, Repr

/-- A created memo slot: the device's own copy of its fields and its instances, by core, or at 0 for a system-cache
home (R247, R296). -/
structure MemoSlot where
  logent : Nat := 2
  ways : Nat := 1
  keyb : Nat := 1
  outb : Nat := 1
  home : Nat := 0
  mode : Nat := 0
  wayMask : BitVec 16 := 0
  instances : NMap MemoInstance := []
deriving DecidableEq, Repr

/-- A region (R76): the fields taken at activation from its control block; live fields are read from the block. -/
structure Region where
  active : Bool := false
  rcb : Nat := 0
  qbase : Nat := 0
  qhead : Nat := 0
  /-- the tail that the last accepted tail write gave (R68) -/
  qtail : Nat := 0
  logq : Nat := 4
  parent : Nat := 0
  prio : Nat := 0
  deadlineClass : Nat := 0
  isProtected : Bool := false
  fdom : Nat := 0
  share : Nat := 0
  ways : BitVec 16 := 0
  cores : BitVec 144 := 0
  budget : Nat := 0
  period : Nat := 0
  root : Nat := 0
  tvec : BitVec 64 := 0
  save : Nat := 0
  saveSize : Nat := 0
  priv : BitVec 64 := 0
  privSize : Nat := 0
  fqbase : Nat := 0
  fqtail : BitVec 32 := 0
  memotab : Nat := 0
  /-- bandwidth credit of each of the 16 controllers, in bytes (R77) -/
  credit : NMap Nat := []
  budgetSpent : Bool := false
  preemptAsked : Bool := false
  savedWork : BitVec 64 := 0
  lastSample : BitVec 64 := 0
  slots : NMap (Option MemoSlot) := []
  /-- fault records of no path that wait on a full queue (R450, R295) -/
  waitingRecords : List FaultRecord := []
deriving DecidableEq, Repr

/-! ## Nodes (R67) and kernel images (R126) -/

/-- A variant entry (Table 7.3). -/
structure Variant where
  regs : Nat := 4
  uregs : Nat := 8
  groups : Nat := 1
  acc : Nat := 0
  scratch : Nat := 0
  entry : Nat := 0
  swMask : BitVec 16 := 0
  swOff : List Nat := []
deriving DecidableEq, Repr

/-- A live value of a map (Table 7.4): its class, and its register in each variant. -/
structure LiveValue where
  cls : Nat
  regs : List (BitVec 8)
deriving DecidableEq, Repr

/-- A memo-table declaration (Table 7.6). -/
structure MemoDecl where
  handle : Nat
  logent : Nat
  ways : Nat
  keyb : Nat
  outb : Nat
  home : Nat
  wayMask : BitVec 16
  mode : Nat
  policy : Nat
deriving DecidableEq, Repr

/-- A tolerance class (R244). -/
structure Tolerance where
  f16 : Nat := 0
  f32 : Nat := 0
  int : Nat := 0
  flush : Bool := false
deriving DecidableEq, Repr

/-- What Gamelan reads of a kernel image (R131). -/
structure Image where
  variants : NMap (Option Variant) := []
  codeOff : Nat := 0
  maps : List (Nat × List LiveValue) := []
  tolerance : List Tolerance := []
  memo : List MemoDecl := []
deriving DecidableEq, Repr

/-- Node states (Table 4.1). -/
inductive NodeState where
  | submitted | waiting | ready | running | complete | failed
deriving DecidableEq, Repr

/-- An entry of a written-resource list (Table 17.8). -/
structure Resource where
  trailer : BitVec 64
  sigAddr : BitVec 64
  rt : Bool
  rehashed : Bool
deriving DecidableEq, Repr

/-- A node (Table 17.3), as Gamelan holds it from its validation on. -/
structure Node where
  region : Nat := 0
  /-- physical address of the record -/
  addr : Nat := 0
  kind : Nat := 0
  state : NodeState := .waiting
  reason : BitVec 8 := 0
  imageAddr : BitVec 64 := 0
  image : Image := {}
  nodearg : BitVec 64 := 0
  brecbase : BitVec 64 := 0
  gx : Nat := 1
  gy : Nat := 1
  gz : Nat := 1
  ex : Nat := 1
  ey : Nat := 1
  ez : Nat := 1
  allowed : BitVec 4 := 0
  preferred : BitVec 2 := 0
  det : Bool := false
  sysScope : Bool := false
  idempotent : Bool := false
  priv : Nat := 0
  deadlineClass : Nat := 0
  head : Nat := 0
  line : Nat := 0
  targetFrame : Nat := 0
  missed : Bool := false
  passRef : BitVec 64 := 0
  passRecord : BitVec 64 := 0
  /-- its pass, by the pass's opener -/
  pass : Option Nat := none
  /-- its pass has closed before it has completed (R271) -/
  late : Bool := false
  vstride : Nat := 0
  cull : Nat := 0
  draw : BitVec 16 := 0
  drawState : List Byte := []
  edges : List (BitVec 64) := []
  memo : List (BitVec 8) := []
  acquires : List (Nat × BitVec 32) := []
  releases : List (Nat × BitVec 12) := []
  resources : List Resource := []
  /-- ensembles placed so far -/
  placed : Nat := 0
  hold : Bool := false
  /-- cores that have come free since the hold (R80) -/
  heldCores : List Nat := []
  teamKilled : Bool := false
  /-- a failure found after validation, not yet acted on (R450, R273) -/
  failing : Option (BitVec 8) := none
  /-- command operands (R302) -/
  opA : BitVec 64 := 0
  opB : BitVec 64 := 0
  opC : BitVec 64 := 0
  opD : BitVec 32 := 0
  /-- a command that has started and waits to complete -/
  started : Bool := false
deriving DecidableEq, Repr

/-! ## The device -/

/-- A display head's published position (R81). -/
structure Head where
  scanning : Bool := false
  fc : Nat := 0
  ln : Nat := 0
  vt : Nat := 0
  lp : Nat := 0
deriving DecidableEq, Repr

/-- A passed verification unit: its number (physical address / 4,096), the indices of its literal words (R116), and what the
verifier saw of its switch points, the index and the operand of each `SWPT` word (DESIGN CHOICE, log entry 43). -/
structure PassedUnit where
  unit : Nat
  literals : List Nat
  switches : List (Nat × Nat) := []
deriving DecidableEq, Repr

/-- An executable mapping (R118): the leaf it marks, the page and its size. -/
structure ExecMapping where
  root : Nat
  va : Nat
  size : Nat
  pa : Nat
  pte : Nat
deriving DecidableEq, Repr

/-- An event the device raises of its own accord; each is the row of the opcode table that has its name, and `command` is
a command node's (Table 17.4). -/
inductive Event where
  | nodeValidate (region : Nat)
  | nodeFail (node : Nat)
  | nodeReady (node : Nat)
  | ensemblePlacement (node : Nat) (cores images privs : List Nat)
  | teamRetire (team : Nat)
  | tryGrant (core : Nat)
  | growDeadlockSpill (core : Nat)
  | variantSwitch (team image : Nat) (privs : List Nat)
  | preemption (node ens : Nat)
  | contextSave (team : Nat)
  | ensembleRestore (node ens : Nat) (cores : List Nat)
  | faultQueueSpace (region : Nat)
  | faultDelivery (team group : Nat) (slot : Bool)
  | pathSwitchCount (team group : Nat)
  | groupAging (team group : Nat)
  | yieldHoldExpire (team group : Nat)
  | sleepExpire (team group : Nat) (slot : Bool)
  | sleepWake (team group : Nat) (slot : Bool)
  | tableWalkComplete (team group : Nat) (slot : Bool)
  | footprintWaitEnd (team group : Nat) (slot : Bool)
  | watermarkWaitEnd (team group : Nat) (slot : Bool)
  | engineQueueSpace (team group : Nat) (slot : Bool)
  | edgeSlotFree (team group : Nat) (slot : Bool)
  | edgeTokenArrive (team group : Nat) (slot : Bool)
  | ringSpace (team group : Nat) (slot : Bool)
  | ringEntryArrive (team group : Nat) (slot : Bool)
  | batchWaitEnd (team group : Nat) (slot : Bool)
  | copyChunk (core : Nat)
  | dcmpChunk (cluster : Nat)
  | matrixOpStart (core : Nat)
  | matrixRowFinal (core : Nat)
  | transformOpComplete (core : Nat)
  | binningJob (cluster : Nat)
  | storesReachSystemCache (team group : Nat)
  | memoInstancesActed (team group : Nat) (slot : Bool)
  | command (node : Nat)
deriving DecidableEq, Repr

/-- The path whose turn it is: team, group and slot. -/
structure Focus where
  team : Nat := 0
  group : Nat := 0
  slot : Bool := false
deriving DecidableEq, Repr

/-- The LX9640. -/
structure State where
  /-- physical memory as the system cache holds it (R22, R164) -/
  mem : NMap Byte := []
  /-- poisoned 8-byte words, by address / 8 (R291) -/
  poison : List Nat := []
  /-- what has been written of words still poisoned (R291) -/
  poisonParts : List PoisonPart := []
  /-- enabled cores, bit 8 × cluster + core (R20) -/
  enabled : BitVec 144 := BitVec.allOnes 144
  /-- installed memory in bytes (R24, R294) -/
  installed : Nat := 2 ^ 36
  rootRcb : BitVec 64 := 0
  slotBase : BitVec 64 := 0
  saveWays : BitVec 64 := 0
  fdBase : BitVec 64 := 0
  intStatus : BitVec 64 := 0
  /-- tail registers of regions 0 to 255 -/
  tails : NMap DWord := []
  powerLevel : BitVec 64 := 600
  alarm : Bool := false
  /-- the key store: one 128-bit key per region (R305) -/
  keys : NMap (Option (BitVec 128)) := []
  heads : NMap Head := []
  regions : NMap Region := []
  nodes : List Node := []
  teams : List Team := []
  cores : NMap CoreUnit := []
  clusters : NMap ClusterUnit := []
  passes : List Pass := []
  /-- signature slots the device holds valid: region and physical address (R269) -/
  storedSignatures : List (Nat × Nat) := []
  /-- content signatures the device has written and nothing has overwritten (R246, R268) -/
  contentSignatures : List ContentSignature := []
  units : List PassedUnit := []
  execMaps : List ExecMapping := []
  /-- the last instance tag given to an ordinary launch (R157) -/
  tagCounter : BitVec 16 := 0
  /-- the counter of unique signatures (R245) -/
  uniqueCounter : BitVec 64 := 0
  /-- the order of acceptance of engine operations and jobs (R17, R224) -/
  acceptSeq : Nat := 0
  /-- the order in which teams become resident (R51) -/
  residenceSeq : Nat := 0
  /-- the prefix of the pair being executed (R106) -/
  pending : Option Prefix := none
  /-- the model's own: the path whose turn it is -/
  focus : Focus := {}
  /-- the model's own: the path whose turn it is stands chosen for the next path's turn (R51, R43) -/
  chosenNext : Bool := false
  /-- the model's own: whose turn the next step is, an event's or a path's -/
  eventTurn : Bool := false
  /-- the model's own: the source of the last event that was due, by class and number (R51) -/
  lastSource : Nat × Nat := (0, 0)
  /-- the model's own: events to take place next, oldest first -/
  agenda : List Event := []
  /-- the model's own: steps taken since reset, the argument of the clock -/
  ticks : Nat := 0
  /-- the model's own: the number of free values used so far -/
  freeCount : Nat := 0
deriving DecidableEq, Repr

/-! ## Reasons to stop -/

/-- A step the machine stops on. -/
inductive Fault where
  /-- Raised by the meaning of an instruction executed in a state whose focus names no path of a resident team.
  No step fetches there. Safe: the hardware has no such situation. -/
  | noPath
deriving DecidableEq, Repr

/-- A step the model gives no meaning to. -/
inductive Refusal where
  /-- Raised by `exec` for an instruction whose meaning is not written. Safe. -/
  | notModelled (mnemonic : String)
deriving DecidableEq, Repr

/-- The machine right after reset (R307): no region active, the key store empty, every core idle. -/
def State.reset : State := {}

end Sys2Proof.Machine
end

