-- ==== Sys2Proof/Machine/Ops.lean ====
section
/-!
DEFINITION. Sys2Proof/Machine/Ops.lean: the named operations over the state: teams, groups and paths, the divergence
stack, taking a trap and killing a team, and the frame every instruction's meaning stands in.
-/
namespace Sys2Proof.Machine

abbrev Outcome := Host.Outcome State Fault Refusal

/-! ## Parts of the state -/

def State.teamAt (s : State) (t : Nat) : Team := s.teams.getD t {}
def State.nodeAt (s : State) (n : Nat) : Node := s.nodes.getD n {}
def State.regionAt (s : State) (r : Nat) : Region := mapGet {} s.regions r
def State.coreAt (s : State) (c : Nat) : CoreUnit := mapGet {} s.cores c
def State.clusterAt (s : State) (c : Nat) : ClusterUnit := mapGet {} s.clusters c
def Team.groupAt (t : Team) (g : Nat) : Group := t.groups.getD g {}
def State.groupAt (s : State) (t g : Nat) : Group := (s.teamAt t).groupAt g

def State.setTeam (s : State) (t : Nat) (x : Team) : State := { s with teams := s.teams.set t x }
def State.setNode (s : State) (n : Nat) (x : Node) : State := { s with nodes := s.nodes.set n x }
def State.setRegion (s : State) (r : Nat) (x : Region) : State := { s with regions := mapSet {} s.regions r x }
def State.setCore (s : State) (c : Nat) (x : CoreUnit) : State := { s with cores := mapSet {} s.cores c x }
def State.setCluster (s : State) (c : Nat) (x : ClusterUnit) : State := { s with clusters := mapSet {} s.clusters c x }
def Team.setGroup (t : Team) (g : Nat) (x : Group) : Team := { t with groups := t.groups.set g x }
def State.setGroup (s : State) (t g : Nat) (x : Group) : State := s.setTeam t ((s.teamAt t).setGroup g x)

def Group.slot (g : Group) (b : Bool) : Option Path := if b then g.path1 else g.path0
def Group.setSlot (g : Group) (b : Bool) (p : Option Path) : Group :=
  if b then { g with path1 := p } else { g with path0 := p }

/-- The team, group and path whose turn it is. -/
def State.team (s : State) : Team := s.teamAt s.focus.team
def State.group (s : State) : Group := s.team.groupAt s.focus.group
def State.path (s : State) : Path := (s.group.slot s.focus.slot).getD {}
def State.node (s : State) : Node := s.nodeAt s.team.node
def State.region (s : State) : Region := s.regionAt s.node.region

def State.putTeam (s : State) (t : Team) : State := s.setTeam s.focus.team t
def State.putGroup (s : State) (g : Group) : State := s.setGroup s.focus.team s.focus.group g
def State.putPath (s : State) (p : Path) : State := s.putGroup (s.group.setSlot s.focus.slot (some p))

/-- Carry out `k` for the path of another focus, and return to the present one. -/
def State.at (s : State) (f : Focus) (k : State → State) : State := { k { s with focus := f } with focus := s.focus }

/-- The budget a team runs under: its variant's entry (R54). -/
def Node.variant (n : Node) (v : BitVec 2) : Variant := (mapGet none n.image.variants v.toNat).getD {}
def State.variantOf (s : State) (t : Team) : Variant := (s.nodeAt t.node).variant t.variant
def State.variant (s : State) : Variant := s.variantOf s.team
/-- SPSIZE of a team (R57). -/
def State.spSizeOf (s : State) (t : Team) : Nat := (s.variantOf t).scratch
def State.spSize (s : State) : Nat := s.spSizeOf s.team

/-- COREID of core `c`, counted 8 × cluster + core (R19). -/
def coreId (c : Nat) : Nat := 256 * (c / 8) + c % 8

/-- TEAMIX of a team (R30). -/
def State.teamIx (s : State) (t : Team) : Nat :=
  let n := s.nodeAt t.node
  t.x + n.gx * (t.y + n.gy * t.z)

/-- A team that holds resources or state: it has neither retired nor been killed. -/
def Team.alive (t : Team) : Bool := t.status = .resident || t.status = .halted || t.status = .saved

/-- A value the spec leaves open, fresh at each use. -/
def State.free (s : State) : BitVec 64 × State := (Config.freeValue s.freeCount, { s with freeCount := s.freeCount + 1 })

/-- `n` bytes that the spec leaves to the device, eight for each free value. -/
def State.freeBytes (s : State) : Nat → List Byte × State
  | 0 => ([], s)
  | n + 1 =>
    let (x, s) := s.free
    let (bs, s) := s.freeBytes n
    (natLe 8 x.toNat ++ bs, s)

/-! ## Registers (R89 to R96) -/

/-- A vector register the variant's budget holds (R55). -/
def Variant.hasV (v : Variant) (n : Nat) : Bool := decide (n < v.regs)
/-- A uniform register the budget holds; w63 is present in every variant (R55). -/
def Variant.hasW (v : Variant) (n : Nat) : Bool := decide (n < v.uregs) || n == 63

/-- Register vn of lane l: the shadow set in trap mode (R96), zero beyond the budget (R89). -/
def Group.vget (g : Group) (v : Variant) (n l : Nat) : Word :=
  if g.trap.isSome && decide (n < 16) then mapGet 0 g.shadowV (64 * n + l)
  else if v.hasV n then mapGet 0 g.vregs (64 * n + l) else 0

/-- Write vn in the lanes of a mask; a write beyond the budget is discarded. A latch entry of the register empties. -/
def Group.vset (g : Group) (v : Variant) (n : Nat) (mask : LaneMask) (f : Nat → Word) : Group :=
  let g := { g with latchA := g.latchA.filter (fun e => e.reg.toNat != n),
                    latchB := g.latchB.filter (fun e => e.reg.toNat != n) }
  if g.trap.isSome && decide (n < 16) then { g with shadowV := writeLanes g.shadowV n mask f }
  else if v.hasV n then { g with vregs := writeLanes g.vregs n mask f } else g

/-- Register wn: w0 reads zero (R89). -/
def Group.wget (g : Group) (v : Variant) (n : BitVec 6) : DWord :=
  if n = 0 then 0
  else if g.trap.isSome && decide (56 ≤ n.toNat) then mapGet 0 g.shadowW n.toNat
  else if v.hasW n.toNat then mapGet 0 g.wregs n.toNat else 0

def Group.wset (g : Group) (v : Variant) (n : BitVec 6) (x : DWord) : Group :=
  if n = 0 then g
  else if g.trap.isSome && decide (56 ≤ n.toNat) then { g with shadowW := mapSet 0 g.shadowW n.toNat x }
  else if v.hasW n.toNat then { g with wregs := mapSet 0 g.wregs n.toNat x } else g

/-- Predicate pn: p0 reads all ones (R89). -/
def Group.pget (g : Group) (n : BitVec 3) : LaneMask :=
  if n = 0 then BitVec.allOnes 64 else mapGet 0 g.preds n.toNat

/-- Write the bits of pn in the lanes of a mask. -/
def Group.pset (g : Group) (n : BitVec 3) (mask x : LaneMask) : Group :=
  if n = 0 ∨ mask = 0 then g else { g with preds := mapSet 0 g.preds n.toNat ((g.pget n &&& ~~~mask) ||| (x &&& mask)) }

/-- Edge mask emn (R93). -/
def Group.mask (g : Group) (n : Nat) : Word := mapGet (BitVec.allOnes 32) g.masks n
def Group.setMask (g : Group) (n : Nat) (x : Word) : Group :=
  { g with masks := mapSet (BitVec.allOnes 32) g.masks n x }

/-- Set sticky flags (R99). -/
def Group.orFlags (g : Group) (f : BitVec 5) : Group := { g with flags := g.flags ||| f }

/-! ## Physical memory and the region's live fields (R295) -/

def State.readPhys (s : State) (a n : Nat) : Nat := memNat s.mem a n

/-- A write of `n` bytes at `a` covers word `w`. -/
def coversWord (a n w : Nat) : Bool := decide (a ≤ 8 * w) && decide (8 * w + 8 ≤ a + n)

/-- The content signatures that a write of `n` bytes at `a` leaves as the device wrote them. -/
def keptSignatures (l : List ContentSignature) (a n : Nat) : List ContentSignature :=
  l.filter fun x => !(decide (a < x.address + 16) && decide (x.address < a + n))

/-- The content signature at a physical address has been voided, and equals nothing until it is written again (R268). -/
def State.voidAt (s : State) (a : Nat) : Bool :=
  s.contentSignatures.any fun x => x.void && decide (x.address < a + 16) && decide (a < x.address + 16)

/-- Write bytes at a physical address. A write of all 8 bytes of a poisoned word clears its poison (R291). -/
def State.writeBytes (s : State) (a : Nat) (bs : List Byte) : State :=
  { s with mem := memWrite s.mem a bs,
           poison := s.poison.filter fun w => !coversWord a bs.length w
           contentSignatures := keptSignatures s.contentSignatures a bs.length }

/-- The bytes of word `w` that a write of `n` bytes at `a` reaches. -/
def wordBytes (a n w : Nat) : BitVec 8 :=
  BitVec.ofNat 8 (((List.range 8).map fun i => if a ≤ 8 * w + i && 8 * w + i < a + n then 2 ^ i else 0).sum)

/-- Count the bytes of poisoned word `w` that a writer has written; with all eight its poison clears (R291). -/
def State.partWritten (s : State) (x : Writer) (a n w : Nat) : State :=
  let mine := fun (p : PoisonPart) => p.word == w && p.writer == x
  let m := wordBytes a n w ||| ((s.poisonParts.find? mine).map (·.bytes)).getD 0
  if m = 0 then s
  else if m = 0xFF then
    { s with poison := s.poison.filter (· != w), poisonParts := s.poisonParts.filter fun p => p.word != w }
  else { s with poisonParts := s.poisonParts.filter (fun p => !mine p) ++ [{ word := w, writer := x, bytes := m }] }

/-- Write bytes for a store instruction or a job, which clears the poison of a word that it writes all of, in parts or at
once (R291). -/
def State.writePart (s : State) (x : Writer) (a : Nat) (bs : List Byte) : State :=
  let t := s.writeBytes a bs
  t.poison.foldl (fun t w => t.partWritten x a bs.length w) t

/-- A word that the device writes by physical address. DESIGN CHOICE (log entry 75): in a passed unit it changes the unit (R117). -/
def State.writePhys (s : State) (a n x : Nat) : State := s.writeBytes a (natLe n x)

/-- Write zero bytes. -/
def State.zeroPhys (s : State) (a n : Nat) : State :=
  { s with mem := mapClear a n s.mem,
           poison := s.poison.filter fun w => !coversWord a n w
           contentSignatures := keptSignatures s.contentSignatures a n }

/-- Bytes the spec leaves to the device: free values, eight bytes at a time. -/
def State.writeFree (s : State) (a : Nat) : Nat → State
  | 0 => s
  | n + 1 =>
    let (x, s) := s.free
    (s.writePhys a 8 x.toNat).writeFree (a + 8) n

/-- CTL of a region's control block (Table 17.2). -/
def State.liveCtl (s : State) (r : Region) : Nat := s.readPhys (r.rcb + 0x17) 1
/-- ROUTE, live. -/
def State.liveRoute (s : State) (r : Region) : Nat := s.readPhys (r.rcb + 0x19) 1
/-- FQHEAD, live. -/
def State.liveFqHead (s : State) (r : Region) : BitVec 32 := BitVec.ofNat 32 (s.readPhys (r.rcb + 0x7C) 4)
/-- Breakpoint address i, live. -/
def State.liveBkpt (s : State) (r : Region) (i : Nat) : BitVec 64 := BitVec.ofNat 64 (s.readPhys (r.rcb + 0x80 + 8 * i) 8)
/-- Bit 3 of CTL: single step (R285). -/
def State.singleStep (s : State) (r : Region) : Bool := decide (s.liveCtl r / 8 % 2 = 1)

/-- Write the staged tokens and list entries of team `t` into its staging area (R75, R84, R299): the last 4 KiB of its
image's space. -/
def State.stageOut (s : State) (t : Nat) : State :=
  let x := s.teamAt t
  let a := x.image + x.imageSize - 4096
  let s := s.writeBytes a (x.tokens.flatMap fun p => natLe 16 p.2.2.toNat)
  s.writeBytes (a + 256) (x.entries.flatMap fun e => natLe 8 e.list.toNat ++ natLe 4 e.value.toNat ++ natLe 4 0)

/-- Raise an interrupt bit (Table 17.1). -/
def State.interrupt (s : State) (bit : Nat) : State := { s with intStatus := s.intStatus ||| BitVec.twoPow 64 bit }

/-! ## Teams on cores, and what their going frees (R60) -/

/-- The team holds its core: it is resident, or halted and not yet saved. -/
def Team.onCore (t : Team) : Bool := t.status = .resident || t.status = .halted

/-- Indices of the teams that hold a core. -/
def State.coreTeamIxs (s : State) (c : Nat) : List Nat :=
  (List.range s.teams.length).filter fun i => (s.teamAt i).core == c && (s.teamAt i).onCore

/-- An event is due. -/
def State.due (s : State) (e : Event) : State := if s.agenda.contains e then s else { s with agenda := s.agenda ++ [e] }

/-- A core that comes free is held for the nodes that have failed to place for long (R80). -/
def Node.heldCore (n : Node) (core : Nat) : Node :=
  if n.hold && !n.heldCores.contains core then { n with heldCores := n.heldCores ++ [core] } else n

/-- The requests that wait on a core are to be tried (R60). -/
def State.retryGrants (s : State) (core : Nat) : State :=
  if (s.coreTeamIxs core).any (fun i => (s.teamAt i).request.valid && !(s.teamAt i).request.granted) then
    s.due (.tryGrant core) else s

/-- Resources of a core have been freed: waiting requests are tried (R60), and holds take effect (R80). -/
def State.freed (s : State) (core : Nat) : State :=
  ({ s with nodes := s.nodes.map fun n => n.heldCore core } : State).retryGrants core

/-! ## Fault-domain records (R298) and killed teams (R286) -/

/-- What a fault-domain record tells of an event. -/
structure DomainEvent where
  kind : Nat
  region : Nat
  cause : Nat := 0
  tcause : Nat := 0
  group : Nat := 0
  core : Nat := 0
  tpc : Nat := 0
  taddr : Nat := 0
  node : Nat := 0

/-- Write domain `d`'s record and raise interrupt bit 4. KILLED is kept, or set by a kill of the domain. -/
def State.domainRecord (s : State) (d : Nat) (kills : Bool) (e : DomainEvent) : State :=
  let a := s.fdBase.toNat + 64 * d
  let events := (s.readPhys a 4 + 1) % 2 ^ 32
  let killed := if kills then 1 else s.readPhys (a + 5) 1
  ((s.writeBytes a
    (natLe 4 events ++ natLe 1 e.kind ++ natLe 1 killed ++ natLe 2 e.region ++ natLe 1 e.cause ++ natLe 1 e.tcause
      ++ natLe 1 e.group ++ natLe 1 0 ++ natLe 2 e.core ++ natLe 2 0 ++ natLe 8 e.tpc ++ natLe 8 e.taddr
      ++ natLe 8 e.node ++ natLe 24 0)).interrupt 4)

/-- Stop a team's copy and DCMP jobs; they write nothing further (R286), and the decompression engine leaves a job of it. -/
def State.stopJobs (s : State) (t : Nat) : State :=
  let core := (s.teamAt t).core
  let c := s.coreAt core
  let k := s.clusterAt (core / 8)
  let stops := (c.copyQ.filter fun j => j.team == t).map (·.seq) ++ (k.dcmpQ.filter fun j => j.team == t).map (·.seq)
  let s := s.setCore core { c with copyQ := c.copyQ.filter (fun j => j.team != t) }
  s.setCluster (core / 8) { k with dcmpQ := k.dcmpQ.filter (fun j => j.team != t)
                                   dcmpAt := if k.dcmpAt.any stops.contains then none else k.dcmpAt }

/-- The group after every path of it has stopped for good. -/
def Group.stopped (g : Group) : Group := { g with path0 := none, path1 := none, trap := none }

/-- Team `t` is killed: every path and every job of it stops, and no further team of its node is placed. -/
def State.killTeam (s : State) (t : Nat) : State :=
  let x := s.teamAt t
  let s := s.stopJobs t
  let s := s.setTeam t { x with status := .killed, groups := x.groups.map Group.stopped, savedCopies := [], savedDcmps := [] }
  s.setNode x.node { s.nodeAt x.node with teamKilled := true }

/-- Kill team `t` (R286): every path stops, its jobs stop, its resources are freed, so that its core tries the requests
that wait (R60), and no further team of its node is placed. A saved team holds no core. Accepted engine operations stay queued
and complete. -/
def State.stopTeam (s : State) (t : Nat) : State :=
  let x := s.teamAt t
  if x.alive then (if x.onCore then (s.killTeam t).freed x.core else s.killTeam t) else s

/-- A double fault of group `g` of team `t` (R286): the fault domain records the event, and the team is killed. -/
def State.doubleFault (s : State) (t g : Nat) (tcause : Nat) (tpc taddr : BitVec 64) : State :=
  let x := s.teamAt t
  let n := s.nodeAt x.node
  (s.stopTeam t).domainRecord (s.regionAt n.region).fdom false
    { kind := 1, region := n.region, cause := 0x14, tcause := tcause, group := g, core := coreId x.core,
      tpc := tpc.toNat, taddr := taddr.toNat, node := n.addr }

/-! ## Fault records (R297) -/

/-- Whether the region's fault queue has room for a record (R295). -/
def State.faultRoom (s : State) (r : Region) : Bool := decide ((r.fqtail - s.liveFqHead r).toNat < 256)

/-- Append a record to region `r`'s fault queue, count it in FQTAIL and raise interrupt bit 0. -/
def State.appendRecord (s : State) (r : Nat) (f : FaultRecord) : State :=
  let x := s.regionAt r
  let a := x.fqbase + 64 * (x.fqtail.toNat % 256)
  let s := s.writeBytes a
    (natLe 8 f.info.tpc.toNat ++ natLe 8 f.info.taddr.toNat ++ natLe 8 f.info.tinfo.toNat
      ++ natLe 16 f.info.mask.toNat ++ natLe 1 f.info.cause.toNat ++ natLe 1 f.group ++ natLe 2 f.core
      ++ natLe 4 x.fqtail.toNat ++ natLe 8 f.node ++ natLe 8 0)
  let s := s.setRegion r { x with fqtail := x.fqtail + 1 }
  (s.writePhys (x.rcb + 0x78) 4 (x.fqtail + 1).toNat).interrupt 0

/-- Enter a record of no path in a region's queue (R450): it waits where the queue is full. -/
def State.recordOrWait (s : State) (r : Nat) (f : FaultRecord) : State :=
  let x := s.regionAt r
  if s.faultRoom x && x.waitingRecords.isEmpty then s.appendRecord r f
  else s.setRegion r { x with waitingRecords := x.waitingRecords ++ [f] }

/-! ## Taking a trap (R279 to R281) -/

/-- SnCTL of a path block (Table 16.3). -/
def slotControl (p : Option Path) : BitVec 7 :=
  match p with
  | none => 0
  | some p => BitVec.ofBool p.fv ++ p.fi ++ 1#1

def slotPc (p : Option Path) : BitVec 64 := (p.map (·.pc)).getD 0
def slotMask (p : Option Path) : BitVec 64 := (p.map (·.mask)).getD 0

/-- The path block of a group (Table 16.3); `cur` is the CUR field's two low bits. -/
def pathBlock (p0 p1 : Option Path) (cur : BitVec 2) (docc : BitVec 32) (dsbase : BitVec 64) : BitVec 1024 :=
  BitVec.ofNat 1024
    ((slotPc p0).toNat + (slotPc p1).toNat * 2 ^ 64 + (slotMask p0).toNat * 2 ^ 160 + (slotMask p1).toNat * 2 ^ 288
      + (slotControl p0).toNat * 2 ^ 416 + (slotControl p1).toNat * 2 ^ 448 + docc.toNat * 2 ^ 480
      + cur.toNat * 2 ^ 512 + dsbase.toNat * 2 ^ 520)

/-- The wait a trap of the sibling path leaves standing: a barrier or switch-point wait (R279, R87), or the wait for
the host's answer to a routed fault (R280). -/
def Wait.kept : Wait → Bool
  | .barrier .. => true
  | .switchPoint .. => true
  | .regroup .. => true
  | .parked .. => true
  | .faultQueue .. => true
  | .delivery .. => true
  | _ => false

def Path.abandon (p : Path) : Path := { p with wait := p.wait.filter Wait.kept, walked := false, released := false }

/-- The trap registers of a group (R279, Table 16.1). -/
def Group.recordTrap (g : Group) (t : TrapInfo) : Group :=
  { g with tcause := t.cause, tpc := t.tpc, taddr := t.taddr, tmask := t.mask, tmaskh := 0, tinfo := t.tinfo }

/-- The group after it has entered trap mode on slot `slot` (R281): the shadow set is zero and one handler path stands
in slot 0 at the vector. The count of the interrupted path's issues is kept for RTE (R43, R51). -/
def Group.enterTrap (g : Group) (slot : Bool) (t : TrapInfo) (tvec : BitVec 64) (block : BitVec 1024) : Group :=
  let g := g.recordTrap t
  { g with trap := some { slot := slot, path0 := g.path0, path1 := g.path1, cur := g.cur, docc := g.docc,
                          dsbase := g.dsbase, block := block, issues := g.issues }
           shadowV := [], shadowW := [], latchA := none, latchB := none
           path0 := some { pc := tvec, mask := t.mask }, path1 := none, cur := false, issues := 0
           docc := 0, dsbase := g.record + 0x400 }

/-- Take a trap on the focused path under R281, or kill the team where TVEC is zero (R280, R286). The frame of
Table 16.2 is written at TFRAME; the record of an open pure region is in device format. -/
def State.takeTrap (s : State) (t : TrapInfo) : State :=
  let r := s.region
  if r.tvec = 0 then
    { s.doubleFault s.focus.team s.focus.group t.cause.toNat t.tpc t.taddr with pending := none }
  else
    let g := s.group
    let g := { g with path0 := g.path0.map Path.abandon, path1 := g.path1.map Path.abandon }
    let block := pathBlock g.path0 g.path1 (BitVec.ofBool s.focus.slot ++ BitVec.ofBool g.cur) g.docc g.dsbase
    let f := g.record.toNat
    let s := (s.zeroPhys f 0x800).zeroPhys (f + 0x3000) 0x1000
    let s := s.writePhys f 128 block.toNat
    let s := if (g.path0.bind (·.region)).isSome then s.writeFree (f + 0x800) 640 else s
    let s := if (g.path1.bind (·.region)).isSome then s.writeFree (f + 0x1C00) 640 else s
    let s := s.putGroup (g.enterTrap s.focus.slot t r.tvec block)
    { s with pending := none, focus := { s.focus with slot := false } }

/-- A slot holds a path that does not wait (R46). -/
def Group.ready (g : Group) (b : Bool) : Bool :=
  match g.slot b with
  | some p => p.wait.isNone
  | none => false

/-- The slot of a group that issues next (R43): its current slot, or the other where the current one cannot issue. -/
def Group.issueSlot (g : Group) : Option Bool :=
  if g.ready g.cur then some g.cur else if g.ready (!g.cur) then some (!g.cur) else none

/-- The current path has come to wait: issue switches to the other slot where that one can issue, with a new count of issues
and an empty latch (R43, R95). -/
def Group.handOver (g : Group) : Group :=
  if !g.ready g.cur && g.ready (!g.cur) then { g with cur := !g.cur, issues := 0, latchA := none, latchB := none } else g

/-- The route bit of a cause (R280). -/
def routeBit (cause : BitVec 8) : Option Nat :=
  if cause = 0x02 then some 0 else if cause = 0x03 then some 1 else if cause = 0x07 then some 2
  else if cause = 0x10 then some 3 else if cause = 0x11 then some 4 else none

/-- The host has set the cause's route bit. -/
def State.routed (s : State) (cause : BitVec 8) : Bool :=
  match routeBit cause with
  | none => false
  | some b => decide (s.liveRoute s.region / 2 ^ b % 2 = 1)

/-- The record of a trap of the focused path. -/
def State.faultRecord (s : State) (t : TrapInfo) : FaultRecord :=
  { info := t, group := s.focus.group, core := coreId s.team.core, node := s.node.addr }

/-- Park the focused path on a routed fault (R280): the record is written, or waits for a full queue (R295).
`replay` says that TPC is the faulting instruction. DESIGN CHOICE (log entry 65): the path is parked and no trap is taken, so
that the latch keeps its entries, but where the turn passes to the sibling (R95). -/
def State.routeFault (s : State) (t : TrapInfo) (replay : Bool) : State :=
  let r := s.region
  let w := if s.faultRoom r then Wait.parked r.fqtail t replay else Wait.faultQueue t replay
  let s := { s.putPath { s.path with wait := some w, walked := false, released := false } with pending := none }
  let s := s.putGroup s.group.handOver
  if s.faultRoom r then s.appendRecord s.node.region (s.faultRecord t) else s

/-- A purity trap closes the path's region without inserting: M becomes M | H (R258). -/
def Path.closeRegion (p : Path) : Path :=
  match p.region with
  | none => p
  | some r => { p with mask := p.mask ||| r.hit, region := none }

/-- An instruction of slot `b` has issued: it counts for the current slot, and the group is young again (R43, R51). -/
def Group.countIssue (g : Group) (b : Bool) : Group :=
  { g with issues := if g.cur == b then g.issues + 1 else g.issues, age := 0 }
def State.countIssue (s : State) : State := s.putGroup (s.group.countIssue s.focus.slot)

/-- A trap of the focused path (R278 to R282, R286): a double fault in trap mode, the host's queue for a routed cause, the
handler otherwise. -/
def State.trapNow (s : State) (t : TrapInfo) (replay : Bool) : State :=
  let s := if t.cause = 0x08 then s.putPath s.path.closeRegion else s
  if s.group.trap.isSome then
    { s.doubleFault s.focus.team s.focus.group t.cause.toNat t.tpc t.taddr with pending := none }
  else if s.routed t.cause then s.routeFault t replay
  else s.takeTrap t

/-- Raise a trap on the focused path. A trap, also one at a fetch, counts as an issue of its path (R43, R51; log entry 7). -/
def State.raiseTrap (s : State) (t : TrapInfo) (replay : Bool) : State := s.countIssue.trapNow t replay

/-! ## The frame of every instruction -/

/-- What an instruction's own effect comes to. -/
inductive Res where
  /-- it completes, and the path goes on at the next word -/
  | next (s : State)
  /-- it completes, and the path goes on at an address -/
  | goto (s : State) (pc : BitVec 64)
  /-- the effect has settled where its paths go -/
  | moved (s : State)
  /-- the path waits (R46) -/
  | wait (s : State) (w : Wait)
  /-- it traps; no mask means the path's own -/
  | trap (cause : BitVec 8) (taddr tinfo : BitVec 64) (mask : Option LaneMask := none)
  /-- it completes, and then traps with TPC at the next word (R272) -/
  | nextTrap (s : State) (cause : BitVec 8) (tinfo : BitVec 64)

/-- Where an instruction may stand in a pure region (Table 14.5). -/
inductive Purity where
  | all | quadUp | groupTile | never
  | only (ok : Bool)
  /-- the member makes its own checks -/
  | own
deriving DecidableEq

/-- What trap mode makes of an instruction (Table 16.4). -/
inductive InTrap where
  | allowed | refused | memo
deriving DecidableEq

/-- The registers an instruction reads and writes, and where it may stand (R94, R256, R257, R282). -/
structure Shape where
  vr : List Nat := []
  wr : List (BitVec 6) := []
  pr : List (BitVec 3) := []
  vw : List Nat := []
  ww : List (BitVec 6) := []
  pw : List (BitVec 3) := []
  purity : Purity := .never
  inTrap : InTrap := .allowed

def RegSet.hasV (r : RegSet) (n : Nat) : Bool := r.v.getLsbD n
def RegSet.hasW (r : RegSet) (n : BitVec 6) : Bool := r.w.getLsbD n.toNat
def RegSet.hasP (r : RegSet) (n : BitVec 3) : Bool := r.p.getLsbD n.toNat
def RegSet.addV (r : RegSet) (n : Nat) : RegSet := { r with v := r.v ||| BitVec.twoPow 128 n }
def RegSet.addW (r : RegSet) (n : BitVec 6) : RegSet := { r with w := r.w ||| BitVec.twoPow 64 n.toNat }
def RegSet.addP (r : RegSet) (n : BitVec 3) : RegSet := { r with p := r.p ||| BitVec.twoPow 8 n.toNat }
def RegSet.union (a b : RegSet) : RegSet := ⟨a.v ||| b.v, a.w ||| b.w, a.p ||| b.p⟩

/-- The first register read outside K, X and Wr, as class × 256 + number (R256). -/
def PureRegion.unkeyed (r : PureRegion) (sh : Shape) : Option Nat :=
  let ok := (r.keyed.union r.excluded).union r.written
  match sh.vr.find? (fun n => !ok.hasV n) with
  | some n => some n
  | none =>
    match sh.pr.find? (fun n => n != 0 && !ok.hasP n) with
    | some n => some (512 + n.toNat)
    | none =>
      match sh.wr.find? (fun n => n != 0 && !ok.hasW n) with
      | some n => some (256 + n.toNat)
      | none => none

/-- Whether Table 14.5 permits the instruction at the region's granularity (0 lane, 1 quad, 2 group, 3 tile). -/
def Purity.permits (p : Purity) (gran : BitVec 2) : Bool :=
  match p with
  | .all => true
  | .own => true
  | .quadUp => gran != 0
  | .groupTile => decide (2 ≤ gran.toNat)
  | .only ok => ok
  | .never => false

/-- The purity trap an instruction takes before any effect: TADDR and TINFO (R256, R257). -/
def PureRegion.violation (r : PureRegion) (sh : Shape) : Option (Nat × Nat) :=
  if sh.purity.permits r.gran then
    if sh.purity = .own then none else (r.unkeyed sh).map fun n => (n, 1)
  else some (0, 4)

/-- Every register an instruction writes joins Wr (R256). -/
def PureRegion.noteWrites (r : PureRegion) (sh : Shape) : PureRegion :=
  let w := sh.vw.foldl RegSet.addV r.written
  let w := sh.ww.foldl RegSet.addW w
  { r with written := sh.pw.foldl RegSet.addP w }

/-- The focus names a path that may issue: a path of a resident team that does not wait. -/
def State.live (s : State) : Bool :=
  s.team.status = .resident && decide (s.focus.team < s.teams.length)
    && decide (s.focus.group < s.team.groups.length) && (s.group.slot s.focus.slot).isSome
    && (s.path.wait).isNone

/-- The words of the instruction being executed: a pair takes two (R106). -/
def State.nextPc (s : State) (words : Nat) : BitVec 64 :=
  s.path.pc + BitVec.ofNat 64 (4 * (words + if s.pending.isSome then 1 else 0))

/-- Single step acts on the focused path: set by the host, and not in trap mode (R285). -/
def State.steps (s : State) : Bool := s.singleStep s.region && s.group.trap.isNone

/-- The focused path's instruction has completed at `pc`; with single step set the path traps with cause 0x11 and TPC `pc`,
its slot still at the instruction (R285, Table 16.3). -/
def State.proceed (s : State) (pc : BitVec 64) : State :=
  let p := { s.path with
    pc := if s.steps then s.path.pc else pc, wait := none, walked := false, released := false, bpSkip := false, again := none }
  let t := { s.putPath p with pending := none }
  if s.steps then t.trapNow { cause := 0x11, tpc := pc, mask := p.mask } false else t

/-- Complete at `pc` an instruction that issues now (R43, R51). -/
def State.complete (s : State) (pc : BitVec 64) : State := s.countIssue.proceed pc

/-- The focused path waits; the instruction has had no effect beyond what `s` holds (R46). Its sibling issues meanwhile (R43). -/
def State.waitOn (s : State) (w : Wait) : State :=
  let t := { s.putPath { s.path with wait := some w, again := none } with pending := none }
  t.putGroup t.group.handOver

/-- An instruction that issues now waits: it has issued (R43, R51). -/
def State.park (s : State) (w : Wait) : State := s.countIssue.waitOn w

/-- Note the registers an instruction writes in the path's pure region. -/
def State.noteWrites (s : State) (sh : Shape) : State :=
  match s.path.region with
  | none => s
  | some r => s.putPath { s.path with region := some (r.noteWrites sh) }

/-- Settle an effect: complete, wait or trap. `sh` names the registers written, `words` the instruction's length. -/
def State.settle (s : State) (sh : Shape) (words : Nat) : Res → State
  | .next s' => (s'.noteWrites sh).complete (s.nextPc words)
  | .goto s' pc => (s'.noteWrites sh).complete pc
  | .moved s' => { s' with pending := none }
  | .wait s' w => s'.park w
  | .trap c a i m =>
    s.raiseTrap { cause := c, tpc := s.path.pc, taddr := a, tinfo := i, mask := m.getD s.path.mask } true
  | .nextTrap s' c i =>
    let p := { s'.path with walked := false, released := false, bpSkip := false, again := none }
    { s'.putPath p with pending := none }.raiseTrap { cause := c, tpc := s.nextPc words, tinfo := i, mask := p.mask } false

/-- Settle the effect of an instruction that has issued before and waited since: nothing is counted. -/
def State.settleWait (s : State) : Res → State
  | .next s' => s'.proceed (s.nextPc 1)
  | .goto s' pc => s'.proceed pc
  | .moved s' => { s' with pending := none }
  | .wait s' w => s'.waitOn w
  | .trap c a i m => s.trapNow { cause := c, tpc := s.path.pc, taddr := a, tinfo := i, mask := m.getD s.path.mask } true
  | .nextTrap s' c i =>
    let p := { s'.path with walked := false, released := false, bpSkip := false, again := none }
    { s'.putPath p with pending := none }.trapNow { cause := c, tpc := s.nextPc 1, tinfo := i, mask := p.mask } false

/-- The refusals of trap mode and of an open pure region (R257, R282), then the instruction's own effect. -/
def State.guarded (s : State) (sh : Shape) (words : Nat) (eff : State → Res) : State :=
  if s.group.trap.isSome && sh.inTrap != .allowed then
    { s.doubleFault s.focus.team s.focus.group (if sh.inTrap = .memo then 0x08 else 0x0B) s.path.pc 0 with
      pending := none }
  else
    match s.path.region.bind (fun r => r.violation sh) with
    | some (a, i) => s.settle sh words (.trap 0x08 (BitVec.ofNat 64 a) (BitVec.ofNat 64 i))
    | none => s.settle sh words (eff s)

/-- A group-space instruction: it executes once for the path that issues it (R44). -/
def groupInstr (sh : Shape) (words : Nat) (s : State) (eff : State → Res) : Outcome :=
  if s.live then .next (s.guarded sh words eff) else .fault .noPath

/-! ## Lane-space instructions (R108) -/

/-- The prefix of the instruction: every field zero where none stands before it (R107). -/
def State.pfx (s : State) : Prefix := s.pending.getD {}

/-- The guard of R108. -/
def State.guardMask (s : State) : LaneMask :=
  let p := s.group.pget s.pfx.pm
  if s.pfx.pinv then ~~~p else p

/-- The lanes of R9: the path's lanes that pass the guard. -/
def State.active (s : State) : LaneMask := s.path.mask &&& s.guardMask

/-- The guarded-off lanes that zm zeroes (R108). -/
def State.zeroed (s : State) : LaneMask := if s.pfx.zm then s.path.mask &&& ~~~s.guardMask else 0

/-- Zero an instruction's destinations in the lanes of a mask. -/
def State.zeroDests (s : State) (sh : Shape) (m : LaneMask) : State :=
  if m = 0 then s
  else
    let v := s.variant
    let g := sh.vw.foldl (fun g n => g.vset v n m (fun _ => 0)) s.group
    s.putGroup (sh.pw.foldl (fun g n => g.pset n m 0) g)

/-- The hold bits of a lane-space instruction: the registers whose values stay in the operand latch (R95). -/
structure Hold where
  a : Option (BitVec 7) := none
  b : Option (BitVec 7) := none

/-- Fill the operand latch (R95). DESIGN CHOICE (log entry 65): of an operand of several registers an entry names the first,
and only a write to that one empties it. -/
def State.latch (s : State) (h : Hold) : State :=
  s.putGroup { s.group with latchA := h.a.map (Latch.mk s.focus.slot), latchB := h.b.map (Latch.mk s.focus.slot) }

/-- A hold bit and the register it holds. -/
def holdIf (h : Bool) (r : BitVec 7) : Option (BitVec 7) := if h then some r else none

/-- A lane-space instruction (R9, R108): no lane active makes it fault-free; otherwise its effect stands for the active
lanes, and zm zeroes its destinations in the guarded-off ones. -/
def laneInstr (sh : Shape) (h : Hold) (s : State) (eff : State → Res) : Outcome :=
  let sh := { sh with pr := sh.pr ++ [s.pfx.pm] }
  if s.live then
    let z := s.zeroed
    if s.active = 0 then .next (s.guarded sh 1 fun s => .next ((s.latch h).zeroDests sh z))
    else .next (s.guarded sh 1 fun s =>
      match eff (s.latch h) with
      | .next s' => .next (s'.zeroDests sh z)
      | r => r)
  else .fault .noPath

end Sys2Proof.Machine
end

