-- ==== Sys2Proof/Machine/Operands.lean ====
section
/-!
DEFINITION. Sys2Proof/Machine/Operands.lean: the operand forms: a register of a lane, pairs and quads (R90), and the
shapes that lane-space instructions share.
-/
namespace Sys2Proof.Machine

/-- Register vn of lane l of the executing group. -/
def State.vreg (s : State) (n l : Nat) : Word := s.group.vget s.variant n l
def State.lane (s : State) (r : BitVec 7) (l : Nat) : Word := s.vreg r.toNat l
/-- The pair at vn, vn+1 (R90). -/
def State.pair (s : State) (n l : Nat) : DWord := s.vreg (n + 1) l ++ s.vreg n l
/-- Uniform register wn. -/
def State.uni (s : State) (n : BitVec 6) : DWord := s.group.wget s.variant n
/-- Predicate pn. -/
def State.pred (s : State) (n : BitVec 3) : LaneMask := s.group.pget n
/-- The prefix's fourth operand. -/
def State.vc (s : State) : Nat := s.pfx.vc.toNat

/-- Write vn in the lanes of a mask. -/
def State.writeV (s : State) (n : Nat) (m : LaneMask) (f : Nat → Word) : State :=
  s.putGroup (s.group.vset s.variant n m f)
def State.writeW (s : State) (n : BitVec 6) (x : DWord) : State := s.putGroup (s.group.wset s.variant n x)
def State.writeP (s : State) (n : BitVec 3) (m x : LaneMask) : State := s.putGroup (s.group.pset n m x)
/-- Write vn in the active lanes. -/
def State.lanes (s : State) (n : Nat) (f : Nat → Word) : State := s.writeV n s.active f
/-- Write consecutive registers in the active lanes: register n + i of a lane takes `f i l`. -/
def State.lanesFrom (s : State) (n count : Nat) (f : Nat → Nat → Word) : State :=
  (List.range count).foldl (fun t i => t.writeV (n + i) s.active (f i)) s
/-- Merge flags into the group's FLAGS. -/
def State.flag (s : State) (f : BitVec 5) : State := s.putGroup (s.group.orFlags f)

/-- Join what every active lane raises. -/
def State.laneFlags (s : State) (f : Nat → BitVec 5) : BitVec 5 := (lanesOf s.active).foldl (fun a l => a ||| f l) 0

/-- The registers from n on. -/
def regsFrom (n count : Nat) : List Nat := (List.range count).map (n + ·)

/-! ## Shapes of lane-space instructions -/

/-- vd from va and vb. -/
def shapeRR (vd va vb : BitVec 7) : Shape := { vr := [va.toNat, vb.toNat], vw := [vd.toNat], purity := .all }
/-- vd from va. -/
def shapeR (vd va : BitVec 7) : Shape := { vr := [va.toNat], vw := [vd.toNat], purity := .all }
/-- A predicate from va and vb. -/
def shapeCmp (pd : BitVec 3) (va vb : BitVec 7) : Shape := { vr := [va.toNat, vb.toNat], pw := [pd], purity := .all }

def holdAB (ha hb : Bool) (va vb : BitVec 7) : Hold := { a := holdIf ha va, b := holdIf hb vb }
def holdA (ha : Bool) (va : BitVec 7) : Hold := { a := holdIf ha va }

/-- vd[l] is a function of va[l] and vb[l] (R9, R327). -/
def laneRR (f : Word → Word → Word) (vd va vb : BitVec 7) (ha hb : Bool) (s : State) : Outcome :=
  laneInstr (shapeRR vd va vb) (holdAB ha hb va vb) s fun s => .next (s.lanes vd.toNat fun l => f (s.lane va l) (s.lane vb l))

/-- vd[l] is a function of va[l]. -/
def laneR (f : Word → Word) (vd va : BitVec 7) (ha : Bool) (s : State) : Outcome :=
  laneInstr (shapeR vd va) (holdA ha va) s fun s => .next (s.lanes vd.toNat fun l => f (s.lane va l))

/-- The pair vd, vd+1 of lane l is a function of the pairs at va and vb (R347). -/
def lanePair (f : DWord → DWord → DWord) (vd va vb : BitVec 7) (ha hb : Bool) (s : State) : Outcome :=
  laneInstr { vr := regsFrom va.toNat 2 ++ regsFrom vb.toNat 2, vw := regsFrom vd.toNat 2, purity := .all }
    (holdAB ha hb va vb) s fun s =>
      let d := fun l => f (s.pair va.toNat l) (s.pair vb.toNat l)
      .next (s.lanesFrom vd.toNat 2 fun i l => (d l).extractLsb' (32 * i) 32)

/-- p[pd][l] is a test of va[l] and vb[l] (R349). -/
def laneTest (f : Word → Word → Bool) (pd : BitVec 3) (va vb : BitVec 7) (ha hb : Bool) (s : State) : Outcome :=
  laneInstr (shapeCmp pd va vb) (holdAB ha hb va vb) s fun s =>
    .next (s.writeP pd s.active (maskOf fun l => f (s.lane va l) (s.lane vb l)))

/-! ## Shapes with FLAGS -/

/-- vd[l] and the flags of lane l are a function of va[l] and vb[l] under the prefix's rounding code (R142). -/
def laneFp2 (f : Nat → Word → Word → Word × BitVec 5) (vd va vb : BitVec 7) (ha hb : Bool) (s : State) : Outcome :=
  laneInstr (shapeRR vd va vb) (holdAB ha hb va vb) s fun s =>
    let r := fun l => f s.pfx.rnd.toNat (s.lane va l) (s.lane vb l)
    .next ((s.lanes vd.toNat fun l => (r l).1).flag (s.laneFlags fun l => (r l).2))

/-- vd[l] is a function of vd[l], va[l] and vb[l]. -/
def laneFp3 (f : Nat → Word → Word → Word → Word × BitVec 5) (vd va vb : BitVec 7) (ha hb : Bool) (s : State) :
    Outcome :=
  laneInstr { shapeRR vd va vb with vr := [va.toNat, vb.toNat, vd.toNat] } (holdAB ha hb va vb) s fun s =>
    let r := fun l => f s.pfx.rnd.toNat (s.lane vd l) (s.lane va l) (s.lane vb l)
    .next ((s.lanes vd.toNat fun l => (r l).1).flag (s.laneFlags fun l => (r l).2))

/-- vd[l] is a function of va[l], with flags. -/
def laneFp1 (f : Nat → Word → Word × BitVec 5) (vd va : BitVec 7) (ha : Bool) (s : State) : Outcome :=
  laneInstr (shapeR vd va) (holdA ha va) s fun s =>
    let r := fun l => f s.pfx.rnd.toNat (s.lane va l)
    .next ((s.lanes vd.toNat fun l => (r l).1).flag (s.laneFlags fun l => (r l).2))

/-- The two 16-bit halves of a word as numbers: 0 the low. -/
def half (x : Word) (h : Nat) : Nat := (x.extractLsb' (16 * h) 16).toNat
/-- Combine the results of the halves (R316). -/
def packHalves (lo hi : Nat × BitVec 5) : Word × BitVec 5 :=
  (BitVec.ofNat 16 hi.1 ++ BitVec.ofNat 16 lo.1, lo.2 ||| hi.2)
def word32 (x : Nat × BitVec 5) : Word × BitVec 5 := (BitVec.ofNat 32 x.1, x.2)

end Sys2Proof.Machine
end

