-- ==== Sys2Proof/Machine/Alloc.lean ====
section
/-!
DEFINITION. Sys2Proof/Machine/Alloc.lean: the resources of cores (R15, R34, R54, R57), variant requests (R59, R60), and
the room in private arenas and save areas (R156, R299).
-/
namespace Sys2Proof.Machine

/-! ## A core's resources -/

/-- The budget a granted request targets, or the team's own. -/
def State.heldVariant (s : State) (t : Team) : Variant :=
  if t.request.valid && t.request.granted then (s.nodeAt t.node).variant t.request.target else s.variantOf t

/-- Vector-register bytes of one group under a variant (Table 3.1). -/
def Variant.groupBytes (v : Variant) : Nat := v.regs * 4 * Config.width

/-- The groups of a team that hold a place in quadrant `q`, of those below number `n`. -/
def Team.quadGroups (t : Team) (n q : Nat) : Nat :=
  ((t.groups.take n).filter fun g => !g.retired && g.quadrant == q).length

/-- The bytes and places that a team holds of quadrant `q`: its own, or what they become by the switch that it has been
granted where that is more (R60). The groups that the switch keeps stay in their quadrants (log entry 66). -/
def State.teamUse (s : State) (t : Team) (q : Nat) : Nat × Nat :=
  let own := t.quadGroups t.groups.length q
  if t.request.valid && t.request.granted then
    let goal := s.heldVariant t
    let kept := t.quadGroups goal.groups q + (t.request.quads.filter (· == q)).length
    (max ((s.variantOf t).groupBytes * own) (goal.groupBytes * kept), max own kept)
  else ((s.variantOf t).groupBytes * own, own)

/-- Free room: for each quadrant, bytes and places; scratchpad bytes; tiles; teams. -/
structure Room where
  quads : List (Nat × Nat)
  scratch : Nat
  tiles : Nat
  teams : Nat
deriving DecidableEq, Repr

/-- What teams leave free of a core. -/
def State.roomBeside (s : State) (teams : List Team) : Room :=
  { quads := (List.range 4).map fun q =>
      let used := teams.map fun t => s.teamUse t q
      (Config.quadrantRegs - (used.map (·.1)).sum, Config.quadrantGroups - (used.map (·.2)).sum)
    scratch := Config.coreScratch - (teams.map fun t => max (s.variantOf t).scratch (s.heldVariant t).scratch).sum
    tiles := Config.coreTiles - (teams.map fun t => max (s.variantOf t).acc (s.heldVariant t).acc).sum
    teams := Config.coreTeams - teams.length }

/-- What is free on a core. -/
def State.room (s : State) (core : Nat) : Room := s.roomBeside ((s.coreTeamIxs core).map s.teamAt)

/-- Some part of a core's room is more than it was. -/
def Room.moreThan (r old : Room) : Bool :=
  decide (old.scratch < r.scratch) || decide (old.tiles < r.tiles) || decide (old.teams < r.teams)
    || (r.quads.zip old.quads).any fun p => decide (p.2.1 < p.1.1) || decide (p.2.2 < p.1.2)

/-- Resources of a core have come free since a state, if they have: only then are requests tried, and the core held for waiting
nodes (R60, R80). -/
def State.freedFrom (s old : State) (core : Nat) : State := if (s.room core).moreThan (old.room core) then s.freed core else s

/-- The quadrant of most free bytes with a free place, the lower number on ties (R34). -/
def bestQuad (quads : List (Nat × Nat)) : Option Nat :=
  (quads.zipIdx.filter fun p => p.1.2 != 0).foldl
    (fun b p => match b with
      | none => some p.2
      | some q => if (quads.getD q (0, 0)).1 < p.1.1 then some p.2 else b) none

/-- Spread `n` groups of `bytes` over quadrants: their quadrants, if all fit. -/
def spreadGroups (bytes : Nat) : Nat → List (Nat × Nat) → Option (List Nat)
  | 0, _ => some []
  | n + 1, quads =>
    match bestQuad quads with
    | none => none
    | some q =>
      let (b, k) := quads.getD q (0, 0)
      if b < bytes then none
      else (spreadGroups bytes n (quads.set q (b - bytes, k - 1))).map (q :: ·)

/-- The quadrants of a new team's groups on core `c` under a variant, if the budget fits (R34, R54). -/
def State.fits (s : State) (c : Nat) (v : Variant) : Option (List Nat) :=
  let r := s.room c
  if r.teams = 0 || r.scratch < v.scratch || r.tiles < v.acc then none
  else spreadGroups v.groupBytes v.groups r.quads

/-- The budget fits an empty core. -/
def Variant.fitsEmpty (v : Variant) : Bool :=
  v.scratch ≤ Config.coreScratch && v.acc ≤ Config.coreTiles
    && (spreadGroups v.groupBytes v.groups (List.replicate 4 (Config.quadrantRegs, Config.quadrantGroups))).isSome

/-! ## Requests (R60) -/

/-- The quadrants a grant of variant `v` to team `i` would reserve for its new groups, if the difference fits beside the other
teams. DESIGN CHOICE (log entry 66): the groups that stay keep their quadrants, and only new ones are spread. -/
def State.grantQuads (s : State) (i : Nat) (v : BitVec 2) : Option (List Nat) :=
  let t := s.teamAt i
  let own := s.variantOf t
  let goal := (s.nodeAt t.node).variant v
  let r := s.roomBeside (((s.coreTeamIxs t.core).filter (· != i)).map s.teamAt)
  let kept := fun q => goal.groupBytes * t.quadGroups goal.groups q
  let quads := r.quads.zipIdx.map fun p => (p.1.1 - kept p.2, p.1.2 - t.quadGroups goal.groups p.2)
  let exceeded := r.quads.zipIdx.any fun p => decide (p.1.1 < kept p.2)
  if exceeded || r.scratch < max own.scratch goal.scratch || r.tiles < max own.acc goal.acc then none
  else spreadGroups goal.groupBytes (goal.groups - own.groups) quads

/-- try_grant for team `i`: true when its request stands granted. -/
def State.tryGrantTeam (s : State) (i : Nat) : Bool × State :=
  let t := s.teamAt i
  if !t.request.valid then (false, s)
  else if t.request.granted then (true, s)
  else match s.grantQuads i t.request.target with
    | none => (false, s)
    | some q => (true, s.setTeam i { t with request := { t.request with granted := true, quads := q } })

/-! ## Ranges -/

/-- Round up to a multiple. -/
def alignUp (x n : Nat) : Nat := (x + n - 1) / n * n

/-- `n` bytes at `a` lie in an arena and meet no used range. -/
def rangeFree (base size : Nat) (used : List (Nat × Nat)) (a n : Nat) : Bool :=
  decide (base ≤ a) && decide (a + n ≤ base + size)
    && used.all fun u => decide (a + n ≤ u.1) || decide (u.1 + u.2 ≤ a)

/-- The lowest aligned place of `n` bytes in an arena. -/
def firstFit (base size : Nat) (used : List (Nat × Nat)) (align n : Nat) : Option Nat :=
  let starts := (base :: used.map fun u => u.1 + u.2).map fun a => alignUp a align
  (starts.filter fun a => rangeFree base size used a n).foldl
    (fun b a => match b with
      | none => some a
      | some x => some (min x a)) none

/-- The teams of a region that keep areas of it: alive ones (R156, R299). -/
def State.regionTeams (s : State) (r : Nat) : List (Nat × Team) :=
  s.teams.zipIdx.filterMap fun p => if p.1.alive && (s.nodeAt p.1.node).region == r then some (p.2, p.1) else none

/-- Images held in a region's save area, but for one team's own. -/
def State.usedImages (s : State) (r own : Nat) : List (Nat × Nat) :=
  (s.regionTeams r).filterMap fun p => if p.1 = own then none else some (p.2.image, p.2.imageSize)

/-- Bytes of a group's private area. -/
def Node.privBytes (n : Node) : Nat := n.priv * Config.width

/-- Private areas held in a region's arena. -/
def State.usedPrivs (s : State) (r : Nat) : List (Nat × Nat) :=
  (s.regionTeams r).flatMap fun p =>
    let n := (s.nodeAt p.2.node).privBytes
    if n = 0 then [] else p.2.groups.map fun g => (g.pbase.toNat, n)

/-- Where the group records of a team image start (Table 16.5). -/
def Variant.recordsOffset (v : Variant) : Nat :=
  alignUp (0x1000 + 4096 * v.acc + v.scratch / 256 + v.scratch + 16384) 65536
/-- Bytes of a team image and its staging area (R299). -/
def Variant.imageBytes (v : Variant) : Nat := v.recordsOffset + 65536 * v.groups + 4096
/-- The save record of group g of an image. -/
def Variant.recordAt (v : Variant) (image g : Nat) : Nat := image + v.recordsOffset + 65536 * g

/-- Places of `k` private areas beside those in use, the lowest free ones. -/
def State.privPlaces (s : State) (r n : Nat) : Nat → List (Nat × Nat) → Option (List Nat)
  | 0, _ => some []
  | k + 1, used =>
    let x := s.regionAt r
    match firstFit x.priv.toNat x.privSize used 4096 n with
    | none => none
    | some a => (s.privPlaces r n k ((a, n) :: used)).map (a :: ·)

/-- Given places of private areas are free, aligned and apart. -/
def State.privsFree (s : State) (r n : Nat) : List Nat → List (Nat × Nat) → Bool
  | [], _ => true
  | a :: as, used =>
    let x := s.regionAt r
    a % 4096 == 0 && rangeFree x.priv.toNat x.privSize used a n && s.privsFree r n as ((a, n) :: used)

end Sys2Proof.Machine
end

