-- ==== Sys2Proof/Machine/Paths.lean ====
section
/-!
DEFINITION. Sys2Proof/Machine/Paths.lean: the divergence stack (R37), the filling of slots (R43), and the path-control
operations of R39 to R42.
-/
namespace Sys2Proof.Machine

/-! ## Divergence-stack entries (Table 2.2) -/

structure DsEntry where
  kind : Nat
  addr : BitVec 64
  parent : BitVec 5
  pv : Bool
  cnt : Nat
  mask : LaneMask
deriving DecidableEq, Repr

def dsEntryOf (x : Nat) : DsEntry :=
  { kind := bitField x 1 0, addr := BitVec.ofNat 64 (bitField x 63 2 * 4), parent := BitVec.ofNat 5 (bitField x 68 64)
    pv := x.testBit 69, cnt := bitField x 87 80, mask := BitVec.ofNat 64 (bitField x 191 128) }

def DsEntry.bits (e : DsEntry) : Nat :=
  e.kind + e.addr.toNat / 4 * 4 + e.parent.toNat * 2 ^ 64 + e.pv.toNat * 2 ^ 69 + e.cnt % 256 * 2 ^ 80
    + e.mask.toNat * 2 ^ 128

/-- Entry i of the executing group's stack. DESIGN CHOICE (log entry 55): the entry is what memory holds, also where software
has written it outside a handler's restore, after which R37 leaves the group's control flow undefined. -/
def State.dsRead (s : State) (i : Nat) : DsEntry := dsEntryOf (s.readPhys (s.group.dsbase.toNat + 32 * i) 32)
def State.dsWrite (s : State) (i : Nat) (e : DsEntry) : State := s.writePhys (s.group.dsbase.toNat + 32 * i) 32 e.bits
def State.setDocc (s : State) (d : BitVec 32) : State := s.putGroup { s.group with docc := d }
/-- Free entry i: its DOCC bit and its kind. -/
def State.dsFree (s : State) (i : Nat) : State :=
  (s.dsWrite i { s.dsRead i with kind := 0 }).setDocc (s.group.docc &&& ~~~(BitVec.twoPow 32 i))
/-- The lowest free index. -/
def State.dsLowest (s : State) : Option Nat := (List.range 32).find? fun i => !s.group.docc.getLsbD i
/-- Take the lowest free entry. -/
def State.dsPush (s : State) (i : Nat) (e : DsEntry) : State :=
  (s.dsWrite i e).setDocc (s.group.docc ||| BitVec.twoPow 32 i)

/-! ## Slots -/

def State.setSlot (s : State) (b : Bool) (p : Option Path) : State := s.putGroup (s.group.setSlot b p)

/-- The deferred path of the highest index (R43). -/
def State.deferred (s : State) : Option Nat :=
  ((List.range 32).reverse).find? fun i => s.group.docc.getLsbD i && (s.dsRead i).kind == 1

/-- Refill an emptied slot from the newest deferred path. -/
def State.refill (s : State) (b : Bool) : State :=
  if (s.group.slot b).isSome then s
  else match s.deferred with
    | none => s
    | some i =>
      let e := s.dsRead i
      (s.dsFree i).setSlot b (some { pc := e.addr, mask := e.mask, fi := e.parent, fv := e.pv })

/-- complete(f) of R41: a placed path takes slot `b`, which has been emptied. -/
def State.completeFrame (s : State) (b : Bool) (f : BitVec 5) : Nat → State
  | 0 => s
  | fuel + 1 =>
    let e := s.dsRead f.toNat
    if e.cnt ≠ 0 then s
    else if e.mask ≠ 0 then
      (s.setSlot b (some { pc := e.addr + 4, mask := e.mask, fi := e.parent, fv := e.pv })).dsFree f.toNat
    else
      let s := s.dsFree f.toNat
      if !e.pv then s
      else
        let p := s.dsRead e.parent.toNat
        (s.dsWrite e.parent.toNat { p with cnt := (p.cnt + 255) % 256 }).completeFrame b e.parent fuel

/-- A slot that has been emptied, whatever has taken it since: its latch and its count of issues start anew, and issue
switches to the other slot where that one can issue (R43, R95). -/
def Group.passTurn (g : Group) (b : Bool) : Group :=
  { g with cur := if g.ready (!b) then !b else b, issues := 0, age := 0, latchA := none, latchB := none }

/-- The path in the focused slot ends: its frame loses it, complete() runs, the slot is refilled, and the turn passes
(R41, R43). -/
def State.endPath (s : State) : State :=
  let b := s.focus.slot
  let p := s.path
  let s := s.setSlot b none
  let s :=
    if p.fv then
      let e := s.dsRead p.fi.toNat
      (s.dsWrite p.fi.toNat { e with cnt := (e.cnt + 255) % 256 }).completeFrame b p.fi 33
    else s
  let s := s.refill b
  s.putGroup (s.group.passTurn b)

/-- Every frame from the path's own outward loses the lanes of a mask (R42). -/
def State.dropLanes (s : State) (m : LaneMask) (f : BitVec 5) (v : Bool) : Nat → State
  | 0 => s
  | fuel + 1 =>
    if !v then s
    else
      let e := s.dsRead f.toNat
      (s.dsWrite f.toNat { e with mask := e.mask &&& ~~~m }).dropLanes m e.parent e.pv fuel

/-- The stack is full. -/
def State.dsFull (s : State) : Bool := s.dsLowest.isNone

/-- BRD with both sides taken (R39): the executing path goes on with the lanes `f`, the taken path with `t`. -/
def State.splitPath (s : State) (t f : LaneMask) (target : BitVec 64) : State :=
  let p := s.path
  let s :=
    if p.fv then
      let e := s.dsRead p.fi.toNat
      s.dsWrite p.fi.toNat { e with cnt := (e.cnt + 1) % 256 }
    else s
  let s := s.putPath { s.path with mask := f }
  let taken : Path := { pc := target, mask := t, fi := p.fi, fv := p.fv }
  if (s.group.slot (!s.focus.slot)).isNone && !s.node.det then s.setSlot (!s.focus.slot) (some taken)
  else match s.dsLowest with
    | none => s
    | some i => s.dsPush i { kind := 1, addr := target, parent := p.fi, pv := p.fv, cnt := 0, mask := t }

/-- JSET's frame (R40). -/
def State.openFrame (s : State) (i : Nat) (j : BitVec 64) : State :=
  let p := s.path
  (s.dsPush i { kind := 2, addr := j, parent := p.fi, pv := p.fv, cnt := 1, mask := p.mask }).putPath
    { p with fi := BitVec.ofNat 5 i, fv := true }

end Sys2Proof.Machine
end

