-- ==== Sys2Proof/Machine/Barrier.lean ====
section
/-!
DEFINITION. Sys2Proof/Machine/Barrier.lean: the end of a wait that the device completes, named barriers and their
instructions, major 0x1C (R47, R87, R317 to R320), and the waking of sleepers (R431).
-/
namespace Sys2Proof.Machine

/-! ## Waits the device completes -/

/-- The path of a slot of a group; in trap mode, of the interrupted slot. -/
def Group.interrupted (g : Group) (b : Bool) : Option Path :=
  match g.trap with
  | none => g.slot b
  | some c => if b then c.path1 else c.path0

/-- Act on the group's own registers, whatever names the shadow set has taken (R87, R96). The latch may hold registers of the
shadow set, which that does not write (R95). -/
def Group.own (g : Group) (f : Group → Group) : Group :=
  let h := f { g with trap := none }
  let kept := fun (held after : Option Latch) => if g.trap.isSome && held.any (fun l => decide (l.reg.toNat < 16)) then held else after
  { h with trap := g.trap, latchA := kept g.latchA h.latchA, latchB := kept g.latchB h.latchB }

/-- Replace one slot's PC in a path block (Table 16.3). -/
def blockSetPc (x : BitVec 1024) (b : Bool) (pc : BitVec 64) : BitVec 1024 :=
  let k := if b then 64 else 0
  (x &&& ~~~((BitVec.allOnes 64).setWidth 1024 <<< k)) ||| (pc.setWidth 1024 <<< k)

/-- The interrupted slot of a group in trap mode goes on at `pc` once RTE returns: the path block at TFRAME follows
(R87). -/
def State.resumeSlot (s : State) (t g : Nat) (b : Bool) (c : TrapContext) (p : Path) (pc : BitVec 64) : State :=
  let x := s.groupAt t g
  let p := { p with pc := pc, wait := none }
  let c := if b then { c with path1 := some p } else { c with path0 := some p }
  let s := s.setGroup t g { x with trap := some { c with block := blockSetPc c.block b pc } }
  s.writePhys (x.record.toNat + if b then 8 else 0) 8 pc.toNat

/-- Put back a path of a slot; in trap mode, of the interrupted slot. -/
def Group.setInterrupted (g : Group) (b : Bool) (p : Path) : Group :=
  match g.trap with
  | none => g.setSlot b (some p)
  | some c => { g with trap := some (if b then { c with path1 := some p } else { c with path0 := some p }) }

/-- Complete the waiting instruction of a slot: `f` writes its results, and the path goes on at the next word. One that was
halted in its wait, and has not issued again, does so then. DEDUCED (log entry 71). -/
def State.finishWait (s : State) (t g : Nat) (b : Bool) (f : Group → Group) : State :=
  let x := s.groupAt t g
  match x.interrupted b with
  | none => s
  | some p =>
    let s := s.setGroup t g (x.own f)
    match p.again with
    | some r => s.setGroup t g ((s.groupAt t g).setInterrupted b { p with again := some { r with ended := true } })
    | none =>
      match x.trap with
      | none => s.at { team := t, group := g, slot := b } fun s => s.proceed (p.pc + 4)
      | some c => s.resumeSlot t g b c p (p.pc + 4)

/-- Every group and slot of a team. -/
def State.slotsOf (s : State) (t : Nat) : List (Nat × Bool) :=
  (List.range (s.teamAt t).groups.length).flatMap fun g => [(g, false), (g, true)]

/-- The wait of a slot, the interrupted one in trap mode. -/
def State.waitOf (s : State) (t g : Nat) (b : Bool) : Option Wait :=
  ((s.groupAt t g).interrupted b).bind (·.wait)

/-- The wait in which a path stands, or which it has yet to enter again (R87). -/
def Path.awaits (p : Path) : Option Wait :=
  match p.again with
  | some r => if r.ended then none else some r.wait
  | none => p.wait

/-- What a slot awaits, the interrupted one in trap mode. -/
def State.awaitedBy (s : State) (t g : Nat) (b : Bool) : Option Wait :=
  ((s.groupAt t g).interrupted b).bind Path.awaits

/-- A wake event for the sleeping paths of some groups of a team (R431). -/
def State.wake (s : State) (t : Nat) (which : Nat → Bool) : State :=
  (s.slotsOf t).foldl (fun s p =>
    match (s.groupAt t p.1).slot p.2 with
    | some q =>
      (match q.wait with
       | some (.sleep _) => if which p.1 then s.due (.sleepWake t p.1 p.2) else s
       | _ => s)
    | none => s) s

/-! ## Phases (R47, R318) -/

def Team.barrier (t : Team) (b : Nat) : Barrier := mapGet {} t.barriers b
def Team.setBarrier (t : Team) (b : Nat) (x : Barrier) : Team := { t with barriers := mapSet {} t.barriers b x }

/-- Every group that has not retired has arrived, and some group has. -/
def Team.phaseReady (t : Team) (b : Nat) : Bool :=
  let a := (t.barrier b).arrived
  a != 0 && t.groups.zipIdx.all fun p => p.1.retired || a.getLsbD p.2

/-- Arrive at a barrier, contributing lane values (R318, R319). -/
def State.arrive (s : State) (b : Nat) (op : BitVec 6) (vals : List (Nat × Word)) : State :=
  let x := s.team.barrier b
  let c := if vals.isEmpty then x.contributions else x.contributions ++ [(s.focus.group, op, vals)]
  s.putTeam (s.team.setBarrier b { x with arrived := x.arrived ||| BitVec.twoPow 16 s.focus.group, contributions := c })

/-- The combination of two values under an operation of R317. -/
def reduceOp (op : Nat) (a b : Word) : Word :=
  match op with
  | 0 => a + b
  | 1 => if a.slt b then a else b
  | 2 => if a.slt b then b else a
  | 3 => a &&& b
  | _ => a ||| b

/-- The identity of an operation (R319). -/
def reduceUnit (op : Nat) : Word :=
  match op with
  | 1 => 0x7FFFFFFF
  | 2 => 0x80000000
  | 3 => 0xFFFFFFFF
  | _ => 0

/-- The contributions of a phase as team lane index and value. -/
def Barrier.values (x : Barrier) : List (Nat × Word) :=
  x.contributions.flatMap fun c => c.2.2.map fun p => (Config.width * c.1 + p.1, p.2)

/-- The combination of the contributions below an index, or of all. -/
def Barrier.combine (x : Barrier) (op : Nat) (below : Option Nat) : Word :=
  (x.values.filter fun p => match below with
    | none => true
    | some n => decide (p.1 < n)).foldl (fun a p => reduceOp op a p.2) (reduceUnit op)

/-- The results a waiting path takes when the phase completes (R319). -/
def Barrier.deliver (x : Barrier) (v : Variant) (g : Nat) (mask : LaneMask) (d : BarDest) (grp : Group) : Group :=
  match d with
  | .none => grp
  | .uniform wd op => grp.wset v wd ((x.combine op.toNat none).setWidth 64)
  | .lanes vd op => grp.vset v vd.toNat mask fun l => x.combine op.toNat (some (Config.width * g + l))

/-- Complete the open phase of barrier `b` of team `t`. -/
def State.completePhase (s : State) (t b : Nat) : State :=
  let x := (s.teamAt t).barrier b
  let v := s.variantOf (s.teamAt t)
  let s := s.setTeam t ((s.teamAt t).setBarrier b { phase := x.phase + 1 })
  let s := (s.slotsOf t).foldl (fun s p =>
    match (s.groupAt t p.1).interrupted p.2 with
    | some q =>
      (match q.awaits with
       | some (.barrier b' d) => if b' = b then s.finishWait t p.1 p.2 (x.deliver v p.1 q.mask d) else s
       | _ => s)
    | none => s) s
  s.wake t fun _ => true

/-- Complete the phase if every group has arrived. -/
def State.checkPhase (s : State) (t b : Nat) : State :=
  if (s.teamAt t).phaseReady b then s.completePhase t b else s

/-- Every named barrier of a team, after one of its groups has retired. -/
def State.checkPhases (s : State) (t : Nat) : State := (List.range 16).foldl (fun s b => s.checkPhase t b) s

/-! ## Instructions -/

/-- What an instruction that may stand neither in a pure region nor in trap mode names. -/
def shapeTeam (vr : List Nat) (wr ww : List (BitVec 6)) : Shape := { vr := vr, wr := wr, ww := ww, inTrap := .refused }

/-- The pairs of lane and value that a path contributes. -/
def State.contribution (s : State) (vs : BitVec 6) : List (Nat × Word) :=
  (lanesOf s.path.mask).map fun l => (l, s.vreg vs.toNat l)

/-- An instruction that waits as `w`. One that a restore issues again enters the wait that was halted, with no new count and
no contribution, or completes where the phase has completed since (R87, R320; log entry 71). -/
def State.enterWait (s : State) (w : Wait) (first : Res) : Res :=
  match s.path.again with
  | some r => if r.wait = w then (if r.ended then .next s else .wait s w) else first
  | none => first

/-- Arrive and wait for the phase open at arrival. -/
def State.arriveWait (s : State) (b : Nat) (op : BitVec 6) (vals : List (Nat × Word)) (d : BarDest) : Res :=
  s.enterWait (.barrier b d) (.moved (((s.arrive b op vals).park (.barrier b d)).checkPhase s.focus.team b))

def execBar (n : BitVec 4) (s : State) : Outcome :=
  groupInstr (shapeTeam [] [] []) 1 s fun s => s.arriveWait n.toNat 0 [] .none
def execBara (n : BitVec 4) (s : State) : Outcome :=
  groupInstr (shapeTeam [] [] []) 1 s fun s =>
    .moved (((s.arrive n.toNat 0 []).complete (s.nextPc 1)).checkPhase s.focus.team n.toNat)
def execBarw (n : BitVec 4) (s : State) : Outcome :=
  groupInstr (shapeTeam [] [] []) 1 s fun s =>
    s.enterWait (.barrier n.toNat .none)
      (if (s.team.barrier n.toNat).arrived.getLsbD s.focus.group then .wait s (.barrier n.toNat .none) else .next s)
def execBarr (wd vs op : BitVec 6) (n : BitVec 4) (s : State) : Outcome :=
  groupInstr (shapeTeam [vs.toNat] [] [wd]) 1 s fun s => s.arriveWait n.toNat op (s.contribution vs) (.uniform wd op)
def execBars (wd vs op : BitVec 6) (n : BitVec 4) (s : State) : Outcome :=
  groupInstr (shapeTeam [vs.toNat] [] []) 1 s fun s =>
    s.arriveWait n.toNat op (s.contribution vs) (.lanes (wd.setWidth 7) op)

end Sys2Proof.Machine
end

