-- ==== Sys2Proof/Machine/Flags.lean ====
section
/-!
DEFINITION. Sys2Proof/Machine/Flags.lean: the number formats (R132 to R139), the single rounding of every result
(R140, R141, R145, R146) and the conditions that set FLAGS (R142, Table 8.5).
-/
namespace Sys2Proof.Machine

/-! ## Formats and values -/

/-- The floating-point formats of Table 8.2. -/
inductive Fmt where
  | fp32 | fp16 | bf16 | e5m2 | e4m3 | e2m1 | e3m5
deriving DecidableEq, Repr

/-- Mantissa bits. -/
def Fmt.mant : Fmt → Nat
  | .fp32 => 23 | .fp16 => 10 | .bf16 => 7 | .e5m2 => 2 | .e4m3 => 3 | .e2m1 => 1 | .e3m5 => 5
/-- Exponent bits. -/
def Fmt.expo : Fmt → Nat
  | .fp32 => 8 | .fp16 => 5 | .bf16 => 8 | .e5m2 => 5 | .e4m3 => 4 | .e2m1 => 2 | .e3m5 => 3
def Fmt.bias : Fmt → Int
  | .fp32 => 127 | .fp16 => 15 | .bf16 => 127 | .e5m2 => 15 | .e4m3 => 7 | .e2m1 => 1 | .e3m5 => 3
/-- The format has infinities and IEEE NaNs at the all-ones exponent. -/
def Fmt.ieee : Fmt → Bool
  | .fp32 | .fp16 | .bf16 | .e5m2 => true
  | .e4m3 | .e2m1 | .e3m5 => false
/-- The position of the sign bit: the width less one. -/
def Fmt.signBit (f : Fmt) : Nat := f.expo + f.mant
/-- Largest finite magnitude, as bits without the sign. -/
def Fmt.maxFinite : Fmt → Nat
  | .fp32 => 0x7F7FFFFF | .fp16 => 0x7BFF | .bf16 => 0x7F7F | .e5m2 => 0x7B | .e4m3 => 0x7E | .e2m1 => 0x7
  | .e3m5 => 0xFF
/-- The infinity of an IEEE format, without the sign. -/
def Fmt.infinity (f : Fmt) : Nat := (2 ^ f.expo - 1) * 2 ^ f.mant
/-- The canonical NaN (Table 8.2); E2M1 has none and takes +0 (R146). -/
def Fmt.nan : Fmt → Nat
  | .fp32 => 0x7FC00000 | .fp16 => 0x7E00 | .bf16 => 0x7FC0 | .e5m2 => 0x7E | .e4m3 => 0x7F | .e2m1 => 0
  | .e3m5 => 0
/-- The exponent of the last place of a subnormal. -/
def Fmt.emin (f : Fmt) : Int := 1 - f.bias - f.mant

/-- A value before rounding: a NaN, an infinity, or (-1)^neg × m × 2^e, which keeps the sign of a zero. -/
inductive FVal where
  | nan (signalling : Bool)
  | inf (neg : Bool)
  | num (neg : Bool) (m : Nat) (e : Int)
deriving DecidableEq, Repr

/-- The value of an encoding (R134, R135). -/
def Fmt.value (f : Fmt) (x : Nat) : FVal :=
  let neg := f != .e3m5 && x.testBit f.signBit
  let mag := if f = .e3m5 then x % 256 else x % 2 ^ f.signBit
  let e := mag / 2 ^ f.mant
  let m := mag % 2 ^ f.mant
  if f.ieee && e == 2 ^ f.expo - 1 then (if m = 0 then .inf neg else .nan (!(m.testBit (f.mant - 1))))
  else if f = .e4m3 && mag == 0x7F then .nan false
  else if e = 0 then .num neg m f.emin
  else .num neg (2 ^ f.mant + m) (f.emin + (e - 1 : Nat))

/-- The value of an integer. -/
def intValue (x : Int) : FVal := .num (decide (x < 0)) x.natAbs 0

/-! ## Rounding codes (Table 8.4) -/

inductive Rnd where
  | rne | rtz | rdn | rup | rna
deriving DecidableEq, Repr

/-- A rounding code for a destination: code 0 is the default rule of R140. -/
def rndOf (code : Nat) (wide : Bool) : Rnd :=
  match code with
  | 1 => .rne
  | 2 => .rtz
  | 3 => .rdn
  | 4 => .rup
  | 5 => .rna
  | _ => if wide then .rne else .rna

/-- A destination of 16 bits or more (R140). -/
def Fmt.wide (f : Fmt) : Bool := decide (15 ≤ f.signBit)

/-! ## FLAGS bits (Table 8.5) -/

def flagInvalid : BitVec 5 := 0b00001
def flagOverflow : BitVec 5 := 0b00010
def flagUnderflow : BitVec 5 := 0b00100
def flagInexact : BitVec 5 := 0b01000
def flagSaturate : BitVec 5 := 0b10000
def flagIf (b : Bool) (f : BitVec 5) : BitVec 5 := if b then f else 0

/-! ## Rounding -/

/-- m × 2^-shift rounded to an integer, and whether it is inexact. `sticky` says that the exact value lies above m by
less than one. -/
def roundShift (r : Rnd) (neg : Bool) (m shift : Nat) (sticky : Bool) : Nat × Bool :=
  let n := m / 2 ^ shift
  let rem := 2 * (m % 2 ^ shift)
  let half := 2 ^ shift
  let above := decide (half < rem) || (rem == half && sticky)
  let tie := rem == half && !sticky
  let inexact := rem != 0 || sticky
  let up := match r with
    | .rne => above || (tie && n % 2 == 1)
    | .rna => above || tie
    | .rtz => false
    | .rdn => neg && inexact
    | .rup => !neg && inexact
  (if up then n + 1 else n, inexact)

/-- Round m × 2^e to a multiple of 2^q. -/
def roundAt (r : Rnd) (neg : Bool) (m : Nat) (e q : Int) (sticky : Bool) : Nat × Bool :=
  if q ≤ e then (m * 2 ^ (e - q).toNat, sticky) else roundShift r neg m (q - e).toNat sticky

/-- Overflow of an IEEE format (R145): infinity or the largest finite value. -/
def overflowBits (f : Fmt) (r : Rnd) (neg : Bool) : Nat :=
  match r with
  | .rtz => f.maxFinite
  | .rdn => if neg then f.infinity else f.maxFinite
  | .rup => if neg then f.maxFinite else f.infinity
  | _ => f.infinity

/-- Attach a sign. -/
def Fmt.signed (f : Fmt) (neg : Bool) (mag : Nat) : Nat := if neg then 2 ^ f.signBit + mag else mag

/-- Round an exact finite value, or one known to lie less than one unit of its last place above, to a format: the
encoding and its flags (R140 to R146, Table 8.5). -/
def roundNum (f : Fmt) (r : Rnd) (neg : Bool) (m : Nat) (e : Int) (sticky : Bool) : Nat × BitVec 5 :=
  if m = 0 && !sticky then (f.signed neg 0, 0)
  else
    let q0 : Int := e + (m.log2 : Int) - f.mant
    let q := max q0 f.emin
    let (n, inexact) := roundAt r neg m e q sticky
    let mag := (q - f.emin).toNat * 2 ^ f.mant + n
    if f.maxFinite < mag then
      if f.ieee then (f.signed neg (overflowBits f r neg), flagOverflow ||| flagInexact)
      else (f.signed neg f.maxFinite, flagSaturate ||| flagInexact)
    else
      let tiny := decide (q0 < f.emin) &&
        !((roundAt r neg m e q0 sticky).1 == 2 ^ (f.mant + 1) && q0 == f.emin - 1)
      (f.signed neg mag, flagIf inexact flagInexact ||| flagIf (tiny && inexact) flagUnderflow)

/-- Round a value to a format. A NaN becomes the canonical NaN; the flags of a NaN are `invalid`'s. -/
def roundTo (f : Fmt) (r : Rnd) (x : FVal) : Nat × BitVec 5 :=
  match x with
  | .nan _ => (f.nan, flagIf (f = .e2m1) flagInvalid)
  | .inf neg => if f.ieee then (f.signed neg f.infinity, 0) else (f.signed neg f.maxFinite, flagSaturate ||| flagInexact)
  | .num neg m e => roundNum f r neg m e false

/-- The flag of a conversion's signalling operand (Table 8.5). -/
def FVal.signalling : FVal → Bool
  | .nan s => s
  | _ => false

def FVal.isNan : FVal → Bool
  | .nan _ => true
  | _ => false

/-- Convert a value to a floating-point format (R148). -/
def convertTo (f : Fmt) (r : Rnd) (x : FVal) : Nat × BitVec 5 :=
  let y := roundTo f r x
  (y.1, y.2 ||| flagIf x.signalling flagInvalid)

/-- Convert a value to an integer range: rounded first, then clamped (R146). -/
def convertInt (lo hi : Int) (r : Rnd) (x : FVal) : Int × BitVec 5 :=
  match x with
  | .nan _ => (0, flagInvalid)
  | .inf neg => (if neg then lo else hi, flagSaturate ||| flagInexact)
  | .num neg m e =>
    let (n, inexact) := roundAt r neg m e 0 false
    let v : Int := if neg then -(n : Int) else n
    if v < lo then (lo, flagSaturate ||| flagInexact)
    else if hi < v then (hi, flagSaturate ||| flagInexact)
    else (v, flagIf inexact flagInexact)

/-! ## Exact arithmetic (R143) -/

/-- A signed mantissa at an exponent not above the value's own. -/
def scaled (neg : Bool) (m : Nat) (e q : Int) : Int :=
  let x := (m * 2 ^ (e - q).toNat : Nat)
  if neg then -(x : Int) else x

/-- The exact sum, and whether it is an invalid operation. Exact zeros take the sign that R143 gives. -/
def FVal.add (r : Rnd) (x y : FVal) : FVal × Bool :=
  match x, y with
  | .nan a, .nan b => (.nan false, a || b)
  | .nan a, _ => (.nan false, a)
  | _, .nan b => (.nan false, b)
  | .inf a, .inf b => if a = b then (.inf a, false) else (.nan false, true)
  | .inf a, _ => (.inf a, false)
  | _, .inf b => (.inf b, false)
  | .num a m e, .num b n k =>
    let q := min e k
    let s := scaled a m e q + scaled b n k q
    if s = 0 then
      if m = 0 && n = 0 && a == b then (.num a 0 0, false) else (.num (r = .rdn) 0 0, false)
    else (.num (decide (s < 0)) s.natAbs q, false)

def FVal.neg : FVal → FVal
  | .nan s => .nan s
  | .inf a => .inf (!a)
  | .num a m e => .num (!a) m e

/-- The exact product, and whether it is an invalid operation. -/
def FVal.mul (x y : FVal) : FVal × Bool :=
  match x, y with
  | .nan a, .nan b => (.nan false, a || b)
  | .nan a, _ => (.nan false, a)
  | _, .nan b => (.nan false, b)
  | .inf a, .inf b => (.inf (a != b), false)
  | .inf a, .num b n _ => if n = 0 then (.nan false, true) else (.inf (a != b), false)
  | .num a m _, .inf b => if m = 0 then (.nan false, true) else (.inf (a != b), false)
  | .num a m e, .num b n k => (.num (a != b) (m * n) (e + k), false)

/-- Round a result and join its invalid flag. -/
def rounded (f : Fmt) (r : Rnd) (x : FVal × Bool) : Nat × BitVec 5 :=
  let y := roundTo f r x.1
  (y.1, y.2 ||| flagIf x.2 flagInvalid)

def fpAdd (f : Fmt) (r : Rnd) (a b : Nat) : Nat × BitVec 5 := rounded f r ((f.value a).add r (f.value b))
def fpSub (f : Fmt) (r : Rnd) (a b : Nat) : Nat × BitVec 5 := rounded f r ((f.value a).add r (f.value b).neg)
def fpMul (f : Fmt) (r : Rnd) (a b : Nat) : Nat × BitVec 5 := rounded f r ((f.value a).mul (f.value b))
/-- d + a × b with one rounding. -/
def fpFma (f : Fmt) (r : Rnd) (d a b : Nat) : Nat × BitVec 5 :=
  let p := (f.value a).mul (f.value b)
  let s := (f.value d).add r p.1
  rounded f r (s.1, s.2 || p.2)

/-! ## Comparison, minimum and maximum (R144) -/

/-- Where two numbers stand to each other; none where either is a NaN. Zeros are equal. -/
def FVal.compare (x y : FVal) : Option Ordering :=
  match x, y with
  | .nan _, _ => none
  | _, .nan _ => none
  | .inf a, .inf b => some (if a == b then .eq else if a then .lt else .gt)
  | .inf a, _ => some (if a then .lt else .gt)
  | _, .inf b => some (if b then .gt else .lt)
  | .num a m e, .num b n k =>
    let q := min e k
    let s := scaled a m e q
    let t := scaled b n k q
    some (if s < t then .lt else if s = t then .eq else .gt)

/-- minimumNumber and maximumNumber of IEEE 754-2019, -0 below +0: one of the operands' bits. -/
def fpPick (f : Fmt) (max : Bool) (a b : Nat) : Nat × BitVec 5 :=
  let x := f.value a
  let y := f.value b
  let invalid := flagIf (x.signalling || y.signalling) flagInvalid
  match x.compare y with
  | some .lt => (if max then b else a, 0)
  | some .gt => (if max then a else b, 0)
  | some .eq => (if a.testBit f.signBit == max then b else a, 0)
  | none =>
    if x.isNan && y.isNan then (f.nan, invalid)
    else if x.isNan then (b, invalid) else (a, invalid)

/-- The relations of FCMP: EQ, LT, LE, UN. LT and LE of any NaN are invalid, EQ and UN of a signalling one. -/
def fpRelation (f : Fmt) (rel : Nat) (a b : Nat) : Bool × BitVec 5 :=
  let x := f.value a
  let y := f.value b
  let quiet := flagIf (x.signalling || y.signalling) flagInvalid
  let any := flagIf (x.isNan || y.isNan) flagInvalid
  let c := x.compare y
  match rel with
  | 0 => (c == some .eq, quiet)
  | 1 => (c == some .lt, any)
  | 2 => (c == some .lt || c == some .eq, any)
  | _ => (c == none, quiet)

end Sys2Proof.Machine
end

