-- ==== Sys2Proof/Machine/Translate.lean ====
section
/-!
DEFINITION. Sys2Proof/Machine/Translate.lean: the translation tables and the TLBs (R170 to R176), and the checks of an
access to global memory (rows 6 to 10 of Table 9.6).
-/
namespace Sys2Proof.Machine

/-! ## Table walks (R170 to R172) -/

/-- What a walk finds. -/
inductive WalkResult where
  | absent
  | malformed
  | leaf (e : TlbEntry)
deriving DecidableEq, Repr

/-- Table 9.9: the page size of a leaf at a level with a SPAN. -/
def pageSize (level span : Nat) : Option Nat :=
  match level with
  | 1 => if span ≤ 4 then some (4096 * 4 ^ span) else none
  | 2 => if span ≤ 3 then some (2 ^ 21 * 4 ^ span) else none
  | 3 => if span = 0 then some (2 ^ 30) else none
  | _ => none

/-- The levels of Table 9.7 and the lowest address bit that indexes each. -/
def walkLevels : List (Nat × Nat) := [(6, 57), (5, 48), (4, 39), (3, 30), (2, 21), (1, 12)]

/-- The leaf at `pte` with entry `e` (R171, R172). -/
def leafOf (installed root va level pte e : Nat) : WalkResult :=
  let pa := bitField e 51 12 * 4096
  match pageSize level (bitField e 11 8) with
  | none => .malformed
  | some size =>
    if pa % size ≠ 0 || decide (installed < pa + size) then .malformed
    else .leaf { root := root, va := va / size * size, size := size, pa := pa, wr := e.testBit 2, cv := e.testBit 4,
                 pte := pte }

/-- The present leaf that the tables from one on have for an address: its level, where it stands, and its entry. DESIGN CHOICE
(log entry 74): a table outside the installed memory reads like any other physical address. -/
def State.walkFrom (s : State) (va table : Nat) : List (Nat × Nat) → Option (Nat × Nat × Nat)
  | [] => none
  | (level, low) :: rest =>
    let pte := table + 8 * (va / 2 ^ low % 512)
    let e := s.readPhys pte 8
    if e.testBit 0 = false then none
    else if e.testBit 1 then (if 4 ≤ level then none else some (level, pte, e))
    else if level = 1 then none
    else s.walkFrom va (bitField e 51 12 * 4096) rest

/-- The present leaf that maps an address under a root, well formed or not. -/
def State.presentLeaf (s : State) (root va : Nat) : Option (Nat × Nat × Nat) := s.walkFrom va root walkLevels

/-- Walk the tables of a root for a virtual address. -/
def State.walk (s : State) (root va : Nat) : WalkResult :=
  match s.presentLeaf root va with
  | some (level, pte, e) => leafOf s.installed root va level pte e
  | none => .absent

/-! ## The TLBs (R173, R174) -/

def TlbEntry.covers (e : TlbEntry) (root va : Nat) : Bool :=
  e.root == root && decide (e.va ≤ va) && decide (va < e.va + e.size)

/-- Put an entry into a store of `n`; a full store gives one up. -/
def tlbPut (ticks n : Nat) (e : TlbEntry) (l : List TlbEntry) : List TlbEntry :=
  if l.length < n then l ++ [e] else l.eraseIdx (Config.victim ticks n % n) ++ [e]

/-- Set bits of a table entry by an atomic update at the system cache (R173). -/
def State.setPteBits (s : State) (pte bits : Nat) : State :=
  let e := s.readPhys pte 1
  if e ||| bits = e then s else s.writePhys pte 1 (e ||| bits)

/-- Load a leaf into the second-level TLB of a core's cluster and its first-level TLB: A is set (R171). -/
def State.tlbLoad (s : State) (core : Nat) (e : TlbEntry) : State :=
  let s := s.setPteBits e.pte 0x20
  let k := s.clusterAt (core / 8)
  let s := if k.tlb.any (fun x => x.covers e.root e.va) then s
    else s.setCluster (core / 8) { k with tlb := tlbPut s.ticks Config.tlb2Entries e k.tlb }
  let c := s.coreAt core
  s.setCore core { c with tlb := tlbPut s.ticks Config.tlbEntries e c.tlb }

/-- The entry that either TLB of a core holds for an address. -/
def State.tlbFind (s : State) (core root va : Nat) : Option TlbEntry :=
  match (s.coreAt core).tlb.find? (fun e => e.covers root va) with
  | some e => some e
  | none => (s.clusterAt (core / 8)).tlb.find? (fun e => e.covers root va)

/-- Translate an address for a core, by its TLBs or by a walk. -/
def State.translate (s : State) (core root va : Nat) : WalkResult :=
  match s.tlbFind core root va with
  | some e => .leaf e
  | none => s.walk root va

/-- Bring the page of an address into the core's TLBs, where a walk finds a leaf (R174). -/
def State.tlbFill (s : State) (core root va : Nat) : State :=
  match (s.coreAt core).tlb.find? (fun e => e.covers root va) with
  | some _ => s
  | none =>
    match s.translate core root va with
    | .leaf e => s.tlbLoad core e
    | _ => s

/-- The physical address a leaf gives (R172). -/
def TlbEntry.physical (e : TlbEntry) (va : Nat) : Nat := e.pa + (va - e.va)

/-- A byte has been written through the leaf: D is set (R171). -/
def State.markDirty (s : State) (e : TlbEntry) : State := s.setPteBits e.pte 0x40

/-! ## Rows 6 to 10 of Table 9.6 -/

/-- A fault of an access: cause, TADDR and TINFO. -/
structure AccessFault where
  cause : BitVec 8
  addr : BitVec 64
  info : Nat := 0
deriving DecidableEq, Repr

/-- The row of Table 9.6 that a fault of rows 6 to 10 comes from; poison stands after every row (R314, R359). -/
def AccessFault.row (f : AccessFault) : Nat :=
  if f.cause = 0x02 then 6 else if f.cause = 0x07 then 9 else if f.cause = 0x13 then 11
  else if f.info = 7 then 7 else if f.info = 3 then 10 else 8

/-- The first failing check of a lane (R169): of the faults of its bytes, the first in order of least row. -/
def leastFault : List AccessFault → Option AccessFault
  | [] => none
  | f :: fs =>
    match leastFault fs with
    | some g => if g.row < f.row then some g else some f
    | none => some f

/-- The parts of `n` bytes at `va` that lie in one 4 KiB page each. -/
def pageParts (va n : Nat) : List (Nat × Nat) :=
  (List.range (if n = 0 then 0 else (va % 4096 + n + 4095) / 4096)).map fun k =>
    let a := max va (va / 4096 * 4096 + 4096 * k)
    (a, min (va + n) (va / 4096 * 4096 + 4096 * k + 4096) - a)

/-- Physical address `a` lies in a passed verification unit (R116, R117). -/
def State.passed (s : State) (a : Nat) : Bool := s.units.any fun u => u.unit == a / 4096

/-- A hand-off slot of the table at SLOTBASE (Table of R304). -/
structure HandSlot where
  base : Nat
  size : Nat
  seq : Nat
  holder : Nat
  status : Nat
  flags : Nat

def State.handSlot (s : State) (i : Nat) : HandSlot :=
  let a := s.slotBase.toNat + 32 * i
  { base := s.readPhys a 8, size := s.readPhys (a + 8) 8, seq := s.readPhys (a + 16) 4,
    holder := s.readPhys (a + 20) 2, status := s.readPhys (a + 22) 1, flags := s.readPhys (a + 23) 1 }

/-- A holder code of an encode or decode engine, or of the host (R304): a display head writes nothing, and its code is no
engine's. -/
def engineOrHost (holder : Nat) : Bool := (decide (0x100 ≤ holder) && decide (holder < 0x108)) || holder == 0x200

/-- Physical bytes lie in the surface of a slot that an engine or the host holds (R304). -/
def State.surfaceHeld (s : State) (a n : Nat) : Bool :=
  (List.range 64).any fun i =>
    let slot := s.slotBase.toNat + 32 * i
    engineOrHost (s.readPhys (slot + 20) 2)
      && (let h := s.handSlot i; decide (h.base < a + n) && decide (a < h.base + h.size))

/-- The checks of rows 6 to 10 for `n` bytes at `va` inside one page, translated as `w`. -/
def State.checkLeaf (s : State) (w : WalkResult) (va n : Nat) (write : Bool) : Except AccessFault TlbEntry :=
  let fault (cause info : Nat) : Except AccessFault TlbEntry :=
    .error ⟨BitVec.ofNat 8 cause, BitVec.ofNat 64 va, info⟩
  match w with
  | .absent => fault 0x02 0
  | .malformed => fault 0x03 7
  | .leaf e =>
    if write && !e.wr then fault 0x03 0
    else if write && s.surfaceHeld (e.physical va) n then fault 0x03 14
    else if e.cv then fault 0x07 0
    else if s.passed (e.physical va) then fault 0x03 3
    else .ok e

/-- The physical address of `n` bytes at `va` inside one page, for the device acting for a node (R450): rows 6, 7, 9
and 10, and no write permission. -/
def State.deviceAddr (s : State) (root va : Nat) : Except AccessFault Nat :=
  match s.checkLeaf (s.walk root va) va 1 false with
  | .error f => .error f
  | .ok e => .ok (e.physical va)

/-- Read bytes of a virtual structure for the device (R450), byte by byte across pages. -/
def State.deviceRead (s : State) (root va : Nat) : Nat → Except AccessFault (List Byte)
  | 0 => .ok []
  | n + 1 =>
    match s.deviceAddr root va with
    | .error f => .error f
    | .ok a => (s.deviceRead root (va + 1) n).map fun bs => mapGet 0 s.mem a :: bs

/-- Read a little-endian number of a virtual structure. -/
def State.deviceNat (s : State) (root va n : Nat) : Except AccessFault Nat := (s.deviceRead root va n).map leNat

/-- Write bytes through the leaves that map them, page by page; D is set in each leaf (R171, R172). -/
def State.writeMapped (s : State) (root va : Nat) (bs : List Byte) : State :=
  (pageParts va bs.length).foldl (fun s p =>
    match s.walk root p.1 with
    | .leaf e => (s.markDirty e).writeBytes (e.physical p.1) ((bs.drop (p.1 - va)).take p.2)
    | _ => s) s

/-- Write bytes of a virtual structure for the device: no byte is written where a check fails (R450). -/
def State.deviceWrite (s : State) (root va : Nat) (bs : List Byte) : Except AccessFault State :=
  match (pageParts va bs.length).mapM fun p => s.deviceAddr root p.1 with
  | .error f => .error f
  | .ok _ => .ok (s.writeMapped root va bs)

/-! ## Records of faults outside any instruction (R450) -/

/-- The fault record of an access for a node. -/
def Node.faultRecord (n : Node) (f : AccessFault) : FaultRecord :=
  { info := { cause := f.cause, tpc := 0, taddr := f.addr }, group := 0, core := 0, node := n.addr }

/-- Enter a fault of an access for node `i` in its region's queue. -/
def State.nodeFault (s : State) (i : Nat) (f : AccessFault) : State :=
  s.recordOrWait (s.nodeAt i).region ((s.nodeAt i).faultRecord f)

def State.nodeRoot (s : State) (i : Nat) : Nat := (s.regionAt (s.nodeAt i).region).root

end Sys2Proof.Machine
end

