-- ==== Sys2Proof/Machine/Memory.lean ====
section
/-!
DEFINITION. Sys2Proof/Machine/Memory.lean: the generic address space (R154 to R160), the L1 data caches and the stores on
their way to the system cache (R163, R164), and poison (R291).
-/
namespace Sys2Proof.Machine

/-! ## The generic address space -/

/-- The windows of Table 9.1. -/
inductive Window where
  | priv | scratch | cluster | global
deriving DecidableEq, Repr

def windowOf (a : BitVec 64) : Window :=
  let t := (a.extractLsb' 40 24).toNat
  if t = 0xFFFFFF then .priv else if t = 0xFFFFFE then .scratch else if t = 0xFFFFFD then .cluster else .global

/-- The must-be-zero bits of a window address (R154). -/
def windowFormed (a : BitVec 64) : Bool :=
  match windowOf a with
  | .priv => a.extractLsb' 32 8 == 0
  | .scratch => a.extractLsb' 18 6 == 0
  | .cluster => a.extractLsb' 21 19 == 0
  | .global => true

/-- Class of an address for a team whose instance tag is `tag` (Table 9.2). -/
def spaceClass (tag : BitVec 16) (a : BitVec 64) : Nat :=
  if windowFormed a then
    match windowOf a with
    | .global => 0
    | .priv => 1
    | .scratch => if a.extractLsb' 24 16 = tag then 2 else 3
    | .cluster => 4
  else 5

/-- Offset bits [17:0] of a scratchpad or cluster address. -/
def padOffset (a : BitVec 64) : Nat := (a.extractLsb' 0 18).toNat

/-- Where an access leads: bytes of global memory, piece by piece (virtual address, length), bytes of a team's
scratchpad, or the freed scratchpad of a team that is gone (R160). -/
inductive Place where
  | global (pieces : List (Nat × Nat))
  | pad (team off : Nat)
  | gone
deriving DecidableEq, Repr

/-- The team of the executing team's ensemble at a slot (R160): the youngest, where one has been relaunched (R292). -/
def State.slotTeam (s : State) (slot : Nat) : Option Nat :=
  let t := s.team
  (List.range s.teams.length).reverse.find? fun i =>
    let x := s.teamAt i
    x.node == t.node && x.ens == t.ens && x.ensIx == slot

/-- Global address of byte `o` of lane `l`'s private memory (R156). -/
def privateByte (pbase : BitVec 64) (l o : Nat) : Nat :=
  (pbase.toNat + o / 4 * 4 * Config.width + 4 * l + o % 4) % 2 ^ 64

/-- The pieces of `n` bytes of private memory: whole words lie 4 W bytes apart. -/
def privatePieces (pbase : BitVec 64) (l o n : Nat) : List (Nat × Nat) :=
  if n ≤ 4 then [(privateByte pbase l o, n)]
  else (List.range (n / 4)).map fun i => (privateByte pbase l (o + 4 * i), 4)

/-- Checks 1 and 2 of Table 9.6 for an access of `n` bytes: window, range and tag. `lane` is the accessing lane; a
group-space access has none (R423). -/
def State.resolve (s : State) (lane : Option Nat) (a : BitVec 64) (n : Nat) : Except AccessFault Place :=
  let bad (info : Nat) : Except AccessFault Place := .error ⟨0x06, a, info⟩
  if !windowFormed a then bad 4
  else match windowOf a with
    | .global => .ok (.global [(a.toNat, n)])
    | .priv =>
      match lane with
      | none => bad 5
      | some l =>
        let o := (a.extractLsb' 0 32).toNat
        if s.node.priv ≤ o then bad 1 else .ok (.global (privatePieces s.group.pbase l o n))
    | .scratch =>
      if s.spSize ≤ padOffset a then bad 2
      else if a.extractLsb' 24 16 ≠ s.team.tag then .error ⟨0x05, a, (a.extractLsb' 24 16).toNat⟩
      else .ok (.pad s.focus.team (padOffset a))
    | .cluster =>
      let slot := (a.extractLsb' 18 3).toNat
      if s.team.ensTeams ≤ slot then bad 3
      else match s.slotTeam slot with
        | none => .ok .gone
        | some t =>
          if !(s.teamAt t).alive then .ok .gone
          else if s.spSizeOf (s.teamAt t) ≤ padOffset a then bad 3
          else .ok (.pad t (padOffset a))

/-! ## L1 data caches and outgoing stores -/

def CoreUnit.line (c : CoreUnit) (n : Nat) : Option (BitVec 1024) := (c.l1.find? fun p => p.1 == n).map (·.2)

/-- Byte `a` as a store on its way to the system cache holds it. -/
def PendingStore.byteAt (p : PendingStore) (a : Nat) : Option Byte :=
  if p.address ≤ a then p.bytes[a - p.address]? else none

/-- Byte `a` as the core's loads see it past its L1: its own outgoing stores, youngest last, then the system cache. -/
def State.belowL1 (s : State) (core a : Nat) : Byte :=
  (s.coreAt core).outgoing.foldl (fun b p => (p.byteAt a).getD b) (mapGet 0 s.mem a)

/-- Byte `a` as a load of the core returns it (R163). -/
def State.coreByte (s : State) (core a : Nat) : Byte :=
  match (s.coreAt core).line (a / 128) with
  | some x => x.extractLsb' (8 * (a % 128)) 8
  | none => s.belowL1 core a

def State.poisonedAt (s : State) (a : Nat) : Bool := s.poison.contains (a / 8)

/-- The 128 bytes of a line below L1. -/
def State.lineBelow (s : State) (core n : Nat) : BitVec 1024 :=
  BitVec.ofNat 1024 (leNat ((List.range 128).map fun i => s.belowL1 core (128 * n + i)))

/-- Allocate a line in the core's L1, where it is absent and holds no poison. A full cache gives up a line. -/
def State.l1Allocate (s : State) (core n : Nat) : State :=
  let c := s.coreAt core
  if (c.line n).isSome || (List.range 16).any (fun i => s.poison.contains (16 * n + i)) then s
  else
    let l := if c.l1.length < Config.l1Lines then c.l1 else c.l1.eraseIdx (Config.victim s.ticks Config.l1Lines % Config.l1Lines)
    s.setCore core { c with l1 := l ++ [(n, s.lineBelow core n)] }

/-- Invalidate the core's L1. -/
def State.l1Invalidate (s : State) (core : Nat) : State := s.setCore core { s.coreAt core with l1 := [] }

/-- Invalidate the lines that hold bytes of a physical range. -/
def State.l1Drop (s : State) (core a n : Nat) : State :=
  s.setCore core { s.coreAt core with
    l1 := (s.coreAt core).l1.filter fun p => !(decide (128 * p.1 < a + n) && decide (a < 128 * p.1 + 128)) }

/-- Replace byte `i` of a line. -/
def setLineByte (x : BitVec 1024) (i : Nat) (b : Byte) : BitVec 1024 :=
  (x &&& ~~~((0xFF : BitVec 1024) <<< (8 * i))) ||| (b.setWidth 1024 <<< (8 * i))

/-- The lines of an L1 after a store: one that is present is updated (R163). -/
def storeInLines (l : List (Nat × BitVec 1024)) (a : Nat) (bs : List Byte) : List (Nat × BitVec 1024) :=
  l.map fun p => (p.1, bs.zipIdx.foldl (fun x q => if (a + q.2) / 128 = p.1 then setLineByte x ((a + q.2) % 128) q.1 else x) p.2)

/-- A store of a group to physical bytes: it updates L1 and starts for the system cache (R163). -/
def State.storeOut (s : State) (core team group a : Nat) (bs : List Byte) : State :=
  let c := s.coreAt core
  s.setCore core { c with l1 := storeInLines c.l1 a bs,
                          outgoing := c.outgoing ++ [{ team := team, group := group, tick := s.ticks, address := a,
                                                       bytes := bs }] }

/-- A store reaches the system cache. One that reaches a unit under verification or passed is refused (R117, R118). -/
def State.land (s : State) (p : PendingStore) : State :=
  if s.passed p.address || s.passed (p.address + p.bytes.length - 1) then s
  else s.writePart (.store p.tick) p.address p.bytes

/-- Every outgoing store of a core reaches the system cache, oldest first. -/
def State.drainCore (s : State) (core : Nat) : State :=
  let out := (s.coreAt core).outgoing
  out.foldl State.land (s.setCore core { s.coreAt core with outgoing := [] })

/-- Byte `a` lies in a word that is poisoned for the core: its own stores on their way have cleared what they write all of (R186,
R187, R291). -/
def State.corePoisoned (s : State) (core a : Nat) : Bool := (s.drainCore core).poisonedAt a

/-- A load of the core would read a byte of a poisoned word (R291): an L1 line holds no poison. -/
def State.readsPoison (s : State) (core a n : Nat) : Bool :=
  (List.range n).any fun i => ((s.coreAt core).line ((a + i) / 128)).isNone && s.corePoisoned core (a + i)

/-- The group has stores that have not reached the system cache. -/
def State.storesPending (s : State) (team group : Nat) : Bool :=
  (s.coreAt (s.teamAt team).core).outgoing.any fun p => p.team == team && p.group == group

/-- A group of the core has stores that have not reached the system cache. -/
def State.coreStoresPending (s : State) (core : Nat) : Bool := !(s.coreAt core).outgoing.isEmpty

/-- Every core's outgoing stores reach the system cache: what a device access to any memory may take for granted. -/
def State.drainAll (s : State) : State := (s.cores.map (·.1)).foldl (fun s c => s.drainCore c) s

/-! ## Scratchpads (R33, R162) -/

def Team.padByte (t : Team) (o : Nat) : Byte := mapGet 0 t.sp o
def Team.padRead (t : Team) (o n : Nat) : List Byte := memRead t.sp o n
/-- The domain tag of a granule (R162). -/
def Team.gtag (t : Team) (g : Nat) : Word := mapGet 0 t.gtags g
/-- The bits of a tag that Table 13.1 names; the reserved ones read zero (R5, R6). -/
def tagField (x : Word) : Word := x &&& 0xFFFF

/-- Set the tags of the granules that hold bytes of a range. -/
def Team.setTags (t : Team) (o n : Nat) (x : Word) : Team :=
  let count := (o + n - 1) / 1024 - o / 1024 + 1
  { t with gtags := (List.range count).foldl (fun m i => mapSet 0 m (o / 1024 + i) (tagField x)) t.gtags }

/-- The bytes of two ranges meet. -/
def Span.meets (a b : Span) : Bool :=
  decide (0 < a.len) && decide (0 < b.len) && decide (a.start < b.start + b.len) && decide (b.start < a.start + a.len)

/-- A ring whose area a lane store has reached holds undefined entries (R216). -/
def Team.spoilRings (t : Team) (o n : Nat) : Team :=
  let spoil := fun (m : NMap Ring) k =>
    let r := mapGet {} m k
    if r.declared && (Span.mk r.base (16 * r.capacity)).meets ⟨o, n⟩ then mapSet {} m k { r with spoiled := true } else m
  { t with rings := (List.range 4).foldl spoil t.rings }

/-- A lane store of bytes to a scratchpad: the granules become spatial (R162). -/
def Team.padStore (t : Team) (o : Nat) (bs : List Byte) : Team :=
  if bs.isEmpty then t
  else (({ t with sp := memWrite t.sp o bs }).setTags o bs.length 0).spoilRings o bs.length

/-- An engine's write of bytes to a scratchpad leaves tags to the engine (R195). -/
def Team.padWrite (t : Team) (o : Nat) (bs : List Byte) : Team := { t with sp := memWrite t.sp o bs }

end Sys2Proof.Machine
end

