-- ==== Sys2Proof/Machine/Footprint.lean ====
section
/-!
DEFINITION. Sys2Proof/Machine/Footprint.lean: the bytes an accepted engine operation has yet to read or write (R193), the
waits they cause, and the watermark of a tile (R194).
-/
namespace Sys2Proof.Machine

/-! ## Formats by code (Table 8.1) -/

/-- Bits of an element of a format code. -/
def codeBits (code : Nat) : Option Nat :=
  match code with
  | 0x00 => some 8 | 0x01 => some 8 | 0x02 => some 8 | 0x03 => some 16 | 0x04 => some 32 | 0x05 => some 64
  | 0x08 => some 32 | 0x09 => some 16 | 0x0A => some 16 | 0x0B => some 8 | 0x0C => some 8 | 0x0D => some 4
  | 0x0E => some 4 | 0x10 => some 32 | 0x11 => some 64
  | _ => none

/-- Bytes that `n` elements of a format take. -/
def codeBytes (code n : Nat) : Nat := ((codeBits code).getD 8 * n + 7) / 8

/-! ## Copy cards (Table 11.2) -/

structure Card where
  src : Nat
  dst : Nat
  dpitch : Nat
  flags : Nat
  spitch : Nat
  rows : Nat
  cols : Nat
  vrows : Nat
  vcols : Nat
  sfmt : Nat
  dfmt : Nat
  dslot : Nat
  scale : Nat
  dsthi : Nat

/-- The fields of a card. A scratchpad source has its offset in SRCVA[17:0], and the bits above are reserved (R6, R199). -/
def cardOf (c : BitVec 320) : Card :=
  let f := fun hi lo => bitField c.toNat hi lo
  { src := if c.getLsbD 120 then f 17 0 else f 63 0, dst := f 95 64, dpitch := f 111 96, flags := f 127 112, spitch := f 159 128, rows := f 175 160,
    cols := f 191 176, vrows := f 207 192, vcols := f 223 208, sfmt := f 231 224, dfmt := f 239 232, dslot := f 255 240,
    scale := f 287 256, dsthi := f 319 288 }

def Card.padDst (c : Card) : Bool := c.flags.testBit 0
def Card.transpose (c : Card) : Bool := c.flags.testBit 1
def Card.convert (c : Card) : Bool := c.flags.testBit 2
def Card.zeroFill (c : Card) : Bool := c.flags.testBit 3
def Card.decompress (c : Card) : Bool := c.flags.testBit 4
def Card.hash (c : Card) : Bool := c.flags.testBit 5
def Card.remote (c : Card) : Bool := c.flags.testBit 6
def Card.tagged (c : Card) : Bool := c.flags.testBit 7
def Card.padSrc (c : Card) : Bool := c.flags.testBit 8

/-- Destination rows and elements of a row (R200). -/
def Card.dstRows (c : Card) : Nat := if c.transpose then c.cols else c.rows
def Card.dstCols (c : Card) : Nat := if c.transpose then c.rows else c.cols
/-- Rows and columns of the valid extent. -/
def Card.validRows (c : Card) : Nat := min c.vrows c.rows
def Card.validCols (c : Card) : Nat := min c.vcols c.cols
/-- Bytes of a row of `n` elements of a format, its block scales included (R201). -/
def rowBytes (fmt n : Nat) : Nat := if fmt = 0x0D then (n + 1) / 2 + (n + 7) / 8 else codeBytes fmt n
def Card.dstRowBytes (c : Card) : Nat := rowBytes c.dfmt c.dstCols
/-- Destination address: a scratchpad offset, or a virtual address with DSTHI. -/
def Card.dstAddr (c : Card) : Nat := if c.padDst || c.remote then c.dst else c.dsthi * 2 ^ 32 + c.dst
/-- Chunks of a destination row, and of the job (R211). -/
def Card.rowChunks (c : Card) : Nat := (c.dstRowBytes + 4095) / 4096
def Card.empty (c : Card) : Bool := c.rows == 0 || c.cols == 0
def Card.chunks (c : Card) : Nat := if c.empty then 0 else c.dstRows * c.rowChunks

/-- The row of a chunk, and the bytes of it that the chunk takes: from, and up to. -/
def Card.chunkRow (c : Card) (chunk : Nat) : Nat := chunk / c.rowChunks
def Card.chunkFrom (c : Card) (chunk : Nat) : Nat := 4096 * (chunk % c.rowChunks)
def Card.chunkTo (c : Card) (chunk : Nat) : Nat := min (c.chunkFrom chunk + 4096) c.dstRowBytes

/-- The team a job's scratchpad destination belongs to: flag 6 names a slot of the ensemble (R203). -/
def State.cardTeam (s : State) (team : Nat) (c : Card) : Option Nat :=
  if c.remote then ({ s with focus := { team := team } } : State).slotTeam (c.dslot % 8) else some team

/-! ## Pending spans -/

/-- The part of a span from byte `lo` up to byte `hi`. -/
def Span.clip (x : Span) (lo hi : Nat) : Span :=
  { start := max x.start lo, len := min (x.start + x.len) hi - max x.start lo }

/-- Bytes of source row `r` from element `col` on, and from block scale `k` on, within the valid extent (R200, R201). -/
def Card.srcRow (c : Card) (r col k : Nat) : List Span :=
  let z := (codeBits c.sfmt).getD 8
  let a := c.src + r * c.spitch
  (if col < c.validCols then [⟨a + col * z / 8, (c.validCols * z + 7) / 8 - col * z / 8⟩] else [])
    ++ if c.sfmt = 0x0D && decide (k < (c.validCols + 7) / 8) then [⟨a + (c.cols + 1) / 2 + k, (c.validCols + 7) / 8 - k⟩] else []

/-- Source bytes of a scratchpad source that a job has yet to read at a chunk: in source order, or by columns where it
transposes. -/
def Card.srcSpans (c : Card) (chunk : Nat) : List Span :=
  if c.padSrc && decide (chunk < c.chunks) then
    let row := c.chunkRow chunk
    let lo := c.chunkFrom chunk
    let first := lo * 8 / (codeBits c.dfmt).getD 8
    let scale := if c.convert then first / 8 else lo - (c.dstCols + 1) / 2
    (List.range c.validRows).flatMap fun r =>
      if c.transpose then c.srcRow r (row + if r < first then 1 else 0) 0
      else if r < row then [] else if r = row then c.srcRow r first scale else c.srcRow r 0 0
  else []

/-- The source bytes that a chunk itself reads. -/
def Card.chunkReads (c : Card) (chunk : Nat) : List Span :=
  if c.padSrc && decide (chunk < c.chunks) then
    let row := c.chunkRow chunk
    let lo := c.chunkFrom chunk
    let zd := (codeBits c.dfmt).getD 8
    let zs := (codeBits c.sfmt).getD 8
    let first := lo * 8 / zd
    let last := min (c.chunkTo chunk * 8 / zd) c.dstCols
    if c.transpose then
      if row < c.validCols then
        ((List.range (min last c.validRows)).filter fun r => decide (first ≤ r)).map fun r =>
          ⟨c.src + r * c.spitch + row * zs / 8, max 1 (zs / 8)⟩
      else []
    else if row < c.validRows then
      let a := c.src + row * c.spitch
      let data := (c.dstCols + 1) / 2
      let scales := if c.convert then (first / 8, (last + 7) / 8) else (lo - data, c.chunkTo chunk - data)
      (c.srcRow row first scales.1).map fun x =>
        if x.start < a + (c.cols + 1) / 2 || c.sfmt ≠ 0x0D then x.clip a (a + (last * zs + 7) / 8)
        else x.clip a (a + (c.cols + 1) / 2 + scales.2)
    else []
  else []

/-- The destination bytes that a chunk writes: those of the valid extent, or with zero-fill every one (R200, R201). -/
def Card.chunkWrites (c : Card) (chunk : Nat) : List Span :=
  let row := c.chunkRow chunk
  let base := c.dstAddr + row * c.dpitch
  let lo := base + c.chunkFrom chunk
  let hi := base + c.chunkTo chunk
  let vr := if c.transpose then c.validCols else c.validRows
  let vc := if c.transpose then c.validRows else c.validCols
  if c.zeroFill then [⟨lo, hi - lo⟩]
  else if row < vr then
    (Span.mk base (codeBytes c.dfmt vc)).clip lo hi ::
      if c.dfmt = 0x0D then [(Span.mk (base + (c.dstCols + 1) / 2) ((vc + 7) / 8)).clip lo hi] else []
  else []

/-- The hash trailer of a job (R205). -/
def Card.trailer (c : Card) : List Span := if c.hash then [⟨c.dstAddr + c.dstRows * c.dpitch, 16⟩] else []

/-- Destination bytes a job has yet to write, its hash trailer included. -/
def Card.dstSpans (c : Card) (chunk : Nat) : List Span :=
  ((List.range c.chunks).filter fun k => decide (chunk ≤ k)).flatMap c.chunkWrites ++
    if chunk ≤ c.chunks then c.trailer else []

def State.copyReads (_s : State) (t : Nat) (j : CopyJob) : List Span :=
  if j.team = t then (cardOf j.card).srcSpans j.chunk else []

def State.copyWrites (s : State) (t : Nat) (j : CopyJob) : List Span :=
  let c := cardOf j.card
  if (c.padDst || c.remote) && j.team == t && s.cardTeam j.team c == some t then c.dstSpans j.chunk else []

/-- K of an operand pair (Table 12.1): the wider format decides. -/
def depthOf (fa fb : Nat) : Nat := 768 / max ((codeBits fa).getD 8) ((codeBits fb).getD 8)
/-- Elements of a block of BLC (Table 12.2). -/
def blockLen (blc : Nat) : Nat := 4 * 2 ^ blc

/-- The bytes of row `i` of an operand (R220): its data, its block scales. -/
def FormatBlock.rowSpans (f : FormatBlock) (k : Nat) (float : Bool) (i : Nat) : List Span :=
  ⟨f.off + i * f.stride, codeBytes f.fmt.toNat k⟩ ::
    if float && f.blc != 0 then [⟨f.blkoff + i * (k / blockLen f.blc), k / blockLen f.blc⟩] else []

def FormatBlock.bandSpans (f : FormatBlock) (float : Bool) : List Span :=
  match f.bandoff with
  | some b => if float then [⟨b, 2⟩] else []
  | none => []

/-- An integer operand format of the matrix engine (R151). -/
def isIntFmt (f : BitVec 8) : Bool := f == 0x01 || f == 0x02 || f == 0x0E

/-- The rows of a mask from `from` on. -/
def maskRows (em : Word) (from_ : Nat) : List Nat := (List.range 32).filter fun i => em.getLsbD i && decide (from_ ≤ i)

def MatrixOp.em0 (o : MatrixOp) : Word := o.masks.headD 0
def MatrixOp.em1 (o : MatrixOp) : Word := (o.masks.drop 1).headD 0

/-- Bytes an operation reads (R220, R233): from row `o.row` of A on, and B while a row is left. -/
def MatrixOp.reads (o : MatrixOp) : List Span :=
  let rows := maskRows o.em0 o.row
  match o.kind with
  | .mma _ a b =>
    let k := depthOf a.fmt.toNat b.fmt.toNat
    let float := !isIntFmt a.fmt
    let cols := maskRows o.em1 0
    if rows.isEmpty && o.row != 0 then []
    else rows.flatMap (a.rowSpans k float) ++ cols.flatMap (b.rowSpans k float)
      ++ (if rows.isEmpty then [] else a.bandSpans float) ++ (if cols.isEmpty then [] else b.bandSpans float)
  | .mmas _ a b _ _ =>
    if rows.isEmpty && o.row != 0 then []
    else rows.map (fun i => ⟨a.off + i * a.stride, 64⟩) ++ [⟨b.off, 64⟩]
  | .accst .. => []

/-- Bytes ACCST writes (R227): its enabled elements, from row `o.row` on. -/
def MatrixOp.writes (o : MatrixOp) : List Span :=
  match o.kind with
  | .accst off stride fmt =>
    let z := codeBytes fmt.toNat 1
    (maskRows o.em0 o.row).flatMap fun i => (maskRows o.em1 0).map fun j => ⟨off + i * stride + j * z, z⟩
  | _ => []

/-- The tile the operation updates or reads. -/
def MatrixKind.updates : MatrixKind → Bool
  | .accst .. => false
  | _ => true

/-- `count` vectors of `len` bytes at a stride. -/
def vectorSpans (off stride len count : Nat) : List Span := (List.range count).map fun v => ⟨off + v * stride, len⟩

def TransformKind.isIxft : TransformKind → Bool
  | .ixftTile .. => true
  | .ixftScratch .. => true
  | _ => false

def TransformOp.reads (o : TransformOp) : List Span :=
  match o.kind with
  | .xft src => vectorSpans src.off src.stride (o.len * codeBytes src.fmt.toNat 1) o.dst.count
  | .ixftTile .. => []
  | .ixftScratch src _ => vectorSpans src.off src.stride (2 * o.len) o.dst.count
  | .xact _ _ _ (some b) => vectorSpans b.off b.stride (o.len * codeBytes b.fmt.toNat 1) o.dst.count
  | .xact _ _ _ none => []

def TransformOp.writes (o : TransformOp) : List Span :=
  vectorSpans o.dst.off o.dst.stride
    (if o.kind.isIxft then o.len * codeBytes o.dst.fmt.toNat 1 else 2 * o.len) o.dst.count

/-- The tile a transform reads. -/
def TransformKind.tile : TransformKind → Option Nat
  | .ixftTile t _ => some t
  | .xact t _ _ _ => some t
  | _ => none

/-- Spans that operations of team `t` accepted before `seq` have yet to read, and to write. -/
def State.pendingReads (s : State) (t seq : Nat) : List Span :=
  let c := s.coreAt (s.teamAt t).core
  (c.copyQ.filter fun j => decide (j.seq < seq)).flatMap (s.copyReads t)
    ++ (c.matrixQ.filter fun o => o.team == t && decide (o.seq < seq)).flatMap MatrixOp.reads
    ++ (c.transformQ.filter fun o => o.team == t && decide (o.seq < seq)).flatMap TransformOp.reads

def State.pendingWrites (s : State) (t seq : Nat) : List Span :=
  let c := s.coreAt (s.teamAt t).core
  (c.copyQ.filter fun j => decide (j.seq < seq)).flatMap (s.copyWrites t)
    ++ (c.matrixQ.filter fun o => o.team == t && decide (o.seq < seq)).flatMap MatrixOp.writes
    ++ (c.transformQ.filter fun o => o.team == t && decide (o.seq < seq)).flatMap TransformOp.writes

def spansMeet (a b : List Span) : Bool := a.any fun x => b.any fun y => x.meets y

/-- The operation sets the tags of its granules, rather than resets them (R204, R231). -/
def TransformOp.setsTags (o : TransformOp) : Bool := !o.kind.isIxft

/-- Spans that operations of team `t` accepted before `seq` have yet to write, and whose granules' tags they set. -/
def State.pendingTags (s : State) (t seq : Nat) : List Span :=
  let c := s.coreAt (s.teamAt t).core
  (c.copyQ.filter fun j => decide (j.seq < seq) && (cardOf j.card).tagged).flatMap (s.copyWrites t)
    ++ (c.transformQ.filter fun o => o.team == t && decide (o.seq < seq) && o.setsTags).flatMap TransformOp.writes

/-- The whole granules that hold bytes of a span. -/
def Span.granules (x : Span) : Span :=
  if x.len = 0 then x
  else { start := x.start / 1024 * 1024, len := ((x.start + x.len + 1023) / 1024 - x.start / 1024) * 1024 }

/-- An access to bytes of team `t`'s scratchpad waits on operations accepted before `seq` (Table 10.4). A granule's tag is a
location of its own that every write of the granule writes: one that resets it waits for an operation that has it yet to set,
so that the later tag stands (R195, R231; log entry 72). -/
def State.interlocked (s : State) (t seq : Nat) (spans : List Span) (write : Bool) : Bool :=
  spansMeet spans (s.pendingWrites t seq)
    || (write && (spansMeet spans (s.pendingReads t seq) || spansMeet (spans.map Span.granules) (s.pendingTags t seq)))

/-- The tags of the granules that a write sets wait for every operation accepted before `seq` that writes there (R195, R231). -/
def State.tagsAwait (s : State) (t seq : Nat) (spans : List Span) : Bool :=
  spansMeet (spans.map Span.granules) (s.pendingWrites t seq)

/-- The access of a granule's tag waits while an operation accepted before `seq` has bytes of the granule yet to pass, read or
written (R195, R233, R241): the interlock of a write over the granule. -/
def State.tagPending (s : State) (t seq : Nat) (granules : List Nat) : Bool :=
  s.interlocked t seq (granules.map fun g => Span.mk (1024 * g) 1024) true

/-- The granules that hold bytes of spans, in increasing order. -/
def granulesOf (spans : List Span) : List Nat :=
  (List.range 256).filter fun g => spans.any fun x => x.meets ⟨1024 * g, 1024⟩

/-! ## Tiles (R194, R240) -/

/-- Operations of team `t` on a tile. -/
def State.tileOps (s : State) (t tile : Nat) : List MatrixOp :=
  (s.coreAt (s.teamAt t).core).matrixQ.filter fun o => o.team == t && o.tile == tile

/-- The first row an operation has not made final; 32 when every row is. -/
def MatrixOp.mark (o : MatrixOp) : Nat := (maskRows o.em0 o.row).headD 32

/-- The watermark of a tile: the rows below it are final under every operation in flight on the tile. -/
def State.watermark (s : State) (t tile : Nat) : Nat :=
  ((s.tileOps t tile).filter fun o => o.kind.updates).foldl (fun w o => min w o.mark) 32

/-- An operation in flight updates or reads the tile: ACCWR and ACCZ wait (R194, R240). -/
def State.tileBusy (s : State) (t tile : Nat) : Bool :=
  !(s.tileOps t tile).isEmpty ||
    (s.coreAt (s.teamAt t).core).transformQ.any fun o => o.team == t && o.kind.tile == some tile

/-- Element `f` of a tile; a tile outside the budget reads zero (R308). -/
def Team.accAt (t : Team) (tile f : Nat) : Word := mapGet 0 t.acc (1024 * tile + f)
def Team.accSet (t : Team) (tile f : Nat) (x : Word) : Team := { t with acc := mapSet 0 t.acc (1024 * tile + f) x }
def Team.tileTag (t : Team) (tile : Nat) : TileTag := mapGet {} t.ttags tile
def Team.setTileTag (t : Team) (tile : Nat) (x : TileTag) : Team := { t with ttags := mapSet {} t.ttags tile x }

/-- The next number of acceptance (R17). -/
def State.accept (s : State) : Nat × State := (s.acceptSeq, { s with acceptSeq := s.acceptSeq + 1 })

end Sys2Proof.Machine
end

