-- ==== Sys2Proof/Machine/Access.lean ====
section
/-!
DEFINITION. Sys2Proof/Machine/Access.lean: the checks, waits and data movement that lane and group-space memory
instructions share (R154 to R169, R175, R176, R193).
-/
namespace Sys2Proof.Machine

/-- Root and core of the executing team. -/
def State.rootNow (s : State) : Nat := s.region.root
def State.coreNow (s : State) : Nat := s.team.core

/-- One access: the lane, if any, its address as a trap reports it, and where it leads. -/
structure Access where
  lane : Nat := 0
  addr : BitVec 64
  place : Place
deriving DecidableEq

/-- The pages (4 KiB-aligned addresses) of pieces of global memory. -/
def pagesOf (pieces : List (Nat × Nat)) : List Nat :=
  pieces.flatMap fun p => if p.2 = 0 then [] else [p.1 / 4096 * 4096, (p.1 + p.2 - 1) / 4096 * 4096]

def Place.pieces : Place → List (Nat × Nat)
  | .global ps => ps
  | _ => []

/-- The pages that neither TLB of the core holds. -/
def State.missingPages (s : State) (pages : List Nat) : List Nat :=
  (pages.filter fun p => (s.tlbFind s.coreNow s.rootNow p).isNone).eraseDups

/-- The faults of rows 6 to 10 of Table 9.6 for pieces of global memory, in order of address; each takes the access's
address. -/
def State.pieceFaults (s : State) (addr : BitVec 64) (pieces : List (Nat × Nat)) (write : Bool) : List AccessFault :=
  (pieces.flatMap fun p => pageParts p.1 p.2).filterMap fun q =>
    match s.checkLeaf (s.translate s.coreNow s.rootNow q.1) q.1 q.2 write with
    | .error f => some { f with addr := addr }
    | .ok _ => none

/-- Rows 6 to 10 of Table 9.6 for the pieces of one access: the least row that fails (R169). -/
def State.checkPieces (s : State) (addr : BitVec 64) (pieces : List (Nat × Nat)) (write : Bool) : Option AccessFault :=
  leastFault (s.pieceFaults addr pieces write)

/-- The physical address of a virtual one; the checks have passed. -/
def State.phys (s : State) (va : Nat) : Nat :=
  match s.translate s.coreNow s.rootNow va with
  | .leaf e => e.physical va
  | _ => 0

/-- The bytes of pieces, as the core's loads see them. -/
def State.readPieces (s : State) (pieces : List (Nat × Nat)) : List Byte :=
  pieces.flatMap fun p => (List.range p.2).map fun i => s.coreByte s.coreNow (s.phys (p.1 + i))

/-- Load the bytes of an access: a team that is gone reads zero (R160). -/
def State.loadPlace (s : State) (p : Place) (n : Nat) : List Byte :=
  match p with
  | .global ps => s.readPieces ps
  | .pad t o => (s.teamAt t).padRead o n
  | .gone => List.replicate n 0

/-- The first address of a piece in each 128-byte line that it meets. -/
def lineStarts (p : Nat × Nat) : List Nat :=
  (List.range (if p.2 = 0 then 0 else (p.1 % 128 + p.2 + 127) / 128)).map fun k => max p.1 (p.1 / 128 * 128 + 128 * k)

/-- The accessed lines enter the core's L1 (R163). -/
def State.allocPieces (s : State) (pieces : List (Nat × Nat)) : State :=
  (pieces.flatMap lineStarts).foldl (fun s a => s.l1Allocate s.coreNow (s.phys a / 128)) s

/-- Store bytes to the pieces of global memory, in parts of one aligned 16-byte block; D is set (R171). -/
def State.storePieces (s : State) : List (Nat × Nat) → List Byte → State
  | [], _ => s
  | p :: ps, bs =>
    let chunk := fun (s : State) (k : Nat) =>
      let va := p.1 + k
      let n := min (16 - va % 16) (p.2 - k)
      match s.translate s.coreNow s.rootNow va with
      | .leaf e => (s.markDirty e).storeOut s.coreNow s.focus.team s.focus.group (e.physical va) ((bs.drop k).take n)
      | _ => s
    let starts := (List.range p.2).filter fun k => k == 0 || (p.1 + k) % 16 == 0
    (starts.foldl chunk s).storePieces ps (bs.drop p.2)

/-- Store the bytes of an access. -/
def State.storePlace (s : State) (p : Place) (bs : List Byte) : State :=
  match p with
  | .global ps => s.storePieces ps bs
  | .pad t o => s.setTeam t ((s.teamAt t).padStore o bs)
  | .gone => s

/-- A read of pieces reads a byte of a poisoned word (R291). A read at the system cache does so whatever L1 holds. -/
def State.poisonPieces (s : State) (pieces : List (Nat × Nat)) (direct : Bool) : Bool :=
  pieces.any fun p => (List.range p.2).any fun i =>
    let a := s.phys (p.1 + i)
    if direct then s.corePoisoned s.coreNow a else s.readsPoison s.coreNow a 1

/-- The spans of the executing team's own scratchpad that accesses of `n` bytes reach (R193). -/
def ownSpans (team n : Nat) (places : List Place) : List Span :=
  places.filterMap fun p =>
    match p with
    | .pad t o => if t = team then some ⟨o, n⟩ else none
    | _ => none

/-- The lowest lane's fault of a list in lane order, and the lanes of the same cause (R169). -/
def firstFault (l : List (Nat × AccessFault)) : Option (AccessFault × LaneMask) :=
  match l with
  | [] => none
  | (_, f) :: _ => some (f, maskOf fun i => l.any fun p => p.1 == i && p.2.cause == f.cause)

/-- The lowest lane's fault, and every lane whose reads fault, whatever their cause (Tables 21.4 and 22.3, which govern for their
instructions, R13). -/
def firstOfAll (l : List (Nat × AccessFault)) : Option (AccessFault × LaneMask) :=
  match l with
  | [] => none
  | (_, f) :: _ => some (f, maskOf fun i => l.any fun p => p.1 == i)

/-- Walk what is missing, or report the wait for it (R176). -/
def State.walkPages (s : State) (pages : List Nat) : Except Wait State :=
  let missing := s.missingPages pages
  if !missing.isEmpty && !s.path.walked then .error (.walk (missing.map (BitVec.ofNat 64 ·)))
  else .ok (missing.foldl (fun s p => s.tlbFill s.coreNow s.rootNow p) s)

/-- A memory order's parts at a scope: an acquire or release at ensemble scope or wider acts on the caches (R163). -/
def wideScope (scope : BitVec 3) : Bool := decide (2 ≤ scope.toNat)
def hasAcquire (ord : Nat) : Bool := ord == 1 || ord == 3 || ord == 4
def hasRelease (ord : Nat) : Bool := ord == 2 || ord == 3 || ord == 4

/-- The release part of an access waits for the stores under way (R163): the group's, and those of the core's other
groups, which may be ordered before it within a team (R181); an sc load does so to keep the order S (R183). -/
def State.orderWaits (s : State) (ord : Nat) (scope : BitVec 3) : Bool :=
  hasRelease ord && wideScope scope && s.coreStoresPending s.coreNow && !s.path.released
/-- A release that re-issues after its wait goes behind the stores the core has made since (log entry 29). -/
def State.orderRelease (s : State) (ord : Nat) (scope : BitVec 3) : State :=
  if hasRelease ord && wideScope scope && s.coreStoresPending s.coreNow then s.drainCore s.coreNow else s
/-- The acquire part invalidates the core's L1. -/
def State.orderAcquire (s : State) (ord : Nat) (scope : BitVec 3) : State :=
  if hasAcquire ord && wideScope scope then s.l1Invalidate s.coreNow else s
/-- The caches as a memory order leaves them for its access (R163). -/
def State.ordered (s : State) (ord : Nat) (scope : BitVec 3) : State := (s.orderRelease ord scope).orderAcquire ord scope

/-- The frame of a lane memory instruction (R169, R176): `early` gives each active lane's checks 1 to 5 and its place,
`pieces` the global bytes of a place, and `k` runs once every check has passed and no wait stands. -/
structure LaneAccess where
  /-- checks 1 to 5 of a lane, and where its accesses lead -/
  early : State → Nat → Except AccessFault (List Access)
  bytes : Nat
  write : Bool
  /-- a load of the lane reads memory, so poison traps -/
  reads : Bool
  /-- the read is made at the system cache -/
  direct : Bool := false
  /-- the checks of Table 22.3: poison is a check of each lane's own, after rows 6 to 10 (row 7), and TMASK holds every lane
  whose reads fault; elsewhere poison stands after every lane's checks (R314, R359), and TMASK holds the lanes of the lowest
  lane's cause (R169) -/
  texel : Bool := false
  /-- the accesses that interlock with engine footprints as writes (R193); all do as reads at least -/
  writers : State → List Access → List Access := fun _ as => if write then as else []

/-- A lane's one access as a list. -/
def single (f : State → Nat → Except AccessFault Access) (s : State) (l : Nat) : Except AccessFault (List Access) :=
  (f s l).map fun a => [a]

/-- The poison fault of an access (R291). -/
def LaneAccess.poisonOf (x : LaneAccess) (s : State) (a : Access) : Option AccessFault :=
  if x.reads && s.poisonPieces a.place.pieces x.direct then some ⟨0x13, a.addr, 0⟩ else none

/-- The fault that an access of the lanes takes, and its TMASK. -/
def LaneAccess.first (x : LaneAccess) (l : List (Nat × AccessFault)) : Option (AccessFault × LaneMask) :=
  if x.texel then firstOfAll l else firstFault l

/-- The fault of a lane's checks 1 to 5, or of rows 6 to 10 for its accesses: the least row that fails (R169). -/
def LaneAccess.faultOf (x : LaneAccess) (s : State) : Except AccessFault (List Access) → Option AccessFault
  | .error f => some f
  | .ok as => leastFault ((as.flatMap fun a => s.pieceFaults a.addr a.place.pieces x.write)
      ++ if x.texel then as.filterMap (x.poisonOf s) else [])

def laneAccess (x : LaneAccess) (ord : Nat) (scope : BitVec 3) (s : State) (k : State → List Access → Res) : Res :=
  let lanes := lanesOf s.active
  let early := x.early s
  let good := lanes.flatMap fun l => (early l).toOption.getD []
  match s.walkPages (good.flatMap fun a => pagesOf a.place.pieces) with
  | .error w => .wait s w
  | .ok s =>
    let faults := lanes.filterMap fun l => (x.faultOf s (early l)).map fun f => (l, f)
    match x.first faults with
    | some (f, m) => .trap f.cause f.addr (BitVec.ofNat 64 f.info) (some m)
    | none =>
      let spans := ownSpans s.focus.team x.bytes (good.map (·.place))
      let writes := ownSpans s.focus.team x.bytes ((x.writers s good).map (·.place))
      if s.interlocked s.focus.team s.acceptSeq spans false then .wait s (.footprint spans false)
      else if s.interlocked s.focus.team s.acceptSeq writes true then .wait s (.footprint writes true)
      else if s.orderWaits ord scope then .wait s .stores
      else
        let s := s.ordered ord scope
        match firstFault (good.filterMap fun a => (x.poisonOf s a).map fun f => (a.lane, f)) with
        | some (f, m) => .trap f.cause f.addr 0 (some m)
        | none => k s good

/-- The generic address of a lane memory instruction (R154). -/
def State.laneAddress (s : State) (va : BitVec 7) (wb : BitVec 6) (l : Nat) : BitVec 64 :=
  if wb = 0 then s.pair va.toNat l else s.uni wb + (s.lane va l).setWidth 64

/-- The scratchpad offset of LDL, STL and ATOML, checked (R159). -/
def State.localOffset (s : State) (va : BitVec 7) (wb : BitVec 6) (l size : Nat) : Except AccessFault Access :=
  let place := fun (a : BitVec 64) (o : Nat) =>
    if s.spSize ≤ o then (.error ⟨0x06, a, 2⟩ : Except AccessFault Access)
    else if o % size ≠ 0 then .error ⟨0x04, a, 0⟩
    else .ok { lane := l, addr := a, place := .pad s.focus.team o }
  if wb = 0 then
    let a := s.pair va.toNat l
    match spaceClass s.team.tag a with
    | 2 => place a (padOffset a)
    | 3 => .error ⟨0x05, a, (a.extractLsb' 24 16).toNat⟩
    | _ => .error ⟨0x06, a, 5⟩
  else
    let a := ((s.uni wb + (s.lane va l).setWidth 64).extractLsb' 0 32).setWidth 64
    place a a.toNat

/-- Registers that a generic or based address reads. -/
def addrRegs (va : BitVec 7) (wb : BitVec 6) : List Nat × List (BitVec 6) :=
  if wb = 0 then (regsFrom va.toNat 2, []) else ([va.toNat], [wb])

/-- The words of a little-endian value of `n` bytes, from register 0 on. -/
def wordOf (bs : List Byte) (i : Nat) : Word := BitVec.ofNat 32 (leNat ((bs.drop (4 * i)).take 4))
/-- Registers that a value of `n` bytes takes (R358). -/
def regCount (n : Nat) : Nat := max 1 (n / 4)
/-- The low `n` bytes of registers vt onward in a lane (R404). -/
def State.regBytes (s : State) (vt l n : Nat) : List Byte :=
  ((List.range (regCount n)).flatMap fun i => natLe 4 (s.vreg (vt + i) l).toNat).take n

end Sys2Proof.Machine
end

