-- ==== Sys2Proof/Machine/LoadStore.lean ====
section
/-!
DEFINITION. Sys2Proof/Machine/LoadStore.lean: buffer records and the conversion stage (R165 to R167), and the lane loads
and stores, majors 0x20 to 0x29, 0x2C and 0x2D.
-/
namespace Sys2Proof.Machine

/-! ## Buffer records (Table 9.4) -/

structure BufRec where
  base : Nat
  extent : Nat
  mem : Nat
  reg : Nat
  swz : Nat
  scale : Nat
  tilex : Nat
  tiley : Nat
  bzero : Bool
  rdonly : Bool
  noalloc : Bool
deriving DecidableEq, Repr

def bufRecOf (x : Nat) : BufRec :=
  { base := bitField x 63 0, extent := bitField x 111 64, mem := bitField x 119 112, reg := bitField x 127 120,
    swz := bitField x 143 128, scale := bitField x 175 144, tilex := bitField x 191 176, tiley := bitField x 207 192,
    bzero := x.testBit 209, rdonly := x.testBit 210, noalloc := x.testBit 211 }

/-- The raw record 0 (R165). -/
def rawRec : BufRec :=
  { base := 0, extent := 0, mem := 0, reg := 0, swz := 0, scale := 0, tilex := 0, tiley := 0, bzero := false,
    rdonly := false, noalloc := false }

def State.recAddr (s : State) (n : Nat) : Nat := (s.node.brecbase.toNat + 64 * n) % 2 ^ 64

/-- Read record n; record 0 is raw whatever its contents (R165). DEDUCED: a record that cannot be read faults as a read
of its address does. -/
def State.bufRec (s : State) (n : Nat) : Except AccessFault BufRec :=
  if n = 0 then .ok rawRec
  else (s.deviceNat s.rootNow (s.recAddr n) 40).map bufRecOf

/-- Bytes of an element in a register (R167). -/
def regElem (fmt : Nat) : Option Nat :=
  match fmt with
  | 0x00 => some 1 | 0x04 => some 4 | 0x08 => some 4 | 0x09 => some 2 | 0x0A => some 2 | 0x10 => some 4 | 0x11 => some 8
  | _ => none

def isComplex (fmt : Nat) : Bool := fmt == 0x10 || fmt == 0x11

/-- A SCALE that R166 refuses: an infinity, a NaN or -0. -/
def badScale (x : Nat) : Bool := x / 2 ^ 23 % 256 == 255 || x == 0x80000000

/-- The record is valid for an access of `r` bytes (R166). DEDUCED (log entry 69): format 0x0D without an extent, and an odd number
of elements of a nibble format, which R167 rules out and R166 does not name, are other uses of the record. -/
def BufRec.validFor (b : BufRec) (r : Nat) (store : Bool) : Bool :=
  let z := (regElem b.reg).getD 0
  (codeBits b.mem).isSome && (regElem b.reg).isSome
    && (b.mem == 0) == (b.reg == 0)
    && !(isComplex b.mem && !isComplex b.reg)
    && !(store && !isComplex b.mem && isComplex b.reg)
    && !badScale b.scale
    && b.swz / 2 ^ 14 == 0 && decide (b.swz % 4 < 2)
    && !(store && b.mem == 0x0D)
    && !(b.mem == 0x0D && b.extent == 0)
    && r % z == 0
    && !((codeBits b.mem).getD 8 == 4 && r / z % 2 == 1)

/-- Elements that an access of `r` bytes moves, and its memory footprint. -/
def BufRec.elems (b : BufRec) (r : Nat) : Nat := r / (regElem b.reg).getD 1
def BufRec.footprint (b : BufRec) (r : Nat) : Nat := (codeBits b.mem).getD 8 * b.elems r / 8

/-- The swizzle of R167. -/
def BufRec.swizzle (b : BufRec) (d : Nat) : Nat :=
  if b.swz % 4 = 1 then
    d ^^^ ((d / 2 ^ bitField b.swz 13 9 % 2 ^ bitField b.swz 4 2) * 2 ^ bitField b.swz 8 5)
  else d

/-- Where an access through a record leads: its footprint's first byte, or outside the extent. -/
structure RecPlace where
  start : Nat
  outside : Bool

def BufRec.locate (b : BufRec) (a r : Nat) : RecPlace :=
  let d := b.swizzle ((a + 2 ^ 64 - b.base) % 2 ^ 64)
  { start := (b.base + d) % 2 ^ 64
    outside := b.extent != 0 && (decide (a < b.base) || decide (b.extent < d + b.footprint r)) }

/-- The bytes of block scales that an access to blocked FP4 reads (R167). -/
def BufRec.scalePieces (b : BufRec) (p : RecPlace) (n : Nat) : List (Nat × Nat) :=
  if b.mem = 0x0D then
    let k := 2 * ((p.start + 2 ^ 64 - b.base) % 2 ^ 64)
    let first := k / 8
    [((b.base + b.extent + first) % 2 ^ 64, (k + n - 1) / 8 - first + 1)]
  else []

/-! ## Elements -/

/-- The value of element `i` of memory bytes: one part; complex elements have two (R137 to R139). -/
def memValue (fmt : Nat) (bs : List Byte) (i : Nat) : FVal :=
  let x := leNat bs
  match fmt with
  | 0x01 => intValue (BitVec.ofNat 8 (x / 2 ^ (8 * i))).toInt
  | 0x02 => .num false (x / 2 ^ (8 * i) % 2 ^ 8) 0
  | 0x03 => intValue (BitVec.ofNat 16 (x / 2 ^ (16 * i))).toInt
  | 0x04 => intValue (BitVec.ofNat 32 (x / 2 ^ (32 * i))).toInt
  | 0x05 => intValue (BitVec.ofNat 64 (x / 2 ^ (64 * i))).toInt
  | 0x08 => Fmt.fp32.value (x / 2 ^ (32 * i) % 2 ^ 32)
  | 0x09 => Fmt.fp16.value (x / 2 ^ (16 * i) % 2 ^ 16)
  | 0x0A => Fmt.bf16.value (x / 2 ^ (16 * i) % 2 ^ 16)
  | 0x0B => Fmt.e4m3.value (x / 2 ^ (8 * i) % 2 ^ 8)
  | 0x0C => Fmt.e5m2.value (x / 2 ^ (8 * i) % 2 ^ 8)
  | 0x0D => Fmt.e2m1.value (x / 2 ^ (4 * i) % 2 ^ 4)
  | 0x0E => intValue (BitVec.ofNat 4 (x / 2 ^ (4 * i))).toInt
  | 0x10 => Fmt.bf16.value (x / 2 ^ (16 * i) % 2 ^ 16)
  | 0x11 => Fmt.fp32.value (x / 2 ^ (32 * i) % 2 ^ 32)
  | _ => .num false (x / 2 ^ (8 * i) % 2 ^ 8) 0

/-- Bits of one part of an element. -/
def partBits (fmt : Nat) : Nat := (codeBits fmt).getD 8 / if isComplex fmt then 2 else 1

/-- Round a value to one part of a format, under the default rule (R140). -/
def roundPart (fmt : Nat) (x : FVal) : Nat × BitVec 5 :=
  let int := fun (n : Nat) (lo hi : Int) =>
    let r := convertInt lo hi (rndOf 0 (decide (16 ≤ n))) x
    ((BitVec.ofInt n r.1).toNat, r.2)
  match fmt with
  | 0x01 => int 8 (-128) 127
  | 0x02 => int 8 0 255
  | 0x03 => int 16 (-(2 ^ 15)) (2 ^ 15 - 1)
  | 0x04 => int 32 (-(2 ^ 31)) (2 ^ 31 - 1)
  | 0x05 => int 64 (-(2 ^ 63)) (2 ^ 63 - 1)
  | 0x08 => roundTo .fp32 .rne x
  | 0x09 => roundTo .fp16 .rne x
  | 0x0A => roundTo .bf16 .rne x
  | 0x0B => roundTo .e4m3 .rna x
  | 0x0C => roundTo .e5m2 .rna x
  | 0x0D => roundTo .e2m1 .rna x
  | 0x0E => int 4 (-8) 7
  | 0x10 => roundTo .bf16 .rne x
  | 0x11 => roundTo .fp32 .rne x
  | _ => (0, 0)

/-- The scale of a record or card: 0 means 1.0. -/
def scaleValue (x : Nat) : FVal := if x = 0 then .num false 1 0 else Fmt.fp32.value x

/-- A quotient by a finite non-zero scale, exact up to one rounding: the mantissa carries 128 bits beyond the divisor's,
and a last odd bit stands for what is left (R167). -/
def FVal.divBy (x s : FVal) : FVal :=
  match x, s with
  | .num a m e, .num b n k =>
    if n = 0 then .nan false
    else
      let q := m * 2 ^ 128 / n
      .num (a != b) (2 * q + if m * 2 ^ 128 % n = 0 then 0 else 1) (e - k - 129)
  | .inf a, .num b _ _ => .inf (a != b)
  | .nan g, _ => .nan g
  | _, _ => .nan false

/-- A result and the invalid flag of a signalling operand. -/
def withSignal (x : FVal) (r : Nat × BitVec 5) : Nat × BitVec 5 := (r.1, r.2 ||| flagIf x.signalling flagInvalid)

/-- A record moves bits unchanged: its formats are raw, which has no conversion (Table 8.1), or equal with a scale of
1.0 (R167). -/
def BufRec.unchanged (b : BufRec) : Bool := b.mem == b.reg && (b.mem == 0 || b.scale == 0 || b.scale == 0x3F800000)

/-- Parts of `n` elements of a format. -/
def partCount (fmt n : Nat) : Nat := if isComplex fmt then 2 * n else n

/-- The register bytes a load forms from its footprint, and its flags (R167). `scales` holds the block-scale bytes. -/
def BufRec.loadConvert (b : BufRec) (r : Nat) (p : RecPlace) (bs scales : List Byte) : List Byte × BitVec 5 :=
  if b.unchanged then (bs, 0)
  else
    let n := b.elems r
    let k0 := 2 * ((p.start + 2 ^ 64 - b.base) % 2 ^ 64)
    let block := fun i => if b.mem = 0x0D then Fmt.e3m5.value (scales.getD ((k0 + i) / 8 - k0 / 8) 0).toNat else .num false 1 0
    let part := fun j =>
      if isComplex b.reg && !isComplex b.mem && j % 2 == 1 then (0, 0)
      else
        let i := if isComplex b.reg && !isComplex b.mem then j / 2 else j
        let x := memValue b.mem bs i
        withSignal x (roundPart b.reg (((x.mul (block i)).1).mul (scaleValue b.scale)).1)
    let parts := (List.range (partCount b.reg n)).map part
    let w := partBits b.reg
    (natLe r ((parts.zipIdx.map fun q => q.1.1 * 2 ^ (w * q.2)).sum), parts.foldl (fun a q => a ||| q.2) 0)

/-- The footprint bytes a store forms from its register bytes, and its flags (R167). -/
def BufRec.storeConvert (b : BufRec) (r : Nat) (bs : List Byte) : List Byte × BitVec 5 :=
  if b.unchanged then (bs, 0)
  else
    let part := fun i =>
      let x := memValue b.reg bs i
      withSignal x (roundPart b.mem (x.divBy (scaleValue b.scale)))
    let parts := (List.range (partCount b.mem (b.elems r))).map part
    let w := partBits b.mem
    (natLe (b.footprint r) ((parts.zipIdx.map fun q => q.1.1 * 2 ^ (w * q.2)).sum), parts.foldl (fun a q => a ||| q.2) 0)

/-! ## Loads and stores (R358, R404) -/

/-- Checks 1 to 5 of Table 9.6 for lane `l` of an access of `r` bytes through a record. A footprint or scale byte that
falls in a window while the lane's address does not is translated as a global address (DESIGN CHOICE, log entry 56). -/
def State.earlyChecks (s : State) (va : BitVec 7) (wb : BitVec 6) (rec : Nat) (b : Except AccessFault BufRec) (r : Nat)
    (store : Bool) (l : Nat) : Except AccessFault Access :=
  let a := s.laneAddress va wb l
  match s.resolve (some l) a r with
  | .error f => .error f
  | .ok place =>
    if rec = 0 then (if a.toNat % r ≠ 0 then .error ⟨0x04, a, 0⟩ else .ok { lane := l, addr := a, place := place })
    else match b with
      | .error f => .error f
      | .ok b =>
        if !b.validFor r store then .error ⟨0x03, BitVec.ofNat 64 (s.recAddr rec), 4⟩
        else if windowOf a ≠ .global then .error ⟨0x03, a, 4⟩
        else
          let f := b.footprint r
          let p := b.locate a.toNat r
          if a.toNat % min f 16 ≠ 0 then .error ⟨0x04, a, 0⟩
          else if p.start % min f 16 ≠ 0 then .error ⟨0x04, BitVec.ofNat 64 p.start, 0⟩
          else if p.outside && !b.bzero then .error ⟨0x03, a, 5⟩
          else if store && b.rdonly then .error ⟨0x03, a, 6⟩
          else .ok { lane := l, addr := a, place := if p.outside then .global [] else
                     .global ((p.start, f) :: if store then [] else b.scalePieces p (b.elems r)) }

/-- What lane `l`'s load delivers: its register bytes and flags. -/
def State.loadLane (s : State) (b : BufRec) (rec r : Nat) (a : Access) : List Byte × BitVec 5 :=
  if rec = 0 then (s.loadPlace a.place r, 0)
  else match a.place with
    | .global [] => (List.replicate r 0, 0)
    | .global ((va, n) :: scales) =>
      b.loadConvert r { start := va, outside := false } (s.readPieces [(va, n)]) (s.readPieces scales)
    | _ => (List.replicate r 0, 0)

/-- Write the register values of loaded bytes in each lane of a list. -/
def State.writeLoaded (s : State) (vt r : Nat) (vals : List (Nat × List Byte)) : State :=
  s.lanesFrom vt (regCount r) fun i l => wordOf ((vals.find? fun p => p.1 == l).elim [] (·.2)) i

/-- The accesses of a lane load, and of a lane store, of `r` bytes through record `rec` (R358, R404). -/
def loadAccess (va : BitVec 7) (wb : BitVec 6) (rec : Nat) (b : Except AccessFault BufRec) (r : Nat) : LaneAccess :=
  { early := single fun s => s.earlyChecks va wb rec b r false, bytes := r, write := false, reads := true }
def storeAccess (va : BitVec 7) (wb : BitVec 6) (rec : Nat) (b : Except AccessFault BufRec) (r : Nat) : LaneAccess :=
  { early := single fun s => s.earlyChecks va wb rec b r true, bytes := r, write := true, reads := false }
/-- What a load leaves: its registers, FLAGS, and its lines in the L1 unless the record forbids it (R163, R167). -/
def State.finishLoad (s : State) (b : Except AccessFault BufRec) (rec r vt : Nat) (as : List Access) : State :=
  let d := as.map fun a => (a.lane, s.loadLane (b.toOption.getD rawRec) rec r a)
  let t := (s.writeLoaded vt r (d.map fun p => (p.1, p.2.1))).flag (d.foldl (fun f p => f ||| p.2.2) 0)
  if (b.toOption.map (·.noalloc)).getD false then t else as.foldl (fun s a => s.allocPieces a.place.pieces) t

/-- The bytes and flags of a store of one lane: its register bytes, converted unless the record is raw (R167). -/
def State.storeData (s : State) (b : Except AccessFault BufRec) (rec r vt : Nat) (a : Access) : List Byte × BitVec 5 :=
  if rec = 0 ∨ a.place = .global [] then (s.regBytes vt a.lane r, 0)
  else (b.toOption.getD rawRec).storeConvert r (s.regBytes vt a.lane r)

/-- What a store leaves: lanes in increasing order. -/
def State.finishStore (s : State) (b : Except AccessFault BufRec) (rec r vt : Nat) (as : List Access) : State :=
  (as.foldl (fun t a => t.storePlace a.place (s.storeData b rec r vt a).1) s).flag
    (as.foldl (fun f a => f ||| (s.storeData b rec r vt a).2) 0)

/-- The record lets a pure region load through it: a read-only record other than record 0 (R257). DESIGN CHOICE (log entry 23): one that
cannot be read does not, and the load traps for the region. -/
def readOnlyRec (rec : BitVec 5) (b : Except AccessFault BufRec) : Bool :=
  rec != 0 && (b.toOption.map (·.rdonly)).getD false

/-- A load of `r` bytes through record `rec` (R358). -/
def loadInstr (r : Nat) (vt va : BitVec 7) (wb : BitVec 6) (rec : BitVec 5) (s : State) : Outcome :=
  let b := s.bufRec rec.toNat
  laneInstr { vr := (addrRegs va wb).1, wr := (addrRegs va wb).2, vw := regsFrom vt.toNat (regCount r),
              purity := .only (readOnlyRec rec b) } {} s fun s =>
    laneAccess (loadAccess va wb rec.toNat b r) s.pfx.rnd.toNat s.pfx.scope s fun s as =>
      .next (s.finishLoad b rec.toNat r vt.toNat as)

/-- A store of `r` bytes through record `rec` (R404). -/
def storeInstr (r : Nat) (vt va : BitVec 7) (wb : BitVec 6) (rec : BitVec 5) (s : State) : Outcome :=
  let b := s.bufRec rec.toNat
  laneInstr { vr := regsFrom vt.toNat (regCount r) ++ (addrRegs va wb).1, wr := (addrRegs va wb).2 } {} s fun s =>
    laneAccess (storeAccess va wb rec.toNat b r) s.pfx.rnd.toNat s.pfx.scope s fun s as =>
      .next (s.finishStore b rec.toNat r vt.toNat as)

def execLdb (vt va : BitVec 7) (wb : BitVec 6) (rec : BitVec 5) (s : State) : Outcome := loadInstr 1 vt va wb rec s
def execLdh (vt va : BitVec 7) (wb : BitVec 6) (rec : BitVec 5) (s : State) : Outcome := loadInstr 2 vt va wb rec s
def execLdw (vt va : BitVec 7) (wb : BitVec 6) (rec : BitVec 5) (s : State) : Outcome := loadInstr 4 vt va wb rec s
def execLdd (vt va : BitVec 7) (wb : BitVec 6) (rec : BitVec 5) (s : State) : Outcome := loadInstr 8 vt va wb rec s
def execLdq (vt va : BitVec 7) (wb : BitVec 6) (rec : BitVec 5) (s : State) : Outcome := loadInstr 16 vt va wb rec s
def execStb (vt va : BitVec 7) (wb : BitVec 6) (rec : BitVec 5) (s : State) : Outcome := storeInstr 1 vt va wb rec s
def execSth (vt va : BitVec 7) (wb : BitVec 6) (rec : BitVec 5) (s : State) : Outcome := storeInstr 2 vt va wb rec s
def execStw (vt va : BitVec 7) (wb : BitVec 6) (rec : BitVec 5) (s : State) : Outcome := storeInstr 4 vt va wb rec s
def execStd (vt va : BitVec 7) (wb : BitVec 6) (rec : BitVec 5) (s : State) : Outcome := storeInstr 8 vt va wb rec s
def execStq (vt va : BitVec 7) (wb : BitVec 6) (rec : BitVec 5) (s : State) : Outcome := storeInstr 16 vt va wb rec s

/-! ## LDL and STL (R361, R406) -/

def sizeBytes (sz : BitVec 5) : Nat := 2 ^ sz.toNat

/-- The accesses of LDL and STL (R361, R406). -/
def localAccess (va : BitVec 7) (wb : BitVec 6) (r : Nat) (write : Bool) : LaneAccess :=
  { early := single fun s l => s.localOffset va wb l r, bytes := r, write := write, reads := false }

def execLdl (vt va : BitVec 7) (wb : BitVec 6) (sz : BitVec 5) (s : State) : Outcome :=
  let r := sizeBytes sz
  laneInstr { vr := (addrRegs va wb).1, wr := (addrRegs va wb).2, vw := regsFrom vt.toNat (regCount r) } {} s fun s =>
    laneAccess (localAccess va wb r false) s.pfx.rnd.toNat s.pfx.scope s fun s as =>
      .next (s.writeLoaded vt.toNat r (as.map fun a => (a.lane, s.loadPlace a.place r)))

def execStl (vt va : BitVec 7) (wb : BitVec 6) (sz : BitVec 5) (s : State) : Outcome :=
  let r := sizeBytes sz
  laneInstr { vr := regsFrom vt.toNat (regCount r) ++ (addrRegs va wb).1, wr := (addrRegs va wb).2 } {} s fun s =>
    laneAccess (localAccess va wb r true) s.pfx.rnd.toNat s.pfx.scope s fun s as =>
      .next (as.foldl (fun t a => t.storePlace a.place (s.regBytes vt.toNat a.lane r)) s)

end Sys2Proof.Machine
end

