-- ==== Sys2Proof/Machine/Sip.lean ====
section
/-!
DEFINITION. Sys2Proof/Machine/Sip.lean: SipHash-2-4 with 128-bit output, the large signature (R205, R245).
-/
namespace Sys2Proof.Machine

def SipState.round (s : SipState) : SipState :=
  let v0 := s.v0 + s.v1
  let v2 := s.v2 + s.v3
  let v1 := s.v1.rotateLeft 13 ^^^ v0
  let v3 := s.v3.rotateLeft 16 ^^^ v2
  let v0 := v0.rotateLeft 32
  let v2 := v2 + v1
  let v0 := v0 + v3
  let v1 := v1.rotateLeft 17 ^^^ v2
  let v3 := v3.rotateLeft 21 ^^^ v0
  { s with v0 := v0, v1 := v1, v2 := v2.rotateLeft 32, v3 := v3 }

/-- The state before the first byte, under a region's key. -/
def sipInit (key : BitVec 128) : SipState :=
  let k0 := key.extractLsb' 0 64
  let k1 := key.extractLsb' 64 64
  { v0 := k0 ^^^ 0x736F6D6570736575, v1 := k1 ^^^ 0x646F72616E646F6D ^^^ 0xEE, v2 := k0 ^^^ 0x6C7967656E657261
    v3 := k1 ^^^ 0x7465646279746573 }

/-- Compress one 64-bit word: two rounds. -/
def SipState.word (s : SipState) (m : BitVec 64) : SipState :=
  let s := ({ s with v3 := s.v3 ^^^ m } : SipState).round.round
  { s with v0 := s.v0 ^^^ m }

def SipState.byte (s : SipState) (b : Byte) : SipState :=
  let s := { s with tail := s.tail ++ [b], count := s.count + 1 }
  if s.tail.length = 8 then { s.word (BitVec.ofNat 64 (leNat s.tail)) with tail := [] } else s

def SipState.bytes (s : SipState) (bs : List Byte) : SipState := bs.foldl SipState.byte s

/-- The 128-bit result, the first output word in the low half. -/
def SipState.finish (s : SipState) : BitVec 128 :=
  let s := s.word (BitVec.ofNat 64 (leNat s.tail + s.count % 256 * 2 ^ 56))
  let s := ({ s with v2 := s.v2 ^^^ 0xEE } : SipState).round.round.round.round
  let lo := s.v0 ^^^ s.v1 ^^^ s.v2 ^^^ s.v3
  let s := ({ s with v1 := s.v1 ^^^ 0xDD } : SipState).round.round.round.round
  (s.v0 ^^^ s.v1 ^^^ s.v2 ^^^ s.v3) ++ lo

/-- The large signature of a message. -/
def sipHash (key : BitVec 128) (msg : List Byte) : BitVec 128 := ((sipInit key).bytes msg).finish

/-- The key of a region, if the key store holds one (R305). -/
def State.keyOf (s : State) (region : Nat) : Option (BitVec 128) := mapGet none s.keys region

/-- A unique signature (Table 14.2) of a region, if it has a key: the counter's next value. -/
def State.uniqueSignature (s : State) (region : Nat) : Option (BitVec 128) × State :=
  ((s.keyOf region).map fun k => sipHash k ([0x30, BitVec.ofNat 8 region] ++ natLe 8 s.uniqueCounter.toNat),
   { s with uniqueCounter := s.uniqueCounter + 1 })

end Sys2Proof.Machine
end

