-- ==== Sys2Proof/Machine/Copy.lean ====
section
/-!
DEFINITION. Sys2Proof/Machine/Copy.lean: CPY, CPYQ and DCMP at issue, batches, and message rings, group-space majors 0x1E to
0x20 (R198 to R217, R321, R331, R378, R379).
-/
namespace Sys2Proof.Machine

/-! ## Loads by a group instruction of the bytes of a card -/

/-- The fault of an access by its own checks. -/
def placeFault : Except AccessFault Place → Option AccessFault
  | .error f => some f
  | .ok _ => none

/-- Read 8-byte words at addresses as relaxed group-scope loads of the path (R207, R212): the first fault, or the
wait, or the bytes. DEDUCED (log entry 31): of the faults of several words the least row of Table 9.6 stands first. -/
def groupLoad (addrs : List (BitVec 64)) (s : State) (k : State → List Byte → Res) : Res :=
  let places := addrs.map fun a => (a, s.resolve none a 8)
  match places.findSome? (fun p => placeFault p.2) with
  | some f => .trap f.cause f.addr (BitVec.ofNat 64 f.info)
  | none =>
    let good := places.filterMap fun p => p.2.toOption.map fun q => (p.1, q)
    match s.walkPages (good.flatMap fun p => pagesOf p.2.pieces) with
    | .error w => .wait s w
    | .ok s =>
      match leastFault (good.flatMap fun p => s.pieceFaults p.1 p.2.pieces false) with
      | some f => .trap f.cause f.addr (BitVec.ofNat 64 f.info)
      | none =>
        match good.find? fun p => s.poisonPieces p.2.pieces false with
        | some p => .trap 0x13 p.1 1
        | none =>
          let spans := ownSpans s.focus.team 8 (good.map (·.2))
          if s.interlocked s.focus.team s.acceptSeq spans false then .wait s (.footprint spans false)
          else match k s (good.flatMap fun p => s.loadPlace p.2 8) with
            | .next t => .next (good.foldl (fun t p => t.allocPieces p.2.pieces) t)
            | r => r

/-- The addresses of `n` 8-byte words. -/
def wordsAt (a : BitVec 64) (n : Nat) : List (BitVec 64) := (List.range n).map fun i => a + BitVec.ofNat 64 (8 * i)

/-! ## Issue checks of a copy card (Table 11.3) -/

/-- Bytes of a side's element, at least one. -/
def sideBytes (fmt : Nat) : Nat := max 1 ((codeBits fmt).getD 8 / 8)
/-- An address of a window of Table 9.1. -/
def inWindow (a : Nat) : Bool := decide (0xFFFFFD * 2 ^ 40 ≤ a % 2 ^ 64)

def Card.badFormats (c : Card) : Bool :=
  (codeBits c.sfmt).isNone || (codeBits c.dfmt).isNone
    || (c.convert && (c.sfmt == 0 || c.dfmt == 0))
    || (!c.convert && c.sfmt != c.dfmt)
    || (c.convert && c.dfmt == 0x0D)
    || (isComplex c.sfmt && !isComplex c.dfmt)

/-- The requirements of R204. -/
def Card.taggedOk (c : Card) : Bool :=
  c.sfmt == 0 && c.dfmt == 0 && c.cols == 1024 && decide (c.rows ≤ c.vrows) && decide (c.cols ≤ c.vcols)
    && !c.convert && !c.transpose && !c.zeroFill && !c.hash && !c.decompress
    && c.spitch == 1024 && c.dpitch == 1024
    && (!c.padSrc || c.src % 1024 == 0) && (!c.padDst || c.dst % 1024 == 0)

def Card.badForm (c : Card) : Bool :=
  (c.transpose && (c.sfmt == 0x0D || c.dfmt == 0x0D)) || (c.tagged && !c.taggedOk) || (c.decompress && c.padSrc)

/-- An FP32 scale that is infinite, NaN or -0. -/
def Card.badScale (c : Card) : Bool := c.scale / 2 ^ 23 % 256 == 255 || c.scale == 0x80000000

/-- One past the highest byte of the scratchpad sides, source and destination; a side that moves nothing has none. -/
def Card.srcEnd (c : Card) : Nat :=
  if c.validRows = 0 || c.validCols = 0 then 0
  else c.src + (c.validRows - 1) * c.spitch
    + if c.sfmt = 0x0D then (c.cols + 1) / 2 + (c.validCols + 7) / 8 else codeBytes c.sfmt c.validCols
def Card.dstEnd (c : Card) : Nat :=
  let body := if c.empty then 0 else c.dstAddr + (c.dstRows - 1) * c.dpitch + c.dstRowBytes
  if c.hash then max body (c.dstAddr + c.dstRows * c.dpitch + 16) else body

/-- SPSIZE of the side the card writes to; none where the target's scratchpad has been freed. -/
def State.cardSize (s : State) (c : Card) : Option Nat :=
  (s.cardTeam s.focus.team c).bind fun t => if (s.teamAt t).alive then some (s.spSizeOf (s.teamAt t)) else none

def State.cardBeyond (s : State) (c : Card) : Bool :=
  (c.padSrc && decide (s.spSize < c.srcEnd))
    || (c.padDst && match s.cardSize c with
        | some n => decide (n < c.dstEnd)
        | none => false)

def State.badSlot (s : State) (c : Card) : Bool :=
  c.remote && !c.padDst || decide (s.team.ensTeams ≤ c.dslot % 8) || c.dslot / 8 != 0

def Card.misaligned (c : Card) : Bool :=
  let a := min (sideBytes c.sfmt) 16
  let b := min (sideBytes c.dfmt) 16
  c.src % a != 0 || c.spitch % a != 0 || c.dstAddr % b != 0 || c.dpitch % b != 0
    || (c.hash && (c.dstAddr + c.dstRows * c.dpitch) % 16 != 0)

def Card.windowSide (c : Card) : Bool := (!c.padSrc && inWindow c.src) || (!c.padDst && inWindow c.dstAddr)

/-- The issue reason a card breaks, the lowest of Table 11.3 (DEDUCED: the spec ranks none). -/
def State.cardReason (s : State) (c : Card) : Option Nat :=
  if c.badFormats then some 1 else if c.badForm then some 2 else if c.badScale then some 3
  else if s.cardBeyond c then some 4 else if s.badSlot c then some 5 else if c.misaligned then some 6
  else if c.windowSide then some 7 else none

/-- Accept copy jobs in order (R208): the core's outgoing stores have reached the system cache by the time the jobs read
it (R191). -/
def State.acceptCopies (s : State) (cards : List (BitVec 320)) : State :=
  cards.foldl (fun s card =>
    let (n, s) := s.accept
    let c := s.coreAt s.coreNow
    let j : CopyJob := { seq := n, team := s.focus.team, group := s.focus.group, batch := s.group.batch, card := card }
    s.setCore s.coreNow { c with copyQ := c.copyQ ++ [j] }) (s.drainCore s.coreNow)

/-- Check cards and accept them, or wait for room for all (R202, R208). `addr` gives the address of a card. -/
def State.issueCards (s : State) (cards : List (BitVec 320)) (addr : Nat → BitVec 64) : Res :=
  match cards.zipIdx.findSome? (fun p => (s.cardReason (cardOf p.1)).map fun r => (r, p.2)) with
  | some (r, i) => .trap 0x03 (addr i) (BitVec.ofNat 64 (0x100 + r))
  | none =>
    if 64 < (s.coreAt s.coreNow).copyQ.length + cards.length then .wait s (.engineQueue (.copy cards.length))
    else .next (s.acceptCopies cards)

def uregsFrom (w : BitVec 6) (n : Nat) : List (BitVec 6) := (List.range n).map fun i => w + BitVec.ofNat 6 i

def execCpy (wa : BitVec 6) (s : State) : Outcome :=
  groupInstr (shapeTeam [] (uregsFrom wa 5) []) 1 s fun s =>
    let w := fun i => s.uni (wa + BitVec.ofNat 6 i)
    s.issueCards [w 4 ++ w 3 ++ w 2 ++ w 1 ++ w 0] fun _ => 0

/-- The cards that bytes hold. -/
def cardsOf : Nat → List Byte → List (BitVec 320)
  | 0, _ => []
  | n + 1, bs => BitVec.ofNat 320 (leNat (bs.take 40)) :: cardsOf n (bs.drop 40)

/-- CPYQ (R207). DEDUCED (log entry 31): a count out of range stands before a misaligned address. -/
def execCpyq (wa wb : BitVec 6) (s : State) : Outcome :=
  groupInstr (shapeTeam [] [wa, wb] []) 1 s fun s =>
    let n := (s.uni wb).toNat
    let a := s.uni wa
    if n = 0 || 64 < n then .trap 0x03 0 0x108
    else if a.toNat % 8 ≠ 0 then .trap 0x04 a 0
    else groupLoad (wordsAt a (5 * n)) s fun s bs =>
      s.issueCards (cardsOf n bs) fun i => a + BitVec.ofNat 64 (40 * i)

/-- Accepted DCMP jobs of a team that have not ended. -/
def State.dcmpCount (s : State) (t : Nat) : Nat :=
  ((s.clusterAt ((s.teamAt t).core / 8)).dcmpQ.filter fun j => j.team == t).length

/-- DCMP (R212). DESIGN CHOICE (log entry 32): a card address that is a well-formed scratchpad or cluster window address reads the card
through the window, and the job is accepted. -/
def execDcmp (wa : BitVec 6) (s : State) : Outcome :=
  groupInstr (shapeTeam [] [wa] []) 1 s fun s =>
    let a := s.uni wa
    if a.toNat % 64 ≠ 0 then .trap 0x04 a 0
    else groupLoad (wordsAt a 8) s fun s bs =>
      if 64 ≤ s.dcmpCount s.focus.team then .wait s (.engineQueue .dcmp)
      else
        let (n, s) := (s.drainCore s.coreNow).accept
        let k := s.clusterAt (s.coreNow / 8)
        let j : DcmpJob := { seq := n, team := s.focus.team, group := s.focus.group, batch := s.group.batch,
                             addr := a, card := BitVec.ofNat 512 (leNat bs) }
        .next (s.setCluster (s.coreNow / 8) { k with dcmpQ := k.dcmpQ ++ [j] })

/-! ## Batches (R209, R210, R321) -/

def execBatch (wd : BitVec 6) (s : State) : Outcome :=
  groupInstr (shapeTeam [] [] [wd]) 1 s fun s =>
    let b := s.group.batch
    let s := s.writeW wd b
    .next (s.putGroup { s.group with batch := b + 1 })

/-- ACCST joins a batch; MMA and MMAS join none (R227, R375). -/
def MatrixOp.joins (o : MatrixOp) : Bool := !o.kind.updates

/-- Covered jobs and operations of the executing group that have neither completed nor failed: their numbers of
acceptance. -/
def State.openJobs (s : State) (n : BitVec 64) : List Nat :=
  let mine := fun (t g : Nat) (b : BitVec 64) => t == s.focus.team && g == s.focus.group && decide (b ≤ n)
  ((s.coreAt s.coreNow).copyQ.filter fun j => mine j.team j.group j.batch).map (·.seq)
    ++ ((s.clusterAt (s.coreNow / 8)).dcmpQ.filter fun j => mine j.team j.group j.batch).map (·.seq)
    ++ ((s.coreAt s.coreNow).matrixQ.filter fun o => o.joins && mine o.team o.group o.batch).map (·.seq)
    ++ ((s.coreAt s.coreNow).transformQ.filter fun o => mine o.team o.group o.batch).map (·.seq)
    ++ (s.team.savedCopies.filter fun j => mine s.focus.team j.group j.batch).map (·.seq)
    ++ (s.team.savedDcmps.filter fun j => mine s.focus.team j.group j.batch).map (·.seq)

def JobFault.covered (f : JobFault) (g : Nat) (n : BitVec 64) : Bool := f.group == g && decide (f.batch ≤ n)

/-- Jobs whose absent leaf has been reported resume when a covering WAITB or TESTB issues (R210). -/
def State.resumeJobs (s : State) (n : BitVec 64) : State :=
  let (again, rest) := s.team.faults.partition fun f => f.covered s.focus.group n && f.resumable && f.reported
  if again.isEmpty then s
  else
    let hit := fun (q : Nat) => again.any fun f => f.seq == q
    let s := s.putTeam { s.team with faults := rest }
    let c := s.coreAt s.coreNow
    let s := s.setCore s.coreNow
      { c with copyQ := c.copyQ.map fun j => if hit j.seq then { j with suspended := false } else j }
    let k := s.clusterAt (s.coreNow / 8)
    s.setCluster (s.coreNow / 8)
      { k with dcmpQ := k.dcmpQ.map fun j => if hit j.seq then { j with suspended := false } else j }

/-- Insert a fault by batch and then by acceptance (R210). -/
def insertFault (f : JobFault) : List JobFault → List JobFault
  | [] => [f]
  | g :: l => if f.batch < g.batch || (f.batch == g.batch && decide (f.seq < g.seq)) then f :: g :: l else g :: insertFault f l

/-- The covered failure that is reported next. -/
def State.nextFault (s : State) (n : BitVec 64) : Option JobFault :=
  ((s.team.faults.filter fun f => f.covered s.focus.group n && !f.reported).foldl (fun l f => insertFault f l) []).head?

/-- The cause of a run-time reason (Table 11.3). DEDUCED for 0x13: the access violation its issue reasons raise. -/
def jobCause (reason : BitVec 8) : BitVec 8 :=
  if reason = 0x10 then 0x02 else if reason = 0x12 then 0x07 else if reason = 0x14 then 0x13 else 0x03

/-- Report a failure: it is consumed, but for an absent leaf, whose job waits to resume (R210). The report is part of the
trap, so the state the trap is raised in has lost it. -/
def State.reportFault (s : State) (f : JobFault) : State :=
  let rest := s.team.faults.filter fun x => x.seq != f.seq
  s.putTeam { s.team with faults := if f.resumable then rest ++ [{ f with reported := true }] else rest }

def JobFault.trapInfo (f : JobFault) (pc : BitVec 64) (m : LaneMask) : TrapInfo :=
  { cause := jobCause f.reason, tpc := pc, taddr := f.taddr, mask := m,
    tinfo := BitVec.ofNat 64 (0x100 + f.reason.toNat + (f.batch.toNat % 2 ^ 32) * 2 ^ 32) }

/-- Covered jobs that have neither ended nor stand suspended with an unreported fault. -/
def State.runningJobs (s : State) (n : BitVec 64) : List Nat :=
  (s.openJobs n).filter fun q => !(s.team.faults.any fun f => f.seq == q && !f.reported)

/-- A covered job stands suspended on an absent leaf that has not been reported (R210). -/
def State.leafUnreported (s : State) (n : BitVec 64) : Bool :=
  s.team.faults.any fun f => f.covered s.focus.group n && f.resumable && !f.reported

/-- What WAITB comes to, at issue or when its batches end; it has counted as an issue when it has waited. DEDUCED (log entry
32): it reports at once where a covered job stands suspended, since others may wait for that job. -/
def State.waitBatch (s : State) (n : BitVec 64) (waited : Bool := false) : Res :=
  if !(s.runningJobs n).isEmpty && !s.leafUnreported n then .wait s (.batch n)
  else match s.nextFault n with
    | some f =>
      let t := s.reportFault f
      .moved ((if waited then t else t.countIssue).trapNow (f.trapInfo s.path.pc s.path.mask) true)
    | none => .next s

def execWaitb (wa : BitVec 6) (s : State) : Outcome :=
  groupInstr (shapeTeam [] [wa] []) 1 s fun s => (s.resumeJobs (s.uni wa)).waitBatch (s.uni wa)

def execTestb (wd wa : BitVec 6) (s : State) : Outcome :=
  groupInstr (shapeTeam [] [wa] [wd]) 1 s fun s =>
    let n := s.uni wa
    let s := s.resumeJobs n
    match s.nextFault n with
    | some f => .moved ((s.reportFault f).raiseTrap (f.trapInfo s.path.pc s.path.mask) true)
    | none => .next (s.writeW wd (if (s.openJobs n).isEmpty then 1 else 0))

/-- Complete a waiting path's instruction, or let it trap or wait again: `k` is its effect. -/
def State.resume (s : State) (t g : Nat) (b : Bool) (k : State → Res) : State :=
  s.at { team := t, group := g, slot := b } fun s =>
    let s := s.putPath { s.path with wait := none }
    s.settleWait (k s)

/-! ## Message rings (R216, R217) -/

def Team.ring (t : Team) (k : Nat) : Ring := mapGet {} t.rings k
def Team.setRing (t : Team) (k : Nat) (r : Ring) : Team := { t with rings := mapSet {} t.rings k r }
def Ring.used (r : Ring) : Nat := (r.tail - r.head).toNat
def Ring.entryAt (r : Ring) (n : BitVec 32) : Nat := r.base + 16 * (n.toNat % r.capacity)

def execMring (wa wb : BitVec 6) (ring : BitVec 2) (s : State) : Outcome :=
  groupInstr (shapeTeam [] [wa, wb] []) 1 s fun s =>
    let o := (s.uni wa).toNat
    let n := (s.uni wb).toNat
    let bound := (s.team.ring ring.toNat).sender
    let count := n = 0 || (decide (2 ≤ n) && decide (n ≤ 4096) && decide (2 ^ n.log2 = n))
    if !count || o % 16 ≠ 0 || s.spSize < o + 16 * n || 2 ^ 18 ≤ o then .trap 0x03 0 0x110
    else .next (s.putTeam (s.team.setRing ring.toNat
      { base := o, capacity := n, declared := n != 0, sender := bound }))

/-- Write an entry at a ring's tail; the granule becomes spatial (R217). -/
def Team.pushRing (t : Team) (k : Nat) (e : BitVec 128) : Team :=
  let r := t.ring k
  ((t.padWrite (r.entryAt r.tail) (natLe 16 e.toNat)).setTags (r.entryAt r.tail) 16 0).setRing k { r with tail := r.tail + 1 }

/-- MSEND from its wait for the target's ring on: at issue, or when space comes. A full ring has had a sender, so that a
deterministic launch has nothing left to bind where it waits, and an abandoned wait has had no effect (R217, R378). -/
def State.sendEntry (s : State) (slot k : Nat) (e : BitVec 128) : Res :=
  match s.slotTeam slot with
  | none => .next s
  | some t =>
    let x := s.teamAt t
    let r := x.ring k
    if !x.alive then .next s
    else if !r.declared || (x.barrier 16).draining then .wait s (.ringSpace slot k e)
    else
      let me := (s.focus.team, s.focus.group)
      if s.node.det && r.sender.isSome && r.sender != some me then .trap 0x09 0 3
      else
        let spans := [Span.mk (r.entryAt r.tail) 16]
        if r.used = r.capacity then .wait s (.ringSpace slot k e)
        else if t == s.focus.team && s.interlocked t s.acceptSeq spans true then .wait s (.footprint spans true)
        else
          let s := if s.node.det then s.setTeam t (x.setRing k { r with sender := some me }) else s
          let s := s.drainCore s.coreNow
          .next ((s.setTeam t ((s.teamAt t).pushRing k e)).wake t fun _ => true)

def execMsend (ws wa wb : BitVec 6) (ring : BitVec 2) (s : State) : Outcome :=
  groupInstr (shapeTeam [] [ws, wa, wb] []) 1 s fun s =>
    let slot := (s.uni ws).toNat
    if s.team.ensTeams ≤ slot then .trap 0x06 (s.uni ws) 3
    else s.sendEntry slot ring.toNat (s.uni wb ++ s.uni wa)

/-- The entry at a ring's head; the entries of a spoiled ring are free values (R216). -/
def State.headEntry (s : State) (k : Nat) : BitVec 128 × State :=
  let r := s.team.ring k
  if r.spoiled then
    let (a, s) := s.free
    let (b, s) := s.free
    (b ++ a, s)
  else (BitVec.ofNat 128 (leNat (s.team.padRead (r.entryAt r.head) 16)), s)

/-- Take the head entry of the group's own ring into wd and wd + 1: an acquire; `pop` advances the head (R217). -/
def State.takeEntry (s : State) (k : Nat) (wd : BitVec 6) (pop : Bool) : State :=
  let (e, s) := s.headEntry k
  let s := (s.writeW wd (e.extractLsb' 0 64)).writeW (wd + 1) (e.extractLsb' 64 64)
  let r := s.team.ring k
  let s := if pop then s.putTeam (s.team.setRing k { r with head := r.head + 1 }) else s
  s.l1Invalidate s.coreNow

def State.ringEmpty (s : State) (k : Nat) : Bool := !(s.team.ring k).declared || (s.team.ring k).used == 0

/-- A read of the entry waits for engine operations that have its bytes yet to write (R193). -/
def State.entryBusy (s : State) (k : Nat) : Option Wait :=
  let r := s.team.ring k
  let spans := [Span.mk (r.entryAt r.head) 16]
  if s.interlocked s.focus.team s.acceptSeq spans false then some (.footprint spans false) else none

def execMpoll (wd ws : BitVec 6) (ring : BitVec 2) (s : State) : Outcome :=
  groupInstr (shapeTeam [] [] [wd, wd + 1, ws]) 1 s fun s =>
    if s.ringEmpty ring.toNat then .next (((s.writeW wd 0).writeW (wd + 1) 0).writeW ws 1)
    else match s.entryBusy ring.toNat with
      | some w => .wait s w
      | none => .next ((s.takeEntry ring.toNat wd false).writeW ws 0)

/-- MWAIT and MPOP, at issue or when an entry arrives. -/
def State.awaitEntry (s : State) (k : Nat) (wd : BitVec 6) (pop : Bool) : Res :=
  if s.ringEmpty k then .wait s (.ringEntry k wd pop)
  else match s.entryBusy k with
    | some w => .wait s w
    | none => .next (s.takeEntry k wd pop)

def execMwait (wd : BitVec 6) (ring : BitVec 2) (s : State) : Outcome :=
  groupInstr (shapeTeam [] [] [wd, wd + 1]) 1 s fun s => s.awaitEntry ring.toNat wd false
def execMpop (wd : BitVec 6) (ring : BitVec 2) (s : State) : Outcome :=
  groupInstr (shapeTeam [] [] [wd, wd + 1]) 1 s fun s => s.awaitEntry ring.toNat wd true

end Sys2Proof.Machine
end

