-- ==== Sys2Proof/Machine/Inflate.lean ====
section
/-!
DEFINITION. Sys2Proof/Machine/Inflate.lean: one chunk of raw Deflate (RFC 1951) or of the LZ4 block format (R213). An
answer of none is a malformed chunk.
-/
namespace Sys2Proof.Machine

/-! ## Bits and output -/

/-- What is left of a compressed stream: its bits, the next one least significant, and how many; and the output so far,
newest byte first, with its length. -/
structure Inflate where
  bits : Nat
  left : Nat
  out : List Byte := []
  count : Nat := 0
  limit : Nat

def Inflate.take (s : Inflate) (n : Nat) : Option (Nat × Inflate) :=
  if s.left < n then none else some (s.bits % 2 ^ n, { s with bits := s.bits / 2 ^ n, left := s.left - n })

/-- Produce a byte; one beyond the expected length is an overrun. -/
def Inflate.push (s : Inflate) (b : Byte) : Option Inflate :=
  if s.count < s.limit then some { s with out := b :: s.out, count := s.count + 1 } else none

/-- Copy `n` bytes from `d` back; the copy may reach bytes it has produced itself. -/
def Inflate.copy (d : Nat) : Nat → Inflate → Option Inflate
  | 0, s => some s
  | n + 1, s => (s.push (s.out.getD (d - 1) 0)).bind (Inflate.copy d n)

/-! ## Huffman codes -/

/-- A canonical code: how many words of each length 0 to 15, and the symbols in order. -/
structure Huffman where
  counts : List Nat
  symbols : List Nat

/-- The code of a list of lengths. -/
def Huffman.of (lengths : List Nat) : Huffman :=
  { counts := (List.range 16).map fun n => if n = 0 then 0 else lengths.count n
    symbols := (List.range 15).flatMap fun n =>
      (lengths.zipIdx.filter fun p => p.1 == n + 1).map (·.2) }

/-- A set of lengths with more words than its lengths allow. -/
def Huffman.oversubscribed (h : Huffman) : Bool :=
  decide (2 ^ 15 < ((List.range 16).map fun n => h.counts.getD n 0 * 2 ^ (15 - n)).sum)

/-- Read a code word bit by bit; a word the code does not hold has no symbol. DEDUCED (log entry 70): the one word that a single-code
distance tree does not hold, which R213 accepts as a tree, is such a word. -/
def Huffman.read (h : Huffman) (s : Inflate) (len code first index : Nat) : Nat → Option (Nat × Inflate)
  | 0 => none
  | fuel + 1 =>
    match s.take 1 with
    | none => none
    | some (b, s) =>
      let code := code + b
      let n := h.counts.getD len 0
      if code < first + n then some (h.symbols.getD (index + (code - first)) 0, s)
      else h.read s (len + 1) (2 * code) (2 * (first + n)) (index + n) fuel

def Huffman.symbol (h : Huffman) (s : Inflate) : Option (Nat × Inflate) := h.read s 1 0 0 0 15

/-! ## Deflate blocks -/

def lengthBase : List Nat :=
  [3, 4, 5, 6, 7, 8, 9, 10, 11, 13, 15, 17, 19, 23, 27, 31, 35, 43, 51, 59, 67, 83, 99, 115, 131, 163, 195, 227, 258]
def lengthExtra : List Nat :=
  [0, 0, 0, 0, 0, 0, 0, 0, 1, 1, 1, 1, 2, 2, 2, 2, 3, 3, 3, 3, 4, 4, 4, 4, 5, 5, 5, 5, 0]
def distBase : List Nat :=
  [1, 2, 3, 4, 5, 7, 9, 13, 17, 25, 33, 49, 65, 97, 129, 193, 257, 385, 513, 769, 1025, 1537, 2049, 3073, 4097, 6145,
   8193, 12289, 16385, 24577]
def distExtra : List Nat :=
  [0, 0, 0, 0, 1, 1, 2, 2, 3, 3, 4, 4, 5, 5, 6, 6, 7, 7, 8, 8, 9, 9, 10, 10, 11, 11, 12, 12, 13, 13]
def codeLengthOrder : List Nat := [16, 17, 18, 0, 8, 7, 9, 6, 10, 5, 11, 4, 12, 3, 13, 2, 14, 1, 15]

/-- The symbols of a block up to its end. -/
def inflateCodes (lit dist : Huffman) : Nat → Inflate → Option Inflate
  | 0, _ => none
  | fuel + 1, s =>
    match lit.symbol s with
    | none => none
    | some (x, s) =>
      if x < 256 then (s.push (BitVec.ofNat 8 x)).bind (inflateCodes lit dist fuel)
      else if x = 256 then some s
      else if 285 < x then none
      else
        match s.take (lengthExtra.getD (x - 257) 0) with
        | none => none
        | some (e, s) =>
          match dist.symbol s with
          | none => none
          | some (y, s) =>
            if 29 < y then none
            else
              match s.take (distExtra.getD y 0) with
              | none => none
              | some (f, s) =>
                let d := distBase.getD y 0 + f
                if s.count < d || 32768 < d then none
                else (Inflate.copy d (lengthBase.getD (x - 257) 0 + e) s).bind (inflateCodes lit dist fuel)

/-- A stored block. -/
def inflateStored (s : Inflate) : Option Inflate :=
  match s.take (s.left % 8) with
  | none => none
  | some (_, s) =>
    match s.take 32 with
    | none => none
    | some (x, s) =>
      let n := x % 65536
      if x / 65536 ≠ 65535 - n then none
      else
        (List.range n).foldl (fun o _ => o.bind fun s => (s.take 8).bind fun p => p.2.push (BitVec.ofNat 8 p.1)) (some s)

def fixedLit : Huffman :=
  Huffman.of (List.replicate 144 8 ++ List.replicate 112 9 ++ List.replicate 24 7 ++ List.replicate 8 8)
def fixedDist : Huffman := Huffman.of (List.replicate 32 5)

/-- The code lengths of a dynamic block: `total` of them, run by run. -/
def readLengths (h : Huffman) (total : Nat) : Nat → List Nat → Inflate → Option (List Nat × Inflate)
  | 0, _, _ => none
  | fuel + 1, acc, s =>
    if acc.length = total then some (acc, s)
    else
      match h.symbol s with
      | none => none
      | some (x, s) =>
        let run := fun (v base bits : Nat) =>
          match s.take bits with
          | none => none
          | some (e, s) =>
            if total < acc.length + base + e then none
            else readLengths h total fuel (acc ++ List.replicate (base + e) v) s
        if x < 16 then readLengths h total fuel (acc ++ [x]) s
        else if x = 16 then (match acc.getLast? with | none => none | some v => run v 3 2)
        else if x = 17 then run 0 3 3
        else run 0 11 7

/-- Values of `n` bits each. -/
def takeMany (n : Nat) : Nat → Inflate → Option (List Nat × Inflate)
  | 0, s => some ([], s)
  | k + 1, s =>
    match s.take n with
    | none => none
    | some (x, s) => (takeMany n k s).map fun p => (x :: p.1, p.2)

/-- A block with codes of its own. -/
def inflateDynamic (s : Inflate) : Option Inflate :=
  match s.take 14 with
  | none => none
  | some (x, s) =>
    let nlit := x % 32 + 257
    let ndist := x / 32 % 32 + 1
    let nlen := x / 1024 + 4
    match takeMany 3 nlen s with
    | none => none
    | some (ls, s) =>
      let h := Huffman.of ((List.range 19).map fun i => ls.getD (codeLengthOrder.idxOf i) 0)
      if h.oversubscribed then none
      else
        match readLengths h (nlit + ndist) 321 [] s with
        | none => none
        | some (all, s) =>
          let lit := Huffman.of (all.take nlit)
          let dist := Huffman.of (all.drop nlit)
          if lit.oversubscribed || dist.oversubscribed then none else inflateCodes lit dist (s.left + 1) s

/-- Blocks up to and including the final one. -/
def inflateBlocks : Nat → Inflate → Option Inflate
  | 0, _ => none
  | fuel + 1, s =>
    match s.take 3 with
    | none => none
    | some (x, s) =>
      let block :=
        match x / 2 with
        | 0 => inflateStored s
        | 1 => inflateCodes fixedLit fixedDist (s.left + 1) s
        | 2 => inflateDynamic s
        | _ => none
      block.bind fun s => if x % 2 = 1 then some s else inflateBlocks fuel s

/-- Raw Deflate: exactly `n` bytes, or malformed. -/
def inflate (bs : List Byte) (n : Nat) : Option (List Byte) :=
  match inflateBlocks (8 * bs.length + 1) { bits := leNat bs, left := 8 * bs.length, limit := n } with
  | none => none
  | some s => if s.count = n then some s.out.reverse else none

/-! ## LZ4 blocks -/

/-- A length that goes on in bytes of 255. -/
def lz4Extend : Nat → List Byte → Option (Nat × List Byte)
  | _, [] => none
  | n, b :: bs => if b = 255 then lz4Extend (n + 255) bs else some (n + b.toNat, bs)

def lz4Length (n : Nat) (bs : List Byte) : Option (Nat × List Byte) := if n = 15 then lz4Extend 15 bs else some (n, bs)

/-- Sequences up to the final one of literals only. -/
def lz4Sequences : Nat → List Byte → Inflate → Option Inflate
  | 0, _, _ => none
  | _, [], _ => none
  | fuel + 1, t :: bs, s =>
    match lz4Length (t.toNat / 16) bs with
    | none => none
    | some (n, bs) =>
      if bs.length < n then none
      else
        match (bs.take n).foldl (fun o b => o.bind fun (s : Inflate) => s.push b) (some s) with
        | none => none
        | some s =>
          match bs.drop n with
          | [] => some s
          | [_] => none
          | a :: b :: rest =>
            let d := a.toNat + 256 * b.toNat
            if d = 0 || s.count < d then none
            else
              match lz4Length (t.toNat % 16) rest with
              | none => none
              | some (m, rest) => (Inflate.copy d (m + 4) s).bind (lz4Sequences fuel rest)

/-- An LZ4 block: exactly `n` bytes, or malformed. -/
def lz4Block (bs : List Byte) (n : Nat) : Option (List Byte) :=
  match lz4Sequences (bs.length + 1) bs { bits := 0, left := 0, limit := n } with
  | none => none
  | some s => if s.count = n then some s.out.reverse else none

/-- A chunk under an algorithm of Table 11.4. -/
def decodeChunk (alg : Nat) (bs : List Byte) (n : Nat) : Option (List Byte) := if alg = 0 then inflate bs n else lz4Block bs n

end Sys2Proof.Machine
end

