-- ==== Sys2Proof/Machine/CopyEngine.lean ====
section
/-!
DEFINITION. Sys2Proof/Machine/CopyEngine.lean: the copy and decompression engines at work: COPY_CHUNK and DCMP_CHUNK (R200 to
R206, R210 to R214).
-/
namespace Sys2Proof.Machine

/-! ## Engine accesses to global memory (R203, Table 11.3) -/

/-- Why a job stops: its run-time reason and the faulting address. -/
structure JobStop where
  reason : Nat
  addr : Nat

/-- The run-time reason of a fault of rows 6 to 10. -/
def runReason (cause : BitVec 8) : Nat := if cause = 0x02 then 0x10 else if cause = 0x07 then 0x12 else 0x11

/-- The physical address of `n` bytes at `va` inside one page, and the state once the TLBs hold the page. `stream` lets a
compressed view be read (R168). -/
def State.enginePage (s : State) (core root va n : Nat) (write stream : Bool) : Except JobStop (Nat × State) :=
  let s := s.tlbFill core root va
  let w := match s.translate core root va with
    | .leaf e => .leaf (if stream && !write then { e with cv := false } else e)
    | w => w
  match s.checkLeaf w va n write with
  | .error f => .error ⟨runReason f.cause, f.addr.toNat⟩
  | .ok e => .ok (e.physical va, if write then s.markDirty e else s)

/-- Bytes at `va`, piece by piece up to each page's end. -/
def State.enginePages (s : State) (core root va n : Nat) (write stream : Bool) :
    Nat → Except JobStop (List (Nat × Nat) × State)
  | 0 => .ok ([], s)
  | fuel + 1 =>
    if n = 0 then .ok ([], s)
    else
      let k := min n (4096 - va % 4096)
      match s.enginePage core root va k write stream with
      | .error f => .error f
      | .ok (a, s) => (s.enginePages core root (va + k) (n - k) write stream fuel).map fun p => ((a, k) :: p.1, p.2)

/-- Read global bytes at the system cache for a job. -/
def State.engineRead (s : State) (core root va n : Nat) (stream : Bool) : Except JobStop (List Byte × State) :=
  match s.enginePages core root va n false stream (n / 4096 + 2) with
  | .error f => .error f
  | .ok (ps, s) =>
    match (List.range n).find? fun i => (ps.foldl (fun (o : Nat × Bool) p =>
        (o.1 + p.2, o.2 || (decide (o.1 ≤ i) && decide (i < o.1 + p.2) && s.poisonedAt (p.1 + (i - o.1))))) (0, false)).2 with
    | some i => .error ⟨0x14, va + i⟩
    | none => .ok (ps.flatMap fun p => memRead s.mem p.1 p.2, s)

/-- Group what stands at consecutive offsets. -/
def runsOf {α : Type} : List (Nat × α) → List (Nat × List α)
  | [] => []
  | (o, b) :: rest =>
    match runsOf rest with
    | (o', bs) :: more => if o' = o + 1 then (o, b :: bs) :: more else (o, [b]) :: (o', bs) :: more
    | [] => [(o, [b])]

/-! ## The order of the bytes that the jobs of a group write (R208) -/

/-- Group equal masks of consecutive bytes. -/
def takenRuns : List (Nat × Byte) → List TakenRun
  | [] => []
  | (a, m) :: rest =>
    match takenRuns rest with
    | t :: more => if t.start = a + 1 ∧ t.mask = m then ⟨a, t.len + 1, m⟩ :: more else ⟨a, 1, m⟩ :: t :: more
    | [] => [⟨a, 1, m⟩]

/-- The bits of a byte that runs take. -/
def takenMask (l : List TakenRun) (a : Nat) : Byte :=
  l.foldl (fun m t => if t.start ≤ a ∧ a < t.start + t.len then m ||| t.mask else m) 0

/-- What later jobs of its group have taken from job `seq`. -/
def State.takenFrom (s : State) (seq : Nat) : List TakenRun :=
  (s.cores.flatMap fun c => (c.2.copyQ.filter (·.seq == seq)).flatMap (·.taken)) ++
    s.clusters.flatMap fun k => (k.2.dcmpQ.filter (·.seq == seq)).flatMap (·.taken)

/-- The group of job `seq`: its team and its number there. -/
def State.jobGroup (s : State) (seq : Nat) : Option (Nat × Nat) :=
  ((s.cores.flatMap fun c => c.2.copyQ).find? (·.seq == seq)).map (fun j => (j.team, j.group)) <|>
    ((s.clusters.flatMap fun k => k.2.dcmpQ).find? (·.seq == seq)).map fun j => (j.team, j.group)

/-- Job `seq` has written physical bytes: the earlier jobs of its group that have not ended leave these alone from now on, so that two
jobs that write one byte take coherence order by acceptance, whichever engine is first (R208; log entry 35). -/
def State.takeBytes (s : State) (seq : Nat) (l : List (Nat × Byte)) : State :=
  match s.jobGroup seq with
  | none => s
  | some g =>
    let earlier := fun (team group k : Nat) => (team, group) == g && decide (k < seq)
    if (s.cores.any fun c => c.2.copyQ.any fun j => earlier j.team j.group j.seq)
        || s.clusters.any fun k => k.2.dcmpQ.any fun j => earlier j.team j.group j.seq then
      let more := takenRuns l
      let copy := fun (j : CopyJob) => if earlier j.team j.group j.seq then { j with taken := j.taken ++ more } else j
      let dcmp := fun (j : DcmpJob) => if earlier j.team j.group j.seq then { j with taken := j.taken ++ more } else j
      { s with cores := s.cores.map fun c => (c.1, { c.2 with copyQ := c.2.copyQ.map copy })
               clusters := s.clusters.map fun k => (k.1, { k.2 with dcmpQ := k.2.dcmpQ.map dcmp }) }
    else s

/-- Write global bytes for job `seq`, each under its mask of bits: every page is checked, and then what no later job of its group has
taken is written (R203, R208), all of them counting toward the words whose poison they clear (R291); the core's own L1 loses the
lines. -/
def State.engineMerge (s : State) (core root seq va : Nat) (bs : List (Byte × Byte)) : Except JobStop State :=
  match s.enginePages core root va bs.length true false (bs.length / 4096 + 2) with
  | .error f => .error f
  | .ok (ps, s) =>
    let gone := s.takenFrom seq
    let cells := (ps.flatMap fun p => (List.range p.2).map (p.1 + ·)).zip bs
    let free := fun (c : Nat × Byte × Byte) => if gone.isEmpty then c.2.1 else c.2.1 &&& ~~~(takenMask gone c.1)
    let put := cells.filterMap fun c =>
      let m := free c
      if m = 0 then none
      else some (c.1, if m = 255 then c.2.2 else (mapGet 0 s.mem c.1 &&& ~~~m) ||| (c.2.2 &&& m))
    let left := cells.filterMap fun c => if c.2.1 = 255 && free c != 255 then some (c.1, c.2.2) else none
    let s := (runsOf put).foldl (fun s r => (s.writePart (.job seq) r.1 r.2).l1Drop core r.1 r.2.length) s
    let s := (runsOf left).foldl (fun s r => s.poison.foldl (fun s w => s.partWritten (.job seq) r.1 r.2.length w) s) s
    .ok (s.takeBytes seq (cells.map fun c => (c.1, c.2.1)))

/-- Write whole global bytes for job `seq`. -/
def State.engineWrite (s : State) (core root seq va : Nat) (bs : List Byte) : Except JobStop State :=
  s.engineMerge core root seq va (bs.map fun b => (255, b))

/-! ## DCMP cards and their chunks (R206, R212) -/

def dcmpCardOf (x : Nat) : DcmpCard :=
  { done := BitVec.ofNat 64 (bitField x 447 384), badList := BitVec.ofNat 64 (bitField x 383 320),
    badCap := bitField x 319 288, lastLen := bitField x 287 256, ctab := BitVec.ofNat 64 (bitField x 255 192),
    alg := bitField x 167 164, logChunk := bitField x 163 160, nChunk := bitField x 159 128,
    dst := BitVec.ofNat 64 (bitField x 127 64), src := BitVec.ofNat 64 (bitField x 63 0) }

def DcmpCard.chunkSize (c : DcmpCard) : Nat := 2 ^ (12 + c.logChunk)
/-- The card's own conditions; a decompressing copy ignores DONE (R206). -/
def DcmpCard.valid (c : DcmpCard) (ignoreDone : Bool) : Bool :=
  decide (c.alg ≤ 1) && decide (c.logChunk ≤ 4) && decide (1 ≤ c.nChunk) && decide (c.nChunk ≤ 2 ^ 20)
    && decide (c.lastLen ≤ c.chunkSize) && (ignoreDone || c.done.toNat % 8 == 0)
def DcmpCard.chunkLen (c : DcmpCard) (k : Nat) : Nat :=
  if k + 1 = c.nChunk && c.lastLen != 0 then c.lastLen else c.chunkSize
def DcmpCard.total (c : DcmpCard) : Nat := (c.nChunk - 1) * c.chunkSize + c.chunkLen (c.nChunk - 1)

/-- Decode chunk `k`: its bytes, or none where it is malformed. -/
def State.streamChunk (s : State) (core root : Nat) (c : DcmpCard) (k : Nat) :
    Except JobStop (Option (List Byte) × State) :=
  match s.engineRead core root ((c.ctab.toNat + 8 * k) % 2 ^ 64) 8 true with
  | .error f => .error f
  | .ok (e, s) =>
    let x := leNat e
    (s.engineRead core root ((c.src.toNat + x % 2 ^ 32) % 2 ^ 64) (x / 2 ^ 32) true).map fun p =>
      (decodeChunk c.alg p.1 (c.chunkLen k), p.2)

/-- Append a bad chunk's index at slot `count` of a list (R214): the new count, and whether it was dropped. -/
def State.appendBad (s : State) (core root seq : Nat) (c : DcmpCard) (count k : Nat) : Except JobStop (Nat × Bool × State) :=
  if c.badCap ≤ count then .ok (count, true, s)
  else
    (s.engineWrite core root seq ((c.badList.toNat + 8 + 4 * count) % 2 ^ 64) (natLe 4 k)).map fun s => (count + 1, false, s)

/-- Put an entry behind those of its own and of earlier jobs (R84). -/
def insertListEntry (e : ListEntry) : List ListEntry → List ListEntry
  | [] => [e]
  | x :: xs => if x.seq ≤ e.seq then x :: insertListEntry e xs else e :: x :: xs

/-- Stage a bad chunk's index for a deterministic launch (R84): the 240 first stay, and the list of one that is dropped is
to have its overflow flag set. -/
def Team.stageEntry (t : Team) (seq : Nat) (c : DcmpCard) (k : Nat) : Team :=
  let l := insertListEntry { list := c.badList, slots := c.badCap, value := BitVec.ofNat 32 k, seq := seq } t.entries
  let dropped := (l.drop 240).map (·.list)
  { t with entries := l.take 240
           entryOverflow := dropped.foldl (fun o a => if o.contains a then o else o ++ [a]) t.entryOverflow }

/-- Write a list's header: count and overflow flag; an overflow already set stays. DESIGN CHOICE (log entry 32): bits 63:33, which R214
does not name, are written back as they were read. -/
def State.writeHeader (s : State) (core root seq : Nat) (c : DcmpCard) (count : Nat) (overflow : Bool) : Except JobStop State :=
  match s.engineRead core root c.badList.toNat 8 false with
  | .error f => .error f
  | .ok (h, s) =>
    let o := overflow || (leNat h).testBit 32
    s.engineWrite core root seq c.badList.toNat (natLe 4 count ++ natLe 4 (leNat h / 2 ^ 33 * 2 + o.toNat))

/-! ## Reporting a failure (R210) -/

/-- A job's failure joins its team's faults; an absent leaf suspends the job, any other ends it. -/
def State.recordFault (s : State) (team group seq : Nat) (batch : BitVec 64) (f : JobStop) : State :=
  let x := s.teamAt team
  s.setTeam team { x with faults := x.faults ++
    [{ seq := seq, group := group, batch := batch, reason := BitVec.ofNat 8 f.reason, taddr := BitVec.ofNat 64 f.addr,
       resumable := f.reason == 0x10 }] }

def State.putCopy (s : State) (core seq : Nat) (j : Option CopyJob) : State :=
  let c := s.coreAt core
  s.setCore core { c with copyQ := c.copyQ.flatMap fun x => if x.seq = seq then j.toList else [x] }

def State.putDcmp (s : State) (cluster seq : Nat) (j : Option DcmpJob) : State :=
  let c := s.clusterAt cluster
  s.setCluster cluster { c with dcmpQ := c.dcmpQ.flatMap fun x => if x.seq = seq then j.toList else [x] }

/-- A job of a group's batches has completed: sleepers of the group wake (R431). -/
def State.jobEnded (s : State) (team group : Nat) : State := s.wake team (· == group)

/-! ## One chunk of a copy -/

/-- Where a copy job's parts stand. -/
structure CopyCtx where
  core : Nat
  root : Nat
  team : Nat
  /-- its number of acceptance -/
  seq : Nat
  card : Card
  dcmp : Option DcmpCard

/-- A source read of a job: scratchpad bytes, or global bytes. -/
def State.copySource (s : State) (x : CopyCtx) (a n : Nat) : Except JobStop (List Byte × State) :=
  if x.card.padSrc then .ok ((s.teamAt x.team).padRead a n, s) else s.engineRead x.core x.root (a % 2 ^ 64) n false

/-- The expanded stream of a decompressing copy: chunks decoded so far, by index. -/
abbrev Expanded := List (Nat × List Byte)

/-- Bytes of the expanded stream; a byte beyond its length reads zero, and so does a malformed chunk (R206).
DEDUCED (log entry 32): byte by byte, so that an element partly beyond the length keeps its bytes below it. -/
def State.expandedRead (s : State) (x : CopyCtx) (c : DcmpCard) (ex : Expanded) (a : Nat) :
    Nat → Except JobStop (List Byte × Expanded × State)
  | 0 => .ok ([], ex, s)
  | n + 1 =>
    if c.total ≤ a then (s.expandedRead x c ex (a + 1) n).map fun p => (0 :: p.1, p.2)
    else
      let k := a / c.chunkSize
      match ex.find? fun e => e.1 == k with
      | some e => (s.expandedRead x c ex (a + 1) n).map fun p => (e.2.getD (a % c.chunkSize) 0 :: p.1, p.2)
      | none =>
        match s.streamChunk x.core x.root c k with
        | .error f => .error f
        | .ok (d, s) =>
          let bs := d.getD (List.replicate (c.chunkLen k) 0)
          (s.expandedRead x c ((k, bs) :: ex) (a + 1) n).map fun p => (bs.getD (a % c.chunkSize) 0 :: p.1, p.2)

/-- Source bytes at an offset from the source base, or from the start of the expanded stream. -/
def State.copyBytes (s : State) (x : CopyCtx) (ex : Expanded) (off n : Nat) : Except JobStop (List Byte × Expanded × State) :=
  match x.dcmp with
  | some c => s.expandedRead x c ex off n
  | none => (s.copySource x (x.card.src + off) n).map fun p => (p.1, ex, p.2)

/-- round(value × s) of an element under convert (R200, R201): `scale` is the element's block scale. Where the formats are equal a
NaN keeps its payload and sign (R135). DEDUCED (log entry 64): its bits are moved, while a number is scaled and rounded. -/
def Card.convertElem (c : Card) (bits : Nat) (scale : FVal) : Nat :=
  let src := natLe 8 bits
  let part := fun (j : Nat) =>
    let kept := bits / 2 ^ (partBits c.dfmt * j) % 2 ^ partBits c.dfmt
    if isComplex c.dfmt && !isComplex c.sfmt && j == 1 then 0
    else if c.sfmt = c.dfmt && (memValue c.sfmt src j).isNan then kept
    else (roundPart c.dfmt (((memValue c.sfmt src j).mul scale).1.mul (scaleValue c.scale)).1).1
  if isComplex c.dfmt then part 0 + part 1 * 2 ^ partBits c.dfmt else part 0

/-- A written part of a destination row: byte offset in the row, mask of the byte's bits, bytes. A half byte has one
byte and a mask of a nibble. -/
structure RowPiece where
  off : Nat
  mask : Nat
  bytes : List Byte

/-- Element (r, c) of the source, below the valid extent (R200, R201). -/
def State.copyElem (s : State) (x : CopyCtx) (ex : Expanded) (r c : Nat) : Except JobStop (Nat × Expanded × State) :=
  let k := x.card
  let z := (codeBits k.sfmt).getD 8
  match s.copyBytes x ex (r * k.spitch + c * z / 8) (sideBytes k.sfmt) with
  | .error f => .error f
  | .ok (bs, ex, s) =>
    let bits := if z = 4 then leNat bs / 2 ^ (4 * (c % 2)) % 16 else leNat bs
    if !k.convert then .ok (bits, ex, s)
    else if k.sfmt = 0x0D then
      (s.copyBytes x ex (r * k.spitch + (k.cols + 1) / 2 + c / 8) 1).map fun p =>
        (k.convertElem bits (Fmt.e3m5.value (leNat p.1)), p.2.1, p.2.2)
    else .ok (k.convertElem bits (.num false 1 0), ex, s)

/-- The element of a destination row, as a piece (R200). The nibble that ends an odd row of format 0x0D is written with
zero-fill alone (R201). -/
def State.elemPiece (s : State) (x : CopyCtx) (ex : Expanded) (dr dc : Nat) :
    Except JobStop (List RowPiece × Expanded × State) :=
  let k := x.card
  let z := (codeBits k.dfmt).getD 8
  let (r, c) := if k.transpose then (dc, dr) else (dr, dc)
  let piece := fun (v : Nat) =>
    if z = 4 then RowPiece.mk (dc / 2) (15 * 16 ^ (dc % 2)) [BitVec.ofNat 8 (v * 16 ^ (dc % 2))]
    else RowPiece.mk (dc * z / 8) 255 (natLe (z / 8) v)
  if r < k.validRows && c < k.validCols then
    (s.copyElem x ex r c).map fun p => ([piece p.1], p.2.1, p.2.2)
  else .ok (if k.zeroFill then [piece 0] else [], ex, s)

/-- Block scale `j` of a destination row in format 0x0D (R201). -/
def State.scalePiece (s : State) (x : CopyCtx) (ex : Expanded) (dr j : Nat) :
    Except JobStop (List RowPiece × Expanded × State) :=
  let k := x.card
  let at' := (k.dstCols + 1) / 2 + j
  if dr < k.validRows && 8 * j < k.validCols then
    (s.copyBytes x ex (dr * k.spitch + (k.cols + 1) / 2 + j) 1).map fun p => ([⟨at', 255, p.1⟩], p.2.1, p.2.2)
  else .ok (if k.zeroFill then [⟨at', 255, [0]⟩] else [], ex, s)

/-- The pieces of elements, then of scales, of a chunk of row `dr`. -/
def State.rowPieces (s : State) (x : CopyCtx) (dr : Nat) (elem : Bool) :
    List Nat → Expanded → Except JobStop (List RowPiece × Expanded × State)
  | [], ex => .ok ([], ex, s)
  | i :: is, ex =>
    match (if elem then s.elemPiece x ex dr i else s.scalePiece x ex dr i) with
    | .error f => .error f
    | .ok (p, ex, s) => (s.rowPieces x dr elem is ex).map fun q => (p ++ q.1, q.2)

/-- Element and scale numbers whose bytes lie in bytes [lo, hi) of a destination row. -/
def Card.elemsIn (c : Card) (lo hi : Nat) : List Nat × List Nat :=
  let z := (codeBits c.dfmt).getD 8
  let first := lo * 8 / z
  let last := min (hi * 8 / z) (if c.dfmt = 0x0D then (c.dstCols + 1) / 2 * 2 else c.dstCols)
  let data := (c.dstCols + 1) / 2
  ((List.range (last - first)).map (first + ·),
   if c.dfmt = 0x0D then ((List.range ((c.dstCols + 7) / 8)).filter fun j => decide (lo ≤ data + j) && decide (data + j < hi))
   else [])

/-- The bytes a chunk writes, as (offset in the row, mask, byte), nibbles of one byte joined. -/
def joinBytes : List RowPiece → List (Nat × Nat × Byte)
  | [] => []
  | p :: ps =>
    let mine := p.bytes.zipIdx.map fun q => (p.off + q.2, p.mask, q.1)
    match mine, joinBytes ps with
    | [(o, m, b)], (o', m', b') :: rest => if o = o' then (o, m ||| m', b ||| b') :: rest else (o, m, b) :: (o', m', b') :: rest
    | xs, rest => xs ++ rest

/-- Write runs of bytes at a scratchpad side; each byte resets its granule's tag, but in a tagged copy (R203). -/
def Team.copyRuns (t : Team) (base : Nat) (tagged : Bool) (runs : List (Nat × List Byte)) : Team :=
  runs.foldl (fun t r =>
    let t := t.padWrite (base + r.1) r.2
    if tagged then t else t.setTags (base + r.1) r.2.length 0) t

/-- Write runs of masked bytes at a global side, every run checked before any is written (R210). -/
def State.globalRuns (s : State) (x : CopyCtx) (base : Nat) (runs : List (Nat × List (Byte × Byte))) : Except JobStop State :=
  match runs.findSome? fun r =>
      match s.enginePages x.core x.root ((base + r.1) % 2 ^ 64) r.2.length true false (r.2.length / 4096 + 2) with
      | .error f => some f
      | .ok _ => none with
  | some f => .error f
  | none => runs.foldl (fun (o : Except JobStop State) r => o.bind fun s =>
      s.engineMerge x.core x.root x.seq ((base + r.1) % 2 ^ 64) r.2) (.ok s)

/-- Merge half bytes with what the destination holds. -/
def mergeHalves (old : Nat → Byte) (bs : List (Nat × Nat × Byte)) : List (Nat × Byte) :=
  bs.map fun p => (p.1, if p.2.1 = 255 then p.2.2 else (old p.1 &&& ~~~(BitVec.ofNat 8 p.2.1)) ||| p.2.2)

/-- Write the joined bytes of a chunk at row base `base`. -/
def State.copyCommit (s : State) (x : CopyCtx) (base : Nat) (bs : List (Nat × Nat × Byte)) : Except JobStop State :=
  if x.card.padDst then
    match s.cardTeam x.team x.card with
    | none => .ok s
    | some t =>
      let y := s.teamAt t
      if !y.alive then .ok s
      else match bs.find? (fun p => decide (s.spSizeOf y ≤ base + p.1)) with
        | some p => .error ⟨0x11, base + p.1⟩
        | none => .ok (s.setTeam t (y.copyRuns base x.card.tagged (runsOf (mergeHalves (fun o => y.padByte (base + o)) bs))))
  else s.globalRuns x base (runsOf (bs.map fun p => (p.1, (BitVec.ofNat 8 p.2.1, p.2.2))))

/-- The tag of a tagged copy's granule `row` moves with it (R204), its reserved bits as zero (R5, R6). -/
def State.copyTag (s : State) (x : CopyCtx) (row : Nat) : Except JobStop State :=
  let c := x.card
  let src : Except JobStop (Nat × State) :=
    if c.padSrc then .ok (((s.teamAt x.team).gtag (c.src / 1024 + row)).toNat, s)
    else (s.engineRead x.core x.root ((c.src + 1024 * c.rows + 4 * row) % 2 ^ 64) 4 false).map fun p =>
      ((tagField (BitVec.ofNat 32 (leNat p.1))).toNat, p.2)
  match src with
  | .error f => .error f
  | .ok (tag, s) =>
    if c.padDst then
      match s.cardTeam x.team c with
      | none => .ok s
      | some t =>
        let y := s.teamAt t
        if y.alive then .ok (s.setTeam t (y.setTags (c.dstAddr + 1024 * row) 1024 (BitVec.ofNat 32 tag))) else .ok s
    else s.engineWrite x.core x.root x.seq ((c.dstAddr + 1024 * c.rows + 4 * row) % 2 ^ 64) (natLe 4 tag)

/-- The bytes of a chunk as the hash takes them: an element left unchanged counts as zero (R205). -/
def hashBytes (lo hi : Nat) (bs : List (Nat × Nat × Byte)) : List Byte :=
  (List.range (hi - lo)).map fun i => ((bs.find? fun p => p.1 == lo + i).map (·.2.2)).getD 0

/-- Chunk `j.chunk` of a job: the state and the job after it. -/
def State.copyStep (s : State) (x : CopyCtx) (j : CopyJob) : Except JobStop (State × CopyJob) :=
  let c := x.card
  let row := c.chunkRow j.chunk
  let lo := c.chunkFrom j.chunk
  let hi := c.chunkTo j.chunk
  let (es, ks) := c.elemsIn lo hi
  match s.rowPieces x row true es [] with
  | .error f => .error f
  | .ok (ps, ex, s) =>
    match s.rowPieces x row false ks ex with
    | .error f => .error f
    | .ok (qs, _, s) =>
      let bs := joinBytes (ps ++ qs)
      match s.copyCommit x (c.dstAddr + row * c.dpitch) bs with
      | .error f => .error f
      | .ok s =>
        let h := j.hash.map fun h => h.bytes (hashBytes lo (min hi (codeBytes c.dfmt c.dstCols)) bs)
        let j := { j with chunk := j.chunk + 1, hash := h }
        if c.tagged then (s.copyTag x row).map fun s => (s, j) else .ok (s, j)

/-- The malformed chunks of a whole stream go to the card's list (R206, R214). -/
def State.listBad (s : State) (x : CopyCtx) (c : DcmpCard) (count : Nat) :
    List Nat → Except JobStop (Nat × Bool × State)
  | [] => .ok (count, false, s)
  | k :: ks =>
    match s.streamChunk x.core x.root c k with
    | .error f => .error f
    | .ok (some _, s) => s.listBad x c count ks
    | .ok (none, s) =>
      if (s.nodeAt (s.teamAt x.team).node).det then
        ((s.setTeam x.team ((s.teamAt x.team).stageEntry x.seq c k)).stageOut x.team).listBad x c count ks
      else
        match s.appendBad x.core x.root x.seq c count k with
        | .error f => .error f
        | .ok (n, o, s) => (s.listBad x c n ks).map fun p => (p.1, o || p.2.1, p.2.2)

/-- A trailer in global memory is a content signature (R205, Table 14.2) that the device holds (R268, R305), but where a later job of the
group has written over it. -/
def State.holdTrailer (s : State) (x : CopyCtx) (a : Nat) : State :=
  if x.card.padDst then s
  else match s.translate x.core x.root a with
    | .leaf e =>
      if (List.range 16).all fun i => takenMask (s.takenFrom x.seq) (e.physical a + i) == 0 then
        { s with contentSignatures := s.contentSignatures ++
          [{ region := (s.nodeAt (s.teamAt x.team).node).region, address := e.physical a }] }
      else s
    | _ => s

/-- The end of a job: its bad-chunk list and its hash trailer. -/
def State.copyFinish (s : State) (x : CopyCtx) (j : CopyJob) : Except JobStop State :=
  let c := x.card
  let det := (s.nodeAt (s.teamAt x.team).node).det
  let listed : Except JobStop State :=
    match x.dcmp with
    | none => .ok s
    | some d =>
      match s.listBad x d (j.listCount.getD 0) (List.range d.nChunk) with
      | .error f => .error f
      | .ok (n, o, s) => if det then .ok s else s.writeHeader x.core x.root x.seq d n o
  match listed with
  | .error f => .error f
  | .ok s =>
    match j.hash with
    | none => .ok s
    | some h =>
      let a := c.dstAddr + c.dstRows * c.dpitch
      (s.copyCommit x a ((natLe 16 h.finish.toNat).zipIdx.map fun p => (p.2, 255, p.1))).map fun s => s.holdTrailer x a

/-- Before its first chunk, a job reads the card it expands and takes its region's key; one whose key has been erased since
fails (R293). DESIGN CHOICE (log entry 32): the fault of a missing key has no address, and TADDR is 0. -/
def State.copyStart (s : State) (x : CopyCtx) (j : CopyJob) (region : Nat) : Except JobStop (State × CopyJob) :=
  let keyed : Except JobStop CopyJob :=
    if j.keyLost then .error ⟨0x11, 0⟩
    else if x.card.hash && j.hash.isNone then
      match s.keyOf region with
      | none => .error ⟨0x11, 0⟩
      | some k => .ok { j with hash := some (sipInit k) }
    else .ok j
  match keyed with
  | .error f => .error f
  | .ok j =>
    let counted := fun (s : State) (d : DcmpCard) =>
      (s.engineRead x.core x.root d.badList.toNat 8 false).map fun p =>
        (p.2, { j with dcmp := some d, listCount := some (leNat p.1 % 2 ^ 32) })
    if !x.card.decompress || j.listCount.isSome then .ok (s, j)
    else if let some d := j.dcmp then counted s d
    else if x.card.src % 64 ≠ 0 then .error ⟨0x13, x.card.src⟩
    else
      match s.engineRead x.core x.root x.card.src 64 true with
      | .error f => .error f
      | .ok (bs, s) =>
        let d := dcmpCardOf (leNat bs)
        if !d.valid true then .error ⟨0x13, x.card.src⟩ else counted s d

/-- An operation of the team accepted after a copy job waits on its bytes (R193), or on its tags: where one of the two sets tags,
granule by granule (R195). -/
def State.opWaitsOn (s : State) (j : CopyJob) (seq : Nat) (reads writes : List Span) (setsTags : Bool) : Bool :=
  decide (j.seq < seq) && (spansMeet (reads ++ writes) (s.copyWrites j.team j) || spansMeet writes (s.copyReads j.team j)
    || ((setsTags || (cardOf j.card).tagged) && spansMeet (writes.map Span.granules) (s.copyWrites j.team j)))

/-- A later copy job of the team waits on a copy job's bytes. -/
def State.jobWaitsOn (s : State) (j k : CopyJob) : Bool :=
  s.opWaitsOn j k.seq (s.copyReads k.team k) (s.copyWrites k.team k) (cardOf k.card).tagged

/-- The copy jobs of a team that run on while it is halted: those on whose bytes an accepted matrix or transform
operation waits, or another job that runs on (R86). -/
def State.runOn (s : State) (team : Nat) : List CopyJob :=
  let c := s.coreAt (s.teamAt team).core
  ((c.copyQ.filter fun j => j.team == team).foldr (fun j l =>
    if c.matrixQ.any (fun o => o.team == team && s.opWaitsOn j o.seq o.reads o.writes false)
      || c.transformQ.any (fun o => o.team == team && s.opWaitsOn j o.seq o.reads o.writes o.setsTags)
      || l.any (s.jobWaitsOn j) then j :: l else l) [])

/-- A halt suspends a copy job that does not run on (R86). -/
def State.copyHalted (s : State) (j : CopyJob) : Bool :=
  (s.teamAt j.team).status = .halted && !(s.runOn j.team).any fun k => k.seq == j.seq

/-! ## The order of the jobs (R17, R18, R208) -/

/-- A copy job does not go on: it is suspended, or a halt has stopped it (R86, R210). -/
def State.copyStopped (s : State) (j : CopyJob) : Bool := j.suspended || s.copyHalted j

/-- A DCMP job does not go on. -/
def State.dcmpStopped (s : State) (j : DcmpJob) : Bool := j.suspended || (s.teamAt j.team).status = .halted

/-- The copy jobs of a core that can go on, in the order of acceptance in which they run (R208). -/
def State.copyRuns (s : State) (core : Nat) : List CopyJob := (s.coreAt core).copyQ.filter fun j => !s.copyStopped j

/-- The scratchpad bytes of a job wait for operations accepted before it (R193): those of its next chunk, or, where it expands a
stream, all that it has yet to pass. DEDUCED (log entry 35): so a job that the decompression engine has taken up never waits, and
the engine finishes it before the next (R18). -/
def State.copyAwaits (s : State) (j : CopyJob) : Bool :=
  let c := cardOf j.card
  let t := j.team
  let reads := if c.decompress then c.srcSpans j.chunk else c.chunkReads j.chunk
  let writes := if c.decompress then c.dstSpans j.chunk else if j.chunk < c.chunks then c.chunkWrites j.chunk else c.trailer
  s.interlocked t j.seq reads false || (c.padDst && s.cardTeam t c == some t
      && (s.interlocked t j.seq writes true || (c.tagged && s.tagsAwait t j.seq writes)))
    || (c.tagged && c.padSrc && s.tagPending t j.seq (granulesOf reads))

/-- The job of a core at which its cluster's decompression engine is (R18), where it can go on. -/
def State.copyAtHand (s : State) (core : Nat) : Option CopyJob :=
  (s.copyRuns core).find? fun j => (s.clusterAt (core / 8)).dcmpAt == some j.seq

/-- The copy job a core's engine works on: the first that can go on. One that the decompression engine is at goes before an
earlier one that has stood suspended (R18, R210; log entry 35). -/
def State.copyHead (s : State) (core : Nat) : Option CopyJob := s.copyAtHand core <|> (s.copyRuns core).head?

/-! ## The cluster's decompression engine (R18, R206) -/

/-- Priority of a job's region. -/
def State.teamPrio (s : State) (t : Nat) : Nat := (s.regionAt (s.nodeAt (s.teamAt t).node).region).prio

/-- A job that the decompression engine of a cluster can work on: a DCMP job, or a copy that expands a stream (R206). -/
structure EngineJob where
  team : Nat
  seq : Nat
  dcmp : Option DcmpJob := none

/-- The copy of a core that its cluster's engine can be at: the one it is at, or the one whose turn it is where that expands a
stream and can go on. -/
def State.engineCopy (s : State) (core : Nat) : Option CopyJob :=
  (s.copyHead core).filter fun j => (cardOf j.card).decompress && ((s.clusterAt (core / 8)).dcmpAt == some j.seq || !s.copyAwaits j)

/-- The jobs that a cluster's engine can be at: the one it is at, and those whose turn has come. -/
def State.engineJobs (s : State) (cluster : Nat) : List EngineJob :=
  (((s.clusterAt cluster).dcmpQ.filter fun j => !s.dcmpStopped j).map fun j => { team := j.team, seq := j.seq, dcmp := some j }) ++
  (List.range 8).filterMap fun k => (s.engineCopy (8 * cluster + k)).map fun j => { team := j.team, seq := j.seq }

/-- The job a cluster's engine works on (R18): the one it is at, else the first to arrive of the highest priority. -/
def State.engineHead (s : State) (cluster : Nat) : Option EngineJob :=
  let q := s.engineJobs cluster
  match q.find? fun j => (s.clusterAt cluster).dcmpAt == some j.seq with
  | some j => some j
  | none => q.foldl (fun b j => match b with
    | none => some j
    | some i =>
      let p := s.teamPrio i.team
      let r := s.teamPrio j.team
      if p < r || (p == r && decide (j.seq < i.seq)) then some j else b) none

/-- The DCMP job whose turn the cluster's engine has. -/
def State.dcmpHead (s : State) (cluster : Nat) : Option DcmpJob := (s.engineHead cluster).bind (·.dcmp)

/-- The engine of a cluster is at job `seq`, or at none. -/
def State.engineAt (s : State) (cluster : Nat) (seq : Option Nat) : State :=
  s.setCluster cluster { s.clusterAt cluster with dcmpAt := seq }

/-- A copy job's next chunk cannot be made yet: its bytes wait, or it expands a stream and the cluster's engine is at another job. -/
def State.copyBlocked (s : State) (j : CopyJob) : Bool :=
  s.copyAwaits j || ((cardOf j.card).decompress &&
    !((s.engineHead ((s.teamAt j.team).core / 8)).any fun e => e.seq == j.seq))

/-- The cluster's engine is at a copy job that expands a stream, or has left it. -/
def State.copyEngine (s : State) (j : CopyJob) (here : Bool) : State :=
  if (cardOf j.card).decompress then s.engineAt ((s.teamAt j.team).core / 8) (if here then some j.seq else none) else s

/-- A copy job has gone as far as its engines take it now: it leaves the queue, or stays there suspended. -/
def State.leaveCopy (s : State) (core seq : Nat) (j : CopyJob) (stays : Bool) : State :=
  (s.putCopy core seq (if stays then some { j with suspended := true } else none)).copyEngine j false

/-- COPY_CHUNK: the engine of a core writes one chunk of its first job, or ends the job. -/
def execCopyChunk (core : Nat) (s : State) : Outcome :=
  match s.copyHead core with
  | none => .next s
  | some j =>
    if s.copyBlocked j then .next s
    else
      let node := s.nodeAt (s.teamAt j.team).node
      let x : CopyCtx := { core := core, root := (s.regionAt node.region).root, team := j.team, seq := j.seq, card := cardOf j.card,
                           dcmp := none }
      let failed := fun (s : State) (f : JobStop) =>
        (s.leaveCopy core j.seq j (f.reason == 0x10)).recordFault j.team j.group j.seq j.batch f
      let ended := fun (s : State) => (s.leaveCopy core j.seq j false).jobEnded j.team j.group
      let s := s.copyEngine j true
      match s.copyStart x j node.region with
      | .error f => .next (failed s f)
      | .ok (s, j) =>
        let x := { x with dcmp := j.dcmp }
        if j.chunk < x.card.chunks then
          match s.copyStep x j with
          | .error f => .next (failed s f)
          | .ok (s, k) =>
            .next (if k.chunk < x.card.chunks || k.hash.isSome || k.dcmp.isSome then s.putCopy core j.seq (some k) else ended s)
        else
          match s.copyFinish x j with
          | .error f => .next (failed s f)
          | .ok s => .next (ended s)

/-! ## The decompression engine (R212 to R214) -/

/-- The completion word of R214. -/
def doneWord (chunks status : Nat) : List Byte := natLe 4 chunks ++ natLe 1 status ++ natLe 3 0

/-- The end of a job: the list's header, which a deterministic launch leaves to its retirement (R84), then the completion
word, a release. -/
def State.dcmpFinish (s : State) (core root : Nat) (det : Bool) (c : DcmpCard) (j : DcmpJob) (status : Nat) :
    Except JobStop State :=
  let listed : Except JobStop State :=
    if det || !j.started then .ok s else s.writeHeader core root j.seq c j.listCount j.overflow
  match listed with
  | .error f => .error f
  | .ok s => s.engineWrite core root j.seq c.done.toNat (doneWord j.chunk status)

/-- The end of a job that has failed (R210, R214): what of its header and its completion word can be written. -/
def State.dcmpFailed (s : State) (core root : Nat) (det : Bool) (c : DcmpCard) (j : DcmpJob) : State :=
  if c.done.toNat % 8 = 0 then
    match s.dcmpFinish core root det c j 2 with
    | .ok s => s
    | .error _ => ((s.engineWrite core root j.seq c.done.toNat (doneWord j.chunk 2)).toOption).getD s
  else s

/-- Chunk `j.chunk` of a job. -/
def State.dcmpStep (s : State) (core root : Nat) (det : Bool) (c : DcmpCard) (j : DcmpJob) :
    Except JobStop (State × DcmpJob) :=
  match s.streamChunk core root c j.chunk with
  | .error f => .error f
  | .ok (d, s) =>
    let bs := d.getD (List.replicate (c.chunkLen j.chunk) 0)
    match s.engineWrite core root j.seq ((c.dst.toNat + j.chunk * c.chunkSize) % 2 ^ 64) bs with
    | .error f => .error f
    | .ok s =>
      let next := { j with chunk := j.chunk + 1 }
      if d.isSome then .ok (s, next)
      else if det then .ok ((s.setTeam j.team ((s.teamAt j.team).stageEntry j.seq c j.chunk)).stageOut j.team, { next with malformed := true })
      else
        (s.appendBad core root j.seq c j.listCount j.chunk).map fun p =>
          (p.2.2, { next with malformed := true, listCount := p.1, overflow := j.overflow || p.2.1 })

/-- Before its first chunk, a job checks its card and reads the list's count. -/
def State.dcmpStart (s : State) (core root : Nat) (c : DcmpCard) (j : DcmpJob) : Except JobStop (State × DcmpJob) :=
  if j.started then .ok (s, j)
  else if !c.valid false then .error ⟨0x13, j.addr.toNat⟩
  else
    (s.engineRead core root c.badList.toNat 8 false).map fun p =>
      (p.2, { j with started := true, listCount := leNat p.1 % 2 ^ 32 })

/-- DCMP_CHUNK: a cluster's engine decodes one chunk of its job. -/
def execDcmpChunk (cluster : Nat) (s : State) : Outcome :=
  match s.dcmpHead cluster with
  | none => .next s
  | some j =>
    let t := s.teamAt j.team
    let node := s.nodeAt t.node
    let root := (s.regionAt node.region).root
    let c := dcmpCardOf j.card.toNat
    let fail := fun (s : State) (j : DcmpJob) (f : JobStop) =>
      let s := if f.reason = 0x10 then s.putDcmp cluster j.seq (some { j with suspended := true })
        else (s.dcmpFailed t.core root node.det c j).putDcmp cluster j.seq none
      (s.engineAt cluster none).recordFault j.team j.group j.seq j.batch f
    let s := s.engineAt cluster (some j.seq)
    match s.dcmpStart t.core root c j with
    | .error f => .next (fail s j f)
    | .ok (s, j) =>
      if j.chunk < c.nChunk then
        match s.dcmpStep t.core root node.det c j with
        | .error f => .next (fail s j f)
        | .ok (s, j) => .next (s.putDcmp cluster j.seq (some j))
      else
        match s.dcmpFinish t.core root node.det c j (if j.malformed then 1 else 0) with
        | .error f => .next (fail s j f)
        | .ok s => .next (((s.putDcmp cluster j.seq none).engineAt cluster none).jobEnded j.team j.group)

end Sys2Proof.Machine
end

