-- ==== Sys2Proof/Machine/Fetch.lean ====
section
/-!
DEFINITION. Sys2Proof/Machine/Fetch.lean: which path issues (R43, R46, R51, R78), breakpoints (R285), and the fetch of
an instruction or a prefixed pair (R106, R107, R116).
-/
namespace Sys2Proof.Machine

/-! ## Which path issues -/

/-- The team's paths run: it is resident. A region that has spent its budget keeps its resident teams running (R78). -/
def State.teamRuns (_s : State) (t : Team) : Bool := t.status = .resident

/-- Insert a team before the first that became resident later. -/
def insertTeam (x : Nat × Team) : List (Nat × Team) → List (Nat × Team)
  | [] => [x]
  | y :: l => if x.2.residence < y.2.residence then x :: y :: l else y :: insertTeam x l

/-- The teams of a list in residence order, each with its index. -/
def byResidence (l : List (Nat × Team)) : List (Nat × Team) := l.foldl (fun acc x => insertTeam x acc) []

/-- Every path that can issue, in residence order (R51). DESIGN CHOICE (log entry 7): of the groups of one team, which become
resident at once, the lower number goes first. -/
def State.issuers (s : State) : List Focus :=
  (byResidence (s.teams.zipIdx.map fun p => (p.2, p.1))).flatMap fun p =>
    if s.teamRuns p.2 then
      p.2.groups.zipIdx.filterMap fun q => q.1.issueSlot.map fun b => { team := p.1, group := q.2, slot := b }
    else []

/-- The focused path can issue. -/
def State.focusIssues (s : State) : Bool := s.live && s.teamRuns s.team

/-- The number of a quadrant of the device: four to a core. -/
def State.quadrantOf (s : State) (f : Focus) : Nat := 4 * (s.teamAt f.team).core + (s.groupAt f.team f.group).quadrant

/-- How many quadrants lie from the focused path's to that of `f`, going round. -/
def State.quadrantGap (s : State) (f : Focus) : Nat := (s.quadrantOf f + 575 - s.quadrantOf s.focus) % 576

/-- The first of a list whose quadrant comes next. -/
def State.nearest (s : State) : List Focus → Option Focus
  | [] => none
  | f :: fs =>
    match s.nearest fs with
    | none => some f
    | some g => if s.quadrantGap g < s.quadrantGap f then some g else some f

/-- The path whose turn it is. Quadrants issue side by side; DESIGN CHOICE: here they take turns in the order of their
numbers. Within a quadrant the oldest group that can issue does, one held by YIELD last (R43, R51, R431). -/
def State.chosen (s : State) : Option Focus :=
  if s.chosenNext && s.focusIssues then some s.focus
  else
    match s.nearest s.issuers with
    | none => none
    | some f =>
      match s.issuers.find? fun h => s.quadrantOf h == s.quadrantOf f && !(s.groupAt h.team h.group).yieldHold with
      | some h => some h
      | none => some f

/-- Give the turn to a path. A switch to the group's other slot empties its operand latch and starts a new count of
consecutive issues (R43, R95). -/
def State.turnTo (s : State) (f : Focus) : State :=
  let s := { s with focus := f }
  let g := s.group
  if g.cur == f.slot then s
  else s.putGroup { g with cur := f.slot, issues := 0, latchA := none, latchB := none }

/-- An issue cycle of a group's quadrant in which it does not issue: it grows older if it could have (R51), and a hold by
YIELD has lasted one cycle more (R431). -/
def Group.passCycle (g : Group) (mine : Bool) : Group :=
  let g := if g.yieldHold then { g with yieldCycles := g.yieldCycles + 1 } else g
  if mine || g.issueSlot.isNone then g else { g with age := g.age + 1 }

/-- An issue cycle passes for the groups of the focused path's quadrant (R51, R431). -/
def State.ageOthers (s : State) : State :=
  let t0 := s.team
  let q := s.group.quadrant
  { s with teams := s.teams.zipIdx.map fun p =>
      let t := p.1
      if t.core == t0.core && s.teamRuns t then
        { t with groups := t.groups.zipIdx.map fun r =>
            if r.1.quadrant == q then r.1.passCycle (p.2 == s.focus.team && r.2 == s.focus.group) else r.1 }
      else t }

/-! ## Fetch -/

/-- What a fetch comes to: the state after a trap, one instruction, or the two words of a prefixed pair. -/
inductive Fetched where
  | stop (s : State)
  | run (i : Instr) (s : State)
  | pair (p i : Instr) (s : State)

/-- The word at a physical address. -/
def State.wordAt (s : State) (a : Nat) : BitVec 32 := BitVec.ofNat 32 (s.readPhys a 4)

/-- The breakpoint that a path meets at `pc` (R285): the lowest index of the live addresses. -/
def State.breakpoint (s : State) (pc : BitVec 64) : Option Nat :=
  if s.group.trap.isSome || s.path.bpSkip then none
  else (List.range 4).find? fun i =>
    let b := s.liveBkpt s.region i
    b != 0 && b == pc

/-- A trap at a fetch. -/
def State.fetchTrap (s : State) (cause addr info : Nat) : Fetched :=
  .stop (s.raiseTrap { cause := BitVec.ofNat 8 cause, tpc := s.path.pc, taddr := BitVec.ofNat 64 addr,
                       tinfo := BitVec.ofNat 64 info, mask := s.path.mask } true)

/-- Fetch at physical address `a` of passed unit `u`: a literal is refused, a PFX takes the word after it. -/
def State.fetchIn (s : State) (u : PassedUnit) (a : Nat) : Fetched :=
  let pc := s.path.pc.toNat
  if u.literals.contains (a % 4096 / 4) then s.fetchTrap 0x03 pc 1
  else
    match s.breakpoint s.path.pc with
    | some i => s.fetchTrap 0x10 0 i
    | none =>
      match decodeWord (s.wordAt a) (s.wordAt (a + 4)) with
      | .error _ => s.fetchTrap 0x03 pc 2
      | .ok (.pfx pm pinv zm rnd scope vc) =>
        match decodeWord (s.wordAt (a + 4)) 0 with
        | .error _ => s.fetchTrap 0x03 pc 2
        | .ok i => .pair (.pfx pm pinv zm rnd scope vc) i s
      | .ok i => .run i s

/-- Fetch the focused path's next instruction (R116). A program counter that is not a multiple of 4, which only a
handler's TPC can give, traps as the same target of RET does. DEDUCED (log entry 67): R168 names no fetch among the accesses that a
compressed view refuses, so a passed unit's words run through such a leaf as well. DESIGN CHOICE (log entry 67): so do they through a
leaf whose X bit is clear, where another mapping has made the unit pass. -/
def State.fetch (s : State) : Fetched :=
  let pc := s.path.pc.toNat
  if pc % 4 ≠ 0 then s.fetchTrap 0x04 pc 0
  else
    match s.translate s.team.core s.region.root pc with
    | .absent => s.fetchTrap 0x02 pc 0
    | .malformed => s.fetchTrap 0x03 pc 7
    | .leaf e =>
      match s.units.find? (fun u => u.unit == e.physical pc / 4096) with
      | none => s.fetchTrap 0x03 pc 2
      | some u => (s.tlbFill s.team.core s.region.root pc).fetchIn u (e.physical pc)

end Sys2Proof.Machine
end

