-- ==== Sys2Proof/Machine/Edge.lean ====
section
/-!
DEFINITION. Sys2Proof/Machine/Edge.lean: edge records (R70), and the edge instructions, group-space major 0x25 (R72 to R75,
R337).
-/
namespace Sys2Proof.Machine

/-! ## Edge records -/

/-- The fields of an edge record (Table 4.2). -/
structure EdgeRec where
  base : Nat
  logcap : Nat
  scope : Nat
  stream : Bool
  tail : BitVec 32
  head : BitVec 32
  closed : Bool
  pfail : Bool
deriving DecidableEq, Repr

def edgeRecOf (x : Nat) : EdgeRec :=
  { base := bitField x 63 0, logcap := bitField x 67 64, scope := bitField x 71 68, stream := x.testBit 72
    tail := BitVec.ofNat 32 (bitField x 159 128), head := BitVec.ofNat 32 (bitField x 191 160)
    closed := x.testBit 192, pfail := x.testBit 193 }

/-- Read an edge record in a region's space (R450). DESIGN CHOICE (log entry 73): also after software has written the record of a
live node, which R70 says leaves the tokens undefined, its fields count as memory holds them. -/
def State.edgeAt (s : State) (root : Nat) (a : BitVec 64) : Except AccessFault EdgeRec :=
  (s.deviceNat root a.toNat 64).map edgeRecOf

def EdgeRec.tokens (e : EdgeRec) : Nat := (e.tail - e.head).toNat
def EdgeRec.capacity (e : EdgeRec) : Nat := 2 ^ e.logcap
/-- 2^LOGCAP − (TAILCNT − HEADCNT) (R70). -/
def EdgeRec.freeSlots (e : EdgeRec) : Nat := e.capacity - e.tokens
/-- The place of the token of a count (R70). -/
def EdgeRec.tokenAt (e : EdgeRec) (count : BitVec 32) : Nat := e.base + 16 * (count.toNat % e.capacity)

/-- The node's edge number e, if bound. -/
def Node.edge (n : Node) (e : Nat) : Option (BitVec 64) :=
  let a := n.edges.getD e 0
  if a = 0 then none else some a

/-- A node binds an address as an in-edge. -/
def Node.bindsIn (n : Node) (a : BitVec 64) : Bool := (n.edges.take 8).contains a
/-- A node binds an address as an out-edge. -/
def Node.bindsOut (n : Node) (a : BitVec 64) : Bool := (n.edges.drop 8).contains a

/-- The physical address of an edge record in a node's space. -/
def State.edgePhys (s : State) (n : Node) (a : BitVec 64) : Option Nat :=
  match s.deviceAddr (s.regionAt n.region).root a.toNat with
  | .ok p => some p
  | .error _ => none

/-- A node binds the edge record at a physical address among its in-edges. -/
def State.consumes (s : State) (n : Node) (phys : Nat) : Bool :=
  (n.edges.take 8).any fun a => a != 0 && s.edgePhys n a == some phys

/-- A posted token wakes the sleeping paths of every node that has the record at `phys` as an in-edge (R431). -/
def State.wakeConsumers (s : State) (phys : Nat) : State :=
  (List.range s.teams.length).foldl (fun s t =>
    if (s.teamAt t).alive && s.consumes (s.nodeAt (s.teamAt t).node) phys then s.wake t fun _ => true else s) s

/-- Write a token at an edge's tail and count it (R73); sleeping consumers wake. -/
def State.pushToken (s : State) (root : Nat) (a : BitVec 64) (e : EdgeRec) (token : BitVec 128) : Except AccessFault State :=
  match s.deviceAddr root (a.toNat + 16), s.deviceWrite root (e.tokenAt e.tail) (natLe 16 token.toNat) with
  | .error f, _ => .error f
  | .ok _, .error f => .error f
  | .ok p, .ok s => (s.deviceWrite root (a.toNat + 16) (natLe 4 (e.tail + 1).toNat)).map fun s => s.wakeConsumers (p - 16)

/-! ## Instructions -/

/-- The trap of a failing device check (R450). -/
def edgeFault (f : AccessFault) : Res := .trap f.cause f.addr (BitVec.ofNat 64 f.info)

/-- The stream edge that a number is bound to; cause 0x03 with TINFO e otherwise (R73). -/
def State.streamEdge (s : State) (e : Nat) (k : BitVec 64 → EdgeRec → Res) : Res :=
  match s.node.edge e with
  | none => .trap 0x03 0 (BitVec.ofNat 64 e)
  | some a =>
    match s.edgeAt s.rootNow a with
    | .error f => edgeFault f
    | .ok r => if r.stream then k a r else .trap 0x03 0 (BitVec.ofNat 64 e)

/-- EPOST, at issue or when a slot comes free: a release at the edge's scope (R74). -/
def State.postToken (s : State) (e : Nat) (token : BitVec 128) : Res :=
  s.streamEdge e fun a r =>
    if s.node.det then
      if 16 ≤ s.team.tokens.length then .trap 0x09 0 1
      else .next ((s.putTeam { s.team with tokens := s.team.tokens ++ [(s.focus.group, e, token)] }).stageOut s.focus.team)
    else if r.freeSlots = 0 then .wait s (.edgeSlot e token)
    else match (s.drainCore s.coreNow).pushToken s.rootNow a r token with
      | .error f => edgeFault f
      | .ok s => .next s

def execEpost (wa wb : BitVec 6) (e : BitVec 4) (s : State) : Outcome :=
  groupInstr (shapeTeam [] [wa, wb] []) 1 s fun s => s.postToken e.toNat (s.uni wb ++ s.uni wa)

/-- Team `a` stands before team `b` on the curve (R83). -/
def Team.before (a b : Team) : Bool := decide (a.rank < b.rank) || (a.rank == b.rank && decide (a.ensIx < b.ensIx))

/-- Every team before this one on the curve has retired; a killed one counts as retired. -/
def State.curveTurn (s : State) (t : Nat) : Bool :=
  s.teams.all fun x => x.node != (s.teamAt t).node || !x.before (s.teamAt t) || !x.alive

/-- ETAKE, at issue or when its wait ends: an acquire at the edge's scope (R74), and of the producers' completion where it
finds the edge closed (R71, R190). -/
def State.takeToken (s : State) (e : Nat) (wd ws : BitVec 6) : Res :=
  s.streamEdge e fun a r =>
    if s.node.det && s.focus.group != 0 then .trap 0x09 0 2
    else if s.node.det && !s.curveTurn s.focus.team then .wait s (.edgeToken e wd ws)
    else if r.tokens = 0 then
      if r.closed then .next ((((s.writeW wd 0).writeW (wd + 1) 0).writeW ws 1).l1Invalidate s.coreNow)
      else .wait s (.edgeToken e wd ws)
    else
      match s.deviceNat s.rootNow (r.tokenAt r.head) 16,
        s.deviceWrite s.rootNow (a.toNat + 20) (natLe 4 (r.head + 1).toNat) with
      | .error f, _ => edgeFault f
      | .ok _, .error f => edgeFault f
      | .ok x, .ok s =>
        .next ((((s.writeW wd (BitVec.ofNat 64 x)).writeW (wd + 1) (BitVec.ofNat 64 (x / 2 ^ 64))).writeW ws 0).l1Invalidate
          s.coreNow)

def execEtake (wd ws : BitVec 6) (e : BitVec 4) (s : State) : Outcome :=
  groupInstr (shapeTeam [] [] [wd, wd + 1, ws]) 1 s fun s => s.takeToken e.toNat wd ws

/-- ETEST (R73): cat(CLOSED, n). A record the device cannot read leaves a free value: ETEST never traps (R337). -/
def execEtest (wd : BitVec 6) (e : BitVec 4) (s : State) : Outcome :=
  groupInstr { ww := [wd] } 1 s fun s =>
    match s.node.edge e.toNat with
    | none => .next (s.writeW wd (BitVec.allOnes 64))
    | some a =>
      match s.edgeAt s.rootNow a with
      | .error _ => let (x, s) := s.free; .next (s.writeW wd x)
      | .ok r =>
        let n := if !r.stream then 0 else if 8 ≤ e.toNat then r.freeSlots else r.tokens
        .next (s.writeW wd (BitVec.ofBool r.closed ++ BitVec.ofNat 63 n))

end Sys2Proof.Machine
end

