-- ==== Sys2Proof/Machine/Image.lean ====
section
/-!
DEFINITION. Sys2Proof/Machine/Image.lean: the kernel image as Gamelan reads it when it validates a node (R54, R64, R126 to
R131, R450).
-/
namespace Sys2Proof.Machine

/-- Why an image is rejected: it cannot be read, or it breaks a rule. -/
inductive ImageError where
  | unreadable (f : AccessFault)
  | broken
deriving DecidableEq

/-- Bytes of an image. -/
def State.imageBytesAt (s : State) (root base off n : Nat) : Except ImageError (List Byte) :=
  match s.deviceRead root (base + off) n with
  | .ok bs => .ok bs
  | .error f => .error (.unreadable f)

/-- The word of an image's code at an address is `SWPT #n` (R126). The read meets the four rows of R450. DESIGN CHOICE (log entry 43):
of a unit that has passed no access is made, which row 10 would refuse: what the verifier saw of it, which no write can have
changed since (R117), answers instead. -/
def State.imageSwitch (s : State) (root a n : Nat) : Except ImageError Bool :=
  let read := (s.imageBytesAt root a 0 4).map fun bs => leNat bs == 0xF4000000 + n
  match s.walk root a with
  | .leaf e =>
    match s.units.find? fun u => u.unit == e.physical a / 4096 with
    | some u => if e.cv then read else .ok (u.switches.contains (e.physical a % 4096 / 4, n))
    | none => read
  | _ => read

/-- A number in bytes read before. -/
def fieldOf (bs : List Byte) (off n : Nat) : Nat := leNat ((bs.drop off).take n)
/-- Every byte of a range is zero. -/
def zeroBytes (bs : List Byte) (off n : Nat) : Bool := ((bs.drop off).take n).all (· == 0)

/-- Carry on where a rule holds. -/
def require (ok : Bool) {α : Type} (k : Except ImageError α) : Except ImageError α := if ok then k else .error .broken

/-! ## Header and fixed tables (Tables 7.2 and 7.3) -/

structure ImageHeader where
  bytes : List Byte
  size : Nat
  codeOff : Nat
  codeSize : Nat
  mapOff : Nat
  mapCount : Nat
  brecOff : Nat
  brecCount : Nat
  memoOff : Nat
  memoCount : Nat
  symOff : Nat
  symCount : Nat
  constOff : Nat
  constSize : Nat

def headerOf (h : List Byte) : ImageHeader :=
  let f := fieldOf h
  { bytes := h, size := f 8 4, codeOff := f 0xC 4, codeSize := f 0x10 4, mapOff := f 0x14 4, mapCount := f 0x18 2
    brecCount := f 0x1A 1, memoCount := f 0x1B 1, brecOff := f 0x1C 4, memoOff := f 0x20 4, constOff := f 0x24 4
    constSize := f 0x28 4, symOff := f 0x2C 4, symCount := f 0x30 2 }

/-- The rules of Table 7.2 on the header itself. -/
def ImageHeader.ok (h : ImageHeader) : Bool :=
  fieldOf h.bytes 0 4 == 0x494B5350 && fieldOf h.bytes 4 2 == 1 && zeroBytes h.bytes 7 1 && zeroBytes h.bytes 0x32 14
    && zeroBytes h.bytes 0x1E0 32 && h.codeOff % 4096 == 0 && h.codeSize % 4096 == 0 && decide (4096 ≤ h.codeSize)
    && h.codeOff + h.codeSize == h.size && h.mapOff % 8 == 0 && h.brecOff % 8 == 0 && h.memoOff % 8 == 0
    && h.symOff % 8 == 0 && h.constOff % 64 == 0 && decide (h.mapCount ≤ 16) && decide (h.brecCount ≤ 31)
    && decide (h.memoCount ≤ 16) && decide (1 ≤ h.symCount) && decide (h.symCount ≤ 1024)
    && (h.mapCount != 0 || h.mapOff == 0) && (h.brecCount != 0 || h.brecOff == 0)
    && (h.memoCount != 0 || h.memoOff == 0) && (h.constSize != 0 || h.constOff == 0)

/-- The sections, from a list of offsets and lengths, stand in order without overlap between the fixed tables and the
code; an absent one has length zero. -/
def sectionsInOrder (code : Nat) : Nat → List (Nat × Nat) → Bool
  | e, [] => decide (e ≤ code)
  | e, (o, n) :: rest => if n = 0 then sectionsInOrder code e rest else decide (e ≤ o) && sectionsInOrder code (o + n) rest

/-- The entry of variant n. -/
def ImageHeader.variantBytes (h : ImageHeader) (n : Nat) : List Byte := (h.bytes.drop (0x40 + 96 * n)).take 96

/-- The variant of an entry, if present. -/
def variantOfEntry (e : List Byte) : Option Variant :=
  if e.all (· == 0) then none
  else some { regs := fieldOf e 1 1, uregs := fieldOf e 2 1, groups := fieldOf e 3 1, acc := fieldOf e 4 1
              scratch := fieldOf e 8 4, entry := fieldOf e 0xC 4, swMask := BitVec.ofNat 16 (fieldOf e 0x10 2)
              swOff := (List.range 16).map fun n => fieldOf e (0x20 + 4 * n) 4 }

/-- The rules of Tables 3.1 and 7.3 on a present entry, its SWPT words apart. -/
def variantOk (codeSize : Nat) (e : List Byte) (v : Variant) : Bool :=
  fieldOf e 0 1 == 1 && zeroBytes e 5 3 && zeroBytes e 0x12 14 && v.regs % 4 == 0 && decide (4 ≤ v.regs)
    && decide (v.regs ≤ 128) && v.uregs % 8 == 0 && decide (8 ≤ v.uregs) && decide (v.uregs ≤ 64)
    && decide (1 ≤ v.groups) && decide (v.groups ≤ 16) && decide (v.acc ≤ 16) && v.scratch % 1024 == 0
    && decide (v.scratch ≤ 262144) && v.entry % 4 == 0 && decide (v.entry < codeSize) && v.fitsEmpty
    && (List.range 16).all fun n =>
      let o := v.swOff.getD n 0
      if v.swMask.getLsbD n then o % 4 == 0 && decide (o < codeSize) else o == 0

/-- Every declared switch point names its SWPT word. -/
def State.switchWords (s : State) (root base : Nat) (h : ImageHeader) (v : Variant) : List Nat → Except ImageError Bool
  | [] => .ok true
  | n :: rest =>
    if v.swMask.getLsbD n then
      match s.imageSwitch root (base + h.codeOff + v.swOff.getD n 0) n with
      | .error e => .error e
      | .ok ok => if ok then s.switchWords root base h v rest else .ok false
    else s.switchWords root base h v rest

/-- The four variants. -/
def State.readVariants (s : State) (root base : Nat) (h : ImageHeader) :
    List Nat → Except ImageError (NMap (Option Variant))
  | [] => .ok []
  | n :: rest =>
    let e := h.variantBytes n
    match variantOfEntry e with
    | none => s.readVariants root base h rest
    | some v =>
      require (variantOk h.codeSize e v) <|
      match s.switchWords root base h v (List.range 16) with
      | .error x => .error x
      | .ok ok => require ok ((s.readVariants root base h rest).map fun l => (n, some v) :: l)

def toleranceOf (h : List Byte) (c : Nat) : Tolerance :=
  let o := 0x1C0 + 4 * c
  { f16 := fieldOf h o 1, f32 := fieldOf h (o + 1) 1, int := fieldOf h (o + 2) 1, flush := (fieldOf h (o + 3) 1).testBit 0 }
/-- Class 0 is all zero, and every class keeps its ranges (R126, R244). DEDUCED (log entry 62): bits 7:1 of a flags byte are
reserved, so they are ignored (R6); class 0's must be zero. -/
def toleranceOk (h : List Byte) (c : Nat) : Bool :=
  let t := toleranceOf h c
  decide (t.f16 ≤ 9) && decide (t.f32 ≤ 22) && decide (t.int ≤ 15) && (c != 0 || zeroBytes h 0x1C0 4)

/-! ## Live maps (R64, R127) -/

/-- A live value's entry keeps the rules of R64 and R125: its register where a variant declares the point, 0xFF where
none does. -/
def liveOk (variants : NMap (Option Variant)) (n : Nat) (v : LiveValue) : Bool :=
  (List.range 4).all fun i =>
    let r := (v.regs.getD i 0).toNat
    match (mapGet none variants i).filter fun x => x.swMask.getLsbD n with
    | none => r == 0xFF
    | some x =>
      match v.cls with
      | 0 => decide (r < x.regs)
      | 1 => decide (1 ≤ r) && decide (r < x.uregs) && r != 63
      | _ => decide (1 ≤ r) && decide (r < 8)

/-- Some variant declares switch point `n`: a live map of any other point fails (R125). -/
def pointDeclared (variants : NMap (Option Variant)) (n : Nat) : Bool :=
  variants.any fun p => (p.2.map fun x => x.swMask.getLsbD n).getD false

/-- Two values of one class share no register in one variant. -/
def liveDistinct : List LiveValue → Bool
  | [] => true
  | v :: rest =>
    rest.all (fun w => w.cls != v.cls || (List.range 4).all fun i =>
      v.regs.getD i 0 == 0xFF || v.regs.getD i 0 != w.regs.getD i 0) && liveDistinct rest

def liveEntry (bs : List Byte) : LiveValue := { cls := fieldOf bs 0 1, regs := (bs.drop 2).take 4 }
def liveEntryOk (bs : List Byte) : Bool := decide (fieldOf bs 0 1 ≤ 2) && zeroBytes bs 1 1 && zeroBytes bs 6 2

/-- The maps from an offset on, and where they end; `prev` is the map number before. -/
def State.readMaps (s : State) (root base : Nat) (variants : NMap (Option Variant)) :
    Nat → Nat → Option Nat → Except ImageError (List (Nat × List LiveValue) × Nat)
  | 0, off, _ => .ok ([], off)
  | k + 1, off, prev =>
    match s.imageBytesAt root base off 8 with
    | .error e => .error e
    | .ok h =>
      let n := fieldOf h 0 1
      let count := fieldOf h 2 2
      require (decide (n ≤ 15) && (match prev with | none => true | some p => decide (p < n)) && zeroBytes h 1 1
        && decide (count ≤ 199) && zeroBytes h 4 4) <|
      match s.imageBytesAt root base (off + 8) (8 * count) with
      | .error e => .error e
      | .ok bs =>
        let parts := (List.range count).map fun i => (bs.drop (8 * i)).take 8
        let vals := parts.map liveEntry
        require (parts.all liveEntryOk && vals.all (liveOk variants n) && liveDistinct vals && pointDeclared variants n) <|
        (s.readMaps root base variants k (off + 8 + 8 * count) (some n)).map fun r => ((n, vals) :: r.1, r.2)

/-! ## Buffer records, memo tables and symbols (R128 to R130) -/

/-- A list of fixed-size entries, each after the one before. -/
def entriesOf (bs : List Byte) (size count : Nat) : List (List Byte) :=
  (List.range count).map fun i => (bs.drop (size * i)).take size

/-- Numbers strictly rise. -/
def rising : List Nat → Bool
  | a :: b :: rest => decide (a < b) && rising (b :: rest)
  | _ => true

/-- A buffer-record declaration (R128). DESIGN CHOICE (log entry 62): a non-zero reserved bit 319:224 of its record rejects the image, as
Table 7.5 has them zero (R126), where R6 has reserved fields of records ignored. -/
def brecOk (e : List Byte) : Bool :=
  decide (1 ≤ fieldOf e 0 1) && decide (fieldOf e 0 1 ≤ 31) && zeroBytes e 1 7 && zeroBytes e 8 14 && zeroBytes e 36 12

def memoDeclOf (e : List Byte) : MemoDecl :=
  { handle := fieldOf e 0 1, logent := fieldOf e 1 1, ways := fieldOf e 2 1, keyb := fieldOf e 3 1, outb := fieldOf e 4 1
    home := fieldOf e 5 1, wayMask := BitVec.ofNat 16 (fieldOf e 6 2), mode := fieldOf e 8 1, policy := fieldOf e 9 1 }
def memoDeclOk (e : List Byte) : Bool :=
  let d := memoDeclOf e
  decide (d.handle ≤ 15) && decide (2 ≤ d.logent) && decide (d.logent ≤ 16) && (d.ways == 1 || d.ways == 2 || d.ways == 4)
    && decide (1 ≤ d.keyb) && decide (d.keyb ≤ 64) && decide (1 ≤ d.outb) && decide (d.outb ≤ 64) && decide (d.home ≤ 1)
    && (d.home == 1 || d.wayMask == 0) && decide (d.mode ≤ 1) && decide (d.policy ≤ 1) && zeroBytes e 10 6

def symbolOk (e : List Byte) : Bool :=
  let name := e.take 24
  name.all (fun b => decide (b < 128)) && (name.dropWhile (· != 0)).all (· == 0) && decide (fieldOf e 28 1 ≤ 2)
    && zeroBytes e 29 3
def kernelSymbolOk (e : List Byte) : Bool := e.headD 0 != 0 && fieldOf e 28 1 == 2 && zeroBytes e 24 4

/-- Read and check a kernel image (R126). Its code section starts on a 4 KiB boundary, so that no other data shares a unit with
code (R115), which an image at any other address would break. DESIGN CHOICE (log entry 63): the symbols are read and a malformed one rejects the
image (R130); and an image that is both unreadable and broken fails by the first of the
checks below that does not hold. -/
def State.readImage (s : State) (root base : Nat) : Except ImageError Image := do
  let hb ← s.imageBytesAt root base 0 0x200
  let h := headerOf hb
  require (base % 4096 == 0 && h.ok && (List.range 8).all (toleranceOk hb)) (.ok ())
  let variants ← s.readVariants root base h (List.range 4)
  require (variants.length == fieldOf hb 6 1 && !variants.isEmpty) (.ok ())
  let (maps, mapEnd) ← s.readMaps root base variants h.mapCount h.mapOff none
  require (variants.all fun p => match p.2 with
    | none => true
    | some v => (List.range 16).all fun n => !v.swMask.getLsbD n || maps.any (·.1 == n)) (.ok ())
  let brecs := entriesOf (← s.imageBytesAt root base h.brecOff (48 * h.brecCount)) 48 h.brecCount
  require (brecs.all brecOk && rising (brecs.map fun e => fieldOf e 0 1)) (.ok ())
  let memos := entriesOf (← s.imageBytesAt root base h.memoOff (16 * h.memoCount)) 16 h.memoCount
  require (memos.all memoDeclOk && rising (memos.map fun e => fieldOf e 0 1)) (.ok ())
  let syms := entriesOf (← s.imageBytesAt root base h.symOff (32 * h.symCount)) 32 h.symCount
  require (syms.all symbolOk && kernelSymbolOk (syms.headD [])) (.ok ())
  require (sectionsInOrder h.codeOff 0x200
    [(h.mapOff, if h.mapCount = 0 then 0 else mapEnd - h.mapOff), (h.brecOff, 48 * h.brecCount), (h.memoOff, 16 * h.memoCount),
     (h.symOff, 32 * h.symCount), (h.constOff, h.constSize)]) (.ok ())
  return { variants := variants, codeOff := h.codeOff, maps := maps
           tolerance := (List.range 8).map (toleranceOf hb), memo := memos.map memoDeclOf }

end Sys2Proof.Machine
end

