-- ==== Sys2Proof/Machine/Switch.lean ====
section
/-!
DEFINITION. Sys2Proof/Machine/Switch.lean: variant requests and switch points (R58 to R66), and regrouping (R276).
-/
namespace Sys2Proof.Machine

/-! ## RGROW and RGROWW (R60) -/

/-- Complete the paths of team `t` that wait in RGROWW, but for those of `keep`, with a result code. -/
def State.releaseGrow (s : State) (t : Nat) (code : DWord) (keep : Nat × Bool → Bool := fun _ => false) : State :=
  let v := s.variantOf (s.teamAt t)
  ((s.slotsOf t).filter fun p => !keep p).foldl (fun s p =>
    match s.waitOf t p.1 p.2 with
    | some (.grow wd _) => s.finishWait t p.1 p.2 fun g => g.wset v wd code
    | _ => s) s

/-- Drop the team's request; its reservation returns to the core. -/
def State.setRequest (s : State) (r : Request) : State :=
  (s.putTeam { s.team with request := r }).freedFrom s s.team.core

/-- The path goes on with a result code, and those whose request it has replaced go on with 0. Its own code is written last,
into its group's own registers (R60; log entry 27). -/
def State.grown (s : State) (wd : BitVec 6) (code : DWord) : State :=
  let f := s.focus
  let v := s.variant
  let s := (s.complete (s.nextPc 1)).releaseGrow f.team 0
  s.setGroup f.team f.group ((s.groupAt f.team f.group).own fun g => g.wset v wd code)

/-- The path waits for its grant, and those whose request it has replaced go on with 0 (R60). -/
def State.growWait (s : State) (w : Wait) : State :=
  (s.park w).releaseGrow s.focus.team 0 fun p => p == (s.focus.group, s.focus.slot)

/-- One execution of RGROW or RGROWW. -/
def State.growRequest (s : State) (wd : BitVec 6) (v : BitVec 2) (waits : Bool) : Res :=
  if s.node.det then .next (s.writeW wd 4)
  else if !s.node.allowed.getLsbD v.toNat then .next (s.writeW wd 2)
  else if v = s.team.variant then .moved ((s.setRequest {}).grown wd 1)
  else
    match (s.setRequest { target := v, valid := true }).tryGrantTeam s.focus.team with
    | (true, s) => .moved (s.grown wd 3)
    | (false, s) => if waits then .moved (s.growWait (.grow wd v)) else .moved (s.grown wd 0)

def execRgrow (wd : BitVec 6) (v : BitVec 2) (s : State) : Outcome :=
  groupInstr (shapeTeam [] [] [wd]) 1 s fun s => s.growRequest wd v false
def execRgroww (wd : BitVec 6) (v : BitVec 2) (s : State) : Outcome :=
  groupInstr (shapeTeam [] [] [wd]) 1 s fun s => s.growRequest wd v true

/-- Teams of a core in residence order. -/
def State.byAge (s : State) (core : Nat) : List Nat :=
  (s.coreTeamIxs core).foldl (fun l i =>
    let (a, b) := l.span fun j => decide ((s.teamAt j).residence < (s.teamAt i).residence)
    a ++ i :: b) []

/-- TRY_GRANT: waiting requests of the core are tried, oldest team first. -/
def execTryGrant (core : Nat) (s : State) : Outcome :=
  .next ((s.byAge core).foldl (fun s i =>
    if (s.teamAt i).request.valid && !(s.teamAt i).request.granted then
      (match s.tryGrantTeam i with
       | (true, s) => s.releaseGrow i 3
       | (false, s) => s)
    else s) s)

/-! ## SWPT (R62 to R65) -/

def switchBarrier : Nat := 16
def regroupBarrier : Nat := 17

/-- The switch point every arriving group named, if one. -/
def Barrier.samePoint (x : Barrier) : Option Nat :=
  match x.points with
  | [] => none
  | p :: ps => if ps.all (fun q => q.2 == p.2) then some p.2 else none

/-- One occupied slot and an empty stack. -/
def Group.singlePath (g : Group) : Bool := (g.path0.isSome != g.path1.isSome) && g.docc == 0 && g.trap.isNone

/-- The conditions of R62 on the state, the grant apart. -/
def State.switchConditions (s : State) (t : Nat) (n : Nat) : Bool :=
  let x := s.teamAt t
  let nd := s.nodeAt x.node
  let own := s.variantOf x
  let goal := nd.variant x.request.target
  let r := nd.region
  let grown := goal.groups - own.groups
  x.request.valid && !nd.det
    && x.groups.all (fun g => g.retired || g.singlePath)
    && own.swMask.getLsbD n && goal.swMask.getLsbD n && nd.image.maps.any (fun m => m.1 == n)
    && (x.groups.drop goal.groups).all (fun g => g.live == 0)
    && (List.range 4).all (fun k =>
      let ring := mapGet {} x.rings k
      !ring.declared || decide (ring.base + 16 * ring.capacity ≤ goal.scratch))
    && (grown == 0 || nd.priv == 0 || (s.privPlaces r nd.privBytes grown (s.usedPrivs r)).isSome)
    && (firstFit (s.regionAt r).save (s.regionAt r).saveSize (s.usedImages r t) 65536 goal.imageBytes).isSome

/-- The open switch phase completes as a plain barrier. -/
def State.plainSwitch (s : State) (t : Nat) : State :=
  let x := (s.teamAt t).barrier switchBarrier
  let s := s.setTeam t ((s.teamAt t).setBarrier switchBarrier { phase := x.phase + 1 })
  let s := (s.slotsOf t).foldl (fun s p =>
    match s.awaitedBy t p.1 p.2 with
    | some (.switchPoint _) => s.finishWait t p.1 p.2 id
    | _ => s) s
  s.wake t fun _ => true

/-- The switch phase has every arrival: the switch drains where R62 lets it be taken, else the phase completes plainly. -/
def State.checkSwitch (s : State) (t : Nat) : State :=
  let x := (s.teamAt t).barrier switchBarrier
  if !(s.teamAt t).phaseReady switchBarrier || x.draining then s
  else match x.samePoint with
    | none => s.plainSwitch t
    | some n =>
      if s.switchConditions t n then
        match s.tryGrantTeam t with
        | (true, s) => s.setTeam t ((s.teamAt t).setBarrier switchBarrier { x with draining := true })
        | (false, s) => s.plainSwitch t
      else s.plainSwitch t

def execSwpt (n : BitVec 4) (s : State) : Outcome :=
  groupInstr (shapeTeam [] [] []) 1 s fun s =>
    let x := s.team.barrier switchBarrier
    let points := if x.arrived.getLsbD s.focus.group then x.points else x.points ++ [(s.focus.group, n.toNat)]
    let t := s.putTeam (s.team.setBarrier switchBarrier
      { x with arrived := x.arrived ||| BitVec.twoPow 16 s.focus.group, points := points })
    s.enterWait (.switchPoint n.toNat) (.moved ((t.park (.switchPoint n.toNat)).checkSwitch t.focus.team))

/-- Every job and engine operation of a team has completed (R49, R63). -/
def State.teamDrained (s : State) (t : Nat) : Bool :=
  let x := s.teamAt t
  let c := s.coreAt x.core
  c.copyQ.all (fun j => j.team != t) && c.matrixQ.all (fun o => o.team != t) && c.transformQ.all (fun o => o.team != t)
    && (s.clusterAt (x.core / 8)).dcmpQ.all (fun j => j.team != t) && x.savedCopies.isEmpty && x.savedDcmps.isEmpty

/-- A path of the team has yet to enter again a wait that a halt has broken off (R87): no switch is taken before it has. -/
def State.reentering (s : State) (t : Nat) : Bool :=
  (s.slotsOf t).any fun p => ((s.groupAt t p.1).interrupted p.2).any fun q => q.again.any fun r => !r.ended

/-- The live values of a class, as register pairs of the two variants (R64). -/
def liveMoves (vals : List LiveValue) (cls : Nat) (a b : BitVec 2) : List (Nat × Nat) :=
  (vals.filter fun v => v.cls == cls).map fun v => ((v.regs.getD a.toNat 0).toNat, (v.regs.getD b.toNat 0).toNat)

/-- A group's registers after the parallel copy: registers not named are zero (R64). -/
def Group.moveLive (g : Group) (vals : List LiveValue) (a b : BitVec 2) : Group :=
  let vs := (liveMoves vals 0 a b).foldl (fun m p =>
    writeLanes m p.2 (BitVec.allOnes 64) fun l => mapGet 0 g.vregs (64 * p.1 + l)) []
  let ws := (liveMoves vals 1 a b).foldl (fun m p => if p.2 = 0 then m else mapSet 0 m p.2 (mapGet 0 g.wregs p.1)) []
  let ps := (liveMoves vals 2 a b).foldl (fun m p => if p.2 = 0 then m else mapSet 0 m p.2 (mapGet 0 g.preds p.1)) []
  { g with vregs := vs, wregs := ws, preds := ps, latchA := none, latchB := none }

/-- A group that a switch creates (R65): every lane active, uniform live values from group 0. DESIGN CHOICE (log entry 66): it
starts at the word after the target's SWPT without having issued one, so no single step falls due for it. -/
def newGroup (first : Group) (quad : Nat) (pbase : Nat) : Group :=
  { wregs := first.wregs, quadrant := quad, pbase := BitVec.ofNat 64 pbase, live := BitVec.allOnes 64 }

/-- Where code offset `o` of a node's image stands. -/
def Node.codeVa (n : Node) (o : Nat) : BitVec 64 := n.imageAddr + BitVec.ofNat 64 (n.image.codeOff + o)

/-- Give every group of a team its record in the image (R299). -/
def Team.placeRecords (t : Team) (v : Variant) : Team :=
  { t with groups := t.groups.zipIdx.map fun p =>
      let r := v.recordAt t.image p.2
      { p.1 with record := BitVec.ofNat 64 r, dsbase := BitVec.ofNat 64 (r + 0xFC00) } }

/-- The team after the move of R64 and R65, before its paths go on. A group that is gone has arrived nowhere, so that a later
one of its index counts toward the phases that are open. DESIGN CHOICE (log entry 66): an open mesh declaration (R272), which the table
of R64 does not list, is dropped. -/
def Team.switched (x : Team) (nd : Node) (n image : Nat) (privs : List Nat) : Team :=
  let a := x.variant
  let b := x.request.target
  let own := nd.variant a
  let goal := nd.variant b
  let vals := ((nd.image.maps.find? fun m => m.1 == n).map (·.2)).getD []
  let pc := nd.codeVa (goal.swOff.getD n 0 + 4)
  let moved := (x.groups.take goal.groups).map fun g =>
    let g := g.moveLive vals a b
    { g with path0 := g.path0.map (fun p => { p with fv := false, fi := 0 })
             path1 := g.path1.map (fun p => { p with fv := false, fi := 0 }) }
  let first := moved.headD {}
  let fresh := (List.range (goal.groups - own.groups)).map fun i =>
    { newGroup first (x.request.quads.getD i 0) (privs.getD i 0) with
      path0 := some { pc := pc, mask := BitVec.allOnes 64 } }
  let keep := min own.scratch goal.scratch
  let tiles := min own.acc goal.acc
  let kept := BitVec.ofNat 16 (2 ^ min own.groups goal.groups - 1)
  let barriers := x.barriers.map fun p => (p.1, { p.2 with arrived := p.2.arrived &&& kept })
  { x with variant := b, groups := moved ++ fresh, barriers := barriers, request := {}, decl := none, image := image, imageSize := goal.imageBytes
           sp := x.sp.filter (fun p => decide (p.1 < keep)), gtags := x.gtags.filter (fun p => decide (1024 * p.1 < keep))
           acc := x.acc.filter (fun p => decide (p.1 < 1024 * tiles)), ttags := x.ttags.filter (fun p => decide (p.1 < tiles)) }.placeRecords goal

/-- Zero a page's share of a private area for node `i` (R156): the page meets the checks of R450, and one that fails them is
left as it is, with a fault record. D is set (R171). -/
def State.zeroPrivatePage (s : State) (i core va n : Nat) : State :=
  match s.checkLeaf (s.walk (s.nodeRoot i) va) va 1 false with
  | .error f => s.nodeFault i f
  | .ok e => ((s.markDirty e).zeroPhys (e.physical va) n).l1Drop core (e.physical va) n

/-- Zero the private areas of `n` bytes at a list of bases for a core (R156): their pages as the region maps them. -/
def State.zeroPrivate (s : State) (i core n : Nat) (bases : List Nat) : State :=
  if n = 0 || bases.isEmpty then s
  else
    bases.foldl (fun s b => (List.range ((n + 4095) / 4096)).foldl (fun s k =>
      s.zeroPrivatePage i core (b + 4096 * k) (min 4096 (n - 4096 * k))) s) s.drainAll

/-- VARIANT_SWITCH: a drained switch is taken. The resized image and the new groups' private areas stand where the event
says; a place that is not free leaves the state as it is. DESIGN CHOICE (log entry 66): the room that R62 tests when the phase
completes is not reserved while the switch drains, and where it is gone the switch waits until there is room again. -/
def execVariantSwitch (team image : Nat) (privs : List Nat) (s : State) : Outcome :=
  let x := s.teamAt team
  let nd := s.nodeAt x.node
  let bar := x.barrier switchBarrier
  let own := s.variantOf x
  let goal := nd.variant x.request.target
  let r := s.regionAt nd.region
  let grown := if nd.priv = 0 then 0 else goal.groups - own.groups
  let ok := x.status = .resident && bar.draining && x.request.granted && s.teamDrained team && !s.reentering team && image % 65536 == 0
    && rangeFree r.save r.saveSize (s.usedImages nd.region team) image goal.imageBytes
    && privs.length == grown && s.privsFree nd.region nd.privBytes privs (s.usedPrivs nd.region)
  if !ok then .next s
  else
    let n := (bar.samePoint).getD 0
    let y := (x.switched nd n image privs).setBarrier switchBarrier { phase := bar.phase + 1 }
    let old := s
    let s := (s.setTeam team y).zeroPrivate x.node x.core nd.privBytes privs
    let pc := nd.codeVa (goal.swOff.getD n 0 + 4)
    let s := (s.slotsOf team).foldl (fun s p =>
      match s.waitOf team p.1 p.2 with
      | some (.switchPoint _) => s.at { team := team, group := p.1, slot := p.2 } fun s => s.proceed pc
      | _ => s) s
    .next ((s.wake team fun _ => true).freedFrom old x.core)

/-! ## REGRP (R276) -/

/-- A lane of a group as REGRP moves it. -/
structure MovingLane where
  key : Nat
  group : Nat
  live : Bool

/-- Live lanes by key and then by group, exited lanes last. -/
def MovingLane.before (a b : MovingLane) : Bool :=
  if a.live != b.live then a.live else if a.key != b.key then decide (a.key < b.key) else decide (a.group < b.group)

def insertLane (a : MovingLane) : List MovingLane → List MovingLane
  | [] => [a]
  | b :: l => if a.before b then a :: b :: l else b :: insertLane a l

/-- The lanes numbered `l` of the groups that have not retired, in the order of R276; `keys` gives each group's vk
and n. -/
def Team.laneOrder (t : Team) (v : Variant) (keys : Nat → BitVec 7 × Nat) (l : Nat) : List MovingLane :=
  ((t.groups.zipIdx.filter fun p => !p.1.retired).map fun p =>
    let (vk, n) := keys p.2
    let live := p.1.live.getLsbD l
    ({ key := if live then (p.1.vget v vk.toNat l).toNat % 2 ^ n else 0, group := p.2, live := live } : MovingLane)).foldl
      (fun ls a => insertLane a ls) []

/-- Copy lane `l` of group `src` into group `dst`. -/
def Group.takeLane (dst src : Group) (l : Nat) (live : Bool) : Group :=
  let bit := BitVec.twoPow 64 l
  let put := fun (m : LaneMask) (b : Bool) => if b then m ||| bit else m &&& ~~~bit
  { dst with
    live := put dst.live live
    helper := put dst.helper (src.helper.getLsbD l)
    homes := mapSet 0 dst.homes l (mapGet 0 src.homes l)
    vregs := (List.range 128).foldl (fun m r => mapSet 0 m (64 * r + l) (mapGet 0 src.vregs (64 * r + l))) dst.vregs
    preds := (List.range 8).foldl (fun m p =>
      if p = 0 then m else mapSet 0 m p (put (mapGet 0 m p) ((mapGet 0 src.preds p).getLsbD l))) dst.preds }

/-- A group once its lanes have moved: its path is every live lane, its latches are empty, and with no live lane it retires. -/
def Group.afterRegroup (g : Group) : Group :=
  let fix := fun (p : Path) => { p with mask := g.live }
  if g.live == 0 then { g with path0 := none, path1 := none, latchA := none, latchB := none, retired := true }
  else { g with path0 := g.path0.map fix, path1 := g.path1.map fix, latchA := none, latchB := none }

/-- Every lane moves: the i-th lane of an order goes to the i-th group that has not retired. Every register is written, so the
operand latches are empty (R95). -/
def Team.regrouped (t : Team) (v : Variant) (keys : Nat → BitVec 7 × Nat) : Team :=
  let dests := (List.range t.groups.length).filter fun g => !(t.groupAt g).retired
  let moved := (List.range Config.width).foldl (fun (x : Team) l =>
    ((t.laneOrder v keys l).zip dests).foldl (fun (x : Team) p =>
      x.setGroup p.2 ((x.groupAt p.2).takeLane (t.groupAt p.1.group) l p.1.live)) x) t
  { moved with groups := moved.groups.map Group.afterRegroup }

/-- The keys the waiting groups named. -/
def State.regroupKeys (s : State) (t g : Nat) : BitVec 7 × Nat :=
  match s.awaitedBy t g false, s.awaitedBy t g true with
  | some (.regroup vk n), _ => (vk, n)
  | _, some (.regroup vk n) => (vk, n)
  | _, _ => (0, 0)

/-- Complete the REGRP phase once every group has arrived. -/
def State.checkRegroup (s : State) (t : Nat) : State :=
  if !(s.teamAt t).phaseReady regroupBarrier then s
  else
    let old := s
    let x := s.teamAt t
    let v := s.variantOf x
    let y := (x.regrouped v (s.regroupKeys t)).setBarrier regroupBarrier { phase := (x.barrier regroupBarrier).phase + 1 }
    let s := s.setTeam t y
    let s := (s.slotsOf t).foldl (fun s p =>
      match s.awaitedBy t p.1 p.2 with
      | some (.regroup ..) => s.finishWait t p.1 p.2 id
      | _ => s) s
    ((s.wake t fun _ => true).checkPhases t).freedFrom old x.core

def execRegrp (vk : BitVec 6) (n : BitVec 4) (s : State) : Outcome :=
  groupInstr (shapeTeam [vk.toNat] [] []) 1 s fun s =>
    if !s.group.singlePath || s.node.priv ≠ 0 then .trap 0x03 0 13
    else
      let x := s.team.barrier regroupBarrier
      let t := s.putTeam (s.team.setBarrier regroupBarrier
        { x with arrived := x.arrived ||| BitVec.twoPow 16 s.focus.group })
      let w := Wait.regroup (vk.setWidth 7) n.toNat
      s.enterWait w (.moved ((t.park w).checkRegroup t.focus.team))

/-! ## A group retires (R47, R48) -/

/-- A group whose slots are empty and whose stack is empty retires; the phases that waited for it complete. -/
def State.retireGroup (s : State) (t g : Nat) : State :=
  let x := s.groupAt t g
  if x.path0.isNone && x.path1.isNone && x.docc == 0 && !x.retired then
    let old := s
    let s := s.setGroup t g { x with retired := true }
    (((s.checkPhases t).checkSwitch t).checkRegroup t).freedFrom old (s.teamAt t).core
  else s

end Sys2Proof.Machine
end

