-- ==== Sys2Proof/Machine/Control.lean ====
section
/-!
DEFINITION. Sys2Proof/Machine/Control.lean: branches, calls and path control, group-space majors 0x10 to 0x1B (R38 to R45,
R324 to R328, R338, R352, R353, R382, R393), FENCE (R342), cache control (R330), YIELD and SLEEP (R431), and the uniform
memory instructions (R422 to R424).
-/
namespace Sys2Proof.Machine

/-! ## Branches -/

/-- The word's address + 4 × the displacement (R103). -/
def State.target (s : State) {n : Nat} (disp : BitVec n) : BitVec 64 := s.path.pc + 4#64 * disp.signExtend 64

/-- The whole path goes on at the target or at the next word. -/
def branchInstr {n : Nat} (sh : Shape) (taken : State → Bool) (disp : BitVec n) (s : State) : Outcome :=
  groupInstr sh 1 s fun s => if taken s then .goto s (s.target disp) else .next s

def execBra (disp : BitVec 22) (s : State) : Outcome := branchInstr {} (fun _ => true) disp s
def execBrany (pn : BitVec 3) (disp : BitVec 22) (s : State) : Outcome :=
  branchInstr { pr := [pn] } (fun s => s.path.mask &&& s.pred pn != 0) disp s
def execBrall (pn : BitVec 3) (disp : BitVec 22) (s : State) : Outcome :=
  branchInstr { pr := [pn] } (fun s => s.path.mask &&& ~~~(s.pred pn) == 0) disp s
def execBz (wa : BitVec 6) (disp : BitVec 13) (s : State) : Outcome :=
  branchInstr { wr := [wa] } (fun s => s.uni wa == 0) disp s
def execBnz (wa : BitVec 6) (disp : BitVec 13) (s : State) : Outcome :=
  branchInstr { wr := [wa] } (fun s => s.uni wa != 0) disp s

def execCall (disp : BitVec 22) (s : State) : Outcome :=
  groupInstr { ww := [63] } 1 s fun s => .goto (s.writeW 63 (s.path.pc + 4)) (s.target disp)

def execRet (wa : BitVec 6) (s : State) : Outcome :=
  groupInstr { wr := [wa] } 1 s fun s =>
    let t := s.uni wa
    if t.extractLsb' 0 2 ≠ 0 then .trap 0x04 t 0 else .goto s t

def execNop (s : State) : Outcome := groupInstr { purity := .all } 1 s fun s => .next s

/-! ## Path control (R39 to R42) -/

def execBrd (pn : BitVec 3) (disp : BitVec 22) (s : State) : Outcome :=
  groupInstr { pr := [pn] } 1 s fun s =>
    let t := s.path.mask &&& s.pred pn
    let f := s.path.mask &&& ~~~(s.pred pn)
    let other := (s.group.slot (!s.focus.slot)).isSome || s.node.det
    if t = 0 then .next s
    else if f = 0 then .goto s (s.target disp)
    else if other && s.dsFull then .trap 0x0C 0 0
    else .next (s.splitPath t f (s.target disp))

def execJset (disp : BitVec 22) (s : State) : Outcome :=
  groupInstr {} 1 s fun s =>
    match s.dsLowest with
    | none => .trap 0x0C 0 0
    | some i => .next (s.openFrame i (s.target disp))

def execJoin (s : State) : Outcome :=
  groupInstr {} 1 s fun s =>
    let p := s.path
    if !p.fv || (s.dsRead p.fi.toNat).addr ≠ p.pc then .next s
    else .moved (s.endPath.retireGroup s.focus.team s.focus.group)

def execExit (s : State) : Outcome :=
  groupInstr { inTrap := .refused } 1 s fun s =>
    let p := s.path
    let s := (s.dropLanes p.mask p.fi p.fv 32).endPath
    let s := s.putGroup { s.group with live := s.group.live &&& ~~~p.mask }
    .moved (s.retireGroup s.focus.team s.focus.group)

/-! ## FENCE and cache control -/

/-- FENCE (R342): order 0 ACQ, 1 REL, 2 AR, 3 SC. -/
def execFence (ord : BitVec 3) (scope : BitVec 4) (s : State) : Outcome :=
  groupInstr {} 1 s fun s =>
    let kind := ord.toNat + 1
    let reach : BitVec 3 := if 2 ≤ scope.toNat then 2 else 0
    if s.orderWaits kind reach then .wait s .stores else .next (s.ordered kind reach)

def execCctlf (s : State) : Outcome := groupInstr {} 1 s fun s => .next (s.l1Invalidate s.coreNow)

/-- The pages of a byte range that starts in global memory, without the bytes in a window of Table 9.1. -/
def globalPages (a n : Nat) : List Nat :=
  ((List.range (n / 4096 + 2)).map fun i => (a / 4096 + i) * 4096).filter fun p =>
    decide (p < a + n) && decide (p < 0xFFFFFD * 2 ^ 40)

def execCctli (wa wb : BitVec 6) (s : State) : Outcome :=
  groupInstr { wr := [wa, wb] } 1 s fun s =>
    let a := (s.uni wa).toNat
    let n := (s.uni wb).toNat
    let c := s.coreNow
    let held := fun p => ((s.coreAt c).tlb.find? fun e => e.covers s.rootNow p)
    if n = 0 then .next s
    else if 2 ^ 20 < n || !(globalPages a n).all (fun p => (held p).isSome) then .next (s.l1Invalidate c)
    else .next ((globalPages a n).foldl (fun s p =>
      let lo := max p a
      let hi := min (p + 4096) (a + n)
      match held p with
      | some e => s.l1Drop c (e.physical lo) (hi - lo)
      | none => s) s)

def execCctlw (s : State) : Outcome :=
  groupInstr {} 1 s fun s =>
    if s.storesPending s.focus.team s.focus.group && !s.path.released then .wait s .stores else .next s

/-! ## YIELD and SLEEP (R431) -/

/-- The other slot issues next if it can, and the group is held back while another of its quadrant can issue. -/
def State.yielded (s : State) : State :=
  let b := !s.focus.slot
  let g := { s.group with yieldHold := true, yieldCycles := 0 }
  s.putGroup <|
    match g.slot b with
    | some p => if p.wait.isNone then { g with cur := b, issues := 0, latchA := none, latchB := none } else g
    | none => g

def execYieldIssue (s : State) : Outcome := groupInstr { inTrap := .refused } 1 s fun s => .next s.yielded

def execSleep (wa : BitVec 6) (s : State) : Outcome :=
  groupInstr { wr := [wa], inTrap := .refused } 1 s fun s =>
    if s.uni wa = 0 then .next s.yielded
    else .wait s (.sleep (if (s.uni wa).toNat ≤ 1048576 then s.uni wa else 1048576))

/-! ## Uniform memory (R422 to R424) -/

/-- An access of `r` bytes at w[wa] + imm for the path (R423): the checks and waits of a lane access, with no lane. -/
def uniAccess (wa : BitVec 6) (imm : BitVec 13) (r : Nat) (store : Bool) (s : State) (k : State → Place → Res) : Res :=
  let a := s.uni wa + imm.signExtend 64
  let fault := fun (f : AccessFault) => Res.trap f.cause f.addr (BitVec.ofNat 64 f.info)
  match s.resolve none a r with
  | .error f => fault f
  | .ok p =>
    if a.toNat % r ≠ 0 then .trap 0x04 a 0
    else match s.walkPages (pagesOf p.pieces) with
      | .error w => .wait s w
      | .ok s =>
        match s.checkPieces a p.pieces store with
        | some f => fault f
        | none =>
          if !store && s.poisonPieces p.pieces false then .trap 0x13 a 1
          else
            let spans := ownSpans s.focus.team r [p]
            if s.interlocked s.focus.team s.acceptSeq spans store then .wait s (.footprint spans store)
            else k s p

def uniLoad (r : Nat) (wd wa : BitVec 6) (imm : BitVec 13) (s : State) : Outcome :=
  groupInstr { wr := [wa], ww := [wd] } 1 s fun s =>
    uniAccess wa imm r false s fun s p =>
      .next ((s.writeW wd (BitVec.ofNat 64 (leNat (s.loadPlace p r)))).allocPieces p.pieces)

def uniStore (r : Nat) (wd wa : BitVec 6) (imm : BitVec 13) (s : State) : Outcome :=
  groupInstr { wr := [wa, wd] } 1 s fun s =>
    uniAccess wa imm r true s fun s p => .next (s.storePlace p (natLe r (s.uni wd).toNat))

def execUldw (wd wa : BitVec 6) (imm : BitVec 13) (s : State) : Outcome := uniLoad 4 wd wa imm s
def execUldd (wd wa : BitVec 6) (imm : BitVec 13) (s : State) : Outcome := uniLoad 8 wd wa imm s
def execUstw (wd wa : BitVec 6) (imm : BitVec 13) (s : State) : Outcome := uniStore 4 wd wa imm s
def execUstd (wd wa : BitVec 6) (imm : BitVec 13) (s : State) : Outcome := uniStore 8 wd wa imm s

end Sys2Proof.Machine
end

