-- ==== Sys2Proof/Machine/MemoTable.lean ====
section
/-!
DEFINITION. Sys2Proof/Machine/MemoTable.lean: signatures of keys (R243), quantisation (R244), and the memo tables
(R247 to R250).
-/
namespace Sys2Proof.Machine

/-! ## Keys -/

/-- The short signature of a key (R243). -/
def shortSignature (k : List (BitVec 16)) : BitVec 32 :=
  k.foldl (fun h x => h.rotateLeft 5 ^^^ x.setWidth 32) 0x9E3779B9

/-- quantf of R244 on the bits of a format, with a drop count and the flush bit. -/
def quantF (f : Fmt) (x drop : Nat) (flush : Bool) : Nat :=
  match f.value x with
  | .nan _ => f.nan
  | _ =>
    let m := x % 2 ^ f.signBit
    let m := if flush && decide (m < 2 ^ f.mant) then 0 else m
    let q := m / 2 ^ drop
    let t := m % 2 ^ drop
    let up := drop != 0 && (decide (2 ^ (drop - 1) < t) || (decide (t = 2 ^ (drop - 1)) && q % 2 == 1))
    let m := if drop = 0 then m else min ((if up then q + 1 else q) * 2 ^ drop) f.infinity
    if m = 0 then 0 else x / 2 ^ f.signBit % 2 * 2 ^ f.signBit + m

/-- quanti of R244. -/
def quantI (n x drop : Nat) : Nat :=
  let v := (BitVec.ofNat n x).toInt
  let q := v / 2 ^ drop
  let t := v % 2 ^ drop
  let up := drop != 0 && (decide ((2 : Int) ^ (drop - 1) < t) || (decide (t = 2 ^ (drop - 1)) && decide (q % 2 = 1)))
  (BitVec.ofInt n ((if up then q + 1 else q) * 2 ^ drop)).toNat

/-- The tolerance class of an image (R244); a class the image does not name drops nothing. -/
def Image.tol (i : Image) (c : Nat) : Tolerance := i.tolerance.getD c {}

/-- The halfwords of a number, lowest first. -/
def halvesOf (x n : Nat) : List (BitVec 16) := (List.range n).map fun i => BitVec.ofNat 16 (x / 2 ^ (16 * i))
/-- The bytes of a key. -/
def keyBytes (k : List (BitVec 16)) : List Byte := k.flatMap fun h => natLe 2 h.toNat

/-! ## Tables -/

def MemoSlot.verify (m : MemoSlot) : Bool := m.mode == 0
def MemoSlot.sets (m : MemoSlot) : Nat := 2 ^ m.logent / m.ways
/-- The instance a core uses: its own for a Carillon home, the one device-wide otherwise (R247). -/
def MemoSlot.index (m : MemoSlot) (core : Nat) : Nat := if m.home = 0 then core else 0
def MemoSlot.instanceAt (m : MemoSlot) (core : Nat) : MemoInstance := mapGet {} m.instances (m.index core)
def MemoSlot.setInstance (m : MemoSlot) (core : Nat) (x : MemoInstance) : MemoSlot :=
  { m with instances := mapSet {} m.instances (m.index core) x }
/-- Bytes of an entry (R247). -/
def memoEntryBytes (mode keyb outb : Nat) : Nat := (16 + (if mode = 0 then keyb else 0) + outb + 15) / 16 * 16

/-- The set of a signature. -/
def MemoSlot.setOf (m : MemoSlot) (h : BitVec 32) : Nat := h.toNat % m.sets
def tagOf (h : BitVec 32) : BitVec 16 := h.extractLsb' 16 16

/-- The current entry of way `w` of set `i` (R248). -/
def MemoInstance.current (x : MemoInstance) (ways i w : Nat) : Option MemoEntry :=
  (mapGet none x.entries (i * ways + w)).filter fun e => e.gen == x.gen

/-- The way a lookup of a key hits. -/
def MemoSlot.hitWay (m : MemoSlot) (x : MemoInstance) (k : List (BitVec 16)) : Option Nat :=
  let h := shortSignature k
  (List.range m.ways).find? fun w =>
    match x.current m.ways (m.setOf h) w with
    | none => false
    | some e => if m.verify then tagOf e.h == tagOf h && e.key == keyBytes k else e.h == h

/-- The lowest current way whose tag is that of a signature. -/
def MemoSlot.tagWay (m : MemoSlot) (x : MemoInstance) (h : BitVec 32) : Option Nat :=
  (List.range m.ways).find? fun w =>
    match x.current m.ways (m.setOf h) w with
    | none => false
    | some e => tagOf e.h == tagOf h

/-- Make a way the most recent of its set. -/
def MemoInstance.touch (x : MemoInstance) (i w : Nat) : MemoInstance :=
  { x with recency := mapSet [] x.recency i (w :: (mapGet [] x.recency i).filter (· != w)) }

/-- A lookup (R248): the outputs of a hit, and the instance after it. -/
def MemoSlot.lookup (m : MemoSlot) (x : MemoInstance) (k : List (BitVec 16)) : Option (List Byte) × MemoInstance :=
  let h := shortSignature k
  match m.hitWay x k with
  | some w => ((x.current m.ways (m.setOf h) w).map (·.outputs), x.touch (m.setOf h) w)
  | none =>
    (none, if m.verify && (m.tagWay x h).isSome then { x with collisions := x.collisions + 1 } else x)

/-- The way an insertion takes under rules 2 to 4, and whether it evicts (R249). -/
def MemoSlot.insertWay (m : MemoSlot) (x : MemoInstance) (h : BitVec 32) : Nat × Bool :=
  match (if m.verify then m.tagWay x h else none) with
  | some w => (w, false)
  | none =>
    match (List.range m.ways).find? (fun w => (x.current m.ways (m.setOf h) w).isNone) with
    | some w => (w, false)
    | none => ((mapGet [] x.recency (m.setOf h)).getLastD 0, true)

/-- An insertion (R249). -/
def MemoSlot.insert (m : MemoSlot) (x : MemoInstance) (k : List (BitVec 16)) (o : List Byte) : MemoInstance :=
  let h := shortSignature k
  let i := m.setOf h
  let put := fun (x : MemoInstance) (w : Nat) (e : MemoEntry) =>
    ({ x with entries := mapSet none x.entries (i * m.ways + w) (some e), inserts := x.inserts + 1 } : MemoInstance).touch i w
  match m.hitWay x k with
  | some w =>
    match x.current m.ways i w with
    | some e => put x w { e with outputs := o }
    | none => x
  | none =>
    let (w, evict) := m.insertWay x h
    put { x with evictions := x.evictions + if evict then 1 else 0 } w
      { gen := x.gen, h := h, key := if m.verify then keyBytes k else [], outputs := o }

/-- MINV on one instance (R250). -/
def MemoInstance.invalidate (x : MemoInstance) : MemoInstance := { x with entries := [], epoch := x.epoch + 1 }
/-- MGEN on one instance (R250). -/
def MemoInstance.advance (x : MemoInstance) : MemoInstance :=
  let x := { x with gen := x.gen + 1, epoch := x.epoch + 1 }
  if x.gen = 0 then { x with entries := [] } else x

/-- A created slot of a region. -/
def State.memoSlot (s : State) (region slot : Nat) : Option MemoSlot := mapGet none (s.regionAt region).slots slot
def State.setMemoSlot (s : State) (region slot : Nat) (m : Option MemoSlot) : State :=
  let r := s.regionAt region
  s.setRegion region { r with slots := mapSet none r.slots slot m }

/-- The slot that a handle of a node is bound to (R247). -/
def State.boundSlot (s : State) (n : Node) (h : Nat) : Option Nat :=
  match n.memo[h]? with
  | some b => if b.toNat < 64 && (s.memoSlot n.region b.toNat).isSome then some b.toNat else none
  | none => none

/-- Every instance a slot has, by index: the cores of the region's mask, or the one of a system-cache home. -/
def State.memoIndices (s : State) (region : Nat) (m : MemoSlot) : List Nat :=
  if m.home = 0 then (List.range 144).filter fun c => (s.regionAt region).cores.getLsbD c else [0]

/-- Act on every instance of a slot. -/
def State.memoAll (s : State) (region slot : Nat) (f : MemoInstance → MemoInstance) : State :=
  match s.memoSlot region slot with
  | none => s
  | some m =>
    let is := (s.memoIndices region m).foldl (fun is c => mapSet {} is c (f (mapGet {} is c))) m.instances
    s.setMemoSlot region slot (some { m with instances := is })

/-- A lookup or an insertion is refused in a deterministic launch but under class 0 in verify mode (R267). -/
def memoDetRefuses (det : Bool) (cls : Nat) (m : MemoSlot) : Bool := det && (cls != 0 || !m.verify)

end Sys2Proof.Machine
end

