-- ==== Sys2Proof/Machine/Texture.lean ====
section
/-!
DEFINITION. Sys2Proof/Machine/Texture.lean: TEX, TEXL and TEXG, majors 0x30 to 0x32 (R409 to R413), and PRF, major 0x34
(R386, R387).
-/
namespace Sys2Proof.Machine

/-! ## Images and samplers -/

/-- Register v((va + i) mod 128). -/
def wrapReg (va : BitVec 7) (i : Nat) : Nat := (va.toNat + i) % 128

/-- Row 1 of Table 22.3 (R410). -/
def BufRec.imageOk (b : BufRec) : Bool :=
  (b.mem == 0x02 || b.mem == 0x09 || b.mem == 0x0A || b.mem == 0x08) && b.reg == 0x08 && !badScale b.scale && b.swz == 0
    && decide (1 ≤ b.tilex) && decide (b.tilex ≤ 16384) && decide (1 ≤ b.tiley) && decide (b.tiley ≤ 16384)

/-- The sampler word (Table 22.2). -/
structure Sampler where
  gcomp : Nat
  levels : Nat
  vmode : Nat
  umode : Nat
  filter : Nat

def samplerOf (x : Nat) : Sampler :=
  { gcomp := bitField x 13 12, levels := bitField x 11 8, vmode := bitField x 5 4, umode := bitField x 3 2
    filter := bitField x 1 0 }

/-- Row 2 of Table 22.3. -/
def samplerOk (x : Nat) : Bool :=
  let s := samplerOf x
  x / 2 ^ 14 == 0 && bitField x 7 6 == 0 && decide (s.levels ≤ 14) && decide (s.vmode ≤ 2) && decide (s.umode ≤ 2)
    && decide (s.filter ≤ 1)

/-- Bytes of a texel. -/
def BufRec.texelBytes (b : BufRec) : Nat := (codeBits b.mem).getD 8 / 2
def levelDim (d m : Nat) : Nat := max 1 (d / 2 ^ m)
/-- Offset of level m from BASE (R410). -/
def BufRec.levelOffset (b : BufRec) : Nat → Nat
  | 0 => 0
  | m + 1 =>
    (b.levelOffset m + levelDim b.tilex m * levelDim b.tiley m * b.texelBytes + 255) / 256 * 256

/-! ## Sample points (R411) -/

/-- A coordinate: a NaN or an infinity reads as +0. -/
def coordinate (x : Word) : Bool × Nat × Int :=
  match Fmt.fp32.value x.toNat with
  | .num neg m e => (neg, m, e)
  | _ => (false, 0, 0)

/-- The floor of a coordinate times a size. -/
def floorScaled (c : Bool × Nat × Int) (w : Nat) : Int :=
  let n : Int := (if c.1 then -1 else 1) * (c.2.1 * w : Nat)
  if 0 ≤ c.2.2 then n * 2 ^ c.2.2.toNat else n / 2 ^ (-c.2.2).toNat

/-- A coordinate times a size less a half, in units of 1/256, ties to even. -/
def fixedScaled (c : Bool × Nat × Int) (w : Nat) : Int :=
  let k := (-c.2.2).toNat
  let n : Int := (if c.1 then -1 else 1) * (c.2.1 * w * 256 * 2 ^ c.2.2.toNat : Nat) - 128 * 2 ^ k
  let q := n / 2 ^ k
  let r := 2 * (n % 2 ^ k)
  if r < 2 ^ k then q else if 2 ^ k < r then q + 1 else if q % 2 = 0 then q else q + 1

/-- An index under an address mode; none is border. -/
def address (mode : Nat) (i : Int) (w : Nat) : Option Nat :=
  match mode with
  | 0 => some (min (max i 0) (w - 1 : Nat)).toNat
  | 1 => some (i % w).toNat
  | _ => if i < 0 || decide ((w : Int) ≤ i) then none else some i.toNat

/-- What a lane samples: its level, its texels (each its offset from BASE, or none for border), and the blend weights
`a`, `b`. -/
structure Sample where
  taps : List (Option Nat)
  a : Nat := 0
  b : Nat := 0

def BufRec.tap (r : BufRec) (s : Sampler) (m : Nat) (i j : Int) : Option Nat :=
  let w := levelDim r.tilex m
  match address s.umode i w, address s.vmode j (levelDim r.tiley m) with
  | some i, some j => some (r.levelOffset m + (j * w + i) * r.texelBytes)
  | _, _ => none

/-- The sample of a lane at level m; `gather` for TEXG. -/
def BufRec.sample (r : BufRec) (s : Sampler) (gather : Bool) (m : Nat) (u v : Word) : Sample :=
  let w := levelDim r.tilex m
  let h := levelDim r.tiley m
  if s.filter = 0 && !gather then
    { taps := [r.tap s m (floorScaled (coordinate u) w) (floorScaled (coordinate v) h)] }
  else
    let x := fixedScaled (coordinate u) w
    let y := fixedScaled (coordinate v) h
    let i := x / 256
    let j := y / 256
    { taps := [r.tap s m i j, r.tap s m (i + 1) j, r.tap s m i (j + 1), r.tap s m (i + 1) (j + 1)]
      a := (x % 256).toNat, b := (y % 256).toNat }

/-! ## Results -/

/-- The value of component k of a texel's bytes times s, UINT8 being a 255th of it; a border texel has no bytes and
reads as +0. -/
def BufRec.component (r : BufRec) (bs : List Byte) (k : Nat) : FVal :=
  if bs.isEmpty then .num false 0 0 else ((memValue r.mem bs k).mul (scaleValue r.scale)).1

/-- The one rounding of an output. -/
def BufRec.texRound (r : BufRec) (x : FVal) : Word :=
  BitVec.ofNat 32 (roundTo .fp32 .rne (if r.mem = 0x02 then x.divBy (.num false 255 0) else x)).1

/-- The sum of components under weights, in units of 1/65536. -/
def BufRec.blend (r : BufRec) (taps : List (List Byte)) (weights : List Nat) (k : Nat) : FVal :=
  let terms := (taps.zip weights).map fun p => ((r.component p.1 k).mul (.num false p.2 (-16))).1
  match terms with
  | [] => .num false 0 0
  | t :: ts => ts.foldl (fun x y => (x.add .rne y).1) t

/-- The four results of a lane from its texels' bytes; a border texel has none, and reads as zeros. -/
def BufRec.texResult (r : BufRec) (s : Sampler) (gather : Bool) (p : Sample) (taps : List (List Byte)) (k : Nat) : Word :=
  if gather then r.texRound (r.component (taps.getD k []) s.gcomp)
  else match taps with
    | [t] => r.texRound (r.component t k)
    | _ => r.texRound (r.blend taps [(256 - p.a) * (256 - p.b), p.a * (256 - p.b), (256 - p.a) * p.b, p.a * p.b] k)

/-- Row 5 of Table 22.3 on a texel, and where its read leads: with BZERO, to zeros. A texel in a window is no address of
global memory (R160, log entry 57). -/
def BufRec.texelPlace (r : BufRec) (l off : Nat) : Except AccessFault Access :=
  let a := BitVec.ofNat 64 (r.base + off)
  if r.extent != 0 && decide (r.extent < off + r.texelBytes) then
    (if r.bzero then .ok { lane := l, addr := a, place := .gone } else .error ⟨0x03, a, 5⟩)
  else if windowOf a ≠ .global then .error ⟨0x06, a, 4⟩
  else .ok { lane := l, addr := a, place := .global [(a.toNat, r.texelBytes)] }

/-- The reads of a lane's texels, in tap order; border texels are not read. -/
def BufRec.texelPlaces (r : BufRec) (l : Nat) (taps : List (Option Nat)) : Except AccessFault (List Access) :=
  taps.mapM fun t =>
    match t with
    | none => .ok { lane := l, addr := 0, place := .global [] }
    | some off => r.texelPlace l off

/-- The accesses of a texture instruction, whose poison ranks among each lane's checks (Table 22.3). -/
def texAccess (places : Nat → Except AccessFault (List Access)) : LaneAccess :=
  { early := fun _ l => places l, bytes := 0, write := false, reads := true, texel := true }

/-- TEX, TEXL and TEXG: `level` gives a lane's level. -/
def texInstr (gather : Bool) (coords : Nat) (vt va : BitVec 7) (wb : BitVec 6) (rec : BitVec 5) (s : State) : Outcome :=
  laneInstr { vr := (List.range coords).map (wrapReg va), wr := [wb], vw := regsFrom vt.toNat 4, purity := .all } {} s fun s =>
    let shared := fun (f : AccessFault) => Res.trap f.cause f.addr (BitVec.ofNat 64 f.info) (some s.active)
    let ra := BitVec.ofNat 64 (s.recAddr rec.toNat)
    let w := (s.uni wb).toNat
    match s.bufRec rec.toNat with
    | .error f => shared { f with addr := ra }
    | .ok r =>
      if rec = 0 || !r.imageOk then shared ⟨0x03, ra, 4⟩
      else if !samplerOk w then shared ⟨0x03, 0, 4⟩
      else if windowOf (BitVec.ofNat 64 r.base) ≠ .global then shared ⟨0x06, BitVec.ofNat 64 r.base, 4⟩
      else if r.base % 16 ≠ 0 then shared ⟨0x04, BitVec.ofNat 64 r.base, 0⟩
      else
        let sm := samplerOf w
        let level := fun (l : Nat) =>
          if coords = 3 then (min (max (s.vreg (wrapReg va 2) l).toInt 0) sm.levels).toNat else 0
        let sample := fun (l : Nat) => r.sample sm gather (level l) (s.vreg (wrapReg va 0) l) (s.vreg (wrapReg va 1) l)
        laneAccess (texAccess fun l => r.texelPlaces l (sample l).taps) 0 0 s fun s as =>
          let taps := fun (l : Nat) => (as.filter fun a => a.lane == l).map fun a => s.loadPlace a.place r.texelBytes
          let out := (lanesOf s.active).map fun l => (l, (List.range 4).map (r.texResult sm gather (sample l) (taps l)))
          let s' := s.lanesFrom vt.toNat 4 fun k l => (((out.find? fun p => p.1 == l).map Prod.snd).getD []).getD k 0
          .next (if r.noalloc then s' else as.foldl (fun s a => s.allocPieces a.place.pieces) s')

def execTex (vt va : BitVec 7) (wb : BitVec 6) (rec : BitVec 5) (s : State) : Outcome := texInstr false 2 vt va wb rec s
def execTexl (vt va : BitVec 7) (wb : BitVec 6) (rec : BitVec 5) (s : State) : Outcome := texInstr false 3 vt va wb rec s
def execTexg (vt va : BitVec 7) (wb : BitVec 6) (rec : BitVec 5) (s : State) : Outcome := texInstr true 2 vt va wb rec s

/-! ## PRF (R387) -/

/-- PRF: a window address does nothing, a compressed-view page traps, any other present page may be hinted; the model
acts on a translation hint by the TLB load of the walk and on no line hint. -/
def execPrf (va : BitVec 7) (wb : BitVec 6) (_kind : BitVec 2) (s : State) : Outcome :=
  laneInstr { vr := (addrRegs va wb).1, wr := (addrRegs va wb).2, purity := .all } {} s fun s =>
    let addrs := (lanesOf s.active).filterMap fun l =>
      let a := s.laneAddress va wb l
      if windowOf a = .global then some (l, a) else none
    match s.walkPages (addrs.map fun p => p.2.toNat / 4096 * 4096) with
    | .error w => .wait s w
    | .ok s =>
      match firstFault (addrs.filterMap fun p =>
          match s.translate s.coreNow s.rootNow p.2.toNat with
          | .leaf e => if e.cv then some (p.1, (⟨0x07, p.2, 0⟩ : AccessFault)) else none
          | _ => none) with
      | some (f, m) => .trap f.cause f.addr 0 (some m)
      | none => .next s

end Sys2Proof.Machine
end

