-- ==== Sys2Proof/Machine/Ray.lean ====
section
/-!
DEFINITION. Sys2Proof/Machine/Ray.lean: RAYQ, major 0x33 (R265, R277, R389, R390).
-/
namespace Sys2Proof.Machine

/-! ## Reads of a query -/

/-- Read `n` bytes of global memory at `va` for a lane: no window (R160), rows 6 to 10 of Table 9.6, then poison. -/
def State.rayRead (s : State) (va n : Nat) : Except AccessFault (List Byte) :=
  let a := BitVec.ofNat 64 va
  if windowOf a ≠ .global then .error ⟨0x06, a, 4⟩
  else match s.checkPieces a [(va, n)] false with
  | some f => .error f
  | none => if s.poisonPieces [(va, n)] false then .error ⟨0x13, a, 0⟩ else .ok (s.readPieces [(va, n)])

/-- The descriptor of R277. -/
structure RayDesc where
  structureAt : Nat
  cost : Nat
  first : Bool
  cull : Bool
  memo : Bool
  handle : Nat
  cls : Nat
  reserved : Bool

def rayDescOf (bs : List Byte) : RayDesc :=
  let x := leNat bs
  { structureAt := bitField x 63 0, cost := bitField x 95 64, first := x.testBit 96, cull := x.testBit 97
    memo := x.testBit 98, handle := bitField x 111 104, cls := bitField x 119 112, reserved := bitField x 103 99 != 0 }

/-! ## Traversal (R277) -/

structure RayHit where
  t : Word
  u : Word
  v : Word
  prim : Word
  geom : Word
  back : Bool

inductive RayStatus where
  | finished | abandoned | malformed
deriving DecidableEq

structure RayWalk where
  stack : List Word := []
  visits : Nat := 0
  best : Option RayHit := none
  tmax : Word
  /-- the pieces of memory it has read -/
  reads : List (Nat × Nat) := []

def fLt (a b : Word) : Bool := (fpRelation .fp32 1 a.toNat b.toNat).1
def fLe (a b : Word) : Bool := (fpRelation .fp32 2 a.toNat b.toNat).1
def fEq (a b : Word) : Bool := (fpRelation .fp32 0 a.toNat b.toNat).1

/-- Insert an entered child before the first that is entered later. -/
def insertEntry (e : Word × Word) : List (Word × Word) → List (Word × Word)
  | [] => [e]
  | x :: l => if fLt e.1 x.1 then e :: x :: l else x :: insertEntry e l

/-- The references of a box node's children that the ray enters within [tmin, current tmax], nearest entry first, ties by lower child index. DEDUCED (log
entry 15): every child's box is tested, whatever its reference. -/
def boxChildren (ray : List Word) (node : List Byte) : List Word :=
  let entered := (List.range 8).filterMap fun c =>
    ((Config.boxEntry ray ((List.range 6).map fun i => wordOf (node.drop (24 * c)) i)).filter fun t =>
      fLe (ray.getD 6 0) t && fLe t (ray.getD 7 0)).map fun t => (t, wordOf (node.drop (192 + 4 * c)) 0)
  (entered.foldl (fun l e => insertEntry e l) []).map (·.2)

/-- A leaf's triangle against the best hit so far. -/
def leafHit (cull : Bool) (ray : List Word) (tmin : Word) (w : RayWalk) (node : List Byte) : Option RayHit :=
  match Config.triangleHit ray ((List.range 9).map (wordOf node)) with
  | none => none
  | some (t, u, v, back) =>
    let prim := wordOf node 9
    if (cull && back) || !(fLe tmin t && fLe t w.tmax) then none
    else
      let better := match w.best with
        | none => true
        | some b => fLt t b.t || (fEq t b.t && decide (prim < b.prim))
      if better then some { t := t, u := u, v := v, prim := prim, geom := wordOf node 10, back := back } else none

/-- The traversal of one ray: `ray` holds its eight words, `e` the extent, `budget` the visit budget. DEDUCED (log entry 15): an
empty reference counts its visit when it comes off the stack, and of a node the bytes that hold its fields are read. -/
def State.rayLoop (s : State) (d : RayDesc) (ray : List Word) (e budget : Nat) :
    Nat → RayWalk → Except (AccessFault × List (Nat × Nat)) (RayStatus × RayWalk)
  | 0, w => .ok (.abandoned, w)
  | fuel + 1, w =>
    match w.stack with
    | [] => .ok (.finished, w)
    | r :: rest =>
      let w := { w with stack := rest, visits := w.visits + 1 }
      let kind := (r.extractLsb' 30 2).toNat
      let off := 64 * (r.extractLsb' 0 30).toNat
      let size := if kind = 1 then 256 else 64
      let va := (d.structureAt + off) % 2 ^ 64
      if budget < w.visits then .ok (.abandoned, w)
      else if kind = 0 then s.rayLoop d ray e budget fuel w
      else if kind = 3 || decide (e < off + size) then .ok (.malformed, w)
      else
        let n := if kind = 1 then 224 else 44
        let w := { w with reads := (va, n) :: w.reads }
        let now := ray.take 7 ++ [w.tmax]
        match s.rayRead va n with
        | .error f => .error (f, w.reads)
        | .ok node =>
          if kind = 1 then s.rayLoop d ray e budget fuel { w with stack := boxChildren now node ++ w.stack }
          else match leafHit d.cull now (ray.getD 6 0) w node with
            | none => s.rayLoop d ray e budget fuel w
            | some h =>
              let w := { w with best := some h, tmax := h.t }
              if d.first then .ok (.finished, w) else s.rayLoop d ray e budget fuel w

/-- The hit record (Table 15.3). Of a MISS the table states the status, the visits and the bits of vt + 6 that are zero (log
entry 15). -/
def rayRecord (ray : List Word) (st : RayStatus) (w : RayWalk) : List Word :=
  let visits := BitVec.ofNat 32 w.visits
  match st, w.best with
  | .abandoned, _ => [2, 0, 0, 0, 0, 0, 0, visits]
  | .malformed, _ => [3, 0, 0, 0, 0, 0, 0, visits]
  | .finished, some h => [1, h.t, h.u, h.v, h.prim, h.geom, if h.back then 1 else 0, visits]
  | .finished, none => 0 :: (List.range 5).map (Config.missField ray) ++ [Config.missField ray 5 &&& 1, visits]

/-! ## Memoisation (R265) and the lanes -/

/-- The header of a structure. -/
structure RayHeader where
  signature : Nat
  extent : Nat
  root : Word
  budget : Nat

def rayHeaderOf (bs : List Byte) : RayHeader :=
  let x := leNat bs
  let b := bitField x 255 224
  { signature := bitField x 127 0, extent := bitField x 191 128, root := BitVec.ofNat 32 (bitField x 223 192)
    budget := if b = 0 then 8192 else b }

/-- The 24 halfwords of a ray's key. -/
def rayKey (t : Tolerance) (ray : List Word) (h : RayHeader) : List (BitVec 16) :=
  (ray.flatMap fun w => halvesOf (quantF .fp32 w.toNat t.f32 t.flush) 2) ++ halvesOf h.signature 8

/-- Count a memo hit of cost `cost` in the slot, the team and the region, or a miss (R259). -/
def MemoInstance.countHit (x : MemoInstance) (cost : Nat) : MemoInstance :=
  { x with hits := x.hits + 1, saved := x.saved + BitVec.ofNat 64 cost }
def State.teamHit (s : State) (cost : Nat) : State :=
  let s := s.putTeam { s.team with memoHit := s.team.memoHit + 1 }
  let r := s.node.region
  s.setRegion r { s.regionAt r with savedWork := (s.regionAt r).savedWork + BitVec.ofNat 64 cost }
def State.teamMiss (s : State) : State := s.putTeam { s.team with memoMiss := s.team.memoMiss + 1 }
def State.setInstance (s : State) (slot : Nat) (m : MemoSlot) (x : MemoInstance) : State :=
  s.setMemoSlot s.node.region slot (some (m.setInstance s.coreNow x))

/-- The signature of the structure header at an address has been voided, and equals nothing until it is written again
(R268). -/
def State.signatureVoid (s : State) (va : Nat) : Bool := s.voidAt (s.phys va)

/-- One lane's query: the pieces it reads, and its record and the state, or its fault. DEDUCED (log entry 15): POLICY keeps no
record of RAYQ from being inserted, and of the header the 32 bytes of its fields are read. DESIGN CHOICE (log entry 15): a lane whose
header's signature is voided misses and inserts nothing, while one in a region without a key misses and inserts. -/
def State.rayLane (s : State) (d : RayDesc) (ray : List Word) :
    List (Nat × Nat) × Except AccessFault (List Word × State) :=
  let hp := [(d.structureAt, 32)]
  match s.rayRead d.structureAt 32 with
  | .error f => (hp, .error f)
  | .ok hb =>
    let h := rayHeaderOf hb
    let traverse := s.rayLoop d ray h.extent h.budget (h.budget + 2)
      { stack := [h.root], tmax := ray.getD 7 0, reads := hp }
    let slot := if d.memo then s.boundSlot s.node d.handle else none
    match slot.bind fun i => (s.memoSlot s.node.region i).map fun m => (i, m) with
    | none =>
      match traverse with
      | .error (f, p) => (p, .error f)
      | .ok (st, w) => (w.reads, .ok (rayRecord ray st w, s))
    | some (i, m) =>
      let key := rayKey (s.node.image.tol d.cls) ray h
      let refused := memoDetRefuses s.node.det d.cls m || s.signatureVoid d.structureAt
      let found := if refused || (s.keyOf s.node.region).isNone then (none, m.instanceAt s.coreNow)
        else m.lookup (m.instanceAt s.coreNow) key
      match found with
      | (some out, x) =>
        (hp, .ok ((List.range 8).map (wordOf out), (s.setInstance i m (x.countHit d.cost)).teamHit d.cost))
      | (none, x) =>
        match traverse with
        | .error (f, p) => (p, .error f)
        | .ok (st, w) =>
          let rec8 := rayRecord ray st w
          let x := { x with misses := x.misses + 1 }
          let x := if refused || st != .finished then x else m.insert x key (rec8.flatMap fun r => natLe 4 r.toNat)
          (w.reads, .ok (rec8, (s.setInstance i m x).teamMiss))

/-- The active lanes in increasing order: pieces read, records, faults, and the state. -/
def State.rayLanes (s : State) (d : RayDesc) (va : BitVec 7) :
    List Nat → List (Nat × Nat) × List (Nat × List Word) × List (Nat × AccessFault) × State
  | [] => ([], [], [], s)
  | l :: ls =>
    let (ps, r) := s.rayLane d ((List.range 8).map fun i => s.vreg (wrapReg va i) l)
    match r with
    | .error f =>
      let (ps', rs, fs, s') := s.rayLanes d va ls
      (ps ++ ps', rs, (l, f) :: fs, s')
    | .ok (rec8, s1) =>
      let (ps', rs, fs, s') := s1.rayLanes d va ls
      (ps ++ ps', (l, rec8) :: rs, fs, s')

/-- The shared checks of Table 21.4 on the descriptor. -/
def State.rayShared (s : State) (d : RayDesc) : Option AccessFault :=
  let a := BitVec.ofNat 64 d.structureAt
  if windowOf a ≠ .global then some ⟨0x06, a, 4⟩
  else if d.structureAt % 64 ≠ 0 then some ⟨0x04, a, 0⟩
  else if d.reserved then some ⟨0x03, 0, 4⟩
  else if d.memo then
    match (s.boundSlot s.node d.handle).bind (s.memoSlot s.node.region) with
    | some m => if m.keyb = 48 && m.outb = 32 then none else some ⟨0x03, 0, 4⟩
    | none => some ⟨0x03, 0, 4⟩
  else none

def execRayq (vt va : BitVec 7) (wb : BitVec 6) (desc : BitVec 5) (s : State) : Outcome :=
  laneInstr { vr := (List.range 8).map (wrapReg va), wr := [wb], vw := regsFrom vt.toNat 8, purity := .all } {} s fun s =>
    let shared := fun (f : AccessFault) => Res.trap f.cause f.addr (BitVec.ofNat 64 f.info) (some s.active)
    let da := s.uni wb + BitVec.ofNat 64 (64 * desc.toNat)
    if windowOf da ≠ .global then shared ⟨0x06, da, 4⟩
    else if da.toNat % 64 ≠ 0 then shared ⟨0x04, da, 0⟩
    else match s.walkPages (pagesOf [(da.toNat, 16)]) with
      | .error w => .wait s w
      | .ok s0 =>
        match s0.rayRead da.toNat 16 with
        | .error f => shared f
        | .ok bs =>
          let d := rayDescOf bs
          match s0.rayShared d with
          | some f => shared f
          | none =>
            match s0.walkPages (pagesOf (s0.rayLanes d va (lanesOf s.active)).1) with
            | .error w => .wait s w
            | .ok s1 =>
              let (reads, recs, faults, s2) := s1.rayLanes d va (lanesOf s.active)
              match firstOfAll faults with
              | some (f, m) => .trap f.cause f.addr (BitVec.ofNat 64 f.info) (some m)
              | none =>
                .next ((s2.lanesFrom vt.toNat 8 fun k l =>
                  (((recs.find? fun p => p.1 == l).map Prod.snd).getD []).getD k 0).allocPieces ((da.toNat, 16) :: reads))

end Sys2Proof.Machine
end

