-- ==== Sys2Proof/Machine/Memo.lean ====
section
/-!
DEFINITION. Sys2Proof/Machine/Memo.lean: pure regions and the memoisation instructions, group-space majors 0x28 to 0x2E
(R252 to R263, R368, R371 to R374, R376, R380).
-/
namespace Sys2Proof.Machine

/-! ## Regions and units (R253, R254) -/

/-- What a memoisation instruction names: it makes its own checks, and in trap mode it is a double fault. -/
def shapeMemo : Shape := { purity := .own, inTrap := .memo }

/-- The image's declaration of a handle. -/
def Image.memoDecl (i : Image) (h : Nat) : Option MemoDecl := i.memo.find? fun d => d.handle == h

/-- The declaration of a handle, and the slot it is bound to; cause 0x08, TINFO 8 where it is not declared. -/
def State.withHandle (s : State) (h : Nat) (k : MemoDecl → Nat → MemoSlot → Res) : Res :=
  match s.node.image.memoDecl h, s.boundSlot s.node h with
  | some d, some i =>
    match s.memoSlot s.node.region i with
    | some m => k d i m
    | none => .trap 0x08 0 8
  | _, _ => .trap 0x08 0 8

/-- The units of a mask, each with its lanes. -/
def unitsOf (gran : BitVec 2) (m : LaneMask) : List (Nat × LaneMask) :=
  match gran.toNat with
  | 0 => (lanesOf m).map fun l => (l, BitVec.twoPow 64 l)
  | 1 => ((List.range 16).map fun q => (q, m &&& ((15 : LaneMask) <<< (4 * q)))).filter fun u => u.2 != 0
  | _ => [(0, m)]

/-- The unit of a lane. -/
def unitOf (gran : BitVec 2) (l : Nat) : Nat :=
  match gran.toNat with
  | 0 => l
  | 1 => l / 4
  | _ => 0

/-- A quad with some but not all of its lanes is partial. -/
def partialUnit (gran : BitVec 2) (u : Nat × LaneMask) : Bool := gran == 1 && u.2 != (15 : LaneMask) <<< (4 * u.1)

def PureRegion.key (r : PureRegion) (u : Nat) : UnitKey := mapGet {} r.keys u
def PureRegion.setKey (r : PureRegion) (u : Nat) (k : UnitKey) : PureRegion := { r with keys := mapSet {} r.keys u k }
def PureRegion.append (r : PureRegion) (u : Nat) (hs : List (BitVec 16)) : PureRegion :=
  r.setKey u { r.key u with halves := (r.key u).halves ++ hs }

def State.putRegion (s : State) (r : PureRegion) : State := s.putPath { s.path with region := some r }

/-- The path's region closes, and a sibling that waits for it goes on (R253). -/
def State.endRegion (s : State) (m : LaneMask) : State :=
  let s := s.putPath { s.path with region := none, mask := m }
  let b := !s.focus.slot
  match s.group.slot b with
  | some p => if p.wait = some .siblingRegion then s.putGroup (s.group.setSlot b (some { p with wait := none })) else s
  | none => s

/-- The open region before its MLOOK: TINFO 5 with no region, TINFO 2 after MLOOK (R255). -/
def State.keying (s : State) (k : PureRegion → Res) : Res :=
  match s.path.region with
  | none => .trap 0x08 0 5
  | some r => if r.looked then .trap 0x08 0 2 else k r

def execMbegin (wa g : BitVec 6) (c : BitVec 3) (h : BitVec 4) (s : State) : Outcome :=
  groupInstr shapeMemo 1 s fun s =>
    if s.path.region.isSome then .trap 0x08 0 5
    else s.withHandle h.toNat fun _ _ _ =>
      if ((s.group.slot (!s.focus.slot)).bind (·.region)).isSome then .wait s .siblingRegion
      else .next (s.putRegion { handle := h, cls := c, gran := g.setWidth 2, cost := (s.uni wa).setWidth 32 })

/-! ## Keys (R255, R373) -/

/-- The halfwords a register value adds under a form and a tolerance class. -/
def keyHalves (t : Tolerance) (form : Nat) (x : Word) : List (BitVec 16) :=
  let lo := x.toNat % 65536
  let hi := x.toNat / 65536
  match form with
  | 0 => halvesOf (quantI 32 x.toNat t.int) 2
  | 1 => halvesOf (quantF .fp32 x.toNat t.f32 t.flush) 2
  | 2 => [BitVec.ofNat 16 (quantF .fp16 lo t.f16 t.flush), BitVec.ofNat 16 (quantF .fp16 hi t.f16 t.flush)]
  | 3 => [BitVec.ofNat 16 (quantF .fp16 lo t.f16 t.flush)]
  | _ => [BitVec.ofNat 16 (quantI 16 lo t.int)]

def State.tolerance (s : State) (r : PureRegion) : Tolerance := s.node.image.tol r.cls.toNat

/-- Append the halfwords of every lane of M to the key of its unit; lane and quad regions only (Table 14.4). -/
def State.keyLanes (s : State) (r : PureRegion) (f : Nat → List (BitVec 16)) (k : PureRegion → PureRegion) : Res :=
  if 2 ≤ r.gran.toNat then .trap 0x08 0 7
  else .next (s.putRegion (k ((lanesOf s.path.mask).foldl (fun r l => r.append (unitOf r.gran l) (f l)) r)))

def execMkey (v : BitVec 7) (t : BitVec 5) (s : State) : Outcome :=
  groupInstr shapeMemo 1 s fun s => s.keying fun r =>
    s.keyLanes r (fun l => keyHalves (s.tolerance r) t.toNat (s.lane v l)) fun r => { r with keyed := r.keyed.addV v.toNat }

def execMkeyPredicate (pd : BitVec 3) (s : State) : Outcome :=
  groupInstr shapeMemo 1 s fun s => s.keying fun r =>
    s.keyLanes r (fun l => [if (s.pred pd).getLsbD l then 1 else 0]) fun r => { r with keyed := r.keyed.addP pd }

def execMkeyUniform (w : BitVec 6) (s : State) : Outcome :=
  groupInstr shapeMemo 1 s fun s => s.keying fun r =>
    let hs := halvesOf (quantI 64 (s.uni w).toNat (s.tolerance r).int) 4
    let r := (unitsOf r.gran s.path.mask).foldl (fun r u => r.append u.1 hs) r
    .next (s.putRegion { r with keyed := r.keyed.addW w })

/-- The element size of an MKEYT code. -/
def tileElem (f : Nat) : Nat := if f = 0 then 1 else if f = 2 then 2 else 4

/-- The bytes of one element, quantised. -/
def tileQuant (t : Tolerance) (f : Nat) (bs : List Byte) : List Byte :=
  let x := leNat bs
  natLe (tileElem f)
    (match f with
     | 0 => x
     | 1 => quantF .fp32 x t.f32 t.flush
     | 2 => quantF .fp16 x t.f16 t.flush
     | _ => quantI 32 x t.int)

/-- The team-tile message of Table 14.2. -/
def tileMessage (t : Tolerance) (f : Nat) (bs : List Byte) : List Byte :=
  let n := tileElem f
  0x40 :: BitVec.ofNat 8 f :: (List.range (bs.length / n)).flatMap fun i => tileQuant t f ((bs.drop (n * i)).take n)

/-- Append a signature, or one that equals nothing where the region has no key (R255). -/
def PureRegion.appendSignature (r : PureRegion) (sig : Option (BitVec 128)) : PureRegion :=
  let x := (sig.getD 0).toNat
  let r := r.append 0 (halvesOf x 8)
  { r.setKey 0 { r.key 0 with null := (r.key 0).null || sig.isNone } with sawMkeyt := true }

/-- MKEYT. DEDUCED: the check of R256 on wa and wb stands before those of the region's state and granularity. -/
def execMkeyt (wa wb : BitVec 6) (f : BitVec 4) (s : State) : Outcome :=
  groupInstr shapeMemo 1 s fun s =>
    let o := (s.uni wa).toNat
    let n := (s.uni wb).toNat
    match s.path.region.bind (fun r => r.unkeyed { wr := [wa, wb] }) with
    | some c => .trap 0x08 (BitVec.ofNat 64 c) 1
    | none => s.keying fun r =>
      if r.gran ≠ 3 then .trap 0x08 0 7
      else if 2 ^ 18 ≤ o || n = 0 || s.spSize < o + n then .trap 0x06 (s.uni wa) 2
      else if o % 4 ≠ 0 || n % 4 ≠ 0 then .trap 0x04 (s.uni wa) 0
      else if s.interlocked s.focus.team s.acceptSeq [⟨o, n⟩] false then .wait s (.footprint [⟨o, n⟩] false)
      else
        let msg := tileMessage (s.tolerance r) f.toNat (s.team.padRead o n)
        .next (s.putRegion (r.appendSignature ((s.keyOf s.node.region).map fun k => sipHash k msg)))

/-! ## Exclusions and outputs (R255, R376, R380) -/

/-- A register joins X. -/
def mxclInstr (f : RegSet → RegSet) (s : State) : Outcome :=
  groupInstr shapeMemo 1 s fun s => s.keying fun r => .next (s.putRegion { r with excluded := f r.excluded })

def execMxcl (v : BitVec 7) (s : State) : Outcome := mxclInstr (·.addV v.toNat) s
def execMxclUniform (w : BitVec 6) (s : State) : Outcome := mxclInstr (·.addW w) s
def execMxclPredicate (pd : BitVec 3) (s : State) : Outcome := mxclInstr (·.addP pd) s

/-- A register joins the output list: uniform ones at group and tile granularity, the others at lane and quad. -/
def moutInstr (o : OutReg) (uniform : Bool) (s : State) : Outcome :=
  groupInstr shapeMemo 1 s fun s => s.keying fun r =>
    if uniform != decide (2 ≤ r.gran.toNat) then .trap 0x08 0 7
    else .next (s.putRegion { r with outputs := r.outputs ++ [o] })

def execMout (v : BitVec 7) (s : State) : Outcome := moutInstr (.vector v) false s
def execMoutUniform (w : BitVec 6) (s : State) : Outcome := moutInstr (.uniform w) true s
def execMoutPredicate (pd : BitVec 3) (s : State) : Outcome := moutInstr (.predicate pd) false s

/-- Bytes of one output for a unit of `n` lanes (Table 14.4). -/
def OutReg.bytes (n : Nat) : OutReg → Nat
  | .vector _ => 4 * n
  | .uniform _ => 8
  | .predicate _ => n

/-- Write an entry's outputs into a unit's registers, lane by lane (R259). -/
def State.writeOutputs (s : State) (m : LaneMask) (bs : List Byte) : List OutReg → State
  | [] => s
  | o :: rest =>
    let at_ := fun n l => leNat ((bs.drop (n * ((lanesOf m).findIdx (· == l)))).take n)
    let s := match o with
      | .vector v => s.writeV v.toNat m fun l => BitVec.ofNat 32 (at_ 4 l)
      | .uniform w => s.writeW w (BitVec.ofNat 64 (leNat (bs.take 8)))
      | .predicate p => s.writeP p m (maskOf fun l => m.getLsbD l && at_ 1 l % 2 == 1)
    s.writeOutputs m (bs.drop (o.bytes (popCount m))) rest

/-- The outputs of a unit as its registers hold them (R260). -/
def State.readOutputs (s : State) (m : LaneMask) (outs : List OutReg) : List Byte :=
  outs.flatMap fun o =>
    match o with
    | .vector v => (lanesOf m).flatMap fun l => natLe 4 (s.lane v l).toNat
    | .uniform w => natLe 8 (s.uni w).toNat
    | .predicate p => (lanesOf m).map fun l => if (s.pred p).getLsbD l then 1 else 0

/-! ## MLOOK and MEND (R259, R260, R374) -/

/-- A complete unit whose key or outputs are not the table's sizes. -/
def PureRegion.sizesWrong (r : PureRegion) (d : MemoDecl) (m : LaneMask) : Bool :=
  (unitsOf r.gran m).any fun u => !partialUnit r.gran u &&
    (2 * (r.key u.1).halves.length != d.keyb || (r.outputs.map (OutReg.bytes (popCount u.2))).sum != d.outb)

/-- Look one unit up. -/
def State.lookUnit (refused : Bool) (i : Nat) (x : State × PureRegion) (u : Nat × LaneMask) : State × PureRegion :=
  let (s, r) := x
  let k := r.key u.1
  match s.memoSlot s.node.region i with
  | none => x
  | some m =>
    let inst := m.instanceAt s.coreNow
    let (found, inst) := if partialUnit r.gran u || refused || k.null then (none, inst) else m.lookup inst k.halves
    match found with
    | some out =>
      let s := s.writeOutputs u.2 out r.outputs
      ((s.setInstance i m (inst.countHit r.cost.toNat)).teamHit r.cost.toNat,
        { (r.setKey u.1 { k with missed := false }) with hit := r.hit ||| u.2 })
    | none => ((s.setInstance i m { inst with misses := inst.misses + 1 }).teamMiss, r)

def execMlook (pn : BitVec 3) (disp : BitVec 22) (s : State) : Outcome :=
  groupInstr { shapeMemo with pw := [pn] } 1 s fun s =>
    match s.path.region with
    | none => .trap 0x08 0 5
    | some r =>
      if r.looked then .trap 0x08 0 5
      else s.withHandle r.handle.toNat fun d i m =>
        let mask := s.path.mask
        if r.sizesWrong d mask then .trap 0x08 0 6
        else if r.gran = 3 && !r.sawMkeyt then .trap 0x08 0 7
        else
          let r := { r with epoch := (m.instanceAt s.coreNow).epoch, units := mask, looked := true }
          let refused := memoDetRefuses s.node.det r.cls.toNat m
          let (s', r) := (unitsOf r.gran mask).foldl (State.lookUnit refused i) (s, r)
          let s' := s'.writeP pn mask r.hit
          if r.hit = mask then .goto (s'.endRegion mask) (s.target disp)
          else .next ((s'.putRegion r).putPath { s.path with mask := mask &&& ~~~r.hit, region := some r })

/-- The first declared output in neither K nor Wr, as class × 256 + number (R256). -/
def PureRegion.badOutput (r : PureRegion) : Option Nat :=
  let ok := r.keyed.union r.written
  r.outputs.findSome? fun o =>
    match o with
    | .vector v => if ok.hasV v.toNat then none else some v.toNat
    | .uniform w => if w = 0 || ok.hasW w then none else some (256 + w.toNat)
    | .predicate p => if ok.hasP p then none else some (512 + p.toNat)

/-- Insert one unit that missed. -/
def State.insertUnit (r : PureRegion) (i : Nat) (s : State) (u : Nat × LaneMask) : State :=
  match s.memoSlot s.node.region i with
  | none => s
  | some m =>
    let k := r.key u.1
    if partialUnit r.gran u || !k.missed || k.null then s
    else s.setInstance i m (m.insert (m.instanceAt s.coreNow) k.halves (s.readOutputs u.2 r.outputs))

def execMend (s : State) : Outcome :=
  groupInstr shapeMemo 1 s fun s =>
    match s.path.region with
    | none => .trap 0x08 0 5
    | some r =>
      if !r.looked then .trap 0x08 0 5
      else match r.badOutput with
        | some c => .trap 0x08 (BitVec.ofNat 64 c) 1
        | none => s.withHandle r.handle.toNat fun d i m =>
          let inserts := d.policy == 0 && (m.instanceAt s.coreNow).epoch == r.epoch
            && !memoDetRefuses s.node.det r.cls.toNat m
          let s' := if inserts then (unitsOf r.gran r.units).foldl (State.insertUnit r i) s else s
          .next (s'.endRegion (s.path.mask ||| r.hit))

/-! ## MINV, MGEN and MSTAT (R250, R261) -/

/-- The G of a system-cache slot stands in SSTATUS[31:16] (Table 17.5). -/
def State.publishGen (s : State) (region slot : Nat) : State :=
  match s.memoSlot region slot with
  | some m => if m.home = 1 then s.writePhys ((s.regionAt region).memotab + 32 * slot + 10) 2 (m.instanceAt 0).gen.toNat else s
  | none => s

/-- MINV, or MGEN with its destination, on every instance of a slot; `core` is the one whose G MGEN reads. -/
def State.actAll (s : State) (region slot : Nat) (advance : Bool) : State :=
  (s.memoAll region slot (if advance then MemoInstance.advance else MemoInstance.invalidate)).publishGen region slot

/-- G of the instance of slot `slot` that a core uses. -/
def State.memoGen (s : State) (region slot core : Nat) : DWord :=
  match s.memoSlot region slot with
  | some m => (m.instanceAt core).gen.setWidth 64
  | none => 0

def execMinv (h : BitVec 4) (s : State) : Outcome :=
  groupInstr { shapeMemo with purity := .never } 1 s fun s => s.withHandle h.toNat fun _ i m =>
    if m.home = 0 then .wait s (.memo i none) else .next (s.actAll s.node.region i false)

def execMgen (wd : BitVec 6) (h : BitVec 4) (s : State) : Outcome :=
  groupInstr { shapeMemo with purity := .never, ww := [wd] } 1 s fun s => s.withHandle h.toNat fun _ i m =>
    if m.home = 0 then .wait s (.memo i (some wd))
    else
      let s := s.actAll s.node.region i true
      .next (s.writeW wd (s.memoGen s.node.region i s.coreNow))

/-- MSTAT's counters. -/
def MemoInstance.counter (x : MemoInstance) (k : Nat) : DWord :=
  match k with
  | 0 => x.hits
  | 1 => x.misses
  | 2 => x.inserts
  | 3 => x.evictions
  | 4 => x.collisions
  | 5 => x.gen.setWidth 64
  | _ => x.saved

def execMstat (wd k : BitVec 6) (h : BitVec 4) (s : State) : Outcome :=
  groupInstr { shapeMemo with purity := .never, ww := [wd] } 1 s fun s => s.withHandle h.toNat fun _ _ m =>
    .next (s.writeW wd ((m.instanceAt s.coreNow).counter k.toNat))

/-- MEMO_INSTANCES_ACTED: every instance has carried out a waiting MINV or MGEN, and its path goes on. -/
def execMemoInstancesActed (team group : Nat) (slot : Bool) (s : State) : Outcome :=
  let t := s.teamAt team
  let region := (s.nodeAt t.node).region
  match ((s.groupAt team group).slot slot).bind (·.wait) with
  | some (.memo i advance) =>
    if t.status ≠ .resident then .next s
    else
      let s := s.actAll region i advance.isSome
      .next (s.finishWait team group slot fun g =>
        match advance with
        | some wd => g.wset (s.variantOf t) wd (s.memoGen region i t.core)
        | none => g)
  | _ => .next s

end Sys2Proof.Machine
end

