-- ==== Sys2Proof/Machine/Mesh.lean ====
section
/-!
DEFINITION. Sys2Proof/Machine/Mesh.lean: render targets and pass records (R269 to R271), mesh output (R272, R369, R370),
binning and visibility (R273), and FOUT and DISC (R274, R275, R334, R344).
-/
namespace Sys2Proof.Machine

/-! ## Descriptors (Tables 15.1, 15.2 and 15.4) -/

def targetOf (x : Nat) : Target :=
  { base := BitVec.ofNat 64 x, pitch := BitVec.ofNat 64 (bitField x 127 64), width := bitField x 183 168
    height := bitField x 199 184, fmt := bitField x 207 200, retained := x.testBit 208
    sigBase := BitVec.ofNat 64 (bitField x 287 224), cost := bitField x 319 288 }

def targetValid (x : Nat) : Bool :=
  let t := targetOf x
  decide (1 ≤ t.width) && decide (t.width ≤ 16384) && decide (1 ≤ t.height) && decide (t.height ≤ 16384)
    && (t.fmt == 2 || t.fmt == 8 || t.fmt == 9) && (!t.retained || t.sigBase.toNat % 32 == 0)

/-- Bytes of a component. -/
def Target.comp (t : Target) : Nat := if t.fmt = 2 then 1 else if t.fmt = 9 then 2 else 4
/-- Address of component `c` of pixel (x, y) (Table 15.1). -/
def Target.at_ (t : Target) (x y c : Nat) : BitVec 64 :=
  t.base + BitVec.ofNat 64 y * t.pitch + BitVec.ofNat 64 (x * 4 * t.comp + c * t.comp)
def Target.tilesX (t : Target) : Nat := (t.width + 31) / 32
def Target.tilesY (t : Target) : Nat := (t.height + 31) / 32

/-- A pass record. -/
structure PassRec where
  arenaSize : Nat
  arena : Nat
  count : Nat
  targets : BitVec 64
  pass : Nat
deriving DecidableEq, Repr

def passRecOf (x : Nat) : PassRec :=
  { arenaSize := bitField x 319 256, arena := bitField x 255 192, count := bitField x 130 128 + 1
    targets := BitVec.ofNat 64 (bitField x 127 64), pass := bitField x 47 0 }
def passRecValid (x : Nat) : Bool :=
  bitField x 319 256 % 4096 == 0 && bitField x 255 192 % 4096 == 0 && bitField x 127 64 % 64 == 0

/-- The pass that a region's record names now. -/
def State.namedPass (s : State) (region : Nat) (record : BitVec 64) : Option Pass :=
  s.passes.find? fun p => p.region == region && p.record == record
/-- The pass of a mesh or fragment node, while it lasts (R271). -/
def State.passOf (s : State) (n : Node) : Option Pass := n.pass.bind fun k => s.passes.find? (·.opener == k)
def State.setPass (s : State) (n : Node) (f : Pass → Pass) : State :=
  { s with passes := s.passes.map fun p => if n.pass == some p.opener then f p else p }

/-! ## MDECL and MEMIT (R272) -/

/-- MDECL. DESIGN CHOICE (log entry 36): TADDR of the trap with cause 0x06 is OFF. -/
def execMdecl (wa wb : BitVec 6) (t : BitVec 1) (s : State) : Outcome :=
  groupInstr (shapeTeam [] [wa, wb] []) 1 s fun s =>
    let off := (s.uni wa).toNat
    let c := s.uni wb
    let v := (c.extractLsb' 0 16).toNat
    let p := (c.extractLsb' 16 16).toNat
    if s.node.kind ≠ 1 then .trap 0x03 0 12
    else if off % 16 ≠ 0 then .trap 0x04 (s.uni wa) 0
    else if 256 < v || 512 < p || c.extractLsb' 32 32 ≠ 0 then .trap 0x03 0 10
    else if s.spSize < off + v * s.node.vstride + 4 * p then .trap 0x06 (s.uni wa) 2
    else .next (s.putTeam { s.team with decl := some { off := off, verts := v, prims := p, trapOnFlag := t = 1 } })

/-- The commit of one declared primitive: what MEMIT passes on, or the flag of a bad index. -/
def State.meshPrim (s : State) (d : MeshDecl) (nv p : Nat) : Option MeshPrim × Bool :=
  let n := s.node
  let b := s.team.padRead (d.off + d.verts * n.vstride + 4 * p) 4
  let ix := fun i => (b.getD i 0).toNat
  let vert := fun i => BitVec.ofNat 128 (leNat (s.team.padRead (d.off + ix i * n.vstride) 16))
  if (b.getD 3 0).getLsbD 0 then (none, false)
  else if nv ≤ ix 0 || nv ≤ ix 1 || nv ≤ ix 2 then (none, true)
  else (some { node := s.team.node, team := s.focus.team, job := s.ticks, draw := n.draw
               key := BitVec.ofNat 32 (s.teamIx s.team % 2 ^ 23 * 512 + p)
               v0 := vert 0, v1 := vert 1, v2 := vert 2 }, false)

def execMemit (wa : BitVec 6) (s : State) : Outcome :=
  groupInstr (shapeTeam [] [wa] []) 1 s fun s =>
    match (if s.node.kind = 1 then s.team.decl else none) with
    | none => .trap 0x03 0 12
    | some d =>
      let c := s.uni wa
      let v := (c.extractLsb' 0 16).toNat
      let p := (c.extractLsb' 16 16).toNat
      let window := [Span.mk d.off (d.verts * s.node.vstride + 4 * d.prims)]
      if c.extractLsb' 32 32 ≠ 0 then .trap 0x03 0 10
      else if s.interlocked s.focus.team s.acceptSeq window false then .wait s (.footprint window false)
      else
        let found := (List.range (min p d.prims)).map (s.meshPrim d (min v d.verts))
        let flags : BitVec 16 := (if d.prims < p then 1 else 0) ||| (if d.verts < v then 2 else 0)
          ||| (if found.any (·.2) then 4 else 0)
        let k := s.clusterAt (s.coreNow / 8)
        let s := s.setCluster (s.coreNow / 8) { k with binQ := k.binQ ++ found.filterMap (·.1) }
        let s := s.putTeam { s.team with decl := none, meshFlags := s.team.meshFlags ||| flags }
        if d.trapOnFlag && flags != 0 then .nextTrap s 0x03 11 else .next s

/-! ## Screen placement (R273) -/

/-- n / d rounded to nearest, ties to even. -/
def rneDiv (n : Int) (d : Nat) : Int :=
  let q := n / d
  let r := 2 * (n % d)
  if decide ((d : Int) < r) || (decide (r = d) && decide (q % 2 = 1)) then q + 1 else q

/-- A quotient of FP32 values rounded to FP32. -/
def fpQuotient (z w : FVal) : Word :=
  match z, w with
  | .num a m e, .num b n k =>
    if n = 0 then BitVec.ofNat 32 Fmt.fp32.nan
    else
      let shift := 40 + n.log2
      let q := m * 2 ^ shift
      BitVec.ofNat 32 (roundNum .fp32 .rne (a != b) (q / n) (e - k - shift) (decide (q % n ≠ 0))).1
  | _, _ => BitVec.ofNat 32 Fmt.fp32.nan

/-- A clip-space coordinate. -/
def clipCoord (v : BitVec 128) (i : Nat) : Word := v.extractLsb' (32 * i) 32

/-- The finite coordinates of a vertex with w above 0, as integers over one power of two. -/
def clipInts (v : BitVec 128) : Option (Int × Int × Nat) :=
  let val := fun i => Fmt.fp32.value (clipCoord v i).toNat
  match val 0, val 1, val 2, val 3 with
  | .num a m e, .num b n k, .num _ _ _, .num false w j =>
    if w = 0 then none
    else
      let q := min e (min k j)
      some (scaled a m e q, scaled b n k q, (scaled false w j q).toNat)
  | _, _, _, _ => none

/-- A vertex on screen; none for w ≤ 0 or a coordinate that is not finite. -/
def placeVertex (width height : Nat) (v : BitVec 128) : Option ScreenVertex :=
  (clipInts v).map fun (x, y, w) =>
    { x := rneDiv ((x + w) * (width * 128 : Nat)) w, y := rneDiv ((w - y) * (height * 128 : Nat)) w
      z := fpQuotient (Fmt.fp32.value (clipCoord v 2).toNat) (Fmt.fp32.value (clipCoord v 3).toNat)
      cx := clipCoord v 0, cy := clipCoord v 1, cz := clipCoord v 2, cw := clipCoord v 3 }

/-- Twice the signed area: positive for a triangle that is clockwise on screen, y downward. -/
def area2 (a b c : ScreenVertex) : Int := (b.x - a.x) * (c.y - a.y) - (c.x - a.x) * (b.y - a.y)

/-- A point stands inside an edge of a clockwise triangle, or on a top or left one. -/
def insideEdge (p q : ScreenVertex) (x y : Int) : Bool :=
  let e := (q.x - p.x) * (y - p.y) - (q.y - p.y) * (x - p.x)
  decide (0 < e) || (decide (e = 0) && (decide (q.y < p.y) || (decide (q.y = p.y) && decide (p.x < q.x))))

/-- The pixel's centre is covered. -/
def covers (a b c : ScreenVertex) (px py : Nat) : Bool :=
  let x : Int := 256 * px + 128
  let y : Int := 256 * py + 128
  if 0 < area2 a b c then insideEdge a b x y && insideEdge b c x y && insideEdge c a x y
  else insideEdge a c x y && insideEdge c b x y && insideEdge b a x y

/-- The pixels of a tile that lie in the target. -/
def tilePixels (width height tx ty : Nat) : List (Nat × Nat) :=
  ((List.range 1024).map fun i => (32 * tx + i % 32, 32 * ty + i / 32)).filter fun p =>
    decide (p.1 < width) && decide (p.2 < height)

/-- The tiles in which a triangle covers a pixel. -/
def coveredTiles (width height : Nat) (a b c : ScreenVertex) : List (Nat × Nat) :=
  let lo := fun (u v w : Int) => (max 0 (min u (min v w) / 8192)).toNat
  let hi := fun (u v w : Int) (n : Nat) => min n ((max u (max v w) / 8192 + 1).toNat)
  let xs := (List.range (hi a.x b.x c.x ((width + 31) / 32))).filter fun t => decide (lo a.x b.x c.x ≤ t)
  let ys := (List.range (hi a.y b.y c.y ((height + 31) / 32))).filter fun t => decide (lo a.y b.y c.y ≤ t)
  (ys.flatMap fun y => xs.map fun x => (x, y)).filter fun t =>
    (tilePixels width height t.1 t.2).any fun p => covers a b c p.1 p.2

/-- CULL of a draw record and zero area (R270, R272). -/
def culled (cull : Nat) (a b c : ScreenVertex) : Bool :=
  let d := area2 a b c
  d == 0 || (cull == 1 && decide (0 < d)) || (cull == 2 && decide (d < 0))

/-! ## BINNING_JOB -/

/-- Room the arena needs beside a list of binned primitives (R271). -/
def arenaNeed (t : Target) (prims : List BinnedPrim) : Nat :=
  4096 + 32 * (t.tilesX * t.tilesY) + 8 * (prims.map fun p => p.tiles.length).sum

/-- Bin one primitive into its pass, which takes none once it has closed; a write that would not fit fails the mesh node
(R271). The bytes it takes of the arena are free values; where one of them fails a check of R450 the primitive is not binned and
the fault is entered (log entry 36). DESIGN CHOICE (log entry 36): software that touches the arena meanwhile does not disturb the
binning. -/
def State.binPrim (s : State) (p : MeshPrim) : State :=
  let n := s.nodeAt p.node
  match s.passOf n with
  | none => s
  | some pass =>
    if pass.closed then s
    else
    let t := pass.targets.headD { base := 0, pitch := 0, width := 0, height := 0, fmt := 0, retained := false, sigBase := 0, cost := 0 }
    match placeVertex t.width t.height p.v0, placeVertex t.width t.height p.v1, placeVertex t.width t.height p.v2 with
    | some a, some b, some c =>
      if culled n.cull a b c then s
      else
        let q : BinnedPrim := { node := p.node, key := p.key, draw := p.draw, a := a, b := b, c := c
                                tiles := coveredTiles t.width t.height a b c }
        if pass.arenaSize < arenaNeed t (q :: pass.prims) then s.setNode p.node { n with failing := some 0x08 }
        else
          let (bs, s) := s.freeBytes q.tiles.length
          match s.deviceWrite (s.nodeRoot p.node) (pass.arena + arenaNeed t pass.prims) bs with
          | .error f => s.nodeFault p.node f
          | .ok s => s.setPass n fun x => { x with prims := x.prims ++ [q] }
    | _, _, _ => s

/-- A pre-emption suspends the jobs of a team that is halted or saved (R86). -/
def State.binHalted (s : State) (p : MeshPrim) : Bool :=
  (s.teamAt p.team).status = .halted || (s.teamAt p.team).status = .saved

/-- Priority of a node's region. -/
def State.nodePrio (s : State) (i : Nat) : Nat := (s.regionAt (s.nodeAt i).region).prio

/-- The primitive that a cluster's binning unit takes next (R18): of the job it is at, else of the first job to arrive of the
highest priority. -/
def State.binHead (s : State) (cluster : Nat) : Option MeshPrim :=
  let k := s.clusterAt cluster
  let q := k.binQ.filter fun p => !s.binHalted p
  match q.find? fun p => k.binJob == some p.job with
  | some p => some p
  | none => q.foldl (fun b p => match b with
    | none => some p
    | some o => if s.nodePrio o.node < s.nodePrio p.node then some p else b) none

/-- BINNING_JOB: the cluster's binning unit bins one committed primitive. A node that fails bins nothing further. -/
def execBinningJob (cluster : Nat) (s : State) : Outcome :=
  match s.binHead cluster with
  | none => .next s
  | some p =>
    let k := s.clusterAt cluster
    let s := s.setCluster cluster { k with binQ := k.binQ.erase p, binJob := some p.job }
    .next (if (s.nodeAt p.node).failing.isSome || (s.nodeAt p.node).state != .running then s else s.binPrim p)

/-! ## Visibility (R273) -/

/-- A primitive of lower draw number, team index and primitive number. -/
def BinnedPrim.keyBelow (p q : BinnedPrim) : Bool :=
  decide (p.draw < q.draw) || (p.draw == q.draw && decide (p.key < q.key))

/-- The depth of a primitive at a pixel. -/
def BinnedPrim.depth (p : BinnedPrim) (x y : Nat) : Word :=
  Config.planeDepth [(p.a.x, p.a.y, p.a.z), (p.b.x, p.b.y, p.b.z), (p.c.x, p.c.y, p.c.z)] x y

/-- The visible primitive of a pixel, with its depth. -/
def visible (prims : List BinnedPrim) (x y : Nat) : Option (Word × BinnedPrim) :=
  prims.foldl (fun best p =>
    if covers p.a p.b p.c x y then
      let d := p.depth x y
      match best with
      | none => if fLt d 0x7F800000 then some (d, p) else none
      | some (e, q) => if fLt d e || (fEq d e && p.keyBelow q) then some (d, p) else best
    else best) none

/-! ## FOUT and DISC (R275) -/

/-- Slices of a tile for a group count (R274). -/
def slices (groups : Nat) : Nat := 1024 / (groups * Config.width)

/-- The pixel of team lane index `t` of slice `k` of a tile (R274). -/
def pixelOf (slices tx ty k t : Nat) : Nat × Nat :=
  let q := t / 4
  (32 * tx + 2 * (q % 16) + t % 2, 32 * ty + 32 / slices * k + 2 * (q / 16) + t / 2 % 2)

/-- The pixel that a lane of the executing group shades. -/
def State.lanePixel (s : State) (l : Nat) : Nat × Nat :=
  let t := s.team
  pixelOf (slices s.variant.groups) t.x t.y t.z (mapGet 0 s.group.homes l * Config.width + l)

/-- The bytes stored for a component (R275). DESIGN CHOICE (log entry 36): a packed FP16 component goes to an FP32 target by exact
conversion, a NaN as the canonical one, since it has no 32 bits of its own. -/
def foutBytes (fmt : Nat) (half : Bool) (x : Nat) : List Byte :=
  let v := if half then Fmt.fp16.value x else Fmt.fp32.value x
  match fmt with
  | 8 => natLe 4 (if half then (convertTo .fp32 .rne v).1 else x)
  | 9 => natLe 2 (convertTo .fp16 .rne v).1
  | _ => natLe 1 (convertInt 0 255 .rna (v.mul (intValue 255)).1).1.toNat

/-- Component `c` of a lane: FP32 in v(s + c), or packed FP16 (R275). -/
def State.foutSource (s : State) (v : BitVec 7) (half : Bool) (l c : Nat) : Nat :=
  if half then (s.vreg (v.toNat + c / 2) l).toNat / 2 ^ (16 * (c % 2)) % 65536 else (s.vreg (v.toNat + c) l).toNat

/-- FOUT (R275). DESIGN CHOICE (log entry 36): a pixel address in a window of Table 9.1 is translated as a global one,
and no alignment of a pixel address is checked. -/
def execFout (v : BitVec 7) (w : BitVec 6) (f : BitVec 5) (m : BitVec 4) (s : State) : Outcome :=
  let half := f = 1
  groupInstr (shapeTeam ((List.range (if half then 2 else 4)).map (v.toNat + ·)) [w] []) 1 s fun s =>
    let i := (s.uni w).toNat
    match (if s.node.kind = 2 then (s.passOf s.node).map (·.targets) else none) with
    | none => .trap 0x03 0 12
    | some targets =>
      match (if i < 8 then targets[i]? else none) with
      | none => .trap 0x03 0 4
      | some t =>
        let comps := (List.range 4).filter fun c => m.getLsbD c
        let place := fun l c => let p := s.lanePixel l; t.at_ p.1 p.2 c
        let early := fun (s : State) (l : Nat) =>
          if s.group.helper.getLsbD l then .ok []
          else .ok (comps.map fun c => { lane := l, addr := place l c, place := .global [((place l c).toNat, t.comp)] })
        laneAccess { early := early, bytes := t.comp, write := true, reads := false } 0 0 s fun s good =>
          .next ((good.zip ((lanesOf (s.active &&& ~~~s.group.helper)).flatMap fun l => comps.map fun c => (l, c))).foldl
            (fun s a => s.storePlace a.1.place (foutBytes t.fmt half (s.foutSource v half a.2.1 a.2.2))) s)

def execDisc (pn : BitVec 3) (s : State) : Outcome :=
  groupInstr { shapeTeam [] [] [] with pr := [pn] } 1 s fun s =>
    if s.node.kind ≠ 2 then .trap 0x03 0 12
    else .next (s.putGroup { s.group with helper := s.group.helper ||| (s.path.mask &&& s.pred pn) })

end Sys2Proof.Machine
end

