-- ==== Sys2Proof/Machine/Region.lean ====
section
/-!
DEFINITION. Sys2Proof/Machine/Region.lean: the register page (R294), the region tree and activation (R76, R295), tail
writes (R68), bandwidth credit and time budgets (R77, R78), fault-queue space (R295) and the power governor (R306).
-/
namespace Sys2Proof.Machine

/-! ## Activation (R76, R294, Table 17.2) -/

/-- A field of a region control block. -/
def State.rcbField (s : State) (rcb off n : Nat) : Nat := s.readPhys (rcb + off) n

/-- The parents of a region, itself first. -/
def State.lineage (s : State) (r : Nat) : Nat → List Nat
  | 0 => []
  | fuel + 1 => if r = 0 then [0] else r :: s.lineage (s.regionAt r).parent fuel

/-- The parents of an active region; a tree is at most 8 deep. -/
def State.ancestors (s : State) (r : Nat) : List Nat := s.lineage r 9

/-- The effective share of a region: its own, or its nearest ancestor's (R77). -/
def State.effectiveShare (s : State) (r : Nat) : Nat :=
  (((s.ancestors r).map fun x => (s.regionAt x).share).find? (· != 0)).getD 256

/-- Ranges and alignments of a block that every region keeps; its reserved fields are ignored (R6). DESIGN CHOICE (log entry 44): a
QHEAD of 2^q or more is refused, which no table checks. -/
def State.blockOk (s : State) (rcb : Nat) : Bool :=
  let f := s.rcbField rcb
  let q := f 0x14 1
  decide (4 ≤ q) && decide (q ≤ 16) && decide (f 0x10 4 < 2 ^ q) && f 8 8 % 4096 == 0
    && (f 0x38 4 == 0 || (decide (100 ≤ f 0x3C 4) && decide (f 0x3C 4 ≤ 65535)))
    && f 0x50 8 % 65536 == 0 && f 0x60 8 % 4096 == 0 && f 0xA0 8 % 32 == 0

/-- The region that a block describes, under the effective values of its parent. DESIGN CHOICE (log entry 44): the old tail of its
first tail write is the block's QHEAD (R68), and a field that is not live goes on as it was read here, whatever software writes to it
while the region is active (R295). -/
def State.regionOf (s : State) (rcb parent : Nat) : Region :=
  let f := s.rcbField rcb
  let p := s.regionAt parent
  let ctl := f 0x17 1
  { active := true, rcb := rcb, qbase := f 8 8, qhead := f 0x10 4, qtail := f 0x10 4, logq := f 0x14 1, parent := parent
    prio := min (f 0x16 1) p.prio, deadlineClass := if ctl.testBit 1 then ctl % 2 else p.deadlineClass
    isProtected := ctl.testBit 2, fdom := if f 0x18 1 = 0xFF then p.fdom else f 0x18 1, share := f 0x1A 2
    ways := BitVec.ofNat 16 (f 0x1C 2), cores := BitVec.ofNat 144 (f 0x20 18), budget := f 0x38 4, period := f 0x3C 4
    root := f 0x40 8, tvec := BitVec.ofNat 64 (f 0x48 8), save := f 0x50 8, saveSize := f 0x58 8
    priv := BitVec.ofNat 64 (f 0x60 8), privSize := f 0x68 8, fqbase := f 0x70 8, fqtail := BitVec.ofNat 32 (f 0x78 4)
    memotab := f 0xA0 8 }

/-- The rules of Table 4.4 against the parent. DESIGN CHOICE (log entry 44): a block with one of the bits 191:144 of CORES set, above the
144 of the mask, is refused. -/
def State.parentOk (s : State) (rcb num parent : Nat) : Bool :=
  let f := s.rcbField rcb
  let p := s.regionAt parent
  let x := s.regionOf rcb parent
  let siblings := ((List.range 256).filter fun r =>
    r != 0 && r != num && (s.regionAt r).active && (s.regionAt r).parent == parent).map fun r => (s.regionAt r).share
  p.active && decide ((s.ancestors parent).length < 8) && decide (f 0x16 1 ≤ 7)
    && (decide (f 0x18 1 ≤ 63) || f 0x18 1 == 0xFF) && decide (x.share ≤ 256)
    && decide (siblings.sum + x.share ≤ s.effectiveShare parent) && x.ways &&& ~~~p.ways == 0
    && x.cores &&& ~~~(p.cores &&& s.enabled) == 0 && f 0x32 6 == 0
    && (x.budget == 0 || p.budget == 0 || decide (x.budget ≤ p.budget))

/-- RSTATUS[0] of a region's block. -/
def State.setActiveBit (s : State) (rcb : Nat) (on : Bool) : State :=
  let x := s.readPhys rcb 1
  s.writePhys rcb 1 (x / 2 * 2 + on.toNat)

/-- Activate region `num` from a block, or refuse. -/
def State.activate (s : State) (num rcb : Nat) : Option State :=
  let parent := s.rcbField rcb 0x15 1
  if 256 ≤ num || num = 0 || (s.regionAt num).active || rcb % 256 ≠ 0 || !s.blockOk rcb || !s.parentOk rcb num parent then
    none
  else some ((s.setRegion num (s.regionOf rcb parent)).setActiveBit rcb true)

/-- Activate region 0 from ROOTRCB (R294): the whole device, whatever the block says of the fields it ignores. -/
def State.activateRoot (s : State) : Option State :=
  let rcb := s.rootRcb.toNat
  let fd := s.fdBase.toNat
  if rcb = 0 || rcb % 256 ≠ 0 || fd = 0 || fd % 64 ≠ 0 || !s.blockOk rcb then none
  else
    let x := { s.regionOf rcb 0 with
      parent := 0, prio := 7, deadlineClass := 0, fdom := 0, share := 256
      ways := ~~~(s.saveWays.setWidth 16), cores := s.enabled }
    some ((s.setRegion 0 x).setActiveBit rcb true)

/-! ## The register page -/

/-- A tail write to an active region (R68). -/
def State.submitTail (s : State) (r : Nat) (v : BitVec 64) : State :=
  let x := s.regionAt r
  let q := 2 ^ x.logq
  let ahead := fun t => (t + q - x.qhead) % q
  if !x.active then s
  else if q ≤ v.toNat || ahead v.toNat < ahead x.qtail then s.writePhys x.rcb 1 (s.readPhys x.rcb 1 ||| 2)
  else s.setRegion r { x with qtail := v.toNat }

/-- TAIL_WRITE: the host writes a tail register. -/
def execTailWrite (region : BitVec 8) (value : BitVec 64) (s : State) : Outcome :=
  let r := region.toNat
  let s := { s with tails := mapSet 0 s.tails r value }
  let s := if r = 0 && !(s.regionAt 0).active then s.activateRoot.getD s else s
  .next (s.submitTail r value)

/-- INTERRUPT_STATUS: written bits of one are cleared. -/
def execInterruptStatus (ones : BitVec 64) (s : State) : Outcome := .next { s with intStatus := s.intStatus &&& ~~~ones }

/-- REGISTER_WRITE: 0x0800 to 0x0818 until region 0 is active; every other offset ignores the write. -/
def execRegisterWrite (offset : BitVec 16) (value : BitVec 64) (s : State) : Outcome :=
  if (s.regionAt 0).active then .next s
  else if offset = 0x800 then .next { s with rootRcb := value }
  else if offset = 0x808 then .next { s with slotBase := value }
  else if offset = 0x810 then .next { s with saveWays := value &&& 0xFFFF }
  else if offset = 0x818 then .next { s with fdBase := value }
  else .next s

/-- What the host reads of the register page (Table 17.1). -/
def State.readRegister (s : State) (offset : Nat) : BitVec 64 :=
  match offset with
  | 0x0000 => s.enabled.extractLsb' 0 64
  | 0x0008 => s.enabled.extractLsb' 64 64
  | 0x0010 => (s.enabled.extractLsb' 128 16).setWidth 64
  | 0x0018 => BitVec.ofNat 64 s.installed
  | 0x0020 => BitVec.ofNat 64 Config.width
  | 0x0028 => s.powerLevel
  | 0x0030 => BitVec.ofNat 64 (s.alarm.toNat + 2 * (s.keys.all fun k => k.2.isNone).toNat)
  | 0x0800 => s.rootRcb
  | 0x0808 => s.slotBase
  | 0x0810 => s.saveWays
  | 0x0818 => s.fdBase
  | 0x0900 => s.intStatus
  | _ => if 0x1000 ≤ offset && offset < 0x1800 && offset % 8 = 0 then mapGet 0 s.tails ((offset - 0x1000) / 8) else 0

/-! ## Credit and budgets (R77, R78) -/

/-- Credit of a controller for one refill: share / 256 of 172.8 GB/s for 1 µs, in bytes. -/
def refillCredit (share : Nat) : Nat := 172800 * share / 256

/-- CREDIT_REFILL: a regulator refills a region's credit. A region without a share has no regulator. -/
def execCreditRefill (region controller : Nat) (s : State) : Outcome :=
  let x := s.regionAt region
  if !x.active || x.share = 0 || 16 ≤ controller then .next s
  else .next (s.setRegion region { x with credit := mapSet 0 x.credit controller (refillCredit x.share) })

/-- BUDGET_PERIOD_START: a region's time-budget period restarts. -/
def execBudgetPeriodStart (region : Nat) (s : State) : Outcome :=
  .next (s.setRegion region { s.regionAt region with budgetSpent := false })

/-- BUDGET_EXHAUSTED: a region with a budget has spent it. -/
def execBudgetExhausted (region : Nat) (s : State) : Outcome :=
  let x := s.regionAt region
  if x.active && x.budget ≠ 0 then .next (s.setRegion region { x with budgetSpent := true }) else .next s

/-- A region or one above it has spent its budget (R78). -/
def State.outOfBudget (s : State) (r : Nat) : Bool := (s.ancestors r).any fun x => (s.regionAt x).budgetSpent

/-! ## Fault-queue space (R295) -/

/-- The path of a slot that a fault routed or delivered: the interrupted one in trap mode. -/
def State.setInterrupted (s : State) (t g : Nat) (b : Bool) (p : Path) : State :=
  let x := s.groupAt t g
  s.setGroup t g <|
    match x.trap with
    | none => x.setSlot b (some p)
    | some c => { x with trap := some (if b then { c with path1 := some p } else { c with path0 := some p }) }

/-- The record of a trap of a path that is not focused. -/
def State.faultRecordOf (s : State) (t g : Nat) (i : TrapInfo) : FaultRecord :=
  let x := s.teamAt t
  { info := i, group := g, core := coreId x.core, node := (s.nodeAt x.node).addr }

/-- The slots of a region's teams, whose waits satisfy a test. -/
def State.waiters (s : State) (region : Nat) (f : Wait → Bool) : List (Nat × Nat × Bool) :=
  (s.regionTeams region).flatMap fun p =>
    ((s.slotsOf p.1).filter fun q => ((s.waitOf p.1 q.1 q.2).map f).getD false).map fun q => (p.1, q.1, q.2)

/-- Waits for a full fault queue. -/
def Wait.forQueue : Wait → Bool
  | .faultQueue .. => true
  | _ => false

/-- FAULT_QUEUE_SPACE: a waiting record is written once the host has consumed one, those of no path first. -/
def execFaultQueueSpace (region : Nat) (s : State) : Outcome :=
  let x := s.regionAt region
  if !x.active || !s.faultRoom x then .next s
  else match x.waitingRecords with
    | f :: rest => .next ((s.setRegion region { x with waitingRecords := rest }).appendRecord region f)
    | [] =>
      match s.waiters region Wait.forQueue with
      | [] => .next s
      | (t, g, b) :: _ =>
        match (s.groupAt t g).interrupted b with
        | some p =>
          (match p.wait with
           | some (.faultQueue i replay) =>
             .next ((s.setInterrupted t g b { p with wait := some (.parked x.fqtail i replay) }).appendRecord region
               (s.faultRecordOf t g i))
           | _ => .next s)
        | none => .next s

/-! ## The governor (R266, R306) -/

/-- RECOMMEND of a region (R306): max(150, level × (1 − min(f, 1) / 2)) rounded down to 5 W, with f the saved work over
cores × 1,500,000. -/
def recommend (level saved cores : Nat) : Nat :=
  let d := cores * 1500000
  max 150 (level * (2 * d - min saved d) / (2 * d)) / 5 * 5

/-- The cores of a region's mask. -/
def coreCount (m : BitVec 144) : Nat := ((List.range 144).filter fun i => m.getLsbD i).length

/-- SAVED of a created slot, summed over its instances (Table 17.5). -/
def MemoSlot.savedSum (m : MemoSlot) : BitVec 64 := (m.instances.map fun p => p.2.saved).foldl (· + ·) 0

/-- The sample of one active region. The spec gives no f for a region of no core: its RECOMMEND is a free value. -/
def State.sampleRegion (s : State) (r : Nat) : State :=
  let x := s.regionAt r
  if !x.active then s
  else
    let s := s.setRegion r { x with lastSample := x.savedWork }
    let s :=
      if x.cores = 0 then let (v, s) := s.free; s.writePhys (x.rcb + 0xB0) 8 v.toNat
      else s.writePhys (x.rcb + 0xB0) 8
        (recommend s.powerLevel.toNat (x.savedWork - x.lastSample).toNat (coreCount x.cores))
    x.slots.foldl (fun s p =>
      match p.2 with
      | some m => s.writePhys (x.memotab + 32 * p.1 + 0x10) 8 m.savedSum.toNat
      | none => s) s

/-- GOVERNOR_SAMPLE: every region is sampled, and interrupt bit 2 raised. -/
def execGovernorSample (s : State) : Outcome := .next (((List.range 256).foldl State.sampleRegion s).interrupt 2)

end Sys2Proof.Machine
end

