-- ==== Sys2Proof/Machine/Node.lean ====
section
/-!
DEFINITION. Sys2Proof/Machine/Node.lean: nodes from their records to COMPLETE or FAILED (R67 to R71, R247, R300 to R304,
R450), written-resource lists (R246, R301), hand-off slots (R304), and the closing of a pass (R264, R271, R273).
-/
namespace Sys2Proof.Machine

/-! ## State and status (Tables 4.1 and 17.3) -/

/-- COMPLETE or FAILED. -/
def Node.finished (n : Node) : Bool := n.state = .complete || n.state = .failed

def NodeState.code : NodeState → Nat
  | .submitted => 0
  | .waiting => 1
  | .ready => 2
  | .running => 3
  | .complete => 4
  | .failed => 5

/-- A node enters a state, and its NSTATUS says so. -/
def State.enter (s : State) (i : Nat) (st : NodeState) (reason : BitVec 8 := 0) : State :=
  let n := { s.nodeAt i with state := st, reason := reason }
  (s.setNode i n).writePhys n.addr 8 (st.code + 256 * reason.toNat)

/-! ## Edges at the end of a node (R71, R450) -/

/-- The physical address that the tables give a virtual one, whatever its page permits. -/
def State.walkPhys (s : State) (root : Nat) (va : BitVec 64) : Option Nat :=
  match s.walk root va.toNat with
  | .leaf e => some (e.physical va.toNat)
  | _ => none

/-- A node binds, as an in-edge, the record that address `a` of a root names: the same address of the same root, or the same
physical record. -/
def State.bindsRecord (s : State) (n : Node) (root : Nat) (a : BitVec 64) : Bool :=
  let own := (s.regionAt n.region).root
  (n.edges.take 8).any fun b => b != 0 &&
    ((own == root && b == a) || ((s.walkPhys own b).isSome && s.walkPhys own b == s.walkPhys root a))

/-- An update of an edge record that fails is entered, and every node with the record as an in-edge is to fail with
reason 0x04. -/
def State.edgeUpdateFailed (s : State) (i : Nat) (a : BitVec 64) (f : AccessFault) : State :=
  let root := s.nodeRoot i
  let s := s.nodeFault i f
  { s with nodes := s.nodes.map fun n =>
      if !n.finished && s.bindsRecord n root a then { n with failing := some (n.failing.getD 0x04) } else n }

/-- Another live node binds the same record as an out-edge (R70). -/
def State.otherProducer (s : State) (i : Nat) (a : BitVec 64) : Bool :=
  match s.edgePhys (s.nodeAt i) a with
  | none => false
  | some p => s.nodes.zipIdx.any fun q =>
      q.2 != i && !q.1.finished && (q.1.edges.drop 8).any fun b => b != 0 && s.edgePhys q.1 b == some p

/-- Set CLOSED, and PFAIL for a failed node, on one out-edge. A node rejected for binding another live producer's record
leaves that record alone. -/
def State.closeEdge (s : State) (i : Nat) (failed : Bool) (a : BitVec 64) : State :=
  if a = 0 || (failed && s.otherProducer i a) then s
  else
    let root := s.nodeRoot i
    match s.deviceNat root (a.toNat + 24) 1 with
    | .error f => s.edgeUpdateFailed i a f
    | .ok x =>
      match s.deviceWrite root (a.toNat + 24) [BitVec.ofNat 8 (x / 4 * 4 + if failed then 3 else 1)] with
      | .error f => s.edgeUpdateFailed i a f
      | .ok s => s

def State.closeEdges (s : State) (i : Nat) (failed : Bool) : State :=
  ((s.nodeAt i).edges.drop 8).foldl (fun s a => s.closeEdge i failed a) s

/-! ## Hand-off slots (R304) -/

/-- One release: the next holder, a sequence one higher, and a status. The stores on their way reach the system cache before it, so that
none of them reaches a surface that the next holder alone may write (R27). -/
def State.releaseSlot (s : State) (slot : Nat) (next : BitVec 12) (status : Nat) : State :=
  let s := s.drainAll
  let a := s.slotBase.toNat + 32 * slot
  let q := (s.readPhys (a + 16) 4 + 1) % 2 ^ 32
  s.writeBytes (a + 16) (natLe 4 q ++ natLe 2 next.toNat ++ natLe 1 status)

/-- Every release of a node; an entry that names no slot of the table releases nothing. -/
def State.releaseSlots (s : State) (i status : Nat) : State :=
  ((s.nodeAt i).releases.filter fun r => decide (r.1 < 64)).foldl (fun s r => s.releaseSlot r.1 r.2 status) s

/-- An acquire entry is met. -/
def State.acquireMet (s : State) (n : Node) (q : Nat × BitVec 32) : Bool :=
  let h := s.handSlot q.1
  h.holder == n.region && h.seq == q.2.toNat

/-! ## Written resources (R246, R269, R301) -/

/-- Write a signature to a field, or enter the fault and leave it. -/
def State.putSignature (s : State) (i : Nat) (a : BitVec 64) (bs : List Byte) : State :=
  match s.deviceWrite (s.nodeRoot i) a.toNat bs with
  | .ok s => s
  | .error f => s.nodeFault i f

/-- Write a content signature, which the device then holds as its own (R246, R268); one that is copied from a voided one is void
as well. -/
def State.putContentSignature (s : State) (i : Nat) (a : BitVec 64) (bs : List Byte) (void : Bool := false) : State :=
  match s.deviceAddr (s.nodeRoot i) a.toNat with
  | .error f => s.nodeFault i f
  | .ok p =>
    let s := s.putSignature i a bs
    { s with contentSignatures := s.contentSignatures ++ [{ region := (s.nodeAt i).region, address := p, void := void }] }

/-- A fresh unique signature of node `i`'s region; free values where the region has no key (R293, R305). -/
def State.freshSignature (s : State) (i : Nat) : List Byte × State :=
  match s.uniqueSignature (s.nodeAt i).region with
  | (some x, s) => (natLe 16 x.toNat, s)
  | (none, s) =>
    let (a, s) := s.free
    let (b, s) := s.free
    (natLe 8 a.toNat ++ natLe 8 b.toNat, s)

/-- Clear the valid bit of a signature slot. -/
def State.clearSlot (s : State) (i a : Nat) : State :=
  match s.deviceNat (s.nodeRoot i) (a + 16) 1 with
  | .error f => s.nodeFault i f
  | .ok x => if x.testBit 0 then s.putSignature i (BitVec.ofNat 64 (a + 16)) [BitVec.ofNat 8 (x - 1)] else s

/-- Clear the valid bit of every signature slot of a render target's descriptor. -/
def State.clearTarget (s : State) (i : Nat) (a : BitVec 64) : State :=
  match s.deviceNat (s.nodeRoot i) a.toNat 64 with
  | .error f => s.nodeFault i f
  | .ok x =>
    let t := targetOf x
    if t.retained then
      (List.range (t.tilesX * t.tilesY)).foldl (fun s k => s.clearSlot i (t.sigBase.toNat + 32 * k)) s
    else s

/-- One entry of the list, for a node that completes or fails. -/
def State.writtenResource (s : State) (i : Nat) (failed : Bool) (r : Resource) : State :=
  if r.rt then s.clearTarget i r.sigAddr
  else if r.sigAddr = 0 then s
  else if r.rehashed && !failed then
    match s.deviceAddr (s.nodeRoot i) r.trailer.toNat, s.deviceRead (s.nodeRoot i) r.trailer.toNat 16 with
    | .ok p, .ok bs => s.putContentSignature i r.sigAddr bs (s.voidAt p)
    | .error f, _ => s.nodeFault i f
    | _, .error f => s.nodeFault i f
  else
    let (bs, s) := s.freshSignature i
    s.putContentSignature i r.sigAddr bs

def State.writtenResources (s : State) (i : Nat) (failed : Bool) : State :=
  (s.nodeAt i).resources.foldl (fun s r => s.writtenResource i failed r) s

/-! ## Failure and completion -/

/-- No other live fragment node names the pass of a fragment node. -/
def State.solePass (s : State) (i : Nat) : Bool :=
  let n := s.nodeAt i
  s.nodes.zipIdx.all fun q => q.2 == i || q.1.finished || q.1.kind != 2 || q.1.pass != n.pass

/-- Drop the pass of a node. -/
def State.dropPass (s : State) (n : Node) : State :=
  { s with passes := s.passes.filter fun p => n.pass != some p.opener }

/-- The part of a mesh or fragment node in its pass ends with a failure. -/
def State.leavePass (s : State) (i : Nat) : State :=
  let n := s.nodeAt i
  if n.kind = 1 then s.setPass n fun p => { p with prims := p.prims.filter (·.node != i), draws := p.draws.filter (·.1 != i) }
  else if n.kind = 2 && s.solePass i then s.dropPass n
  else s

/-- Teams of node `i` that hold resources. -/
def State.nodeTeams (s : State) (i : Nat) : List Nat :=
  (List.range s.teams.length).filter fun t => (s.teamAt t).node == i && (s.teamAt t).alive

/-- A command's end: 16 result bytes and interrupt bit 1 (R302). -/
def State.endCommand (s : State) (i : Nat) (result : List Byte) : State :=
  if (s.nodeAt i).kind = 3 then (s.writeBytes ((s.nodeAt i).addr + 0x30) result).interrupt 1 else s

/-- Node `i` fails: its teams stop, its out-edges close with PFAIL, its releases are performed as failed, and its written
resources are voided (R69, R71, R301, R304). What its teams have stored has reached the system cache before a slot passes on, so
that none of it reaches a surface whose holder writes it next (R27). -/
def State.failNode (s : State) (i : Nat) (reason : BitVec 8) : State :=
  if (s.nodeAt i).finished then s
  else
    let s := s.enter i .failed reason
    let s := ((s.nodeTeams i).foldl State.stopTeam s).drainAll
    let s := (s.closeEdges i true).releaseSlots i 1
    ((s.writtenResources i true).leavePass i).endCommand i (List.replicate 16 0)

/-- Node `i` completes: its release, its written resources, its out-edges and its releases (R50, R71, R301, R304). A mesh
node whose pass has closed fails (R271); a command that has killed its own node stays failed (R79). -/
def State.completeNode (s : State) (i : Nat) (result : List Byte) : State :=
  let n := s.nodeAt i
  match n.failing with
  | some r => s.failNode i r
  | none =>
    if n.finished then s
    else if n.late then s.failNode i 0x0A
    else
      let s := (s.drainAll.writtenResources i false).enter i .complete
      let s := (s.closeEdges i false).releaseSlots i 0
      let s := if n.kind = 2 then s.dropPass n else s
      s.endCommand i result

/-! ## The record (Tables 17.3 and 17.8) -/

/-- The node that a record describes, before its checks. -/
def nodeOf (region addr : Nat) (raw : List Byte) : Node :=
  let f := fieldOf raw
  let b64 := fun o => BitVec.ofNat 64 (f o 8)
  let shape := f 0x28 4
  let flags := f 0x2C 4
  let dl := f 0x34 4
  { region := region, addr := addr, kind := flags % 4, imageAddr := b64 8, nodearg := b64 0x10, brecbase := b64 0x18
    gx := bitField (f 0x20 8) 20 0, gy := bitField (f 0x20 8) 41 21, gz := bitField (f 0x20 8) 62 42
    ex := bitField shape 3 0, ey := bitField shape 7 4, ez := bitField shape 11 8
    allowed := BitVec.ofNat 4 (bitField shape 19 16), preferred := BitVec.ofNat 2 (bitField shape 21 20)
    det := flags.testBit 8, sysScope := flags.testBit 9, idempotent := flags.testBit 10, priv := f 0x30 4
    deadlineClass := dl % 2, head := bitField dl 3 2, line := bitField dl 31 16, targetFrame := bitField dl 7 4
    passRef := b64 0x38, edges := (List.range 16).map fun e => b64 (0x40 + 8 * e)
    memo := (raw.drop 0xC0).take 16
    acquires := ((List.range 2).map fun k => f (0xD0 + 8 * k) 8).filterMap fun x =>
      if x = 0 then none else some (bitField x 7 0, BitVec.ofNat 32 (bitField x 63 32))
    releases := ((List.range 2).map fun k => f (0xE0 + 8 * k) 8).filterMap fun x =>
      if x = 0 then none else some (bitField x 7 0, BitVec.ofNat 12 (bitField x 19 8))
    opA := b64 0x10, opB := b64 0x18, opC := b64 0x20, opD := BitVec.ofNat 32 shape }

/-- The code and D of a command node are of Table 17.4. -/
def Node.knownCommand (n : Node) : Bool :=
  let c := n.imageAddr.toNat
  decide (1 ≤ c) && decide (c ≤ 12) && (c != 8 || decide (n.opD.toNat ≤ 2)) && (c != 9 || decide (n.opD.toNat ≤ 1))

/-- Reserved fields of a record are zero and its slots exist (reason 0x0B). -/
def recordReserved (raw : List Byte) : Bool :=
  let f := fieldOf raw
  let kind := f 0x2C 4 % 4
  let acq := (List.range 2).map fun k => f (0xD0 + 8 * k) 8
  let rel := (List.range 2).map fun k => f (0xE0 + 8 * k) 8
  bitField (f 0x2C 4) 7 2 == 0 && bitField (f 0x2C 4) 31 11 == 0 && f 0xF8 8 == 0
    && acq.all (fun x => bitField x 31 8 == 0 && decide (bitField x 7 0 < 64))
    && rel.all (fun x => bitField x 63 20 == 0 && decide (bitField x 7 0 < 64))
    && (kind == 3 || (!(f 0x20 8).testBit 63 && bitField (f 0x28 4) 15 12 == 0 && bitField (f 0x28 4) 31 22 == 0
      && !(f 0x34 4).testBit 1 && bitField (f 0x34 4) 15 8 == 0 && (kind != 0 || f 0x38 8 == 0)))

/-- Why a node is rejected: its reason, and the fault that found it, if one did. -/
structure NodeRejection where
  reason : BitVec 8
  fault : Option AccessFault := none

abbrev Checked (α : Type) := Except NodeRejection α

def reject (reason : Nat) (f : Option AccessFault := none) {α : Type} : Checked α :=
  .error ⟨BitVec.ofNat 8 reason, f⟩
/-- A rule that a node keeps, or fails with a reason. -/
def must (ok : Bool) (reason : Nat) : Checked Unit := if ok then .ok () else reject reason
/-- An access that fails rejects the node with a reason. -/
def readable {α : Type} (reason : Nat) (x : Except AccessFault α) : Checked α :=
  match x with
  | .ok a => .ok a
  | .error f => reject reason (some f)

/-- Read and check a written-resource list (R301). -/
def State.readResources (s : State) (root a : Nat) : Checked (List Resource) :=
  if a = 0 then .ok []
  else do
    must (a % 8 == 0) 0x0B
    let h ← readable 0x0B (s.deviceNat root a 8)
    must (decide (h ≤ 256)) 0x0B
    let bs ← readable 0x0B (s.deviceRead root (a + 8) (32 * h))
    let es := (entriesOf bs 32 h).map leNat
    must (es.all fun x =>
      let rt := x.testBit 113
      let rh := x.testBit 112
      let trailer := bitField x 255 192
      let sig := bitField x 191 128
      bitField x 127 114 == 0 && !(rt && rh) && (if rh then trailer % 16 == 0 else trailer == 0)
        && sig % (if rt then 64 else 16) == 0) 0x0B
    return es.map fun x =>
      { trailer := BitVec.ofNat 64 (bitField x 255 192), sigAddr := BitVec.ofNat 64 (bitField x 191 128)
        rt := x.testBit 113, rehashed := x.testBit 112 }

/-- The edges of a node keep R70, and no other live node produces for one it produces for. -/
def State.checkEdges (s : State) (n : Node) : Checked Unit := do
  let root := (s.regionAt n.region).root
  for (a, e) in n.edges.zipIdx do
    if a != 0 then
      let r ← readable 0x04 (s.edgeAt root a)
      must ((r.scope == 3 || r.scope == 4) && decide (r.logcap ≤ 12) && r.base % 16 == 0) 0x04
      if 8 ≤ e then
        must (!(s.nodes.any fun m => !m.finished && (m.edges.drop 8).any fun b =>
          b != 0 && (s.edgePhys m b).isSome && s.edgePhys m b == s.edgePhys n a)) 0x04

/-- Every declared handle is bound to a created slot of its geometry, and no handle to one that is not created (R247,
R296, R368). -/
def State.memoBound (s : State) (n : Node) : Bool :=
  (List.range 16).all fun h =>
    let b := (n.memo.getD h 0xFF).toNat
    let slot := if b < 64 then s.memoSlot n.region b else none
    match n.image.memoDecl h with
    | none => b == 0xFF || slot.isSome
    | some d =>
      match slot with
      | none => false
      | some m => m.logent == d.logent && m.ways == d.ways && m.keyb == d.keyb && m.outb == d.outb && m.home == d.home
          && m.wayMask == d.wayMask && m.mode == d.mode

/-- The pass record at an address, and its render targets (R269, R271): reason 0x0A. -/
def State.readPass (s : State) (root : Nat) (a : BitVec 64) : Checked (PassRec × List Target) := do
  must (a.toNat % 64 == 0) 0x0A
  let x ← readable 0x0A (s.deviceNat root a.toNat 64)
  must (passRecValid x) 0x0A
  let p := passRecOf x
  let ts ← (List.range p.count).mapM fun k => readable 0x0A (s.deviceNat root (p.targets.toNat + 64 * k) 64)
  must (ts.all targetValid) 0x0A
  let targets := ts.map targetOf
  let first := targets.headD (targetOf 0)
  must (targets.all fun t => t.width == first.width && t.height == first.height) 0x0A
  return (p, targets)

/-- A pass that a region's record names is not closed. -/
def State.passOpen (s : State) (region : Nat) (record : BitVec 64) : Bool :=
  ((s.namedPass region record).map fun p => !p.closed).getD true

/-- The draw and pass of a mesh node (R270, R271, R272). -/
def State.checkMesh (s : State) (n : Node) : Checked (Node × PassRec × List Target) := do
  let root := (s.regionAt n.region).root
  must (n.passRef.toNat % 32 == 0 && decide (n.gx * n.gy * n.gz ≤ 2 ^ 23)) 0x0A
  let x ← readable 0x0A (s.deviceNat root n.passRef.toNat 32)
  let vs := bitField x 95 80
  must (vs % 16 == 0 && decide (16 ≤ vs) && decide (vs ≤ 256)
    && bitField x 65 64 != 3) 0x0A
  let record := BitVec.ofNat 64 (bitField x 159 96)
  let (p, targets) ← s.readPass root record
  must (p.pass == bitField x 47 0 && s.passOpen n.region record) 0x0A
  return ({ n with passRecord := record, vstride := vs, cull := bitField x 65 64, draw := BitVec.ofNat 16 (bitField x 63 48)
                   drawState := natLe 12 x }, p, targets)

/-- The pass of a fragment node, and its group counts (R271, R274). -/
def State.checkFragment (s : State) (n : Node) : Checked (Node × PassRec × List Target) := do
  let gs := n.image.variants.filterMap fun p => p.2.map (·.groups)
  must (gs.all fun g => g == gs.headD 0 && (g * Config.width == 256 || g * Config.width == 512 || g * Config.width == 1024)) 0x0A
  let (p, targets) ← s.readPass (s.regionAt n.region).root n.passRef
  must (s.passOpen n.region n.passRef) 0x0A
  return ({ n with passRecord := n.passRef }, p, targets)

/-- The checks of a record (R69, R300, R303), in the order of their reasons as this model takes them: what the record
comes to, and the record and targets of its pass. -/
def State.checkNode (s : State) (n : Node) (raw : List Byte) : Checked (Node × Option (PassRec × List Target)) := do
  must (recordReserved raw) 0x0B
  must (n.kind != 3 || n.region == 0) 0x0B
  must (n.kind != 3 || n.knownCommand) 0x0C
  let root := (s.regionAt n.region).root
  let n := { n with targetFrame := (mapGet ({} : Head) s.heads n.head).fc + n.targetFrame }
  let (n, pass) ← if n.kind = 3 then pure (n, none) else do
    must (decide (1 ≤ n.gx) && decide (1 ≤ n.gy) && decide (1 ≤ n.gz) && decide (1 ≤ n.ex * n.ey * n.ez)
      && decide (n.ex * n.ey * n.ez ≤ 8) && n.gx % n.ex == 0 && n.gy % n.ey == 0 && n.gz % n.ez == 0
      && n.priv % 16 == 0 && decide (n.priv ≤ 2 ^ 20)) 0x01
    let image ← match s.readImage root n.imageAddr.toNat with
      | .ok i => pure i
      | .error (.unreadable f) => reject 0x02 (some f)
      | .error .broken => reject 0x02
    let n := { n with image := image }
    let present := fun v => (mapGet none image.variants v).isSome
    must (n.allowed.getLsbD n.preferred.toNat && (List.range 4).all fun v => !n.allowed.getLsbD v || present v) 0x03
    if n.kind = 1 then (s.checkMesh n).map fun r => (r.1, some r.2)
    else if n.kind = 2 then (s.checkFragment n).map fun r => (r.1, some r.2)
    else pure (n, none)
  s.checkEdges n
  must (n.kind == 3 || s.memoBound n) 0x09
  let rs ← s.readResources root (fieldOf raw 0xF0 8)
  return ({ n with resources := rs }, pass)

/-- A node that names a pass opens it, or joins it. -/
def State.joinPass (s : State) (i : Nat) (rec_ : PassRec) (targets : List Target) : State :=
  let n := s.nodeAt i
  let (k, s) : Nat × State := match s.namedPass n.region n.passRecord with
    | some p => (p.opener, s)
    | none => (i, { s with passes := s.passes ++ [{ opener := i, region := n.region, record := n.passRecord }] })
  let n := { n with pass := some k }
  (s.setNode i n).setPass n fun p => { p with targets := targets, arena := rec_.arena, arenaSize := rec_.arenaSize
                                              draws := if n.kind = 1 then p.draws ++ [(i, n.draw)] else p.draws }

/-! ## Readiness (R69, R71) -/

/-- The in-edge of a waiting node lets it go on; none where its record cannot be read. -/
def State.edgeReady (s : State) (n : Node) (a : BitVec 64) : Option Bool :=
  if a = 0 then some true
  else match s.edgeAt (s.regionAt n.region).root a with
    | .error _ => none
    | .ok r => some (if r.stream then r.closed || r.tokens != 0 else r.closed && !r.pfail)

/-- Every predecessor condition holds. -/
def State.conditionsMet (s : State) (n : Node) : Bool :=
  (n.edges.take 8).all (fun a => s.edgeReady n a == some true) && n.acquires.all (s.acquireMet n)

/-- An in-edge's producer has failed. -/
def State.producerFailed (s : State) (n : Node) (a : BitVec 64) : Bool :=
  a != 0 && (match s.edgeAt (s.regionAt n.region).root a with
    | .ok r => r.closed && r.pfail
    | .error _ => false)

/-- An in-edge of a node that waits cannot be read: its fault. -/
def State.edgeFaultOf (s : State) (n : Node) : Option AccessFault :=
  if n.state = .submitted || n.state = .waiting then
    (n.edges.take 8).findSome? fun a =>
      if a = 0 then none
      else match s.edgeAt (s.regionAt n.region).root a with
        | .error f => some f
        | .ok _ => none
  else none

/-- No team of a node is resident or halting. -/
def State.noneResident (s : State) (i : Nat) : Bool := s.teams.all fun t => t.node != i || !t.onCore

/-- The reason node `i` is to fail with, if it is (R69, R71, R287, R304, R450). -/
def State.failReason (s : State) (i : Nat) : Option (BitVec 8) :=
  let n := s.nodeAt i
  if n.finished || s.nodes.length ≤ i then none
  else if n.failing.isSome then n.failing
  else if (s.edgeFaultOf n).isSome then some 0x04
  else if (n.edges.take 8).any (s.producerFailed n) then some 0x05
  else if (n.state = .submitted || n.state = .waiting) &&
    n.acquires.any (fun q => s.acquireMet n q && (s.handSlot q.1).status == 1) then some 0x05
  else if n.teamKilled && s.noneResident i then some 0x07
  else none

/-- NODE_FAIL: a node that is to fail does so. -/
def execNodeFail (node : Nat) (s : State) : Outcome :=
  match s.failReason node with
  | none => .next s
  | some r =>
    let s := if (s.nodeAt node).failing.isNone && r = 0x04 then
      (match s.edgeFaultOf (s.nodeAt node) with
       | some f => s.nodeFault node f
       | none => s) else s
    .next (s.failNode node r)

/-- The ready pool is full (R67). -/
def State.poolFull (s : State) : Bool := Config.readyPool ≤ (s.nodes.filter fun n => n.state = .ready).length

/-! ## Deadlines (R81) -/

/-- Lines and picoseconds from now to a node's deadline; none for class 0, and for a head that is not scanning out. -/
def State.deadline (s : State) (i : Nat) : Option Int :=
  let n := s.nodeAt i
  let h := mapGet ({} : Head) s.heads n.head
  if n.deadlineClass = 1 && (s.regionAt n.region).deadlineClass = 1 && h.scanning then
    some ((((n.targetFrame : Int) - h.fc) * h.vt + n.line - h.ln) * h.lp)
  else none

/-- Lines left to a node's deadline (R81). -/
def State.linesLeft (s : State) (n : Node) : Int :=
  let h := mapGet ({} : Head) s.heads n.head
  ((n.targetFrame : Int) - h.fc) * h.vt + n.line - h.ln

/-- Count a node's missed deadline, once. -/
def State.noteMissed (s : State) (i : Nat) : State :=
  let n := s.nodeAt i
  if !n.finished && !n.missed && (s.deadline i).isSome && decide (s.linesLeft n < 0) then
    let a := (s.regionAt n.region).rcb + 4
    (s.setNode i { n with missed := true }).writePhys a 4 ((s.readPhys a 4 + 1) % 2 ^ 32)
  else s

/-! ## Validation -/

/-- NODE_VALIDATE: Gamelan reads and validates the next record of a region's queue. A node that it rejects acts, as it fails,
on its written-resource list where that can be read (R301). -/
def execNodeValidate (region : Nat) (s : State) : Outcome :=
  let x := s.regionAt region
  if !x.active || x.qhead = x.qtail || s.poolFull then .next s
  else
    let addr := x.qbase + 256 * x.qhead
    let raw := memRead s.mem addr 256
    let head := (x.qhead + 1) % 2 ^ x.logq
    let s := (s.setRegion region { x with qhead := head }).writePhys (x.rcb + 0x10) 4 head
    let n := nodeOf region addr raw
    let i := s.nodes.length
    match s.checkNode n raw with
    | .error r =>
      let (resources, fault) := match s.readResources x.root (fieldOf raw 0xF0 8) with
        | .ok rs => (rs, none)
        | .error e => ([], if r.reason = 0x0B && r.fault.isSome then none else e.fault)
      let n := { n with state := .submitted, resources := resources
                        pass := if n.kind = 2 then (s.namedPass region n.passRef).map (·.opener) else none }
      let s := { s with nodes := s.nodes ++ [n] }
      let s := (r.fault.toList ++ fault.toList).foldl (fun s f => s.nodeFault i f) s
      .next (s.failNode i r.reason)
    | .ok (n, pass) =>
      let s := ({ s with nodes := s.nodes ++ [n] }).enter i .submitted
      let s := match pass with
        | some (p, targets) => s.joinPass i p targets
        | none => s
      .next ((if s.conditionsMet n then s else s.enter i .waiting).noteMissed i)

/-! ## The closing of a pass (R264, R271, R273) -/

/-- The pixels of a tile in which a primitive is visible. -/
def Pass.visibleTile (p : Pass) (t : Target) (tile : Nat × Nat) : Bool :=
  (tilePixels t.width t.height tile.1 tile.2).any fun q => (visible p.prims q.1 q.2).isSome

/-- The nodes whose shaders a draw binds, in stage order: its mesh node, then the fragment node of the pass. -/
def State.drawStages (s : State) (mesh fragment : Nat) : List Node := [s.nodeAt mesh, s.nodeAt fragment]

/-- The message of a draw signature (Table 14.2): the content signatures of the images, of the constant data and of the
resources that its stages bind, then the draw-state bytes. -/
def State.drawMessage (s : State) (mesh fragment : Nat) : List Byte :=
  let l := s.drawStages mesh fragment
  let root := s.nodeRoot mesh
  let images := l.map fun n => Config.imageSignature s.mem root n.imageAddr
  let constants := Config.constantSignature s.mem root (l.map (·.imageAddr)) (l.map (·.nodearg))
  let resources := Config.resourceSignatures s.mem root (l.map (·.brecbase))
  0x10 :: ((images ++ constants :: resources).flatMap (fun x => natLe 16 x.toNat) ++ (s.nodeAt mesh).drawState)

/-- The draw signatures of the pass of a fragment node, in submission order: node and signature. -/
def State.drawSignatures (s : State) (key : BitVec 128) (fragment : Nat) (draws : List (Nat × BitVec 16)) : List (Nat × BitVec 128) :=
  draws.map fun d => (d.1, sipHash key (s.drawMessage d.1 fragment))

/-- A draw signature covers a content signature that has been voided: it equals nothing (R268). -/
def State.drawVoid (s : State) (mesh fragment : Nat) : Bool :=
  let addresses := (s.drawStages mesh fragment).flatMap fun n => [n.imageAddr, n.nodearg, n.brecbase]
  s.contentSignatures.any fun x => x.void && Config.drawCovers s.mem (s.nodeRoot mesh) addresses x.address

/-- A tile's signature for one target (Table 14.2). -/
def tileSignature (key : BitVec 128) (t : Target) (tile : Nat × Nat) (prims : List BinnedPrim) (draws : List (Nat × BitVec 128)) :
    BitVec 128 :=
  sipHash key
    (0x20 :: (natLe 8 t.base.toNat ++ natLe 1 t.fmt ++ natLe 2 tile.1 ++ natLe 2 tile.2 ++ draws.flatMap fun d =>
      let n := (prims.filter fun p => p.node == d.1 && p.tiles.contains tile).length
      if n = 0 then [] else natLe 16 d.2.toNat ++ natLe 4 n))

/-- Where a tile's signature slot stands (R269). -/
def Target.slotAt (t : Target) (tile : Nat × Nat) : Nat := t.sigBase.toNat + 32 * (tile.2 * t.tilesX + tile.1)

/-- A stored signature is valid and equal; a slot that cannot be read equals nothing, and the fault is entered. -/
def State.slotEquals (s : State) (i : Nat) (t : Target) (tile : Nat × Nat) (sig : BitVec 128) : Bool × State :=
  match s.deviceNat (s.nodeRoot i) (t.slotAt tile) 17 with
  | .error f => (false, s.nodeFault i f)
  | .ok x => (x % 2 ^ 128 == sig.toNat && x.testBit 128, s)

/-- Decide one tile: skipped where every target is retained and its stored signature is equal and not void, else shaded. -/
def State.decideTile (s : State) (i : Nat) (sigs : Option (BitVec 128 × List (Nat × BitVec 128))) (tile : Nat × Nat) : State :=
  let n := s.nodeAt i
  match s.passOf n with
  | none => s
  | some p =>
    let shade := fun (s : State) (l : List ((Nat × Nat) × Nat × BitVec 128)) =>
      s.setPass n fun p => { p with tiles := p.tiles ++ [tile], signatures := p.signatures ++ l }
    match sigs with
    | none => shade s []
    | some (key, draws) =>
      let forms := p.targets.zipIdx.filterMap fun q =>
        if q.1.retained then some (q.1, q.2, tileSignature key q.1 tile p.prims draws) else none
      let void := draws.any fun d => s.drawVoid d.1 i && p.prims.any fun x => x.node == d.1 && x.tiles.contains tile
      let (same, s) := forms.foldl (fun (b, s) q =>
        let (e, s) := s.slotEquals i q.1 tile q.2.2
        (b && e, s)) (!void, s)
      if same && forms.length == p.targets.length then
        let r := s.regionAt n.region
        s.setRegion n.region { r with savedWork := r.savedWork + BitVec.ofNat 64 (p.targets.map (·.cost)).sum }
      else shade s (forms.map fun q => (tile, q.2))

/-- The pass of fragment node `i` closes: the primitives of completed mesh nodes count, a mesh node that is still to complete is
late (R271), and each tile with a covered pixel is skipped or shaded. -/
def State.closePass (s : State) (i : Nat) : State :=
  let n := s.nodeAt i
  let done := fun (k : Nat) => (s.nodeAt k).state == .complete
  let s := s.setPass n fun p => { p with closed := true, prims := p.prims.filter fun q => done q.node
                                         draws := p.draws.filter fun d => done d.1 }
  let s : State := { s with nodes := s.nodes.map fun m =>
    if m.kind = 1 && n.pass.isSome && m.pass == n.pass && !m.finished then { m with late := true } else m }
  match s.passOf n with
  | none => s
  | some p =>
    let sigs := (s.keyOf n.region).map fun key => (key, s.drawSignatures key i p.draws)
    match p.targets with
    | [] => s
    | t :: _ =>
      let tiles := ((List.range t.tilesY).flatMap fun y => (List.range t.tilesX).map fun x => (x, y)).filter (p.visibleTile t)
      tiles.foldl (fun s tile => s.decideTile i sigs tile) s

/-- NODE_READY: a node whose conditions hold enters the ready pool. The pass of a fragment node closes, and one with no
tile to shade has no team and completes. -/
def execNodeReady (node : Nat) (s : State) : Outcome :=
  let n := s.nodeAt node
  if s.nodes.length ≤ node || !(n.state = .submitted || n.state = .waiting) || (s.failReason node).isSome
    || !s.conditionsMet n || s.poolFull then .next s
  else
    let s := s.enter node .ready
    if n.kind ≠ 2 then .next s
    else
      let s := s.closePass node
      .next (if ((s.passOf n).map fun p => p.tiles.isEmpty).getD true then s.completeNode node [] else s)

end Sys2Proof.Machine
end

