-- ==== Sys2Proof/Machine/Place.lean ====
section
/-!
DEFINITION. Sys2Proof/Machine/Place.lean: the ranking of nodes and the placing of ensembles (R34, R35, R57, R58, R80 to
R83), the start of a team (R32, R33, R156, R157, R274), and its retirement (R49, R50, R75, R84, R264).
-/
namespace Sys2Proof.Machine

/-! ## Ranking (R80, R81) -/

/-- Node `i` ranks above node `j`. -/
def State.ranksAbove (s : State) (i j : Nat) : Bool :=
  let a := s.nodeAt i
  let b := s.nodeAt j
  let p := (s.regionAt a.region).prio
  let q := (s.regionAt b.region).prio
  let tie := decide (a.region < b.region) || (a.region == b.region && decide (i < j))
  if p ≠ q then decide (q < p)
  else match s.deadline i, s.deadline j with
    | some x, some y => if x = y then tie else decide (x < y)
    | some _, none => true
    | none, some _ => false
    | none, none => tie

/-! ## The ensembles of a grid (R29, R30, R82, R83, R274) -/

/-- hilbert(n, x, y) of R83 from level `b` down. -/
def hilbertFrom (n b x y d : Nat) : Nat → Nat
  | 0 => d
  | fuel + 1 =>
    let rx := (x &&& b) != 0
    let ry := (y &&& b) != 0
    let d := d + b * b * ((3 * rx.toNat) ^^^ ry.toNat)
    let p := if ry then (x, y) else if rx then (n - 1 - y, n - 1 - x) else (y, x)
    hilbertFrom n (b / 2) p.1 p.2 d fuel

def hilbert (n x y : Nat) : Nat := hilbertFrom n (n / 2) x y 0 n.log2

/-- The least power of two that is at least `n`, and at least 1. -/
def powerFor (n : Nat) : Nat := if n ≤ 1 then 1 else 2 ^ ((n - 1).log2 + 1)

/-- Put a keyed position before the first of a larger key. -/
def insertKeyed (a : Nat × Nat × Nat) : List (Nat × Nat × Nat) → List (Nat × Nat × Nat)
  | [] => [a]
  | b :: l => if a.1 < b.1 then a :: b :: l else b :: insertKeyed a l

/-- The cells of a plane, by their place on the curve. -/
def curveCells (w h : Nat) : List (Nat × Nat) :=
  let n := powerFor (max w h)
  (((List.range (w * h)).map fun k => (hilbert n (k % w) (k / w), k % w, k / w)).foldl (fun l a => insertKeyed a l) []).map
    (·.2)

/-- Ensembles of a grid along each axis. -/
def Node.ensX (n : Node) : Nat := n.gx / n.ex
def Node.ensY (n : Node) : Nat := n.gy / n.ey
def Node.ensZ (n : Node) : Nat := n.gz / n.ez
/-- Teams of an ensemble. A fragment node's teams stand alone. -/
def Node.ensTeams (n : Node) : Nat := if n.kind = 2 then 1 else n.ex * n.ey * n.ez

/-- Slices of a tile of a fragment node. -/
def Node.tileSlices (n : Node) : Nat := slices (n.variant n.preferred).groups

/-- The teams of a fragment node: tile and slice, in launch order. -/
def State.fragmentTeams (s : State) (n : Node) : List (Nat × Nat × Nat) :=
  match s.passOf n with
  | none => []
  | some p =>
    let ks := List.range n.tileSlices
    let w := ((p.targets.head?).map Target.tilesX).getD 0
    let h := ((p.targets.head?).map Target.tilesY).getD 0
    let tiles := if n.det then (curveCells w h).filter p.tiles.contains else p.tiles
    ks.flatMap fun k => tiles.map fun t => (t.1, t.2, k)

/-- How many ensembles a node has. -/
def State.ensembleCount (s : State) (n : Node) : Nat :=
  if n.kind = 2 then (s.fragmentTeams n).length else n.ensX * n.ensY * n.ensZ

/-- Grid positions of the teams of the k-th ensemble in order of placement, by ENSIX. -/
def State.ensemblePositions (s : State) (n : Node) (k : Nat) : List (Nat × Nat × Nat) :=
  if n.kind = 2 then ((s.fragmentTeams n)[k]?).toList
  else
    let plane := n.ensX * n.ensY
    let c := if n.det then (curveCells n.ensX n.ensY).getD (k % plane) (0, 0) else (k % plane % n.ensX, k % plane / n.ensX)
    (List.range n.ensTeams).map fun u =>
      (n.ex * c.1 + u % n.ex, n.ey * c.2 + u / n.ex % n.ey, n.ez * (k / plane) + u / (n.ex * n.ey))

/-! ## Where an ensemble may go -/

/-- The variant a team takes on a core (R57, R58). -/
def State.chooseVariant (s : State) (n : Node) (core : Nat) : Option (BitVec 2) :=
  let order : List (BitVec 2) := if n.det then [n.preferred] else [3, 2, 1, 0]
  order.find? fun v => n.allowed.getLsbD v.toNat && (mapGet none n.image.variants v.toNat).isSome
    && (s.fits core (n.variant v)).isSome

/-- Enabled cores of a cluster in a region's mask. -/
def State.maskCores (s : State) (r : Region) (cluster : Nat) : List Nat :=
  ((List.range 8).map (8 * cluster + ·)).filter fun c => s.enabled.getLsbD c && r.cores.getLsbD c

/-- The node wants cores: it runs or is ready, and some ensemble of it is unplaced. -/
def State.unplaced (s : State) (i : Nat) : Bool :=
  let n := s.nodeAt i
  decide (i < s.nodes.length) && n.kind != 3 && (n.state == .ready || n.state == .running) && !n.teamKilled
    && n.failing.isNone && decide (n.placed < s.ensembleCount n)

/-- Core `k` is held for a node that ranks above node `i` (R80): it has come free since that node's hold, in a cluster that
node can use. -/
def State.heldAgainst (s : State) (i k : Nat) : Bool :=
  (List.range s.nodes.length).any fun m =>
    let n := s.nodeAt m
    let l := s.maskCores (s.regionAt n.region) (k / 8)
    m != i && n.hold && n.heldCores.contains k && l.contains k && s.unplaced m && s.ranksAbove m i
      && decide (n.ensTeams ≤ l.length)

/-- The cores of a cluster that are free to node `i` (R82). DESIGN CHOICE (log entry 48): a core held from it under R80 is not free. -/
def State.freeCores (s : State) (i c : Nat) : List Nat :=
  let n := s.nodeAt i
  (s.maskCores (s.regionAt n.region) c).filter fun k => !s.heldAgainst i k && (s.chooseVariant n k).isSome

/-- Put a cluster, with its count of free cores, before the first that has fewer. -/
def insertCluster (a : Nat × Nat) : List (Nat × Nat) → List (Nat × Nat)
  | [] => [a]
  | b :: l => if b.2 < a.2 then a :: b :: l else b :: insertCluster a l

/-- The clusters in the order in which node `i` tries them (R82): the most free cores first, the lower number on ties. The
device takes those of a deterministic one in the order of their numbers. -/
def State.clusterOrder (s : State) (i : Nat) : List Nat :=
  if (s.nodeAt i).det then List.range 18
  else (((List.range 18).map fun c => (c, (s.freeCores i c).length)).foldl (fun l a => insertCluster a l) []).map (·.1)

/-- The variants of an ensemble's teams on given cores. -/
def State.variantsOn (s : State) (n : Node) (cores : List Nat) : List (BitVec 2) :=
  cores.map fun c => (s.chooseVariant n c).getD 0

/-- Free places of team images, one for each size. -/
def imagePlaces (base size : Nat) : List Nat → List (Nat × Nat) → Option (List Nat)
  | [], _ => some []
  | n :: ns, used =>
    match firstFit base size used 65536 n with
    | none => none
    | some a => (imagePlaces base size ns ((a, n) :: used)).map (a :: ·)

/-- Given places of team images are aligned, free and apart. -/
def imagesFree (base size : Nat) : List Nat → List Nat → List (Nat × Nat) → Bool
  | [], as, _ => as.isEmpty
  | _ :: _, [], _ => false
  | n :: ns, a :: as, used => a % 65536 == 0 && rangeFree base size used a n && imagesFree base size ns as ((a, n) :: used)

/-- Private areas the teams of an ensemble need. -/
def Node.privCount (n : Node) (vs : List (BitVec 2)) : Nat :=
  if n.priv = 0 then 0 else (vs.map fun v => (n.variant v).groups).sum

/-- The cores, images and private areas of the next ensemble of node `i` in a cluster: its lowest free cores and the lowest
places that fit, if all fit (R35, R82, R156, R299). -/
def State.placementIn (s : State) (i c : Nat) : Option (List Nat × List Nat × List Nat) :=
  let n := s.nodeAt i
  let r := s.regionAt n.region
  let cores := (s.freeCores i c).take n.ensTeams
  if cores.length < n.ensTeams then none
  else
    let vs := s.variantsOn n cores
    match imagePlaces r.save r.saveSize (vs.map fun v => (n.variant v).imageBytes) (s.usedImages n.region s.teams.length),
      s.privPlaces n.region n.privBytes (n.privCount vs) (s.usedPrivs n.region) with
    | some images, some privs => some (cores, images, privs)
    | _, _ => none

/-- The place of the next ensemble of node `i`: in the first cluster of its order that takes it (R82). -/
def State.placement (s : State) (i : Nat) : Option (List Nat × List Nat × List Nat) :=
  (s.clusterOrder i).findSome? (s.placementIn i)

/-- Cores on which the next ensemble of node `i` may stand. -/
def State.coresAllowed (s : State) (i : Nat) (cores : List Nat) : Bool :=
  let n := s.nodeAt i
  if n.det then
    cores.length == n.ensTeams && decide cores.Nodup
      && cores.all fun c => c / 8 == cores.headD 0 / 8 && (s.freeCores i (c / 8)).contains c
  else (s.placement i).map (·.1) == some cores

/-! ## Restores: where (R88) -/

/-- The teams of an ensemble that hold resources. -/
def State.ensembleTeams (s : State) (node ens : Nat) : List Nat :=
  (s.nodeTeams node).filter fun t => (s.teamAt t).ens == ens

/-- Ensembles of node `i` that stand saved, by their number. -/
def State.savedEnsembles (s : State) (i : Nat) : List Nat :=
  ((s.teams.filter fun t => t.node == i && t.status == .saved).map (·.ens)).eraseDups

/-- Node `i` has a pre-empted ensemble, halted or saved. -/
def State.preempted (s : State) (i : Nat) : Bool :=
  s.teams.any fun t => t.node == i && (t.status == .halted || t.status == .saved)

/-- Teams of a saved ensemble, by ENSIX. -/
def State.savedTeams (s : State) (node ens : Nat) : List Nat :=
  (s.ensembleTeams node ens).filter fun t => (s.teamAt t).status = .saved

/-- Cores of a cluster on which a saved team's current variant fits, and its copy jobs (R208). -/
def State.restoreCores (s : State) (node c t : Nat) : List Nat :=
  (s.maskCores (s.regionAt (s.nodeAt node).region) c).filter fun k =>
    !s.heldAgainst node k && (s.fits k (s.variantOf (s.teamAt t))).isSome
      && decide ((s.coreAt k).copyQ.length + (s.teamAt t).savedCopies.length ≤ 64)

/-- Cores, all different, for a list of teams within one cluster. -/
def State.matchCores (s : State) (node c : Nat) : List Nat → List Nat → Option (List Nat)
  | [], _ => some []
  | t :: ts, used =>
    ((s.restoreCores node c t).filter fun k => !used.contains k).findSome? fun k =>
      (s.matchCores node c ts (k :: used)).map (k :: ·)

/-- Cores of a cluster for a saved ensemble. -/
def State.restoreIn (s : State) (node ens c : Nat) : Option (List Nat) := s.matchCores node c (s.savedTeams node ens) []

/-- Where a saved ensemble goes back, as the device restores it: the lowest cluster and cores that fit. -/
def State.restorePlace (s : State) (node ens : Nat) : Option (List Nat) :=
  (List.range 18).findSome? fun c => s.restoreIn node ens c

/-- A whole ensemble stands saved. -/
def State.ensembleSaved (s : State) (node ens : Nat) : Bool :=
  let l := s.ensembleTeams node ens
  !l.isEmpty && l.all fun t => (s.teamAt t).status = .saved

/-- A node waits for cores: it has an ensemble to place or to restore, and its region may run and is within its budget
(R78). -/
def State.wantsCores (s : State) (i : Nat) : Bool :=
  !(s.regionAt (s.nodeAt i).region).preemptAsked && !s.outOfBudget (s.nodeAt i).region &&
    ((s.unplaced i && !s.preempted i) || (!(s.nodeAt i).finished && (s.savedEnsembles i).any (s.ensembleSaved i)))

/-- The region of a node is out of its budget, and a region within its own waits for cores of its mask (R78). DEDUCED (log entry 49):
what was pre-empted for such a wait is not restored while it lasts. -/
def State.budgetBars (s : State) (node : Nat) : Bool :=
  let q := (s.nodeAt node).region
  s.outOfBudget q && (List.range s.nodes.length).any fun m =>
    let r := (s.nodeAt m).region
    r != q && s.wantsCores m && (s.regionAt r).cores &&& (s.regionAt q).cores &&& s.enabled != 0

/-- A saved ensemble may be restored now. -/
def State.mayRestore (s : State) (node ens : Nat) : Bool :=
  s.ensembleSaved node ens && !(s.nodeAt node).finished && !(s.regionAt (s.nodeAt node).region).preemptAsked
    && !s.budgetBars node && (s.restorePlace node ens).isSome

/-- Some saved ensemble of a node may be restored now. -/
def State.anyRestore (s : State) (node : Nat) : Bool := (s.savedEnsembles node).any (s.mayRestore node)

/-- An ensemble may be placed for node `i` now: restores of its own grid go first (R88), and a region that has spent its
budget, or that the host has asked to be pre-empted, places none (R78, R85). -/
def State.mayPlace (s : State) (i : Nat) : Bool :=
  s.unplaced i && !s.preempted i && !s.outOfBudget (s.nodeAt i).region
    && !(s.regionAt (s.nodeAt i).region).preemptAsked && (s.placement i).isSome

/-- No node that ranks above node `i` can place or restore an ensemble now. -/
def State.topPlaceable (s : State) (i : Nat) : Bool :=
  (List.range s.nodes.length).all fun m => m == i || !s.ranksAbove m i || !(s.mayPlace m || s.anyRestore m)

/-! ## The start of a team -/

/-- The next instance tag of an ordinary launch after `t` (R157). -/
def nextTag (live : List (BitVec 16)) : Nat → BitVec 16 → BitVec 16
  | 0, t => t + 1
  | fuel + 1, t => if t + 1 != 0 && !live.contains (t + 1) then t + 1 else nextTag live fuel (t + 1)

/-- What a lane of a fragment team starts with (R274): whether its quad starts, its visible primitive, and its pixel. -/
def State.fragmentLane (s : State) (n : Node) (groups tx ty k t : Nat) : Option (Word × BinnedPrim) :=
  match s.passOf n with
  | none => none
  | some p =>
    let q := pixelOf (slices groups) tx ty k t
    let inside := (p.targets.head?).map fun r => decide (q.1 < r.width) && decide (q.2 < r.height)
    if inside.getD false then visible p.prims q.1 q.2 else none

/-- The registers of a covered lane. -/
def fragmentValues (x y : Nat) (d : Word) (p : BinnedPrim) : List Word :=
  let b := Config.barycentrics [(p.a.x, p.a.y, p.a.z, p.a.cw), (p.b.x, p.b.y, p.b.z, p.b.cw), (p.c.x, p.c.y, p.c.z, p.c.cw)] x y
  [p.key, p.draw.setWidth 32, b.1, b.2, d]

/-- Group `g` of a fragment team at its start. -/
def State.fragmentGroup (s : State) (n : Node) (v : Variant) (tx ty k g : Nat) (grp : Group) : Group :=
  let seen := (List.range 64).map fun l => s.fragmentLane n v.groups tx ty k (64 * g + l)
  let vis := fun l => (seen.getD l none)
  let live := maskOf fun l => (List.range 4).any fun j => (vis (l / 4 * 4 + j)).isSome
  let covered := maskOf fun l => (vis l).isSome
  let value := fun (r l : Nat) => match vis l with
    | some (d, p) => let q := pixelOf (slices v.groups) tx ty k (64 * g + l); (fragmentValues q.1 q.2 d p).getD r 0
    | none => if r = 0 then 0xFFFFFFFF else 0
  { grp with
    path0 := if live = 0 then none else grp.path0.map fun p => { p with mask := live }
    retired := live == 0, live := live, helper := live &&& ~~~covered
    homes := (List.range 64).foldl (fun m l => mapSet 0 m l g) []
    vregs := (List.range 5).foldl (fun m r => writeLanes m r live (value r)) []
    preds := mapSet 0 [] 1 covered }

/-- A fresh team of node `i` (R32, R33). -/
def State.freshTeam (s : State) (i : Nat) (pos : Nat × Nat × Nat) (u core image : Nat) (v : BitVec 2) (tag : BitVec 16)
    (privs : List Nat) : Team :=
  let n := s.nodeAt i
  let b := n.variant v
  let quads := (s.fits core b).getD []
  let groups := (List.range b.groups).map fun g =>
    let grp : Group := { path0 := some { pc := n.codeVa b.entry, mask := BitVec.allOnes 64 }, live := BitVec.allOnes 64
                         quadrant := quads.getD g 0, pbase := BitVec.ofNat 64 (privs.getD g 0) }
    if n.kind = 2 then s.fragmentGroup n b pos.1 pos.2.1 pos.2.2 g grp else grp
  ({ node := i, ens := n.placed, residence := s.residenceSeq, x := pos.1, y := pos.2.1, z := pos.2.2, ensIx := u
     rank := if n.det then n.placed else 0, tag := tag, core := core, variant := v, groups := groups, image := image
     imageSize := b.imageBytes, ensTeams := n.ensTeams } : Team).placeRecords b

/-- Place one team, and zero its private areas. A launch acquires what the edges, slots and submission of its node
released (R190): the core's L1 holds nothing older. -/
def State.placeTeam (s : State) (i : Nat) (pos : Nat × Nat × Nat) (u core image : Nat) (privs : List Nat) : State :=
  let n := s.nodeAt i
  let v := (s.chooseVariant n core).getD 0
  let live := (s.teams.filter Team.alive).map (·.tag)
  let tag := if n.det then BitVec.ofNat 16 (1 + n.placed % 65535) else nextTag live 65536 s.tagCounter
  let t := s.freshTeam i pos u core image v tag privs
  let s := { s with teams := s.teams ++ [t], residenceSeq := s.residenceSeq + 1
                    tagCounter := if n.det then s.tagCounter else tag }
  (s.zeroPrivate i core n.privBytes privs).l1Invalidate core

/-- Place the teams of an ensemble in ENSIX order. -/
def State.placeTeams (s : State) (i u : Nat) : List (Nat × Nat × Nat) → List Nat → List Nat → List Nat → State
  | pos :: ps, core :: cs, image :: ims, privs =>
    let n := s.nodeAt i
    let k := n.privCount [(s.chooseVariant n core).getD 0]
    (s.placeTeam i pos u core image (privs.take k)).placeTeams i (u + 1) ps cs ims (privs.drop k)
  | _, _, _, _ => s

/-- ENSEMBLE_PLACEMENT: Gamelan places the next ensemble of a node. Cores, images or private areas that the rules do not
allow leave the state as it is. -/
def execEnsemblePlacement (node : Nat) (cores images privs : List Nat) (s : State) : Outcome :=
  let n := s.nodeAt node
  let r := s.regionAt n.region
  let vs := s.variantsOn n cores
  let ok := s.mayPlace node && s.topPlaceable node && s.coresAllowed node cores
    && imagesFree r.save r.saveSize (vs.map fun v => (n.variant v).imageBytes) images (s.usedImages n.region s.teams.length)
    && privs.length == n.privCount vs && s.privsFree n.region n.privBytes privs (s.usedPrivs n.region)
  if !ok then .next s
  else
    let s := s.placeTeams node 0 (s.ensemblePositions n n.placed) cores images privs
    let s := s.setNode node { n with placed := n.placed + 1, hold := false, heldCores := [] }
    .next (if n.state = .ready then s.enter node .running else s)

/-- PLACEMENT_HOLD: the next ensemble of a node cannot be placed, and the cores that come free in the clusters it can use are
held for it from now on. -/
def execPlacementHold (node : Nat) (s : State) : Outcome :=
  if s.unplaced node && !s.mayPlace node then
    .next (s.setNode node { s.nodeAt node with hold := true, heldCores := if (s.nodeAt node).hold then (s.nodeAt node).heldCores else [] })
  else .next s

/-! ## Retirement -/

/-- Staged tokens in the order of R75: by group, then as they were issued. -/
def Team.tokenOrder (t : Team) : List (Nat × Nat × BitVec 128) :=
  (List.range 16).flatMap fun g => t.tokens.filter fun p => p.1 == g

/-- Append one staged token: the state after it, or none while its edge is full. An edge that cannot be updated loses
it (R450). -/
def State.appendToken (s : State) (i : Nat) (p : Nat × Nat × BitVec 128) : Option State :=
  let n := s.nodeAt i
  match n.edge p.2.1 with
  | none => some s
  | some a =>
    match s.edgeAt (s.nodeRoot i) a with
    | .error f => some (s.edgeUpdateFailed i a f)
    | .ok r =>
      if r.freeSlots = 0 then none
      else match s.pushToken (s.nodeRoot i) a r p.2.2 with
        | .error f => some (s.edgeUpdateFailed i a f)
        | .ok s => some s

/-- Append staged tokens until one has to wait. -/
def State.appendTokens (s : State) (i : Nat) : List (Nat × Nat × BitVec 128) → State × List (Nat × Nat × BitVec 128)
  | [] => (s, [])
  | p :: ps =>
    match s.appendToken i p with
    | none => (s, p :: ps)
    | some s => s.appendTokens i ps

/-- Append a staged index to its list, or set the list's overflow flag where no slot is left (R214). -/
def State.appendEntry (s : State) (i : Nat) (e : ListEntry) : State :=
  let root := s.nodeRoot i
  match s.deviceNat root e.list.toNat 8 with
  | .error f => s.nodeFault i f
  | .ok h =>
    let count := h % 2 ^ 32
    if e.slots ≤ count then s.putSignature i e.list (natLe 8 (h ||| 2 ^ 32))
    else
      match s.deviceWrite root ((e.list.toNat + 8 + 4 * count) % 2 ^ 64) (natLe 4 e.value.toNat) with
      | .error f => s.nodeFault i f
      | .ok s => s.putSignature i e.list (natLe 8 (h / 2 ^ 32 * 2 ^ 32 + (count + 1) % 2 ^ 32))

/-- Set a list's overflow flag. -/
def State.flagOverflow (s : State) (i : Nat) (a : BitVec 64) : State :=
  match s.deviceNat (s.nodeRoot i) a.toNat 8 with
  | .error f => s.nodeFault i f
  | .ok h => s.putSignature i a (natLe 8 (h ||| 2 ^ 32))

/-- The teams of a tile have all retired. -/
def State.tileShaded (s : State) (i x y : Nat) : Bool :=
  (s.teams.filter fun t => t.node == i && t.x == x && t.y == y && t.status == .retired).length == (s.nodeAt i).tileSlices

/-- Store one tile signature (R264, R269). -/
def State.storeSignature (s : State) (i : Nat) (e : (Nat × Nat) × Nat × BitVec 128) : State :=
  let n := s.nodeAt i
  match (s.passOf n).bind fun p => p.targets[e.2.1]? with
  | none => s
  | some t =>
    let a := t.slotAt e.1
    let s' := s.putSignature i (BitVec.ofNat 64 a) (natLe 16 e.2.2.toNat ++ [1])
    match s.deviceAddr (s.nodeRoot i) a with
    | .ok p => { s' with storedSignatures := (n.region, p) :: s'.storedSignatures.filter (· != (n.region, p)) }
    | .error _ => s'

/-- The signatures of a tile whose shading has completed. -/
def State.storeTile (s : State) (i x y : Nat) : State :=
  match s.passOf (s.nodeAt i) with
  | none => s
  | some p => (p.signatures.filter fun e => e.1 == (x, y)).foldl (fun s e => s.storeSignature i e) s

/-- Every ensemble of a node has been placed, and no team of it but `t` is left. -/
def State.lastTeam (s : State) (t : Nat) : Bool :=
  let i := (s.teamAt t).node
  let n := s.nodeAt i
  n.placed == s.ensembleCount n && (s.nodeTeams i).all (· == t)

/-- A team may retire (R49, R50): its groups have retired, its work has drained, and in a deterministic launch every
earlier team of the curve is gone. DEDUCED: the last team of a mesh node waits for the node's binning. -/
def State.mayRetire (s : State) (t : Nat) : Bool :=
  let x := s.teamAt t
  let n := s.nodeAt x.node
  decide (t < s.teams.length) && x.status = .resident && x.groups.all (·.retired) && s.teamDrained t
    && (!n.det || s.curveTurn t)
    && (n.kind != 1 || !s.lastTeam t || s.clusters.all fun c => c.2.binQ.all fun p => p.node != x.node)

/-- The team leaves its core: what waited for its place is tried. -/
def State.retireTeam (s : State) (t : Nat) : State :=
  let x := s.teamAt t
  let i := x.node
  let last := s.lastTeam t
  let s := (s.setTeam t { x with status := .retired, tokens := [], entries := [], entryOverflow := [] }).freed x.core
  let s := if (s.nodeAt i).kind = 2 && s.tileShaded i x.x x.y then s.storeTile i x.x x.y else s
  if last && !(s.nodeAt i).teamKilled then s.completeNode i [] else s

/-- TEAM_RETIRE: a finished team frees its resources. Staged tokens enter their edges first, each as its edge has room,
then staged list entries; the grid completes with its last team. -/
def execTeamRetire (team : Nat) (s : State) : Outcome :=
  if !s.mayRetire team then .next s
  else
    let x := s.teamAt team
    let i := x.node
    let (s, left) := (s.drainCore x.core).appendTokens i x.tokenOrder
    let s := s.setTeam team { s.teamAt team with tokens := left }
    if !left.isEmpty then .next s
    else
      let s := x.entries.foldl (fun s e => s.appendEntry i e) s
      .next ((x.entryOverflow.foldl (fun s a => s.flagOverflow i a) s).retireTeam team)

end Sys2Proof.Machine
end

