-- ==== Sys2Proof/Machine/Elementary.lean ====
section
/-!
DEFINITION. Sys2Proof/Machine/Elementary.lean: the correctly rounded functions RCP, RSQ, SQRT, EXP2, LOG2, SIN, COS and
TANH of R147, by integer arithmetic on fixed-point numbers with 448 fraction bits.
-/
namespace Sys2Proof.Machine

/-- The fraction bits of a fixed-point number. -/
def fracBits : Nat := 448
/-- 1.0 in fixed point. -/
def fxOne : Int := 2 ^ 448
/-- floor(π × 2^640). -/
def pi640 : Nat := 0x3243F6A8885A308D313198A2E03707344A4093822299F31D0082EFA98EC4E6C89452821E638D01377BE5466CF34E90C6CC0AC29B7C97C50DD3F84D5B5B54709179216D5D98979FB1BD1310BA698DFB5AC
/-- floor(ln 2 × 2^448). -/
def fxLn2 : Int := 0xB17217F7D1CF79ABC9E3B39803F2F6AF40F343267298B62D8A0D175B8BAAFA2BE7B876206DEBAC98559552FB4AFA1B10ED2EAE35C1382144

def fxMul (a b : Int) : Int := a * b / fxOne
def fxDiv (a b : Int) : Int := a * fxOne / b

/-- The integer square root, bit by bit from bit `n - 1` down. -/
def isqrtFrom (x : Nat) : Nat → Nat → Nat
  | 0, r => r
  | n + 1, r => isqrtFrom x n (if (r + 2 ^ n) * (r + 2 ^ n) ≤ x then r + 2 ^ n else r)
def isqrt (x : Nat) : Nat := isqrtFrom x (x.log2 / 2 + 1) 0

/-! ## Series -/

/-- The sum of t^k / k! from term `k` on, for `n` terms; `term` is the term before. -/
def expSeries (t : Int) : Nat → Nat → Int → Int
  | 0, _, _ => 0
  | n + 1, k, term =>
    let term := fxMul term t / (k : Int)
    term + expSeries t n (k + 1) term
/-- e^t for |t| ≤ 1. -/
def fxExp (t : Int) : Int := fxOne + expSeries t 100 1 fxOne

/-- The alternating series of sine and cosine: each term is the one before times -t² / (k (k + 1)). -/
def trigSeries (t2 : Int) : Nat → Nat → Int → Int
  | 0, _, _ => 0
  | n + 1, k, term =>
    let term := -(fxMul term t2) / ((k * (k + 1) : Nat) : Int)
    term + trigSeries t2 n (k + 2) term
/-- sin t for |t| ≤ 1. -/
def fxSin (t : Int) : Int := t + trigSeries (fxMul t t) 50 2 t
/-- cos t for |t| ≤ 1. -/
def fxCos (t : Int) : Int := fxOne + trigSeries (fxMul t t) 50 1 fxOne

/-- The sum of z^k / k over odd k from `k` on. -/
def atanhSeries (z2 : Int) : Nat → Nat → Int → Int
  | 0, _, _ => 0
  | n + 1, k, p => p / (k : Int) + atanhSeries z2 n (k + 2) (fxMul p z2)
/-- ln y for y between 1/2 and 2. -/
def fxLn (y : Int) : Int :=
  let z := fxDiv (y - fxOne) (y + fxOne)
  2 * atanhSeries (fxMul z z) 150 1 z

/-- m × 2^e in fixed point, its low bits dropped. -/
def fxOf (neg : Bool) (m : Nat) (e : Int) : Int :=
  let k := e + 448
  let x : Nat := if 0 ≤ k then m * 2 ^ k.toNat else m / 2 ^ (-k).toNat
  if neg then -(x : Int) else x

/-- e^-y for y ≥ 0: the power of two is split off, and what is left of 448 bits is kept. -/
def fxExpNeg (y : Int) : Int :=
  let k := (y / fxLn2).toNat
  fxExp (-(y - k * fxLn2)) / 2 ^ min k 600

/-- Round a fixed-point approximation of a value that no format represents: it is a value's bits with more below.
R147's functions take no FP32 input to within 2^-300 of a rounding boundary (UNVERIFIED, log). -/
def roundFx (f : Fmt) (r : Rnd) (x : Int) : Nat × BitVec 5 :=
  roundNum f r (decide (x < 0)) (x.natAbs / 2 ^ 40) (-408) true

/-! ## The functions (Table 8.6) -/

def nanResult (s : Bool) : Nat × BitVec 5 := (Fmt.fp32.nan, flagIf s flagInvalid)
def infBits (neg : Bool) : Nat := Fmt.fp32.signed neg Fmt.fp32.infinity

/-- RCP. -/
def fpRcp (x : Nat) : Nat × BitVec 5 :=
  match Fmt.fp32.value x with
  | .nan s => nanResult s
  | .inf neg => (Fmt.fp32.signed neg 0, 0)
  | .num neg m e =>
    if m = 0 then (infBits neg, 0)
    else roundNum .fp32 .rne neg (2 ^ 80 / m) (-80 - e) (2 ^ 80 % m != 0)

/-- An even exponent for a mantissa. -/
def evenExp (m : Nat) (e : Int) : Nat × Int := if e % 2 = 0 then (m, e) else (2 * m, e - 1)

/-- SQRT under a rounding rule. -/
def fpSqrt (r : Rnd) (x : Nat) : Nat × BitVec 5 :=
  match Fmt.fp32.value x with
  | .nan s => nanResult s
  | .inf neg => if neg then (Fmt.fp32.nan, flagInvalid) else (infBits false, 0)
  | .num neg m e =>
    if m = 0 then (x, 0)
    else if neg then (Fmt.fp32.nan, flagInvalid)
    else
      let (m, e) := evenExp m e
      let s := isqrt (m * 2 ^ 80)
      roundNum .fp32 r false s (e / 2 - 40) (s * s != m * 2 ^ 80)

/-- RSQ. -/
def fpRsq (x : Nat) : Nat × BitVec 5 :=
  match Fmt.fp32.value x with
  | .nan s => nanResult s
  | .inf neg => if neg then (Fmt.fp32.nan, flagInvalid) else (0, 0)
  | .num neg m e =>
    if m = 0 then (infBits neg, 0)
    else if neg then (Fmt.fp32.nan, flagInvalid)
    else
      let (m, e) := evenExp m e
      let s := isqrt (2 ^ 160 / m)
      roundNum .fp32 .rne false s (-80 - e / 2) (s * s * m != 2 ^ 160)

/-- EXP2. -/
def fpExp2 (x : Nat) : Nat × BitVec 5 :=
  match Fmt.fp32.value x with
  | .nan s => nanResult s
  | .inf neg => (if neg then 0 else infBits false, 0)
  | .num neg m e =>
    if m = 0 then (0x3F800000, 0)
    else if 128 ≤ e + (m.log2 : Int) && !neg then (infBits false, flagOverflow ||| flagInexact)
    else if 10 ≤ e + (m.log2 : Int) && neg then roundNum .fp32 .rne false 1 (-1000) true
    else
      let t := fxOf neg m e
      let n := t / fxOne
      let f := t - n * fxOne
      if f = 0 && decide (-448 ≤ e) then roundNum .fp32 .rne false 1 n false
      else
        let y := fxExp (fxMul f fxLn2)
        roundNum .fp32 .rne false (y.natAbs / 2 ^ 40) (n - 408) true

/-- LOG2. -/
def fpLog2 (x : Nat) : Nat × BitVec 5 :=
  match Fmt.fp32.value x with
  | .nan s => nanResult s
  | .inf neg => if neg then (Fmt.fp32.nan, flagInvalid) else (infBits false, 0)
  | .num neg m e =>
    if m = 0 then (infBits true, 0)
    else if neg then (Fmt.fp32.nan, flagInvalid)
    else
      let k := m.log2
      if m = 2 ^ k then roundTo .fp32 .rne (intValue (e + k))
      else
        let up := decide (3 * 2 ^ k < 2 * m)
        let n : Int := e + k + if up then 1 else 0
        let y := fxOf false m (if up then -(k : Int) - 1 else -(k : Int))
        roundFx .fp32 .rne (n * fxOne + fxDiv (fxLn y) fxLn2)

/-- The quadrant of an angle and what is left of it, between -π/4 and π/4 (R147: the reduction is exact). -/
def reduceAngle (neg : Bool) (m : Nat) (e : Int) : Int × Int :=
  let k := e + 640
  let x : Int := (if 0 ≤ k then m * 2 ^ k.toNat else 0 : Nat)
  let x := if neg then -x else x
  let half : Int := (pi640 : Int) / 2
  let q := (2 * x + half) / (2 * half)
  (q, (2 * x - q * pi640) / 2 ^ 193)

/-- sin and cos of an angle by its quadrant. -/
def fxSinQ (q t : Int) : Int :=
  let k := q % 4
  if k = 0 then fxSin t else if k = 1 then fxCos t else if k = 2 then -(fxSin t) else -(fxCos t)

/-- SIN and COS. -/
def fpTrig (cos : Bool) (x : Nat) : Nat × BitVec 5 :=
  match Fmt.fp32.value x with
  | .nan s => nanResult s
  | .inf _ => (Fmt.fp32.nan, flagInvalid)
  | .num neg m e =>
    if m = 0 then (if cos then 0x3F800000 else x, 0)
    else
      let (q, t) := reduceAngle neg m e
      roundFx .fp32 .rne (fxSinQ (if cos then q + 1 else q) t)

/-- tanh of a fixed-point number at or above zero: (1 - u) / (1 + u) with u = e^-2y. -/
def fxTanh (y : Int) : Int :=
  if 256 * fxOne ≤ y then fxOne - 1
  else
    let u := fxExpNeg (2 * y)
    fxDiv (fxOne - u) (fxOne + u)

/-- TANH. -/
def fpTanh (x : Nat) : Nat × BitVec 5 :=
  match Fmt.fp32.value x with
  | .nan s => nanResult s
  | .inf neg => (Fmt.fp32.signed neg 0x3F800000, 0)
  | .num neg m e =>
    if m = 0 then (x, 0)
    else
      let y := if 10 ≤ e + (m.log2 : Int) then 256 * fxOne else fxOf false m e
      let z := fxTanh y
      roundFx .fp32 .rne (if neg then -z else z)

end Sys2Proof.Machine
end

