-- ==== Sys2Proof/Machine/Matrix.lean ====
section
/-!
DEFINITION. Sys2Proof/Machine/Matrix.lean: the matrix engine and its accumulator tiles: MMA, MMAS, the accumulator family and
edge masks at issue, and the engine at work, group-space majors 0x21, 0x22 and 0x24 (R218 to R233, R308, R309, R336).
-/
namespace Sys2Proof.Machine

/-! ## Format blocks at issue (Table 12.2) -/

/-- A format block as the checks see it. -/
structure RawBlock where
  off : Nat
  stride : Nat
  fmt : BitVec 8
  blc : Nat
  reserved : Nat
  blkoff : Nat
  band : Nat

def rawBlockOf (hi lo : DWord) : RawBlock :=
  let f := fun a b => bitField (hi ++ lo).toNat a b
  { off := f 31 0, stride := f 47 32, fmt := BitVec.ofNat 8 (f 55 48), blc := f 59 56, reserved := f 63 60,
    blkoff := f 95 64, band := f 127 96 }

def State.blockAt (s : State) (w : BitVec 6) : RawBlock := rawBlockOf (s.uni (w + 1)) (s.uni w)

def RawBlock.block (b : RawBlock) : FormatBlock :=
  { off := b.off, stride := b.stride, fmt := b.fmt, blc := b.blc, blkoff := b.blkoff,
    bandoff := if b.band = 2 ^ 32 - 1 then none else some b.band }

/-- A floating-point format of at most 8 bits (R219). -/
def isFloat8 (f : BitVec 8) : Bool := f == 0x0B || f == 0x0C || f == 0x0D
def isFloat16 (f : BitVec 8) : Bool := f == 0x09 || f == 0x0A
/-- The operand pairs of R219. -/
def goodPair (a b : BitVec 8) : Bool :=
  (isFloat8 a && isFloat8 b) || (isFloat16 a && isFloat16 b) || (isIntFmt a && isIntFmt b)

/-- Check 2 of Table 12.4. -/
def RawBlock.reservedBad (b : RawBlock) (k : Nat) (float : Bool) : Bool :=
  b.reserved != 0 || (float && (decide (3 < b.blc) || (b.blc != 0 && k % blockLen b.blc != 0)))

/-- Check 3 of Table 12.4: the offending value. -/
def RawBlock.misaligned (b : RawBlock) (k : Nat) (float : Bool) : Option Nat :=
  if b.off % 16 ≠ 0 then some b.off
  else if b.stride % 16 ≠ 0 || b.stride < codeBytes b.fmt.toNat k then some b.stride
  else if float && b.band != 2 ^ 32 - 1 && b.band % 2 == 1 then some b.band
  else none

/-- The lowest byte of spans at or above a size. -/
def beyond (spans : List Span) (size : Nat) : Option Nat :=
  (spans.filter fun x => decide (size < x.start + x.len)).foldl
    (fun o x => match o with
      | none => some (max x.start size)
      | some y => some (min y (max x.start size))) none

/-- The bytes of an operand that an MMA reads (R220). DESIGN CHOICE (log entry 76): an operand of which no row is enabled reads no band
scale, and A's rows do not depend on em1. -/
def FormatBlock.footprint (f : FormatBlock) (k : Nat) (float : Bool) (em : Word) : List Span :=
  let rows := maskRows em 0
  rows.flatMap (f.rowSpans k float) ++ if rows.isEmpty then [] else f.bandSpans float

def State.edgeMasks (s : State) : List Word := (List.range 8).map s.group.mask

/-- The core's matrix queue holds 8 operations (R222, R224). -/
def State.matrixFull (s : State) : Bool := decide (8 ≤ (s.coreAt s.coreNow).matrixQ.length)

/-- A tile of the variant's budget (R55). -/
def State.hasTile (s : State) (an : BitVec 4) : Bool := decide (an.toNat < s.variant.acc)

/-- Queue an operation on a tile, or wait for space; `tag` is the tile tag it leaves (R232). -/
def State.acceptMatrix (s : State) (an : BitVec 4) (kind : MatrixKind) (tag : Option TileTag) : Res :=
  if s.matrixFull then .wait s (.engineQueue .matrix)
  else if kind.updates && !s.hasTile an then .next s
  else
    let (n, s) := s.accept
    let o : MatrixOp := { seq := n, team := s.focus.team, group := s.focus.group, batch := s.group.batch,
                          tile := an.toNat, masks := s.edgeMasks, kind := kind }
    let c := s.coreAt s.coreNow
    let s := s.setCore s.coreNow { c with matrixQ := c.matrixQ ++ [o] }
    .next (match tag with
      | some x => s.putTeam (s.team.setTileTag an.toNat x)
      | none => s)

/-- The registers of two format blocks. -/
def blockRegs (wa wb : BitVec 6) : List (BitVec 6) := [wa, wa + 1, wb, wb + 1]

/-- MMA and MMAZ: the checks of Table 12.4 in order, then the queue (R222, R223). DEDUCED (log entry 31): A's offending value stands
before B's, and of the spectral granules the lowest is named. -/
def mmaInstr (zero : Bool) (an : BitVec 4) (wa wb : BitVec 6) (s : State) : Outcome :=
  groupInstr (shapeTeam [] (blockRegs wa wb) []) 1 s fun s =>
    let a := s.blockAt wa
    let b := s.blockAt wb
    if !goodPair a.fmt b.fmt then .trap 0x03 0 4
    else
      let float := !isIntFmt a.fmt
      let k := depthOf a.fmt.toNat b.fmt.toNat
      if a.reservedBad k float || b.reservedBad k float then .trap 0x03 0 4
      else match (a.misaligned k float).or (b.misaligned k float) with
        | some o => .trap 0x04 (BitVec.ofNat 64 o) 0
        | none =>
          let spans := a.block.footprint k float (s.group.mask 0) ++ b.block.footprint k float (s.group.mask 1)
          match beyond spans s.spSize with
          | some o => .trap 0x06 (BitVec.ofNat 64 o) 2
          | none =>
            let gs := granulesOf spans
            if s.tagPending s.focus.team s.acceptSeq gs then .wait s (.tags gs)
            else match gs.find? fun g => (s.team.gtag g).getLsbD 0 with
              | some g => .trap 0x0A (BitVec.ofNat 64 (1024 * g)) 2
              | none => s.acceptMatrix an (.mma zero a.block b.block) (some {})

def execMma (an : BitVec 4) (wa wb : BitVec 6) (s : State) : Outcome := mmaInstr false an wa wb s
def execMmaz (an : BitVec 4) (wa wb : BitVec 6) (s : State) : Outcome := mmaInstr true an wa wb s

/-! ## Granule tags (Table 13.1) and MMAS (R233) -/

def tagLogb (x : Word) : Nat := (x.extractLsb' 1 3).toNat
def tagExp (x : Word) : Int := (x.extractLsb' 4 8).toInt
/-- A spectral tag of no reserved FMT or LOGB. -/
def tagSpectral (x : Word) : Bool := x.getLsbD 0 && x.extractLsb' 12 4 == 0 && decide (tagLogb x ≤ 4)

/-- The tags of an operand's granules: the first that is not spectral or differs from the lowest granule's. -/
def Team.badGranule (t : Team) (gs : List Nat) : Option Nat :=
  gs.find? fun g => !tagSpectral (t.gtag g) || t.gtag g != t.gtag (gs.headD 0)

/-- The tile tag of a tile; one outside the budget reads as spatial (R232). -/
def State.tileTag (s : State) (an : BitVec 4) : TileTag := if s.hasTile an then s.team.tileTag an.toNat else {}

def RawBlock.mmasBad (b : RawBlock) : Bool := b.fmt != 0x10 || b.blc != 0 || b.band != 2 ^ 32 - 1 || b.reserved != 0

/-- Check 2 of Table 13.2; B's STRIDE is ignored. -/
def mmasMisaligned (a b : RawBlock) : Option Nat :=
  if a.off % 16 ≠ 0 then some a.off else if b.off % 16 ≠ 0 then some b.off
  else if a.stride % 16 ≠ 0 || a.stride < 64 then some a.stride else none

/-- MMAS and MMASZ (Table 13.2). DEDUCED (log entry 31): in check 4 TADDR names A's bad granule before B's, and the tag of an operand is
that of its lowest granule. -/
def mmasInstr (zero : Bool) (an : BitVec 4) (wa wb : BitVec 6) (s : State) : Outcome :=
  groupInstr (shapeTeam [] (blockRegs wa wb) []) 1 s fun s =>
    let a := s.blockAt wa
    let b := s.blockAt wb
    if a.mmasBad || b.mmasBad then .trap 0x03 0 4
    else match mmasMisaligned a b with
      | some o => .trap 0x04 (BitVec.ofNat 64 o) 0
      | none =>
        let rows := maskRows (s.group.mask 0) 0
        let sa := rows.map fun i => Span.mk (a.off + i * a.stride) 64
        let sb := [Span.mk b.off 64]
        match beyond (sa ++ sb) s.spSize with
        | some o => .trap 0x06 (BitVec.ofNat 64 o) 2
        | none =>
          let ga := granulesOf sa
          let gb := granulesOf sb
          let gs := granulesOf (sa ++ sb)
          if s.tagPending s.focus.team s.acceptSeq gs then .wait s (.tags gs)
          else match (s.team.badGranule ga).or (s.team.badGranule gb) with
            | some g => .trap 0x0A (BitVec.ofNat 64 (1024 * g)) 1
            | none =>
              let tb := s.team.gtag (gb.headD 0)
              let ta := ga.head?.map s.team.gtag
              let lb := tagLogb tb
              let len := 16 * 2 ^ lb
              let apart := (ta.any fun x => tagLogb x != lb) || rows.any fun i =>
                (a.off + i * a.stride) % (2 * len) != 64 * i % (2 * len) || b.off % (2 * len) != 64 * i % (2 * len)
              if apart then .trap 0x0A (BitVec.ofNat 64 a.off) 4
              else
                let tile := s.tileTag an
                let e := (ta.map tagExp).getD 0 + tagExp tb
                if zero then
                  s.acceptMatrix an (.mmas true a.block b.block (len / 2) 0) (some { spectral := true, logb := lb, et := e })
                else if !tile.spectral || tile.logb != lb then .trap 0x0A 0 3
                else s.acceptMatrix an (.mmas false a.block b.block (len / 2) (e - tile.et)) none

def execMmas (an : BitVec 4) (wa wb : BitVec 6) (s : State) : Outcome := mmasInstr false an wa wb s
def execMmasz (an : BitVec 4) (wa wb : BitVec 6) (s : State) : Outcome := mmasInstr true an wa wb s

/-! ## Accumulator instructions (R226, R227, R308) -/

/-- A flat index that R226 refuses. -/
def flatBad (f : DWord) : Bool := f.extractLsb' 10 54 != 0 || f.toNat % Config.width != 0

def execAccrd (an : BitVec 4) (v : BitVec 7) (wa : BitVec 6) (s : State) : Outcome :=
  groupInstr { wr := [wa], vw := [v.toNat] } 1 s fun s =>
    let f := s.uni wa
    if flatBad f then .trap 0x03 f 8
    else
      let row := (f.toNat + Config.width - 1) / 32
      if s.watermark s.focus.team an.toNat ≤ row then .wait s (.watermark an.toNat row)
      else .next (s.writeV v.toNat s.path.mask fun l => s.team.accAt an.toNat (f.toNat + l))

def execAccwr (an : BitVec 4) (v : BitVec 7) (wa : BitVec 6) (s : State) : Outcome :=
  groupInstr (shapeTeam [v.toNat] [wa] []) 1 s fun s =>
    let f := s.uni wa
    if flatBad f then .trap 0x03 f 8
    else if s.tileBusy s.focus.team an.toNat then .wait s (.tileIdle an.toNat)
    else if !s.hasTile an then .next s
    else .next (s.putTeam ((lanesOf s.path.mask).foldl (fun t l => t.accSet an.toNat (f.toNat + l) (s.lane v l)) s.team))

def execAccz (an : BitVec 4) (s : State) : Outcome :=
  groupInstr (shapeTeam [] [] []) 1 s fun s =>
    if s.tileBusy s.focus.team an.toNat then .wait s (.tileIdle an.toNat)
    else .next (s.putTeam ({ s.team with acc := mapClear (1024 * an.toNat) 1024 s.team.acc }.setTileTag an.toNat {}))

def execWmark (an : BitVec 4) (wa : BitVec 6) (s : State) : Outcome :=
  groupInstr { ww := [wa] } 1 s fun s => .next (s.writeW wa (BitVec.ofNat 64 (s.watermark s.focus.team an.toNat)))

/-- Bytes of an element that ACCST stores (Table 12.6). -/
def accstSize (fmt : BitVec 8) : Option Nat :=
  if fmt = 0x08 || fmt = 0x04 then some 4 else if fmt = 0x09 || fmt = 0x0A then some 2
  else if fmt = 0x0B || fmt = 0x01 then some 1 else none

def execAccst (an : BitVec 4) (wa : BitVec 6) (s : State) : Outcome :=
  groupInstr (shapeTeam [] [wa] []) 1 s fun s =>
    let d := s.uni wa
    let off := (d.extractLsb' 0 32).toNat
    let stride := (d.extractLsb' 32 16).toNat
    let fmt := d.extractLsb' 48 8
    match accstSize fmt with
    | none => .trap 0x03 0 4
    | some z =>
      if d.extractLsb' 56 8 ≠ 0 then .trap 0x03 0 4
      else if off % z ≠ 0 || stride % 16 ≠ 0 || stride < 32 * z then .trap 0x04 (BitVec.ofNat 64 off) 0
      else
        let kind := MatrixKind.accst off stride fmt
        let o : MatrixOp := { seq := 0, team := 0, group := 0, batch := 0, tile := 0, masks := s.edgeMasks, kind := kind }
        match beyond o.writes s.spSize with
        | some b => .trap 0x06 (BitVec.ofNat 64 b) 2
        | none => s.acceptMatrix an kind none

/-! ## Edge masks (R336) -/

def execEmset (wa : BitVec 6) (m : BitVec 4) (s : State) : Outcome :=
  groupInstr { wr := [wa] } 1 s fun s => .next (s.putGroup (s.group.setMask m.toNat ((s.uni wa).extractLsb' 0 32)))

/-- The low `n` bits of a word. -/
def lowMask (n : Nat) : Word := BitVec.ofNat 32 (2 ^ n - 1)

def execEmgen (wa : BitVec 6) (s : State) : Outcome :=
  groupInstr { wr := [wa] } 1 s fun s =>
    let x := (s.uni wa).toNat
    let rows := min (x % 65536) 32
    let cols := min (x / 65536 % 65536) 32
    let k := min (x / 2 ^ 32 % 65536) 192
    let g := (s.group.setMask 0 (lowMask rows)).setMask 1 (lowMask cols)
    .next (s.putGroup ((List.range 6).foldl (fun g i => g.setMask (2 + i) (lowMask (min 32 (k - 32 * i)))) g))

/-! ## The engine at work -/

/-- Scale a value by 2^d. -/
def FVal.scale (x : FVal) (d : Int) : FVal :=
  match x with
  | .num a m e => .num a m (e + d)
  | x => x

/-- The exact sum of a list of terms, the first taken as it is (R150). -/
def sumTerms : List FVal → FVal
  | [] => .num false 0 0
  | x :: xs => xs.foldl (fun a b => (a.add .rne b).1) x

/-- An element as an MMA takes it: E2M1's -0 is a zero (R136). -/
def mmaElem (fmt : Nat) (x : FVal) : FVal :=
  match x with
  | .num true 0 e => if fmt = 0x0D then .num false 0 e else x
  | _ => x

/-- The band scale of an operand (R220). -/
def FormatBlock.band (f : FormatBlock) (t : Team) : FVal :=
  match f.bandoff with
  | none => .num false 1 0
  | some b => Fmt.bf16.value (leNat (t.padRead b 2))

/-- A band scale as its elements and as the sum take it. R150 puts a finite one on the sum. DEDUCED (log entry 68): an infinity or
a NaN goes into each element's value (R137, R220), so that a zero element or products of both signs give a NaN. -/
def FVal.split (band : FVal) : FVal × FVal :=
  match band with
  | .num .. => (.num false 1 0, band)
  | _ => (band, .num false 1 0)

/-- The `n` elements of row `i` of an operand with their scales; a masked K element is +0 (R220, R222). DEDUCED (log
entry 68): also under a band scale that is an infinity or a NaN. -/
def FormatBlock.values (f : FormatBlock) (t : Team) (n : Nat) (float : Bool) (em : List Word) (i : Nat) : List FVal :=
  let w := (codeBits f.fmt.toNat).getD 8
  let bits := leNat (t.padRead (f.off + i * f.stride) (codeBytes f.fmt.toNat n))
  let elem := fun k => mmaElem f.fmt.toNat (memValue f.fmt.toNat (natLe ((w + 7) / 8) (bits / 2 ^ (w * k) % 2 ^ w)) 0)
  let scale := fun k =>
    if float && f.blc != 0 then
      Fmt.e3m5.value (t.padByte (f.blkoff + i * (n / blockLen f.blc) + k / blockLen f.blc)).toNat
    else .num false 1 0
  (List.range n).map fun k =>
    if (em.getD (2 + k / 32) 0).getLsbD (k % 32) then
      (if float then (((elem k).mul (scale k)).1.mul (f.band t).split.1).1 else elem k)
    else .num false 0 0

/-- acc + T with one rounding to FP32 (R150). -/
def accRound (base : Word) (x : FVal) : Word :=
  BitVec.ofNat 32 (roundTo .fp32 .rne ((Fmt.fp32.value base.toNat).add .rne x).1).1

/-- One output of a floating-point MMA (R150); the band scales are those of the sum. -/
def mmaFloat (base : Word) (a b : List FVal) (bandA bandB : FVal) : Word :=
  let s := sumTerms ((a.zip b).map fun p => (p.1.mul p.2).1)
  accRound base ((s.mul bandA).1.mul bandB).1

/-- An integer value. -/
def FVal.toInt : FVal → Int
  | .num a m _ => if a then -(m : Int) else m
  | _ => 0

/-- Clamp to n-bit signed integers. -/
def satInt (n : Nat) (x : Int) : BitVec n := BitVec.ofInt n (max (-(2 ^ (n - 1))) (min x (2 ^ (n - 1) - 1)))

/-- One output of an integer MMA (R151). -/
def mmaInt (base : Word) (a b : List FVal) : Word :=
  satInt 32 (base.toInt + ((a.zip b).map fun p => p.1.toInt * p.2.toInt).sum)

/-- Row `i` of an MMA. -/
def Team.mmaRow (t : Team) (tile : Nat) (masks : List Word) (zero : Bool) (a b : FormatBlock) (i : Nat) : Team :=
  let float := !isIntFmt a.fmt
  let n := depthOf a.fmt.toNat b.fmt.toNat
  let ra := a.values t n float masks i
  let ba := (a.band t).split.2
  let bb := (b.band t).split.2
  (maskRows (masks.getD 1 0) 0).foldl (fun (t' : Team) j =>
    let base := if zero then 0 else t.accAt tile (32 * i + j)
    let rb := b.values t n float masks j
    t'.accSet tile (32 * i + j) (if float then mmaFloat base ra rb ba bb else mmaInt base ra rb)) t

/-- A packed CBF16 slot: real part in the low half (R139). -/
def slotValue (t : Team) (off : Nat) : FVal × FVal :=
  let x := leNat (t.padRead off 4)
  (Fmt.bf16.value (x % 65536), Fmt.bf16.value (x / 65536))

/-- The product of two slots; bins 0 and b/2 share a slot and multiply as reals (R233). -/
def slotProduct (real : Bool) (x y : FVal × FVal) : FVal × FVal :=
  if real then ((x.1.mul y.1).1, (x.2.mul y.2).1)
  else
    (((x.1.mul y.1).1.add .rne (x.2.mul y.2).1.neg).1, ((x.1.mul y.2).1.add .rne (x.2.mul y.1).1).1)

/-- Row `i` of an MMAS. -/
def Team.mmasRow (t : Team) (tile : Nat) (masks : List Word) (zero : Bool) (a b : FormatBlock) (half : Nat) (d : Int)
    (i : Nat) : Team :=
  ((maskRows (masks.getD 1 0) 0).filter fun c => decide (c < 16)).foldl (fun (t' : Team) c =>
    let p := slotProduct ((16 * i + c) % half == 0) (slotValue t (a.off + i * a.stride + 4 * c)) (slotValue t (b.off + 4 * c))
    let k := 32 * i + 2 * c
    let base := fun (k : Nat) => if zero then (0 : Word) else t.accAt tile k
    (t'.accSet tile k (accRound (base k) (p.1.scale d))).accSet tile (k + 1) (accRound (base (k + 1)) (p.2.scale d))) t

/-- An element as ACCST stores it (Table 12.6). -/
def accstBytes (fmt : BitVec 8) (x : Word) : List Byte :=
  if fmt = 0x08 || fmt = 0x04 then natLe 4 x.toNat
  else if fmt = 0x09 then natLe 2 (roundTo .fp16 .rne (Fmt.fp32.value x.toNat)).1
  else if fmt = 0x0A then natLe 2 (roundTo .bf16 .rne (Fmt.fp32.value x.toNat)).1
  else if fmt = 0x0B then natLe 1 (roundTo .e4m3 .rna (Fmt.fp32.value x.toNat)).1
  else [(satInt 8 x.toInt)]

/-- Row `i` of an ACCST: its granules become spatial (R227). -/
def Team.accstRow (t : Team) (tile : Nat) (masks : List Word) (off stride : Nat) (fmt : BitVec 8) (i : Nat) : Team :=
  (maskRows (masks.getD 1 0) 0).foldl (fun (t : Team) j =>
    let bs := accstBytes fmt (t.accAt tile (32 * i + j))
    let a := off + i * stride + j * bs.length
    (t.padWrite a bs).setTags a bs.length 0) t

def Team.matrixRow (t : Team) (o : MatrixOp) (i : Nat) : Team :=
  match o.kind with
  | .mma z a b => t.mmaRow o.tile o.masks z a b i
  | .mmas z a b half d => t.mmasRow o.tile o.masks z a b half d i
  | .accst off stride fmt => t.accstRow o.tile o.masks off stride fmt i

/-- The operation reduced to one row. -/
def MatrixOp.onlyRow (o : MatrixOp) (i : Nat) : MatrixOp := { o with masks := BitVec.twoPow 32 i :: o.masks.drop 1, row := 0 }

/-- The next row of an operation must wait for operations accepted before it (R193, R240). -/
def State.matrixBlocked (s : State) (core : Nat) (o : MatrixOp) : Bool :=
  match (maskRows o.em0 o.row).head? with
  | none => false
  | some i =>
    let r := o.onlyRow i
    s.interlocked o.team o.seq r.reads false || s.interlocked o.team o.seq r.writes true
      || (s.coreAt core).transformQ.any fun x => x.team == o.team && decide (x.seq < o.seq) && x.kind.tile == some o.tile

/-- MATRIX_OP_START: the engine takes up its oldest operation (R224). -/
def execMatrixOpStart (core : Nat) (s : State) : Outcome :=
  let c := s.coreAt core
  match c.matrixQ with
  | o :: rest => if o.started then .next s else .next (s.setCore core { c with matrixQ := { o with started := true } :: rest })
  | [] => .next s

/-- MATRIX_ROW_FINAL: the next enabled row of the started operation becomes final; after its last the operation ends. -/
def execMatrixRowFinal (core : Nat) (s : State) : Outcome :=
  match (s.coreAt core).matrixQ with
  | [] => .next s
  | o :: rest =>
    if !o.started || s.matrixBlocked core o then .next s
    else
      let put := fun (s : State) (q : List MatrixOp) => s.setCore core { s.coreAt core with matrixQ := q }
      let ended := fun (s : State) => if o.kind.updates then s else s.wake o.team (· == o.group)
      match maskRows o.em0 o.row with
      | [] => .next (ended (put s rest))
      | i :: more =>
        let s := s.setTeam o.team ((s.teamAt o.team).matrixRow o i)
        if more.isEmpty then .next (ended (put s rest)) else .next (put s ({ o with row := i + 1 } :: rest))

end Sys2Proof.Machine
end

