-- ==== Sys2Proof/Machine/Spectral.lean ====
section
/-!
DEFINITION. Sys2Proof/Machine/Spectral.lean: the transform family, group-space major 0x23, and the transform unit at work (R230
to R242, R427, R428).
-/
namespace Sys2Proof.Machine

/-! ## Twiddles (R230) -/

/-- rne(cos(2πm/256), FP32) for m from 0 to 64. -/
def cosQuarter : List Nat :=
  [0x3F800000, 0x3F7FEC43, 0x3F7FB10F, 0x3F7F4E6D, 0x3F7EC46D, 0x3F7E1324, 0x3F7D3AAC, 0x3F7C3B28, 0x3F7B14BE,
   0x3F79C79D, 0x3F7853F8, 0x3F76BA07, 0x3F74FA0B, 0x3F731447, 0x3F710908, 0x3F6ED89E, 0x3F6C835E, 0x3F6A09A7,
   0x3F676BD8, 0x3F64AA59, 0x3F61C598, 0x3F5EBE05, 0x3F5B941A, 0x3F584853, 0x3F54DB31, 0x3F514D3D, 0x3F4D9F02,
   0x3F49D112, 0x3F45E403, 0x3F41D870, 0x3F3DAEF9, 0x3F396842, 0x3F3504F3, 0x3F3085BB, 0x3F2BEB4A, 0x3F273656,
   0x3F226799, 0x3F1D7FD1, 0x3F187FC0, 0x3F13682A, 0x3F0E39DA, 0x3F08F59B, 0x3F039C3D, 0x3EFC5D27, 0x3EF15AEA,
   0x3EE63375, 0x3EDAE880, 0x3ECF7BCA, 0x3EC3EF15, 0x3EB8442A, 0x3EAC7CD4, 0x3EA09AE5, 0x3E94A031, 0x3E888E93,
   0x3E78CFCC, 0x3E605C13, 0x3E47C5C2, 0x3E2F10A2, 0x3E164083, 0x3DFAB273, 0x3DC8BD36, 0x3D96A905, 0x3D48FB30,
   0x3CC90AB0, 0x00000000]

/-- cosw for length 256, of any m. -/
def cosw256 (m : Nat) : FVal :=
  let m := m % 256
  let m := if 128 < m then 256 - m else m
  if m ≤ 64 then Fmt.fp32.value (cosQuarter.getD m 0)
  else (Fmt.fp32.value (cosQuarter.getD (128 - m) 0)).neg

/-- cosw(m) and sinw(m) for length b. -/
def cosw (b m : Nat) : FVal := cosw256 (m % b * (256 / b))
def sinw (b m : Nat) : FVal := cosw256 (m % b * (256 / b) + 192)

/-- X[k] of the forward transform (R230), its real and imaginary parts. -/
def forwardBin (b : Nat) (x : List FVal) (k : Nat) : FVal × FVal :=
  let at' := fun (w : Nat → FVal) => x.zipIdx.map fun p => (p.1.mul (w (p.2 * k))).1
  (sumTerms (at' (cosw b)), sumTerms ((at' (sinw b)).map FVal.neg))

/-- One part of a spectrum as XFT stores it: an exact zero is +0 (R237). -/
def spectralPart (x : FVal) (s : Nat) : Nat :=
  match x with
  | .num _ 0 _ => 0
  | x => (roundTo .bf16 .rne (x.scale (-(s : Int)))).1

/-- The packed spectrum of a vector (R230, R237). -/
def packSpectrum (b : Nat) (x : List FVal) (s : Nat) : List Byte :=
  (List.range (b / 2)).flatMap fun k =>
    let (re, im) := if k = 0 then ((forwardBin b x 0).1, (forwardBin b x (b / 2)).1) else forwardBin b x k
    natLe 2 (spectralPart re s) ++ natLe 2 (spectralPart im s)

/-- t of R238 for element n, from the slots of a spectrum. -/
def inverseElem (b : Nat) (y : List (FVal × FVal)) (n : Nat) : FVal :=
  let y0 := y.headD (.num false 0 0, .num false 0 0)
  let rest := ((y.zipIdx).drop 1).flatMap fun p =>
    [((p.1.1.mul (cosw b (n * p.2))).1).scale 1, ((p.1.2.mul (sinw b (n * p.2))).1.neg).scale 1]
  sumTerms ([y0.1, if n % 2 = 1 then y0.2.neg else y0.2] ++ rest)

/-- t × 2^(e - log2 b). -/
def inverseScaled (b : Nat) (y : List (FVal × FVal)) (e : Int) (n : Nat) : FVal :=
  (inverseElem b y n).scale (e - (b.log2 : Nat))

/-! ## Activations (Table 13.6) -/

/-- x / (1 + e^-x) for a finite x other than zero, in fixed point. -/
def fxSilu (neg : Bool) (y : Int) : Int :=
  let u := fxExpNeg y
  if neg then -(fxDiv (fxMul y u) (fxOne + u)) else fxDiv (y * fxOne) (fxOne + u) / fxOne

/-- 0.5 x (1 + tanh u) for u = 0.79788456 (x + 0.044715 x³), in fixed point; y is the magnitude of x. -/
def fxGelu (neg : Bool) (y : Int) : Int :=
  let u := 79788456 * (y + 44715 * fxMul (fxMul y y) y / 1000000) / 100000000
  let v := fxExpNeg (2 * u)
  if neg then -(fxDiv (fxMul y v) (fxOne + v)) else fxDiv (y * fxOne) (fxOne + v) / fxOne

/-- Round with a sign of its own: a magnitude below every fraction bit keeps the sign of the value. -/
def roundFxSigned (neg : Bool) (x : Int) : Nat := (roundNum .fp32 .rne neg (x.natAbs / 2 ^ 40) (-408) true).1

/-- act_f of FP32 bits. -/
def activation (f : Nat) (x : Nat) : Nat :=
  match f, Fmt.fp32.value x with
  | 0, _ => x
  | _, .nan _ => Fmt.fp32.nan
  | 1, .inf neg => if neg then 0 else x
  | 1, .num neg m _ => if neg || m = 0 then 0 else x
  | _, .inf neg => if neg then 0 else x
  | 2, .num neg m e => if m = 0 then x else roundFxSigned neg (fxSilu neg (fxOf false m e))
  | _, .num neg m e => if m = 0 then x else roundFxSigned neg (fxGelu neg (fxOf false m e))

/-! ## Descriptors and issue checks (R235, R236) -/

def transformDescOf (x : Nat) : TransformDesc :=
  { off := bitField x 17 0, count := bitField x 28 18, stride := bitField x 47 32, fmt := BitVec.ofNat 8 (bitField x 55 48),
    shift := bitField x 59 56, reserved := bitField x 63 60 + bitField x 31 29 }

/-- A scratchpad operand of a transform, as the checks see it. -/
structure Side where
  desc : TransformDesc
  spectral : Bool
  dest : Bool := false
  bias : Bool := false

/-- Element size of a spatial format. -/
def spatialSize (f : BitVec 8) : Option Nat :=
  if f = 0x08 then some 4 else if f = 0x09 || f = 0x0A then some 2 else none

def Side.formatOk (x : Side) : Bool := if x.spectral then x.desc.fmt == 0x10 else (spatialSize x.desc.fmt).isSome
/-- The alignment unit and the bytes of a vector, for length b. -/
def Side.unit (x : Side) (b : Nat) : Nat := if x.spectral then 2 * b else (spatialSize x.desc.fmt).getD 1
def Side.vector (x : Side) (b : Nat) : Nat := if x.spectral then 2 * b else b * (spatialSize x.desc.fmt).getD 1
def Side.misaligned (x : Side) (b : Nat) : Option Nat :=
  if x.desc.off % x.unit b ≠ 0 then some x.desc.off
  else if x.desc.stride % x.unit b ≠ 0 || (x.desc.stride < x.vector b && !(x.bias && x.desc.stride == 0)) then
    some x.desc.stride
  else none
def Side.spans (x : Side) (b count : Nat) : List Span := vectorSpans x.desc.off x.desc.stride (x.vector b) count

/-- Check 1 of Table 13.5; `limit` bounds the destination's COUNT and `shift` says that it may have a SHIFT. -/
def Side.fieldsBad (x : Side) (limit : Nat) (shift : Bool) : Bool :=
  x.desc.reserved != 0 || !x.formatOk || (x.desc.shift != 0 && !(x.dest && shift))
    || (if x.dest then decide (limit < x.desc.count) else x.desc.count != 0)

/-- What a transform checks and queues. -/
structure Transform where
  len : Nat
  /-- the tile read, and whether its tag is spectral -/
  tile : Option Bool
  dst : Side
  src : Option Side
  shift : Bool
  kind : TransformKind

/-- The checks of Table 13.5 in order, then the queue (R240). Checks 1 to 3 take the destination before the source. -/
def State.transform (s : State) (x : Transform) : Res :=
  let b := x.len
  let n := x.dst.desc.count
  let sides := x.dst :: x.src.toList
  let limit := (if x.tile.isSome then 1024 else 16384) / b
  let src := (x.src.toList).flatMap fun y => y.spans b n
  let dst := x.dst.spans b n
  if sides.any fun y => y.fieldsBad limit x.shift then .trap 0x03 0 4
  else match sides.findSome? fun y => y.misaligned b with
    | some o => .trap 0x04 (BitVec.ofNat 64 o) 0
    | none => match beyond (dst ++ src) s.spSize with
      | some o => .trap 0x06 (BitVec.ofNat 64 o) 2
      | none =>
        if x.tile = some false then .trap 0x0A 0 3
        else
          let gs := granulesOf src
          if s.tagPending s.focus.team s.acceptSeq gs then .wait s (.tags gs)
          else
            let spectral := x.src.any (·.spectral)
            let bad := if spectral then s.team.badGranule gs else gs.find? fun g => (s.team.gtag g).getLsbD 0
            match bad with
            | some g => .trap 0x0A (BitVec.ofNat 64 (1024 * g)) (if spectral then 1 else 2)
            | none => match gs.find? fun g => (granulesOf dst).contains g with
              | some g => .trap 0x0A (BitVec.ofNat 64 (1024 * g)) 5
              | none =>
                if 2 ≤ (s.coreAt s.coreNow).transformQ.length then .wait s (.engineQueue .transform)
                else
                  let (q, s) := s.accept
                  let o : TransformOp := { seq := q, team := s.focus.team, group := s.focus.group, batch := s.group.batch,
                                           len := b, dst := x.dst.desc, kind := x.kind }
                  let c := s.coreAt s.coreNow
                  .next (s.setCore s.coreNow { c with transformQ := c.transformQ ++ [o] })

def State.descAt (s : State) (w : BitVec 6) : TransformDesc := transformDescOf (s.uni w).toNat

def execXft (wa wb : BitVec 6) (lb : BitVec 4) (s : State) : Outcome :=
  groupInstr (shapeTeam [] [wa, wb] []) 1 s fun s =>
    let p := s.descAt wa
    s.transform { len := 16 * 2 ^ lb.toNat, tile := none, dst := { desc := s.descAt wb, spectral := true, dest := true },
                  src := some { desc := p, spectral := false }, shift := true, kind := .xft p }

/-- The length a tile tag gives (R236). -/
def TileTag.len (t : TileTag) : Nat := 16 * 2 ^ t.logb

def execIxft (an : BitVec 4) (wb : BitVec 6) (s : State) : Outcome :=
  groupInstr (shapeTeam [] [wb] []) 1 s fun s =>
    let t := s.tileTag an
    s.transform { len := t.len, tile := some t.spectral, dst := { desc := s.descAt wb, spectral := false, dest := true },
                  src := none, shift := false, kind := .ixftTile an.toNat t.et }

def execIxftScratchpad (wa wb : BitVec 6) (s : State) : Outcome :=
  groupInstr (shapeTeam [] [wa, wb] []) 1 s fun s =>
    let p := s.descAt wa
    let inside := decide (p.off < s.spSize)
    let g := p.off / 1024
    if inside && s.tagPending s.focus.team s.acceptSeq [g] then .wait s (.tags [g])
    else
      let tag := if inside then s.team.gtag g else 0
      let lb := if tag.getLsbD 0 && decide (tagLogb tag ≤ 4) then tagLogb tag else 0
      s.transform { len := 16 * 2 ^ lb, tile := none, dst := { desc := s.descAt wb, spectral := false, dest := true },
                    src := some { desc := p, spectral := true }, shift := false, kind := .ixftScratch p (tagExp tag) }

/-- XACT with or without a bias descriptor. -/
def xactInstr (an : BitVec 4) (bias : Option (BitVec 6)) (wb : BitVec 6) (f : BitVec 2) (s : State) : Outcome :=
  groupInstr (shapeTeam [] (bias.toList ++ [wb]) []) 1 s fun s =>
    let t := s.tileTag an
    let b := bias.map s.descAt
    s.transform { len := t.len, tile := some t.spectral, dst := { desc := s.descAt wb, spectral := true, dest := true },
                  src := b.map fun d => { desc := d, spectral := false, bias := true }, shift := true,
                  kind := .xact an.toNat t.et f.toNat b }

def execXact (an : BitVec 4) (wb : BitVec 6) (f : BitVec 2) (s : State) : Outcome := xactInstr an none wb f s
def execXactBias (an : BitVec 4) (wa wb : BitVec 6) (f : BitVec 2) (s : State) : Outcome := xactInstr an (some wa) wb f s

/-! ## DTAG and DSET (R241) -/

/-- The granule that holds offset w[wa], once no footprint is pending over it. -/
def State.tagAccess (s : State) (wa : BitVec 6) (k : Nat → Res) : Res :=
  let o := s.uni wa
  if o.extractLsb' 18 46 ≠ 0 || s.spSize ≤ o.toNat then .trap 0x06 o 2
  else
    let g := o.toNat / 1024
    if s.tagPending s.focus.team s.acceptSeq [g] then .wait s (.tags [g]) else k g

def execDtag (wa wb : BitVec 6) (s : State) : Outcome :=
  groupInstr (shapeTeam [] [wa] [wb]) 1 s fun s =>
    s.tagAccess wa fun g => .next (s.writeW wb ((s.team.gtag g).setWidth 64))

def execDtagTile (an : BitVec 4) (wb : BitVec 6) (s : State) : Outcome :=
  groupInstr (shapeTeam [] [] [wb]) 1 s fun s =>
    let t := s.tileTag an
    .next (s.writeW wb (BitVec.ofNat 64 (t.spectral.toNat + 2 * t.logb + 16 * (BitVec.ofInt 16 t.et).toNat)))

/-- A tag value that DSET refuses. -/
def badTag (x : DWord) : Bool :=
  x.extractLsb' 16 48 != 0 || (x != 0 && !x.getLsbD 0) || (x.getLsbD 0 && !tagSpectral (x.extractLsb' 0 32))

/-- DSET (R241). DEDUCED (log entry 31): an offset out of range traps before an illegal tag value. -/
def execDset (wa wb : BitVec 6) (s : State) : Outcome :=
  groupInstr (shapeTeam [] [wa, wb] []) 1 s fun s =>
    let o := s.uni wa
    if (o.extractLsb' 18 46 = 0 && o.toNat < s.spSize) && badTag (s.uni wb) then .trap 0x03 0 9
    else s.tagAccess wa fun g => .next (s.putTeam { s.team with gtags := mapSet 0 s.team.gtags g ((s.uni wb).extractLsb' 0 32) })

/-! ## The transform unit at work -/

/-- Spectrum v of a tile (R230). -/
def Team.tileSpectrum (t : Team) (tile b v : Nat) : List (FVal × FVal) :=
  (List.range (b / 2)).map fun k =>
    let n := v * (b / 2) + k
    (Fmt.fp32.value (t.accAt tile (2 * n)).toNat, Fmt.fp32.value (t.accAt tile (2 * n + 1)).toNat)

/-- A packed spectrum at a scratchpad offset. -/
def Team.padSpectrum (t : Team) (off b : Nat) : List (FVal × FVal) := (List.range (b / 2)).map fun k => slotValue t (off + 4 * k)

/-- The elements of a spatial vector. -/
def Team.padVector (t : Team) (off b : Nat) (fmt : BitVec 8) : List FVal :=
  let z := (spatialSize fmt).getD 1
  (List.range b).map fun n => memValue fmt.toNat (t.padRead (off + n * z) z) 0

/-- Real elements in a spatial format (R238). -/
def spatialBytes (fmt : BitVec 8) (xs : List FVal) : List Byte :=
  xs.flatMap fun x => natLe ((spatialSize fmt).getD 1) (roundPart fmt.toNat x).1

/-- x[n] of XACT, steps 1 to 3 (R239). -/
def xactElem (b : Nat) (y : List (FVal × FVal)) (et : Int) (f : Nat) (bias : Option FVal) (n : Nat) : FVal :=
  let x := (roundTo .fp32 .rne (inverseScaled b y et n)).1
  let x := match bias with
    | none => x
    | some c => (roundTo .fp32 .rne ((Fmt.fp32.value x).add .rne c).1).1
  Fmt.fp32.value (activation f x)

/-- The bytes of destination vector v. -/
def TransformOp.vector (o : TransformOp) (t : Team) (v : Nat) : List Byte :=
  let b := o.len
  match o.kind with
  | .xft src => packSpectrum b (t.padVector (src.off + v * src.stride) b src.fmt) o.dst.shift
  | .ixftTile tile et => spatialBytes o.dst.fmt ((List.range b).map (inverseScaled b (t.tileSpectrum tile b v) et))
  | .ixftScratch src e =>
    spatialBytes o.dst.fmt ((List.range b).map (inverseScaled b (t.padSpectrum (src.off + v * src.stride) b) e))
  | .xact tile et f bias =>
    let y := t.tileSpectrum tile b v
    let c := bias.map fun d => t.padVector (d.off + v * d.stride) b d.fmt
    packSpectrum b ((List.range b).map fun n => xactElem b y et f (c.map fun l => l.getD n (.num false 0 0)) n) o.dst.shift

/-- The tag an operation leaves on its destination granules (R231). -/
def TransformOp.tag (o : TransformOp) : Word :=
  if o.kind.isIxft then 0 else BitVec.ofNat 32 (1 + 2 * (o.len.log2 - 4) + 16 * o.dst.shift)

/-- The whole operation: its vectors, then its tags. Source and destination share no granule. -/
def Team.runTransform (t : Team) (o : TransformOp) : Team :=
  let t' := (List.range o.dst.count).foldl (fun (t' : Team) v => t'.padWrite (o.dst.off + v * o.dst.stride) (o.vector t v)) t
  { t' with gtags := (granulesOf o.writes).foldl (fun m g => mapSet 0 m g o.tag) t'.gtags }

/-- The unit's oldest operation waits for operations accepted before it (R193, R240). -/
def State.transformBlocked (s : State) (core : Nat) (o : TransformOp) : Bool :=
  s.interlocked o.team o.seq o.reads false || s.interlocked o.team o.seq o.writes true
    || (o.setsTags && s.tagsAwait o.team o.seq o.writes)
    || (s.coreAt core).matrixQ.any fun x =>
      x.team == o.team && decide (x.seq < o.seq) && x.kind.updates && o.kind.tile == some x.tile

/-- TRANSFORM_OP_COMPLETE: the unit finishes its oldest operation. -/
def execTransformOpComplete (core : Nat) (s : State) : Outcome :=
  let c := s.coreAt core
  match c.transformQ with
  | [] => .next s
  | o :: rest =>
    if s.transformBlocked core o then .next s
    else
      let s := s.setTeam o.team ((s.teamAt o.team).runTransform o)
      .next ((s.setCore core { s.coreAt core with transformQ := rest }).wake o.team (· == o.group))

end Sys2Proof.Machine
end

