-- ==== Sys2Proof/Machine/Trap.lean ====
section
/-!
DEFINITION. Sys2Proof/Machine/Trap.lean: TRAP, RTE, TSAVE and TREST, group-space majors 0x38 and 0x39 (R97, R283, R284,
R394), and SPACE, SCAST and SCASTL, major 0x3B (R401).
-/
namespace Sys2Proof.Machine

/-! ## TRAP and RTE -/

def execTrap (code : BitVec 13) (s : State) : Outcome :=
  groupInstr {} 1 s fun s => .nextTrap s 0x01 (code.setWidth 64)

/-- A member of the RTE family outside trap mode traps with cause 0x15 (R284). -/
def State.inHandler (s : State) (k : TrapContext → Res) : Res :=
  match s.group.trap with
  | none => .trap 0x15 0 0x2000
  | some c => k c

/-- The group after RTE: both slots, DOCC and DSBASE of the path block, the trapping slot at TPC (R284). -/
def Group.leaveTrap (g : Group) (c : TrapContext) : Group :=
  let resume := fun (b : Bool) (p : Option Path) =>
    if b == c.slot then p.map fun p =>
      { p with pc := g.tpc, wait := none, walked := false, released := false, bpSkip := true
               again := p.again.filter fun _ => g.tpc == p.pc } else p
  { g with trap := none, path0 := resume false c.path0, path1 := resume true c.path1, cur := c.cur, issues := c.issues, age := 0
           docc := c.docc, dsbase := c.dsbase, latchA := none, latchB := none, shadowV := [], shadowW := [] }

/-- Memory at TFRAME still holds the path block that the device wrote (R281). -/
def State.frameIntact (s : State) (c : TrapContext) : Bool :=
  BitVec.ofNat 1024 (s.readPhys s.group.record.toNat 128) == c.block

/-- The interrupted slots and DOCC as the frame gives them. Where software has written the frame, the group's control flow is
undefined within its team (R281; log entry 18): the program counters and masks of both slots and DOCC are free values. -/
def State.frameContext (s : State) (c : TrapContext) : TrapContext × State :=
  if s.frameIntact c then (c, s)
  else
    let (pc0, s) := s.free
    let (m0, s) := s.free
    let (pc1, s) := s.free
    let (m1, s) := s.free
    let (d, s) := s.free
    ({ c with path0 := c.path0.map fun p => { p with pc := pc0, mask := m0 &&& s.group.live, again := none }
              path1 := c.path1.map fun p => { p with pc := pc1, mask := m1 &&& s.group.live, again := none }
              docc := d.setWidth 32 }, s)

/-- RTE's effect in trap mode. -/
def State.returnFromTrap (s : State) (c : TrapContext) : State :=
  if s.group.path1.isSome || s.group.docc != 0 then
    s.doubleFault s.focus.team s.focus.group 0x0B s.path.pc 0
  else
    let (c, s) := s.frameContext c
    { s.putGroup (s.group.leaveTrap c) with focus := { s.focus with slot := c.cur } }

def execRte (s : State) : Outcome := groupInstr {} 1 s fun s => s.inHandler fun c => .moved (s.returnFromTrap c)

/-! ## The group image (Table 5.2) -/

/-- Bytes of a group image in trap mode. -/
def imageBytes (r : Nat) : Nat := 0x300 + 256 * (r + 16)

/-- The image of a group: its own registers, and the shadow set in trap mode. -/
def Group.imageOf (g : Group) (v : Variant) : List Byte :=
  let own := { g with trap := none }
  let shadow := g.trap.isSome
  (List.range 64).flatMap (fun n => natLe 8 (own.wget v (BitVec.ofNat 6 n)).toNat)
    ++ (List.range 8).flatMap (fun n => natLe 16 (own.pget (BitVec.ofNat 3 n)).toNat)
    ++ (List.range 8).flatMap (fun n => natLe 4 (g.mask n).toNat)
    ++ natLe 8 g.flags.toNat ++ natLe 8 (if shadow then 1 else 0) ++ natLe 16 0
    ++ (List.range 8).flatMap (fun n => natLe 8 (if shadow then (mapGet 0 g.shadowW (56 + n)).toNat else 0))
    ++ (List.range v.regs).flatMap (fun n => (List.range 64).flatMap fun l => natLe 4 (own.vget v n l).toNat)
    ++ (if shadow then (List.range 16).flatMap fun n => (List.range 64).flatMap fun l =>
          natLe 4 (mapGet 0 g.shadowV (64 * n + l)).toNat else [])

/-- The group with its own registers, edge masks and FLAGS from an image (R284). -/
def Group.fromImage (g : Group) (v : Variant) (bs : List Byte) : Group :=
  let num := fun o n => leNat ((bs.drop o).take n)
  g.own fun g =>
    let g := (List.range 64).foldl (fun g n => g.wset v (BitVec.ofNat 6 n) (BitVec.ofNat 64 (num (8 * n) 8))) g
    let g := (List.range 8).foldl (fun g n =>
      g.pset (BitVec.ofNat 3 n) (BitVec.allOnes 64) (BitVec.ofNat 64 (num (0x200 + 16 * n) 8))) g
    let g := (List.range 8).foldl (fun g n => g.setMask n (BitVec.ofNat 32 (num (0x280 + 4 * n) 4))) g
    let g := (List.range v.regs).foldl (fun g n =>
      g.vset v n (BitVec.allOnes 64) fun l => BitVec.ofNat 32 (num (0x300 + 256 * n + 4 * l) 4)) g
    { g with flags := BitVec.ofNat 5 (num 0x2A0 1) }

/-- The fault of one access of an image: its own checks, those of its pages, or poison that a load reads. -/
def State.imageFault (s : State) (write : Bool) (x : BitVec 64 × Except AccessFault Place) : Option AccessFault :=
  match x.2 with
  | .error f => some f
  | .ok p =>
    match s.checkPieces x.1 p.pieces write with
    | some f => some f
    | none => if !write && s.poisonPieces p.pieces false then some ⟨0x13, x.1, 1⟩ else none

/-- The accesses of an image of `n` bytes at a 256-byte-aligned address, 256 bytes each: the checks and waits of a
group-space access (R423), every one before any effect. -/
def imageAccess (a : BitVec 64) (n : Nat) (write : Bool) (s : State) (k : State → List Place → Res) : Res :=
  let places := (List.range (n / 256)).map fun i =>
    let x := a + BitVec.ofNat 64 (256 * i)
    (x, s.resolve none x 256)
  let good := places.filterMap fun p => p.2.toOption
  match s.walkPages (good.flatMap fun p => pagesOf p.pieces) with
  | .error w => .wait s w
  | .ok s =>
    match places.findSome? (s.imageFault write) with
    | some f => .trap f.cause f.addr (BitVec.ofNat 64 f.info)
    | none =>
      let spans := ownSpans s.focus.team 256 good
      if s.interlocked s.focus.team s.acceptSeq spans write then .wait s (.footprint spans write) else k s good

def execTsave (wa : BitVec 6) (s : State) : Outcome :=
  groupInstr { wr := [wa] } 1 s fun s => s.inHandler fun _ =>
    let a := s.uni wa
    if a.toNat % 256 ≠ 0 then .trap 0x04 a 0
    else
      let bs := s.group.imageOf s.variant
      imageAccess a (imageBytes s.variant.regs) true s fun s places =>
        .next (places.zipIdx.foldl (fun s p => s.storePlace p.1 ((bs.drop (256 * p.2)).take 256)) s)

def execTrest (wa : BitVec 6) (s : State) : Outcome :=
  groupInstr { wr := [wa] } 1 s fun s => s.inHandler fun _ =>
    let a := s.uni wa
    if a.toNat % 256 ≠ 0 then .trap 0x04 a 0
    else imageAccess a (0x300 + 256 * s.variant.regs) false s fun s places =>
      let bs := places.flatMap fun p => s.loadPlace p 256
      let s := places.foldl (fun s p => s.allocPieces p.pieces) s
      .next (s.putGroup (s.group.fromImage s.variant bs))

/-! ## SPACE, SCAST and SCASTL -/

def execSpace (wd wa : BitVec 6) (s : State) : Outcome :=
  groupInstr { wr := [wa], ww := [wd] } 1 s fun s =>
    .next (s.writeW wd (BitVec.ofNat 64 (spaceClass s.team.tag (s.uni wa))))

def execScast (wd wa : BitVec 6) (s : State) : Outcome :=
  groupInstr { wr := [wa], ww := [wd] } 1 s fun s =>
    if s.spSize ≤ (s.uni wa).toNat then .trap 0x06 (s.uni wa) 2
    else .next (s.writeW wd (0xFFFFFE0000000000 ||| (s.team.tag.setWidth 64 <<< 24) ||| s.uni wa))

def execScastl (wd wa : BitVec 6) (s : State) : Outcome :=
  groupInstr { wr := [wa], ww := [wd] } 1 s fun s =>
    let a := s.uni wa
    let c := spaceClass s.team.tag a
    if c = 3 then .trap 0x05 a ((a.extractLsb' 24 16).setWidth 64)
    else if c ≠ 2 then .trap 0x06 a 5
    else if s.spSize ≤ padOffset a then .trap 0x06 a 2
    else .next (s.writeW wd ((a.extractLsb' 0 18).setWidth 64))

end Sys2Proof.Machine
end

