-- ==== Sys2Proof/Machine/Preempt.lean ====
section
/-!
DEFINITION. Sys2Proof/Machine/Preempt.lean: pre-emption (R85 to R87), the context save (R289), the restore (R88, R290), and the
spill of a grow-deadlocked core (R61).
-/
namespace Sys2Proof.Machine

/-! ## Ensembles -/

/-- Ensembles with a resident team, as node and number. -/
def State.residentEnsembles (s : State) : List (Nat × Nat) :=
  ((s.teams.filter fun t => t.status == .resident).map fun t => (t.node, t.ens)).eraseDups

/-- The state in which the teams that satisfy a test have left their cores, and their copy jobs with them. -/
def State.without (s : State) (f : Nat → Bool) : State :=
  { s with
    teams := s.teams.zipIdx.map fun p => if p.1.onCore && f p.2 then { p.1 with status := .saved } else p.1
    cores := s.cores.map fun p =>
      (p.1, { p.2 with copyQ := p.2.copyQ.filter fun j => !((s.teamAt j.team).onCore && f j.team) }) }

/-- No node that ranks above can restore or place an ensemble now. -/
def State.topRestorable (s : State) (i : Nat) : Bool := s.topPlaceable i

/-! ## Victims (R85) -/

/-- Put a node before the first that it ranks above. -/
def State.insertRanked (s : State) (i : Nat) : List Nat → List Nat
  | [] => [i]
  | j :: l => if s.ranksAbove i j then i :: j :: l else j :: s.insertRanked i l

/-- The nodes that wait for cores, highest rank first. -/
def State.waitingNodes (s : State) : List Nat :=
  ((List.range s.nodes.length).filter s.wantsCores).foldl (fun l i => s.insertRanked i l) []

/-- The next ensemble of a waiting node fits in cluster `c`. -/
def State.fitsIn (s : State) (i c : Nat) : Bool :=
  match (s.savedEnsembles i).find? (s.ensembleSaved i) with
  | some e => (s.restoreIn i e c).isSome
  | none => decide ((s.nodeAt i).ensTeams ≤ (s.freeCores i c).length)

/-- Node `i` may pre-empt work of node `v`: that of another region out of its budget (R78), or, for the node of the highest
rank, that of one of strictly lower priority. -/
def State.mayPreempt (s : State) (i v : Nat) : Bool :=
  let r := (s.nodeAt i).region
  let q := (s.nodeAt v).region
  (q != r && s.outOfBudget q)
    || (s.waitingNodes.head? == some i && decide ((s.regionAt q).prio < (s.regionAt r).prio))

/-- The youngest residence of an ensemble. -/
def State.residenceOf (s : State) (e : Nat × Nat) : Nat :=
  (s.ensembleTeams e.1 e.2).foldl (fun r t => max r (s.teamAt t).residence) 0

/-- Victim `a` goes before victim `b`: budget-exhausted regions, lowest priority, latest deadline, youngest residence. -/
def State.victimBefore (s : State) (a b : Nat × Nat) : Bool :=
  let ra := (s.nodeAt a.1).region
  let rb := (s.nodeAt b.1).region
  let pa := (s.regionAt ra).prio
  let pb := (s.regionAt rb).prio
  let young := decide (s.residenceOf b < s.residenceOf a)
  if s.outOfBudget ra != s.outOfBudget rb then s.outOfBudget ra
  else if pa ≠ pb then decide (pa < pb)
  else match s.deadline a.1, s.deadline b.1 with
    | some x, some y => if x = y then young else decide (y < x)
    | some _, none => false
    | none, some _ => true
    | none, none => young

def insertVictim (s : State) (a : Nat × Nat) : List (Nat × Nat) → List (Nat × Nat)
  | [] => [a]
  | b :: l => if s.victimBefore a b then a :: b :: l else b :: insertVictim s a l

/-- The ensembles that node `i` may pre-empt, in the order of R85: whole ensembles that stand on cores of its region alone. -/
def State.victims (s : State) (i : Nat) : List (Nat × Nat) :=
  let cores := (List.range 18).flatMap (s.maskCores (s.regionAt (s.nodeAt i).region))
  (s.residentEnsembles.filter fun e =>
    s.mayPreempt i e.1 && (s.ensembleTeams e.1 e.2).all fun t => cores.contains (s.teamAt t).core).foldl
      (fun l e => insertVictim s e l) []

/-- Node `i` fits in some cluster once some ensembles are gone, halted ones among them. -/
def State.fitsWithout (s : State) (i : Nat) (gone : List (Nat × Nat)) : Bool :=
  let t := s.without fun t => (s.teamAt t).status = .halted
    || gone.contains ((s.teamAt t).node, (s.teamAt t).ens)
  (List.range 18).any (t.fitsIn i)

/-- The victims that have to go before node `i` fits (R85): the fewest that are first in order suffice, and of those the ones
that are not needed stay, the last in order first. DEDUCED (log entry 49): the order of R85 goes before their number. -/
def State.needed (s : State) (i : Nat) : Option (List (Nat × Nat)) :=
  let vs := s.victims i
  ((List.range (vs.length + 1)).find? fun k => s.fitsWithout i (vs.take k)).map fun k =>
    (vs.take k).reverse.foldl (fun l v => if s.fitsWithout i (l.erase v) then l.erase v else l) (vs.take k)

/-- The next victim for a waiting node. -/
def State.victimFor (s : State) (i : Nat) : Option (Nat × Nat) := (s.needed i).bind List.head?

/-- The next victim of a pre-emption, for the waiting node of the highest rank that has one. -/
def State.nextVictim (s : State) : Option (Nat × Nat) := s.waitingNodes.findSome? s.victimFor

/-! ## Halting (R86, R87, R288) -/

/-- A path at the halt: its wait is abandoned, but for those that the host answers (R280); a SLEEP has ended, and a barrier or
switch point is entered again after the restore (R87). -/
def Path.halt (p : Path) : Path :=
  let again := fun (w : Wait) => { p.abandon with wait := none, again := some { wait := w } }
  match p.wait with
  | some (.sleep _) => { p with pc := p.pc + 4, wait := none, walked := false, released := false, bpSkip := false }
  | some (.barrier b d) => again (.barrier b d)
  | some (.switchPoint n) => again (.switchPoint n)
  | some (.regroup vk n) => again (.regroup vk n)
  | _ => p.abandon

def Group.halt (g : Group) : Group :=
  { g with path0 := g.path0.map Path.halt, path1 := g.path1.map Path.halt, latchA := none, latchB := none }

/-- Halt the resident teams of an ensemble. -/
def State.haltEnsemble (s : State) (node ens : Nat) : State :=
  (s.ensembleTeams node ens).foldl (fun s t =>
    let x := s.teamAt t
    if x.status = .resident then s.setTeam t { x with status := .halted, groups := x.groups.map Group.halt } else s) s

/-- PREEMPTION: Gamelan halts one victim ensemble: one of a region that the host has commanded, or the next victim of the
top-ranked node that waits. -/
def execPreemption (node ens : Nat) (s : State) : Outcome :=
  let asked := (s.regionAt (s.nodeAt node).region).preemptAsked && s.residentEnsembles.contains (node, ens)
  if asked || s.nextVictim == some (node, ens) then .next (s.haltEnsemble node ens) else .next s

/-! ## Grow deadlock (R61) -/

/-- A team has a path that waits in RGROWW on an ungranted request, and none of its groups can issue. -/
def State.growStuck (s : State) (t : Nat) : Bool :=
  let x := s.teamAt t
  !x.request.granted && x.groups.all (fun g => g.issueSlot.isNone)
    && (s.slotsOf t).any fun p => match s.waitOf t p.1 p.2 with
      | some (.grow ..) => true
      | _ => false

/-- The core is grow-deadlocked, and no team on it is being halted. -/
def State.growDeadlocked (s : State) (core : Nat) : Bool :=
  let l := s.coreTeamIxs core
  !l.isEmpty && l.all fun t => (s.teamAt t).status = .resident && s.growStuck t

/-- GROW_DEADLOCK_SPILL: the youngest team of a grow-deadlocked core is spilled with its ensemble. The grants are tried
when its core's resources come free. -/
def execGrowDeadlockSpill (core : Nat) (s : State) : Outcome :=
  if !s.growDeadlocked core then .next s
  else match (s.byAge core).getLast? with
    | none => .next s
    | some t => .next (s.haltEnsemble (s.teamAt t).node (s.teamAt t).ens)

/-! ## The team image (Table 16.5) -/

/-- A tile tag as DTAG reads it (R241). -/
def TileTag.word (t : TileTag) : Nat := t.spectral.toNat + 2 * t.logb + 16 * (BitVec.ofInt 16 t.et).toNat

def tileTagOf (x : Nat) : TileTag :=
  { spectral := x.testBit 0, logb := bitField x 3 1, et := (BitVec.ofNat 16 (bitField x 19 4)).toInt }

/-- Offsets of the parts that a budget places. -/
def Variant.tagsOffset (v : Variant) : Nat := 0x1000 + 4096 * v.acc
def Variant.padOffset (v : Variant) : Nat := v.tagsOffset + v.scratch / 256
def Variant.jobsOffset (v : Variant) : Nat := v.padOffset + v.scratch

/-- The header words of an image. An ordinary launch has no curve rank: those 32 bits are a free value. -/
def State.imageHeader (s : State) (t : Nat) : State :=
  let x := s.teamAt t
  let v := s.variantOf x
  let (f, s) := s.free
  let rank := if (s.nodeAt x.node).det then x.rank else f.toNat % 2 ^ 32
  s.writeBytes x.image
    (natLe 8 (x.variant.toNat + 2 ^ 8 * v.groups + 2 ^ 16 * v.acc + 2 ^ 24 * v.regs + 2 ^ 32 * v.scratch)
      ++ natLe 8 (x.tag.toNat + 2 ^ 16 * x.ensIx + 2 ^ 32 * rank)
      ++ (List.range 17).flatMap (fun b => natLe 8 ((x.barrier b).phase.toNat + 2 ^ 32 * (x.barrier b).arrived.toNat))
      ++ natLe 8 (x.request.target.toNat + 2 ^ 8 * x.request.valid.toNat))

/-- The tile, tag and scratchpad parts. -/
def State.imageBody (s : State) (t : Nat) : State :=
  let x := s.teamAt t
  let v := s.variantOf x
  let s := s.writeBytes (x.image + 0x120) ((List.range 16).flatMap fun k => natLe 4 (x.tileTag k).word)
  let s := s.zeroPhys (x.image + 0x200) 3584
  let s := s.writeBytes (x.image + 0x1000) ((List.range (1024 * v.acc)).flatMap fun k => natLe 4 (mapGet 0 x.acc k).toNat)
  let s := s.writeBytes (x.image + v.tagsOffset) ((List.range (v.scratch / 1024)).flatMap fun g => natLe 4 (x.gtag g).toNat)
  s.writeBytes (x.image + v.padOffset) (x.padRead 0 v.scratch)

/-- The parts in device format: rings, counts and progress records. -/
def State.imageDevice (s : State) (t jobs : Nat) : State :=
  let x := s.teamAt t
  ((s.writeFree (x.image + 0xA0) 16).writeFree (x.image + 0x160) 20).writeFree
    (x.image + (s.variantOf x).jobsOffset) (16 * jobs)

/-- The path block of the slots a group stands in now. -/
def Group.block (g : Group) : BitVec 1024 :=
  pathBlock g.path0 g.path1 (BitVec.ofNat 2 g.cur.toNat) g.docc g.dsbase

/-- A group's save record (R289). -/
def State.saveRecord (s : State) (t g : Nat) : State :=
  let x := s.groupAt t g
  let r := x.record.toNat
  let s :=
    if x.trap.isSome then (s.zeroPhys (r + 0x80) 896).writePhys (r + 0x80) 128 x.block.toNat
    else
      let s := (s.zeroPhys r 0x400).writePhys r 128 x.block.toNat
      let s := if (x.path0.bind (·.region)).isSome then s.writeFree (r + 0x800) 640 else s
      if (x.path1.bind (·.region)).isSome then s.writeFree (r + 0x1C00) 640 else s
  let s := (s.zeroPhys (r + 0x3000) 0x1000).writePhys (r + 0x3000) 8 x.batch.toNat
  s.writeBytes (r + 0x4000) (x.imageOf (s.variantOf (s.teamAt t)))

/-- The engines of a halted team's ensemble are drained: its operations have completed, so that its copy jobs, also those that
ran on and may write another team's scratchpad (R203), stand suspended (R86, R229). -/
def State.saveReady (s : State) (t : Nat) : Bool :=
  let x := s.teamAt t
  decide (t < s.teams.length) && x.status = .halted && (s.ensembleTeams x.node x.ens).all fun u =>
    let c := s.coreAt (s.teamAt u).core
    (s.teamAt u).status != .halted || (c.matrixQ.all (fun o => o.team != u) && c.transformQ.all (fun o => o.team != u))

/-- CONTEXT_SAVE: a halted team's image is written, its jobs are suspended and its core is free. -/
def execContextSave (team : Nat) (s : State) : Outcome :=
  if !s.saveReady team then .next s
  else
    let core := (s.teamAt team).core
    let s := s.drainCore core
    let copies := (s.coreAt core).copyQ.filter fun j => j.team == team
    let dcmps := (s.clusterAt (core / 8)).dcmpQ.filter fun j => j.team == team
    let s := (s.imageHeader team).imageBody team
    let s := s.imageDevice team (copies.length + dcmps.length)
    let s := (List.range (s.teamAt team).groups.length).foldl (fun s g => s.saveRecord team g) s
    let s := s.stopJobs team
    let x := s.teamAt team
    .next ((s.setTeam team { x with status := .saved, savedCopies := copies.map fun j => { j with listCount := none }
                                    savedDcmps := dcmps
                                    request := { x.request with granted := false, quads := [] } }).freed core)

/-! ## The restore (R290) -/

/-- The path that a block gives a slot: what the block does not hold stays with the device. -/
def blockPath (x : Nat) (b : Bool) (kept : Option Path) : Option Path :=
  let k := b.toNat
  let ctl := bitField x (422 + 32 * k) (416 + 32 * k)
  if ctl % 2 = 0 then none
  else
    let p := kept.getD {}
    some { p with pc := BitVec.ofNat 64 (bitField x (63 + 64 * k) (64 * k))
                  mask := BitVec.ofNat 64 (bitField x (223 + 128 * k) (160 + 128 * k))
                  fi := BitVec.ofNat 5 (bitField ctl 5 1), fv := ctl.testBit 6 }

/-- A group as its save record holds it. -/
def State.restoreGroup (s : State) (v : Variant) (g : Group) (quad : Nat) : Group :=
  let r := g.record.toNat
  let x := s.readPhys (if g.trap.isSome then r + 0x80 else r) 128
  let image := memRead s.mem (r + 0x4000) (imageBytes v.regs)
  let num := fun o n => leNat ((image.drop o).take n)
  let own := g.fromImage v image
  let own := if g.trap.isNone then own
    else { own with
      shadowW := (List.range 8).foldl (fun m n => mapSet 0 m (56 + n) (BitVec.ofNat 64 (num (0x2C0 + 8 * n) 8))) []
      shadowV := (List.range 16).foldl (fun m n => writeLanes m n (BitVec.allOnes 64) fun l =>
        BitVec.ofNat 32 (num (0x300 + 256 * (v.regs + n) + 4 * l) 4)) [] }
  { own with
    path0 := blockPath x false g.path0, path1 := blockPath x true g.path1, cur := x.testBit 512
    docc := BitVec.ofNat 32 (bitField x 511 480), dsbase := BitVec.ofNat 64 (bitField x 583 520)
    batch := BitVec.ofNat 64 (s.readPhys (r + 0x3000) 8), quadrant := quad, latchA := none, latchB := none
    yieldHold := false }

/-- A team's binning jobs go with it from one cluster to another. -/
def State.moveBinning (s : State) (t old new : Nat) : State :=
  if old = new then s
  else
    let a := s.clusterAt old
    let (mine, rest) := a.binQ.partition fun p => p.team == t
    let s := s.setCluster old { a with binQ := rest }
    let b := s.clusterAt new
    s.setCluster new { b with binQ := b.binQ ++ mine }

/-- A team as its image holds it, on a core. The parts in device format stay with the device. -/
def State.restoreTeam (s : State) (t core : Nat) : State :=
  let x := s.teamAt t
  let v := s.variantOf x
  let num := s.readPhys
  let quads := (s.fits core v).getD []
  let bar := fun (m : NMap Barrier) b =>
    mapSet {} m b { mapGet {} m b with phase := BitVec.ofNat 32 (num (x.image + 0x10 + 8 * b) 4)
                                       arrived := BitVec.ofNat 16 (num (x.image + 0x14 + 8 * b) 2)
                                       draining := false }
  let y := { x with
    status := .resident, core := core, residence := s.residenceSeq
    groups := x.groups.zipIdx.map fun p => s.restoreGroup v p.1 (quads.getD p.2 0)
    barriers := (List.range 17).foldl bar x.barriers
    request := { target := BitVec.ofNat 2 (num (x.image + 0x98) 1), valid := (num (x.image + 0x99) 1).testBit 0 }
    ttags := (List.range 16).foldl (fun m k => mapSet {} m k (tileTagOf (num (x.image + 0x120 + 4 * k) 4))) []
    acc := (List.range (1024 * v.acc)).foldl (fun m k => mapSet 0 m k (BitVec.ofNat 32 (num (x.image + 0x1000 + 4 * k) 4))) []
    gtags := (List.range (v.scratch / 1024)).foldl (fun m g =>
      mapSet 0 m g (tagField (BitVec.ofNat 32 (num (x.image + v.tagsOffset + 4 * g) 4)))) []
    sp := memWrite [] 0 (memRead s.mem (x.image + v.padOffset) v.scratch)
    savedCopies := [], savedDcmps := [] }
  let s := ({ s with residenceSeq := s.residenceSeq + 1 }).setTeam t y
  let c := s.coreAt core
  let s := s.setCore core { c with copyQ := c.copyQ ++ x.savedCopies }
  let k := s.clusterAt (core / 8)
  ((s.setCluster (core / 8) { k with dcmpQ := k.dcmpQ ++ x.savedDcmps }).moveBinning t (x.core / 8) (core / 8)).l1Invalidate core

def State.restoreTeams (s : State) : List Nat → List Nat → State
  | t :: ts, c :: cs => (s.restoreTeam t c).restoreTeams ts cs
  | _, _ => s

/-- Cores on which a saved ensemble may stand: different cores of one cluster, each with room. -/
def State.restoreAllowed (s : State) (node : Nat) (ts cores : List Nat) : Bool :=
  cores.length == ts.length && decide cores.Nodup
    && (ts.zip cores).all fun p => p.2 / 8 == cores.headD 0 / 8 && (s.restoreCores node (p.2 / 8) p.1).contains p.2

/-- ENSEMBLE_RESTORE: a pre-empted ensemble is written back onto cores; its requests are tried again as resources come
free. A switch that drained at the halt has lost its grant, and is decided again (R66). -/
def execEnsembleRestore (node ens : Nat) (cores : List Nat) (s : State) : Outcome :=
  let ts := s.savedTeams node ens
  if !(s.mayRestore node ens && s.topRestorable node && s.restoreAllowed node ts cores) then .next s
  else
    let s := ts.foldl State.checkSwitch (s.restoreTeams ts cores)
    .next (cores.foldl State.retryGrants s)

end Sys2Proof.Machine
end

