-- ==== Sys2Proof/Machine/Commands.lean ====
section
/-!
DEFINITION. Sys2Proof/Machine/Commands.lean: the commands of the host (R302, Table 17.4).
-/
namespace Sys2Proof.Machine

/-! ## One command at a time -/

/-- What a command comes to: it completes with its result bytes, it is refused, or it goes on. -/
inductive CmdRes where
  | done (s : State) (result : List Byte)
  | refused (s : State)
  | wait (s : State)

/-- Sixteen zero result bytes. -/
def zeroResult : List Byte := List.replicate 16 0

/-- It is the command's turn: its conditions hold, and every command submitted before it has ended. -/
def State.commandTurn (s : State) (i : Nat) : Bool :=
  let n := s.nodeAt i
  decide (i < s.nodes.length) && n.kind == 3 && (n.state == .ready || n.state == .running)
    && (List.range i).all fun j => (s.nodeAt j).kind != 3 || (s.nodeAt j).finished

/-- Run a command node of a code; `pick` tells forms apart. -/
def runCommand (node code : Nat) (pick : Node → Bool) (s : State) (k : Node → State → CmdRes) : Outcome :=
  let n := s.nodeAt node
  if !(s.commandTurn node && n.imageAddr.toNat == code && pick n) then .next s
  else
    let s := if n.state = .ready then s.enter node .running else s
    match k n s with
    | .done s bytes => .next (s.completeNode node bytes)
    | .refused s => .next (s.failNode node 0x0C)
    | .wait s => .next s

def anyForm (_ : Node) : Bool := true

/-- A command of an active region: one that is not active is refused. -/
def ofRegion (n : Node) (s : State) (k : Nat → CmdRes) : CmdRes :=
  let r := n.opB.toNat
  if r < 256 && (s.regionAt r).active then k r else .refused s

/-! ## 0x01 to 0x04: regions -/

/-- ACTIVATE -/
def execActivate (node : Nat) (s : State) : Outcome :=
  runCommand node 0x01 anyForm s fun n s =>
    match s.activate n.opB.toNat n.opA.toNat with
    | some s => .done s zeroResult
    | none => .refused s

/-- A submitted record or a node of the region has not ended. -/
def State.regionBusy (s : State) (r : Nat) : Bool :=
  (s.regionAt r).qhead != (s.regionAt r).qtail || s.nodes.any fun n => n.region == r && !n.finished

/-- Free a created slot (R296). -/
def State.freeSlot (s : State) (r slot : Nat) : State :=
  match s.memoSlot r slot with
  | none => s
  | some _ =>
    let a := (s.regionAt r).memotab + 32 * slot + 8
    (s.setMemoSlot r slot none).writePhys a 1 (s.readPhys a 1 / 2 * 2)

/-- The end of a deactivation: the key is erased, the slots are freed, and the region is no more. -/
def State.endRegionLife (s : State) (r : Nat) : State :=
  let s := (List.range 64).foldl (fun s k => s.freeSlot r k) s
  let s := s.setActiveBit (s.regionAt r).rcb false
  ({ s with keys := mapSet none s.keys r none }).setRegion r {}

/-- DEACTIVATE: the command starts, or is refused. -/
def execDeactivate (node : Nat) (s : State) : Outcome :=
  runCommand node 0x02 anyForm s fun n s => ofRegion n s fun r =>
    if r = 0 then .refused s else .wait (s.setNode node { s.nodeAt node with started := true })

/-- DEACTIVATE_DONE: no node of the region is left. -/
def execDeactivateDone (node : Nat) (s : State) : Outcome :=
  runCommand node 0x02 (·.started) s fun n s =>
    if s.regionBusy n.opB.toNat then .wait s else .done (s.endRegionLife n.opB.toNat) zeroResult

/-- No team of a region stands on a core. -/
def State.regionOff (s : State) (r : Nat) : Bool :=
  s.teams.all fun t => (s.nodeAt t.node).region != r || !t.onCore

/-- PRE_EMPT: the region's ensembles are pre-empted, and the command completes once all of them are saved. -/
def execPreEmpt (node : Nat) (s : State) : Outcome :=
  runCommand node 0x03 anyForm s fun n s => ofRegion n s fun r =>
    let x := s.regionAt r
    if s.regionOff r then .done (s.setRegion r { x with preemptAsked := false }) zeroResult
    else .wait ((s.setRegion r { x with preemptAsked := true }).setNode node { s.nodeAt node with started := true })

/-- Kill a fault domain (R79): every unfinished node of its regions fails. -/
def State.killDomain (s : State) (d kind region : Nat) : State :=
  let s := s.domainRecord d true { kind := kind, region := region }
  (List.range s.nodes.length).foldl (fun s i =>
    if (s.regionAt (s.nodeAt i).region).fdom = d then s.failNode i 0x06 else s) s

/-- KILL -/
def execKill (node : Nat) (s : State) : Outcome :=
  runCommand node 0x04 anyForm s fun n s =>
    if 64 ≤ n.opB.toNat then .refused s else .done (s.killDomain n.opB.toNat 3 0) zeroResult

/-! ## 0x05 and 0x06: executable mappings (R115, R118) -/

/-- The X bit of a table entry. -/
def State.executable (s : State) (pte : Nat) : Bool := (s.readPhys pte 1).testBit 3

/-- Addresses of the entries of the group of a leaf at `pte` (R172); a leaf with no page size stands alone. -/
def leafGroup (level pte : Nat) (size : Option Nat) : List Nat :=
  let n := (size.getD 0) / 2 ^ (12 + 9 * (level - 1))
  if n = 0 then [pte] else (List.range n).map fun k => pte - 8 * (pte / 8 % n) + 8 * k

/-- Set or clear X in the entries of a group. -/
def State.setExecutable (s : State) (group : List Nat) (on : Bool) : State :=
  group.foldl (fun s a =>
    let x := s.readPhys a 1
    s.writePhys a 1 (x - x / 8 % 2 * 8 + on.toNat * 8)) s

/-- Units of a page. -/
def pageUnits (e : TlbEntry) : List Nat := (List.range (e.size / 4096)).map (e.pa / 4096 + ·)

/-- Stores on their way to a page's units are refused (R118). -/
def State.refuseStores (s : State) (e : TlbEntry) : State :=
  { s with cores := s.cores.map fun p => (p.1, { p.2 with outgoing := p.2.outgoing.filter fun q =>
      !(decide (q.address < e.pa + e.size) && decide (e.pa < q.address + q.bytes.length)) }) }

/-- The words of a unit. -/
def State.unitWords (s : State) (u : Nat) : List (BitVec 32) :=
  (List.range 1024).map fun i => BitVec.ofNat 32 (s.readPhys (4096 * u + 4 * i) 4)

/-- Check one unit: its literal positions, or the rejection. DESIGN CHOICE (log entry 61): a unit that holds a poisoned word
is not read at all, so it reports reason 0x0D at that word, whatever word before it offends. -/
def State.checkUnit (s : State) (u : Nat) : Except (BitVec 32 × Nat × Nat) (List Nat) :=
  match (List.range 512).find? fun w => s.poison.contains (512 * u + w) with
  | some w => .error (0, 8 * w, 0x0D)
  | none =>
    match verifyUnit (s.unitWords u) with
    | .ok l => .ok l
    | .error r => .error (r.word, 4 * r.index, r.reason.code.toNat)

/-- The index and the operand of each word of a unit whose bits are those of `SWPT #n` (R59). -/
def switchesOf (ws : List (BitVec 32)) : List (Nat × Nat) :=
  (List.range 1024).filterMap fun i =>
    let w := (ws.getD i 0).toNat
    if w / 16 = 0xF400000 then some (i, w % 16) else none

/-- Check the units of a page that have not passed: the new ones, or the first offending word with its offset. -/
def State.checkUnits (s : State) (e : TlbEntry) : List Nat → Except (BitVec 32 × Nat × Nat) (List PassedUnit)
  | [] => .ok []
  | u :: us =>
    if s.passed (4096 * u) then s.checkUnits e us
    else match s.checkUnit u with
      | .error (w, o, r) => .error (w, 4096 * u - e.pa + o, r)
      | .ok l => (s.checkUnits e us).map fun ps => { unit := u, literals := l, switches := switchesOf (s.unitWords u) } :: ps

/-- The rejection record (Table 6.8). -/
def rejectionRecord (w : BitVec 32) (off reason : Nat) : List Byte := natLe 4 reason ++ natLe 4 off ++ natLe 4 0 ++ natLe 4 w.toNat

/-- MAP_EXECUTABLE: refused where no present leaf of the size asked for maps the address; a page that is malformed or not
installed has no contents to check, and the record says so with reason 0x0D. DEDUCED (log entry 60): a compressed view is checked
like any page, by its bytes as they stand. -/
def execMapExecutable (node : Nat) (s : State) : Outcome :=
  runCommand node 0x05 anyForm s fun n s =>
    match s.presentLeaf n.opB.toNat n.opA.toNat with
    | none => .refused s
    | some (level, pte, x) =>
      let size := pageSize level (bitField x 11 8)
      if size ≠ some n.opC.toNat || n.opA.toNat % n.opC.toNat ≠ 0 then .refused s
      else if s.executable pte then .done s zeroResult
      else match leafOf s.installed n.opB.toNat n.opA.toNat level pte x with
        | .leaf e =>
          let s := s.refuseStores e
          match s.checkUnits e (pageUnits e) with
          | .error (w, o, r) => .done s (rejectionRecord w o r)
          | .ok us =>
            let m : ExecMapping := { root := e.root, va := e.va, size := e.size, pa := e.pa, pte := e.pte }
            .done (({ s with units := s.units ++ us, execMaps := s.execMaps ++ [m] }).setExecutable (leafGroup level pte size) true) zeroResult
        | _ => .done s (rejectionRecord 0 0 0x0D)

/-- UNMAP_EXECUTABLE: a unit without an executable mapping left is no longer passed. The leaf may be malformed by now. DESIGN CHOICE
(log entry 75): a mapping whose leaf the host rewrites stays, with its units, until this command finds X set in it. -/
def execUnmapExecutable (node : Nat) (s : State) : Outcome :=
  runCommand node 0x06 anyForm s fun n s =>
    match s.presentLeaf n.opB.toNat n.opA.toNat with
    | none => .done s zeroResult
    | some (level, pte, x) =>
      if !s.executable pte then .done s zeroResult
      else
        let group := leafGroup level pte (pageSize level (bitField x 11 8))
        let (gone, maps) := s.execMaps.partition fun m => group.contains m.pte
        let covers := fun (l : List ExecMapping) (u : Nat) => l.any fun m => decide (m.pa ≤ 4096 * u) && decide (4096 * u < m.pa + m.size)
        let units := s.units.filter fun u => covers maps u.unit || !covers gone u.unit
        .done (({ s with units := units, execMaps := maps }).setExecutable group false) zeroResult

/-! ## 0x07: TLB invalidate (R173) -/

/-- An entry maps bytes of a range under a root. -/
def TlbEntry.meets (e : TlbEntry) (root a n : Nat) : Bool :=
  e.root == root && decide (e.va < a + n) && decide (a < e.va + e.size)

/-- TLB_INVALIDATE (R173). DESIGN CHOICE (log entry 29): a store that was translated through an old entry and is still on its way to the
system cache counts as completed, and lands at its old physical address afterwards. -/
def execTlbInvalidate (node : Nat) (s : State) : Outcome :=
  runCommand node 0x07 anyForm s fun n s =>
    let keep := fun (l : List TlbEntry) => l.filter fun e => !e.meets n.opB.toNat n.opA.toNat n.opC.toNat
    let s := s.cores.foldl (fun s p => s.setCore p.1 { p.2 with tlb := keep p.2.tlb }) s
    let s := s.clusters.foldl (fun s p => s.setCluster p.1 { p.2 with tlb := keep p.2.tlb }) s
    .done s zeroResult

/-! ## 0x08: fault resume (R280) -/

/-- The path that waits on a record of a region's fault queue. -/
def State.parkedOn (s : State) (region : Nat) (index : BitVec 32) : Option (Nat × Nat × Bool × Path × TrapInfo) :=
  (s.waiters region fun w => match w with
    | .parked i _ _ => i == index
    | _ => false).findSome? fun q =>
      match (s.groupAt q.1 q.2.1).interrupted q.2.2 with
      | some p =>
        (match p.wait with
         | some (.parked _ info _) => some (q.1, q.2.1, q.2.2, p, info)
         | _ => none)
      | none => none

/-- A parked path goes on at TPC: at once, or with its group out of trap mode, or with its team restored. -/
def State.replay (s : State) (t g : Nat) (b : Bool) (p : Path) (i : TrapInfo) : State :=
  let x := s.groupAt t g
  let p := { p with bpSkip := i.cause == 0x10 }
  match x.trap with
  | some c => s.resumeSlot t g b c p i.tpc
  | none =>
    let s := s.setGroup t g (x.setSlot b (some { p with pc := i.tpc, wait := none }))
    if (s.teamAt t).status = .saved then s.writePhys (x.record.toNat + if b then 8 else 0) 8 i.tpc.toNat else s

/-- A fault-resume command of a form. -/
def faultResume (node form : Nat) (s : State) (k : State → Nat × Nat × Bool × Path × TrapInfo → State) : Outcome :=
  runCommand node 0x08 (fun n => n.opD.toNat == form) s fun n s => ofRegion n s fun r =>
    match (if n.opC.toNat < 2 ^ 32 then s.parkedOn r (n.opC.setWidth 32) else none) with
    | none => .refused s
    | some q => .done (k s q) zeroResult

/-- FAULT_RESUME_REPLAY -/
def execFaultResumeReplay (node : Nat) (s : State) : Outcome :=
  faultResume node 0 s fun s q => s.replay q.1 q.2.1 q.2.2.1 q.2.2.2.1 q.2.2.2.2

/-- FAULT_RESUME_DELIVER: the trap is taken as soon as the group may take it. -/
def execFaultResumeDeliver (node : Nat) (s : State) : Outcome :=
  faultResume node 1 s fun s q =>
    (s.setInterrupted q.1 q.2.1 q.2.2.1 { q.2.2.2.1 with wait := some (.delivery q.2.2.2.2) }).due
      (.faultDelivery q.1 q.2.1 q.2.2.1)

/-- FAULT_RESUME_KILL -/
def execFaultResumeKill (node : Nat) (s : State) : Outcome :=
  faultResume node 2 s fun s q =>
    let i := q.2.2.2.2
    s.doubleFault q.1 q.2.1 i.cause.toNat i.tpc i.taddr

/-! ## 0x09: memo slots (R247, R296) -/

/-- Bytes of an entry (R247). -/
def MemoSlot.entryBytes (m : MemoSlot) : Nat := alignUp (16 + (if m.mode = 0 then m.keyb else 0) + m.outb) 16

/-- Carillon bytes that a slot takes on each core of its region. -/
def MemoSlot.carillonBytes (m : MemoSlot) : Nat := if m.home = 0 then 2 ^ m.logent * m.entryBytes else 0

/-- Carillon bytes that created slots take on a core. -/
def State.carillonUsed (s : State) (core : Nat) : Nat :=
  (s.regions.map fun p =>
    if p.2.active && p.2.cores.getLsbD core then (p.2.slots.map fun q => (q.2.map MemoSlot.carillonBytes).getD 0).sum else 0).sum

/-- The slot that 32 bytes describe. -/
def memoSlotOf (x : Nat) : MemoSlot :=
  { logent := bitField x 7 0, ways := bitField x 15 8, keyb := bitField x 23 16, outb := bitField x 31 24
    home := bitField x 39 32, mode := bitField x 47 40, wayMask := BitVec.ofNat 16 (bitField x 63 48) }

/-- A slot's fields are in range. -/
def memoSlotValid (x : Nat) : Bool :=
  let m := memoSlotOf x
  decide (2 ≤ m.logent) && decide (m.logent ≤ 16) && (m.ways == 1 || m.ways == 2 || m.ways == 4)
    && decide (1 ≤ m.keyb) && decide (m.keyb ≤ 64) && decide (1 ≤ m.outb) && decide (m.outb ≤ 64)
    && decide (m.home ≤ 1) && decide (m.mode ≤ 1) && (m.home == 1 || m.wayMask == 0)
    && bitField x 127 96 == 0 && bitField x 255 192 == 0

/-- The refusal detail of a create command; zero where it is accepted. -/
def State.createDetail (s : State) (r slot x : Nat) : Nat :=
  let g := s.regionAt r
  let m := memoSlotOf x
  let full := (List.range 144).any fun c =>
    g.cores.getLsbD c && decide (Config.carillonBytes < s.carillonUsed c + m.carillonBytes)
  if (s.memoSlot r slot).isSome then 4
  else if !memoSlotValid x then 1
  else if m.home = 0 && full then 2
  else if m.home = 1 && (m.wayMask == 0 || m.wayMask &&& ~~~g.ways != 0) then 3
  else 0

/-- MEMO_SLOT_CREATE -/
def execMemoSlotCreate (node : Nat) (s : State) : Outcome :=
  runCommand node 0x09 (fun n => n.opD == 0) s fun n s => ofRegion n s fun r =>
    let slot := n.opC.toNat
    if 64 ≤ slot then .refused s
    else
      let a := (s.regionAt r).memotab + 32 * slot
      let x := s.readPhys a 32
      match s.createDetail r slot x with
      | 0 => .done ((s.setMemoSlot r slot (some (memoSlotOf x))).writePhys (a + 8) 4 1) zeroResult
      | 4 => .refused ((s.writePhys (a + 8) 2 (s.readPhys (a + 8) 1 % 2 + 2 + 256 * 4)))
      | d => .refused (s.writePhys (a + 8) 4 (2 + 256 * d))

/-- A RUNNING, READY or WAITING node of a region binds a slot (R296). -/
def State.slotBound (s : State) (r slot : Nat) : Bool :=
  s.nodes.any fun n => n.region == r && n.kind != 3 && (n.state = .running || n.state = .ready || n.state = .waiting) &&
    n.memo.any fun b => b.toNat == slot

/-- MEMO_SLOT_FREE: the command starts. -/
def execMemoSlotFree (node : Nat) (s : State) : Outcome :=
  runCommand node 0x09 (fun n => n.opD == 1) s fun n s => ofRegion n s fun _ =>
    if 64 ≤ n.opC.toNat then .refused s else .wait (s.setNode node { s.nodeAt node with started := true })

/-- MEMO_SLOT_FREE_DONE: no live node binds the slot. -/
def execMemoSlotFreeDone (node : Nat) (s : State) : Outcome :=
  runCommand node 0x09 (fun n => n.opD == 1 && n.started) s fun n s =>
    if s.slotBound n.opB.toNat n.opC.toNat then .wait s else .done (s.freeSlot n.opB.toNat n.opC.toNat) zeroResult

/-! ## 0x0A to 0x0C: keys, power and slots -/

/-- The keys of an open region that hold a signature of the device's equal nothing from now on (R255, R268). -/
def PureRegion.voidKeys (r : PureRegion) : PureRegion :=
  if r.sawMkeyt then { r with keys := r.keys.map fun k => (k.1, { k.2 with null := true }) } else r
def Path.voidKeys (p : Path) : Path := { p with region := p.region.map PureRegion.voidKeys }
def Group.voidKeys (g : Group) : Group :=
  { g with path0 := g.path0.map Path.voidKeys, path1 := g.path1.map Path.voidKeys
           trap := g.trap.map fun c => { c with path0 := c.path0.map Path.voidKeys, path1 := c.path1.map Path.voidKeys } }

/-- Void the signatures of the regions that a test names (R268): the valid bit of every stored tile signature is cleared, and
content signatures and the keys of open pure regions equal nothing. -/
def State.voidSignatures (s : State) (which : Nat → Bool) : State :=
  let (gone, kept) := s.storedSignatures.partition fun p => which p.1
  let s := { s with
    storedSignatures := kept
    contentSignatures := s.contentSignatures.map fun x => { x with void := x.void || which x.region }
    teams := s.teams.map fun t =>
      if which (s.nodeAt t.node).region then { t with groups := t.groups.map Group.voidKeys } else t }
  gone.foldl (fun s p => s.writePhys (p.2 + 16) 1 (s.readPhys (p.2 + 16) 1 / 2 * 2)) s

/-- Invalidate the memo tables of a region. -/
def State.voidTables (s : State) (r : Nat) : State :=
  (List.range 64).foldl (fun s k => s.memoAll r k MemoInstance.invalidate) s

/-- KEY_WRITE (R305) -/
def execKeyWrite (node : Nat) (s : State) : Outcome :=
  runCommand node 0x0A anyForm s fun n s =>
    let r := n.opB.toNat
    if 256 ≤ r then .refused s
    else
      let key := BitVec.ofNat 128 (s.readPhys n.opA.toNat 16)
      let s := { s with keys := mapSet none s.keys r (some key) }
      .done ((s.voidTables r).voidSignatures (· == r)) zeroResult

/-- POWER_LEVEL (R306) -/
def execPowerLevel (node : Nat) (s : State) : Outcome :=
  runCommand node 0x0B anyForm s fun n s =>
    if n.opA.toNat < 150 || 700 < n.opA.toNat then .refused s else .done { s with powerLevel := n.opA } zeroResult

/-- SLOT_RELEASE: the host's release (R304). -/
def execSlotRelease (node : Nat) (s : State) : Outcome :=
  runCommand node 0x0C anyForm s fun n s =>
    if 64 ≤ n.opC.toNat then .refused s else .done (s.releaseSlot n.opC.toNat (n.opD.setWidth 12) 0) zeroResult

end Sys2Proof.Machine
end

