-- ==== Sys2Proof/Machine/Errors.lean ====
section
/-!
DEFINITION. Sys2Proof/Machine/Errors.lean: storage errors and relaunches (R291, R292), the security alarm (R293), reset (R307),
and what the display heads, the media engines and the host do (R81, R117, R304).
-/
namespace Sys2Proof.Machine

/-! ## The security alarm (R268, R293) -/

/-- Fault domains of the protected regions, each with the lowest of them. -/
def State.protectedDomains (s : State) : List (Nat × Nat) :=
  (List.range 256).foldl (fun l r =>
    let x := s.regionAt r
    if x.active && x.isProtected && !l.any (fun p => p.1 == x.fdom) then l ++ [(x.fdom, r)] else l) []

/-- Release every protected hand-off slot to the host as failed. -/
def State.releaseProtected (s : State) : State :=
  (List.range 64).foldl (fun s k => if (s.handSlot k).flags.testBit 0 then s.releaseSlot k 0x200 1 else s) s

/-- Copies whose hash is under way have lost their key (R293). -/
def State.dropHashes (s : State) : State :=
  let lost := fun (j : CopyJob) => { j with keyLost := j.keyLost || j.hash.isSome }
  { s with cores := s.cores.map fun c => (c.1, { c.2 with copyQ := c.2.copyQ.map lost })
           teams := s.teams.map fun t => { t with savedCopies := t.savedCopies.map lost } }

/-- The security alarm. -/
def State.alarmed (s : State) : State :=
  let s := { s with alarm := true, keys := [] }
  let s := (((List.range 256).foldl State.voidTables s).voidSignatures fun _ => true).dropHashes
  let s := s.protectedDomains.foldl (fun s p => s.killDomain p.1 4 p.2) s
  s.releaseProtected.interrupt 3

/-- SECURITY_ALARM -/
def execSecurityAlarm (s : State) : Outcome := .next s.alarmed

/-! ## Storage errors (R291, R292) -/

/-- A team as it starts again: its place, its core, its variant and its areas stay (R292). -/
def State.relaunched (s : State) (t : Nat) : Team :=
  let x := s.teamAt t
  let n := s.nodeAt x.node
  let v := s.variantOf x
  let tag := if n.det then x.tag else nextTag ((s.teams.filter Team.alive).map (·.tag)) 65536 s.tagCounter
  let groups := x.groups.zipIdx.map fun p =>
    let g : Group := { path0 := some { pc := n.codeVa v.entry, mask := BitVec.allOnes 64 }, live := BitVec.allOnes 64
                       quadrant := p.1.quadrant, pbase := p.1.pbase }
    if n.kind = 2 then s.fragmentGroup n v x.x x.y x.z p.2 g else g
  ({ status := x.status, node := x.node, ens := x.ens, residence := s.residenceSeq, x := x.x, y := x.y, z := x.z, ensIx := x.ensIx
     rank := x.rank, tag := tag, core := x.core, variant := x.variant, groups := groups, image := x.image
     imageSize := x.imageSize, ensTeams := x.ensTeams, relaunches := x.relaunches + 1 } : Team).placeRecords v

/-- Start a stricken team again: it stands as a new team of the same slot. What a request of the old one held reserved
comes free (R60). -/
def State.relaunch (s : State) (t : Nat) : State :=
  let x := s.teamAt t
  let n := s.nodeAt x.node
  let y := s.relaunched t
  let old := s
  let s := ((s.drainCore x.core).stopJobs t).setTeam t
    { x with status := .killed, groups := x.groups.map Group.stopped, savedCopies := [], savedDcmps := [] }
  let s := { s with teams := s.teams ++ [y], residenceSeq := s.residenceSeq + 1
                    tagCounter := if n.det then s.tagCounter else y.tag }
  ((s.zeroPrivate x.node x.core n.privBytes
    (if n.priv = 0 then [] else x.groups.map (·.pbase.toNat))).l1Invalidate x.core).freedFrom old x.core

/-- An uncorrectable error in a team's state: the team is killed, or relaunched. -/
def State.teamError (s : State) (t g : Nat) (a : BitVec 64) : State :=
  let x := s.teamAt t
  let n := s.nodeAt x.node
  if s.teams.length ≤ t || !x.onCore then s
  else if n.idempotent && decide (x.relaunches < 3) then s.relaunch t
  else
    (s.stopTeam t).domainRecord (s.regionAt n.region).fdom false
      { kind := 2, region := n.region, cause := 0x13, group := g, core := coreId x.core, taddr := a.toNat, node := n.addr }

/-- An entry of a Carillon memo SRAM is invalidated. -/
def State.dropEntry (s : State) (r slot core entry : Nat) : State :=
  match s.memoSlot r slot with
  | some m =>
    if m.home = 0 then
      let x := mapGet {} m.instances core
      s.setMemoSlot r slot (some { m with
        instances := mapSet {} m.instances core { x with entries := mapSet none x.entries entry none } })
    else s
  | none => s

/-- UNCORRECTABLE_ERROR (Table 16.6) -/
def execUncorrectableError (site : ErrorSite) (s : State) : Outcome :=
  .next <|
    match site with
    | .instructionCache _ => s
    | .dataCacheLine core line => s.l1Drop core (128 * line) 128
    | .tlb core index => s.setCore core { s.coreAt core with tlb := (s.coreAt core).tlb.eraseIdx index }
    | .clusterTlb cluster index => s.setCluster cluster { s.clusterAt cluster with tlb := (s.clusterAt cluster).tlb.eraseIdx index }
    | .memoEntry r slot core entry => s.dropEntry r slot core entry
    | .teamState t g a => s.teamError t g a
    | .memoryWord a => if s.poisonedAt a then s else { s with poison := (a / 8) :: s.poison, poisonParts := s.poisonParts.filter fun p => p.word != a / 8 }
    | .keyStore => s.alarmed

/-- CORRECTED_ERROR: ERRCNT counts it. -/
def execCorrectedError (region : Nat) (s : State) : Outcome :=
  let x := s.regionAt region
  if !x.active then .next s
  else .next (s.writePhys (x.rcb + 0xA8) 8 ((s.readPhys (x.rcb + 0xA8) 8 + 1) % 2 ^ 64))

/-! ## Reset (R307) -/

/-- RESET: the part starts anew; what memory holds stays, the counter of unique signatures goes on from a value never used
(R245), and the tag counter's value is free (R157). -/
def execReset (s : State) : Outcome :=
  let (f, s) := s.free
  .next { State.reset with
    mem := s.mem, poison := s.poison, enabled := s.enabled, installed := s.installed, tagCounter := f.setWidth 16
    uniqueCounter := s.uniqueCounter
    ticks := s.ticks, freeCount := s.freeCount }

/-! ## Heads, engines and the host -/

/-- SCANOUT_LINE: a head publishes where it is. -/
def execScanoutLine (head : Nat) (scanning : Bool) (fc ln vt lp : Nat) (s : State) : Outcome :=
  if 4 ≤ head then .next s
  else
    let s := { s with heads := mapSet {} s.heads head { scanning := scanning, fc := fc, ln := ln, vt := vt, lp := lp } }
    .next ((List.range s.nodes.length).foldl State.noteMissed s)

/-- ENGINE_SLOT_RELEASE: a media engine or a head releases the slot it holds. -/
def execEngineSlotRelease (slot : Nat) (next : BitVec 12) (s : State) : Outcome :=
  let h := s.handSlot slot
  if slot < 64 && 0x100 ≤ h.holder && h.holder ≤ 0x10B then .next (s.releaseSlot slot next h.status) else .next s

/-- HOST_CORE_WRITE: a host core writes physical memory; a write that reaches a passed unit is refused (R117). -/
def execHostCoreWrite (address : Nat) (bytes : List (BitVec 8)) (s : State) : Outcome :=
  if (List.range bytes.length).any fun i => s.passed (address + i) then .next s else .next (s.writeBytes address bytes)

end Sys2Proof.Machine
end

