-- ==== Sys2Proof/Machine/Waits.lean ====
section
/-!
DEFINITION. Sys2Proof/Machine/Waits.lean: the ends of waits (R46), pending deliveries (R280), and the switches between the
paths of a group and the groups of a quadrant (R43, R51, R431).
-/
namespace Sys2Proof.Machine

/-- The wait of an ordinary or handler path of a resident team. -/
def State.waitNow (s : State) (t g : Nat) (b : Bool) : Option Wait :=
  if (s.teamAt t).status = .resident then ((s.groupAt t g).slot b).bind (·.wait) else none

/-- The waiting instruction re-issues. -/
def State.reissue (s : State) (t g : Nat) (b : Bool) : State :=
  s.at { team := t, group := g, slot := b } fun s => s.putPath { s.path with wait := none }

/-! ## Pending deliveries (R280) -/

/-- FAULT_DELIVERY: the trap of a delivered fault is taken, once its group is resident and out of trap mode. -/
def execFaultDelivery (team group : Nat) (slot : Bool) (s : State) : Outcome :=
  if (s.groupAt team group).trap.isSome then .next s
  else match s.waitNow team group slot with
    | some (.delivery i) =>
      .next ((s.reissue team group slot).at { team := team, group := group, slot := slot } fun s => s.takeTrap i)
    | _ => .next s

/-! ## Turns of paths and groups -/

/-- The focus follows a group's current slot. -/
def State.followSlot (s : State) (t g : Nat) : State :=
  if s.focus.team = t && s.focus.group = g then { s with focus := { s.focus with slot := (s.groupAt t g).cur } } else s

/-- PATH_SWITCH_COUNT: after 256 consecutive issues of one slot, the other takes its turn if it can issue. -/
def execPathSwitchCount (team group : Nat) (s : State) : Outcome :=
  let g := s.groupAt team group
  if 256 ≤ g.issues && g.ready (!g.cur) && (s.teamAt team).status = .resident then
    .next ((s.setGroup team group { g with cur := !g.cur, issues := 0, latchA := none, latchB := none }).followSlot team group)
  else .next s

/-- GROUP_AGING: a group that has been able to issue for 256 cycles is chosen next. -/
def execGroupAging (team group : Nat) (s : State) : Outcome :=
  let g := s.groupAt team group
  if 256 ≤ g.age && (s.teamAt team).status = .resident then
    match g.issueSlot with
    | some b =>
      let s := (s.setGroup team group { g with yieldHold := false }).turnTo { team := team, group := group, slot := b }
      .next { s with chosenNext := true }
    | none => .next s
  else .next s

/-- YIELD_HOLD_EXPIRE: a group has stood back for 16 issue cycles of its quadrant (R431). -/
def execYieldHoldExpire (team group : Nat) (s : State) : Outcome :=
  let g := s.groupAt team group
  if g.yieldHold && decide (16 ≤ g.yieldCycles) then
    .next ((s.setGroup team group { g with yieldHold := false }).followSlot team group)
  else .next s

/-! ## SLEEP (R431) -/

/-- A sleeping path goes on at the next word. -/
def State.endSleep (s : State) (t g : Nat) (b : Bool) : State :=
  match s.waitNow t g b with
  | some (.sleep _) => s.at { team := t, group := g, slot := b } fun s => s.proceed (s.nextPc 1)
  | _ => s

/-- SLEEP_EXPIRE: the count of clocks has passed. -/
def execSleepExpire (team group : Nat) (slot : Bool) (s : State) : Outcome := .next (s.endSleep team group slot)

/-- SLEEP_WAKE: a wake event ends a sleep. -/
def execSleepWake (team group : Nat) (slot : Bool) (s : State) : Outcome := .next (s.endSleep team group slot)

/-! ## Waits that end with the instruction issued again -/

/-- TABLE_WALK_COMPLETE: every walk of a parked instruction has ended (R176). -/
def execTableWalkComplete (team group : Nat) (slot : Bool) (s : State) : Outcome :=
  match s.waitNow team group slot with
  | some (.walk pages) =>
    let x := s.teamAt team
    let root := (s.regionAt (s.nodeAt x.node).region).root
    let s := pages.foldl (fun s p => s.tlbFill x.core root p.toNat) s
    .next (s.at { team := team, group := group, slot := slot } fun s => s.putPath { s.path with wait := none, walked := true })
  | _ => .next s

/-- The engine has passed what a footprint or tag wait names (R193, R195). -/
def State.footprintPassed (s : State) (t : Nat) : Wait → Bool
  | .footprint spans write => !s.interlocked t s.acceptSeq spans write
  | .tags granules => !s.tagPending t s.acceptSeq granules
  | _ => false

/-- The row or the tile that a wait names is final (R194). -/
def State.tileFinal (s : State) (t : Nat) : Wait → Bool
  | .watermark tile row => decide (row < s.watermark t tile)
  | .tileIdle tile => !s.tileBusy t tile
  | _ => false

/-- The engine queue that a wait names has space (R208, R212, R222, R240). -/
def State.queueSpace (s : State) (t : Nat) : Wait → Bool
  | .engineQueue q =>
    let c := s.coreAt (s.teamAt t).core
    match q with
    | .copy n => decide (c.copyQ.length + n ≤ 64)
    | .dcmp => decide (s.dcmpCount t < 64)
    | .matrix => decide (c.matrixQ.length < 8)
    | .transform => decide (c.transformQ.length < 2)
  | _ => false

/-- End a wait that satisfies a test. -/
def State.endWait (s : State) (t g : Nat) (b : Bool) (met : Wait → Bool) : State :=
  if ((s.waitNow t g b).map met).getD false then s.reissue t g b else s

/-- FOOTPRINT_WAIT_END -/
def execFootprintWaitEnd (team group : Nat) (slot : Bool) (s : State) : Outcome :=
  .next (s.endWait team group slot (s.footprintPassed team))
/-- WATERMARK_WAIT_END -/
def execWatermarkWaitEnd (team group : Nat) (slot : Bool) (s : State) : Outcome :=
  .next (s.endWait team group slot (s.tileFinal team))
/-- ENGINE_QUEUE_SPACE -/
def execEngineQueueSpace (team group : Nat) (slot : Bool) (s : State) : Outcome :=
  .next (s.endWait team group slot (s.queueSpace team))

/-- A path that waited for stores to reach the system cache re-issues (R163). -/
def State.endStoreWait (s : State) (t g : Nat) (b : Bool) : State :=
  if s.waitNow t g b = some .stores then
    s.at { team := t, group := g, slot := b } fun s => s.putPath { s.path with wait := none, released := true }
  else s

/-- STORES_REACH_SYSTEM_CACHE: a group's earlier stores reach the system cache, with those of its core's other groups, and
its paths that wait for them re-issue (R163). -/
def execStoresReachSystemCache (team group : Nat) (s : State) : Outcome :=
  let s := s.drainCore (s.teamAt team).core
  .next ((s.endStoreWait team group false).endStoreWait team group true)

/-! ## Waits that the device completes -/

/-- EDGE_SLOT_FREE: a waiting EPOST writes its token (R73). -/
def execEdgeSlotFree (team group : Nat) (slot : Bool) (s : State) : Outcome :=
  match s.waitNow team group slot with
  | some (.edgeSlot e token) => .next (s.resume team group slot fun s => s.postToken e token)
  | _ => .next s

/-- EDGE_TOKEN_ARRIVE: a waiting ETAKE takes a token or finds the edge closed (R73). -/
def execEdgeTokenArrive (team group : Nat) (slot : Bool) (s : State) : Outcome :=
  match s.waitNow team group slot with
  | some (.edgeToken e wd ws) => .next (s.resume team group slot fun s => s.takeToken e wd ws)
  | _ => .next s

/-- RING_SPACE: a waiting MSEND writes its entry (R217). -/
def execRingSpace (team group : Nat) (slot : Bool) (s : State) : Outcome :=
  match s.waitNow team group slot with
  | some (.ringSpace i k entry) => .next (s.resume team group slot fun s => s.sendEntry i k entry)
  | _ => .next s

/-- RING_ENTRY_ARRIVE: a waiting MWAIT or MPOP reads an entry (R217). -/
def execRingEntryArrive (team group : Nat) (slot : Bool) (s : State) : Outcome :=
  match s.waitNow team group slot with
  | some (.ringEntry k wd pop) => .next (s.resume team group slot fun s => s.awaitEntry k wd pop)
  | _ => .next s

/-- BATCH_WAIT_END: a waiting WAITB proceeds once the batches it names have ended (R209). -/
def execBatchWaitEnd (team group : Nat) (slot : Bool) (s : State) : Outcome :=
  match s.waitNow team group slot with
  | some (.batch n) => .next (s.resume team group slot fun s => s.waitBatch n true)
  | _ => .next s

end Sys2Proof.Machine
end

