-- ==== Sys2Proof/Machine/Auto.lean ====
section
/-!
DEFINITION. Sys2Proof/Machine/Auto.lean: the events that take place of the device's own accord, which of them takes place
next, and the turns that events and paths take.
-/
namespace Sys2Proof.Machine

/-! ## What an event does -/

/-- The form of a command node that is to run: its meaning is the event of that name. -/
def runCommandNode (i : Nat) (s : State) : Outcome :=
  let n := s.nodeAt i
  match n.imageAddr.toNat with
  | 0x01 => execActivate i s
  | 0x02 => if n.started then execDeactivateDone i s else execDeactivate i s
  | 0x03 => execPreEmpt i s
  | 0x04 => execKill i s
  | 0x05 => execMapExecutable i s
  | 0x06 => execUnmapExecutable i s
  | 0x07 => execTlbInvalidate i s
  | 0x08 =>
    if n.opD = 0 then execFaultResumeReplay i s
    else if n.opD = 1 then execFaultResumeDeliver i s else execFaultResumeKill i s
  | 0x09 =>
    if n.opD = 0 then execMemoSlotCreate i s
    else if n.started then execMemoSlotFreeDone i s else execMemoSlotFree i s
  | 0x0A => execKeyWrite i s
  | 0x0B => execPowerLevel i s
  | 0x0C => execSlotRelease i s
  | _ => .next s

/-- Carry out an event. -/
def runEvent (e : Event) (s : State) : Outcome :=
  match e with
  | .nodeValidate r => execNodeValidate r s
  | .nodeFail i => execNodeFail i s
  | .nodeReady i => execNodeReady i s
  | .ensemblePlacement i cores images privs => execEnsemblePlacement i cores images privs s
  | .teamRetire t => execTeamRetire t s
  | .tryGrant c => execTryGrant c s
  | .growDeadlockSpill c => execGrowDeadlockSpill c s
  | .variantSwitch t image privs => execVariantSwitch t image privs s
  | .preemption i e => execPreemption i e s
  | .contextSave t => execContextSave t s
  | .ensembleRestore i e cores => execEnsembleRestore i e cores s
  | .faultQueueSpace r => execFaultQueueSpace r s
  | .faultDelivery t g b => execFaultDelivery t g b s
  | .pathSwitchCount t g => execPathSwitchCount t g s
  | .groupAging t g => execGroupAging t g s
  | .yieldHoldExpire t g => execYieldHoldExpire t g s
  | .sleepExpire t g b => execSleepExpire t g b s
  | .sleepWake t g b => execSleepWake t g b s
  | .tableWalkComplete t g b => execTableWalkComplete t g b s
  | .footprintWaitEnd t g b => execFootprintWaitEnd t g b s
  | .watermarkWaitEnd t g b => execWatermarkWaitEnd t g b s
  | .engineQueueSpace t g b => execEngineQueueSpace t g b s
  | .edgeSlotFree t g b => execEdgeSlotFree t g b s
  | .edgeTokenArrive t g b => execEdgeTokenArrive t g b s
  | .ringSpace t g b => execRingSpace t g b s
  | .ringEntryArrive t g b => execRingEntryArrive t g b s
  | .batchWaitEnd t g b => execBatchWaitEnd t g b s
  | .copyChunk c => execCopyChunk c s
  | .dcmpChunk k => execDcmpChunk k s
  | .matrixOpStart c => execMatrixOpStart c s
  | .matrixRowFinal c => execMatrixRowFinal c s
  | .transformOpComplete c => execTransformOpComplete c s
  | .binningJob k => execBinningJob k s
  | .storesReachSystemCache t g => execStoresReachSystemCache t g s
  | .memoInstancesActed t g b => execMemoInstancesActed t g b s
  | .command i => runCommandNode i s

/-! ## Which event is due -/

/-- Numbers of a list's places. -/
def indices {α : Type} (l : List α) : List Nat := List.range l.length

/-- Groups of resident teams. -/
def State.residentGroups (s : State) : List (Nat × Nat) :=
  (indices s.teams).flatMap fun t =>
    if (s.teamAt t).status = .resident then (indices (s.teamAt t).groups).map fun g => (t, g) else []

/-- Path switches, agings and the ends of holds (R43, R51, R431). -/
def State.turnEvent (s : State) : Option Event :=
  s.residentGroups.findSome? fun p =>
    let g := s.groupAt p.1 p.2
    if 256 ≤ g.issues && g.ready (!g.cur) then some (.pathSwitchCount p.1 p.2)
    else if 256 ≤ g.age && g.issueSlot.isSome then some (.groupAging p.1 p.2)
    else if g.yieldHold && decide (16 ≤ g.yieldCycles) then some (.yieldHoldExpire p.1 p.2)
    else none

/-- Slots of resident groups. -/
def State.residentSlots (s : State) : List (Nat × Nat × Bool) :=
  s.residentGroups.flatMap fun p => [(p.1, p.2, false), (p.1, p.2, true)]

/-- A trap that the host has had delivered while its group was in trap mode or its team pre-empted is taken as soon as the group has left
trap mode and is resident (R280). -/
def State.deliveryEvent (s : State) : Option Event :=
  s.residentSlots.findSome? fun p =>
    match s.waitNow p.1 p.2.1 p.2.2 with
    | some (.delivery _) => if (s.groupAt p.1 p.2.1).trap.isNone then some (.faultDelivery p.1 p.2.1 p.2.2) else none
    | _ => none

/-- What comes before the next issue: a pending delivery that can be taken, and each switch, aging or end of a hold that is due, where a
group that aging has chosen issues before any later one (R43, R51, R280). -/
def State.slotTurn (s : State) : Option Event :=
  s.deliveryEvent <|> if s.chosenNext && s.focusIssues then none else s.turnEvent

/-- A waiting fault record can be written. -/
def State.queueEvent (s : State) : Option Event :=
  (s.regions.find? fun p => p.2.active && s.faultRoom p.2
    && (!p.2.waitingRecords.isEmpty || !(s.waiters p.1 Wait.forQueue).isEmpty)).map fun p => .faultQueueSpace p.1

/-- A command node can start, or end. -/
def State.commandDue (s : State) (i : Nat) : Bool :=
  let n := s.nodeAt i
  s.commandTurn i &&
    (!n.started ||
      match n.imageAddr.toNat with
      | 0x02 => !s.regionBusy n.opB.toNat
      | 0x03 => s.regionOff n.opB.toNat
      | _ => !s.slotBound n.opB.toNat n.opC.toNat)

/-- Nodes on their way (R67 to R71, R302). -/
def State.nodeEvent (s : State) : Option Event :=
  let is := indices s.nodes
  ((is.find? fun i => (s.failReason i).isSome).map Event.nodeFail)
  <|> ((s.regions.find? fun p => p.2.active && p.2.qhead != p.2.qtail && !s.poolFull).map fun p => .nodeValidate p.1)
  <|> ((is.find? fun i => ((s.nodeAt i).state == .submitted || (s.nodeAt i).state == .waiting) && s.conditionsMet (s.nodeAt i)
        && !s.poolFull).map Event.nodeReady)
  <|> ((is.find? s.commandDue).map Event.command)

/-- A retirement can go on: it ends, or its first staged token has room. -/
def State.retireDue (s : State) (t : Nat) : Bool :=
  let x := s.teamAt t
  s.mayRetire t && (match x.tokenOrder with
    | [] => true
    | p :: _ => (s.appendToken x.node p).isSome)

/-- The pre-emption that is due (R85). -/
def State.victimDue (s : State) : Option (Nat × Nat) :=
  (s.residentEnsembles.find? fun e => (s.regionAt (s.nodeAt e.1).region).preemptAsked) <|> s.nextVictim

/-- A drained switch, with the lowest places that fit (R64). -/
def State.switchEvent (s : State) (t : Nat) : Option Event :=
  let x := s.teamAt t
  if x.status = .resident && (x.barrier switchBarrier).draining && x.request.granted && s.teamDrained t && !s.reentering t then
    let n := s.nodeAt x.node
    let r := s.regionAt n.region
    let goal := n.variant x.request.target
    let grown := if n.priv = 0 then 0 else goal.groups - (s.variantOf x).groups
    match firstFit r.save r.saveSize (s.usedImages n.region t) 65536 goal.imageBytes,
      s.privPlaces n.region n.privBytes grown (s.usedPrivs n.region) with
    | some image, some privs => some (.variantSwitch t image privs)
    | _, _ => none
  else none

/-- Teams that come, go and move (R49, R61, R80 to R88). -/
def State.teamEvent (s : State) : Option Event :=
  let ts := indices s.teams
  let is := indices s.nodes
  ((ts.find? s.retireDue).map Event.teamRetire)
  <|> ((ts.find? s.saveReady).map Event.contextSave)
  <|> (((s.teams.map (·.core)).eraseDups.find? s.growDeadlocked).map Event.growDeadlockSpill)
  <|> (is.findSome? fun i =>
        if s.topRestorable i then
          (s.savedEnsembles i).findSome? fun e =>
            if s.mayRestore i e then (s.restorePlace i e).map fun cores => .ensembleRestore i e cores else none
        else none)
  <|> (is.findSome? fun i =>
        if s.mayPlace i && s.topPlaceable i then (s.placement i).map fun p => .ensemblePlacement i p.1 p.2.1 p.2.2 else none)
  <|> (s.victimDue.map fun e => .preemption e.1 e.2)
  <|> (ts.findSome? s.switchEvent)

/-- The engines of a cluster at work. -/
def State.binEvent (s : State) (k : Nat) : Option Event := if (s.binHead k).isSome then some (.binningJob k) else none
def State.dcmpEvent (s : State) (k : Nat) : Option Event := if (s.dcmpHead k).isSome then some (.dcmpChunk k) else none

/-- The engines of a core at work. -/
def State.matrixEvent (s : State) (c : Nat) : Option Event :=
  match (s.coreAt c).matrixQ with
  | o :: _ =>
    if !o.started then some (.matrixOpStart c)
    else if s.matrixBlocked c o then none else some (.matrixRowFinal c)
  | [] => none
def State.transformEvent (s : State) (c : Nat) : Option Event :=
  match (s.coreAt c).transformQ with
  | o :: _ => if s.transformBlocked c o then none else some (.transformOpComplete c)
  | [] => none
def State.copyEvent (s : State) (c : Nat) : Option Event :=
  match s.copyHead c with
  | some j => if s.copyBlocked j then none else some (.copyChunk c)
  | none => none

/-- The device's completion of a waiting instruction would leave it waiting. -/
def State.wouldWait (s : State) (t g : Nat) (b : Bool) (k : State → Res) : Bool :=
  match k { s with focus := { team := t, group := g, slot := b } } with
  | .wait _ _ => true
  | _ => false

/-- The event that ends a wait, where it can end. -/
def State.waitEvent (s : State) (t g : Nat) (b : Bool) : Option Event :=
  let when' := fun (ok : Bool) (e : Event) => if ok then some e else none
  match s.waitNow t g b with
  | none => none
  | some w =>
    match w with
    | .walk _ => some (.tableWalkComplete t g b)
    | .footprint .. => when' (s.footprintPassed t w) (.footprintWaitEnd t g b)
    | .tags .. => when' (s.footprintPassed t w) (.footprintWaitEnd t g b)
    | .watermark .. => when' (s.tileFinal t w) (.watermarkWaitEnd t g b)
    | .tileIdle _ => when' (s.tileFinal t w) (.watermarkWaitEnd t g b)
    | .engineQueue _ => when' (s.queueSpace t w) (.engineQueueSpace t g b)
    | .stores => some (.storesReachSystemCache t g)
    | .memo .. => some (.memoInstancesActed t g b)
    | .edgeSlot e token => when' (!s.wouldWait t g b fun s => s.postToken e token) (.edgeSlotFree t g b)
    | .edgeToken e wd ws => when' (!s.wouldWait t g b fun s => s.takeToken e wd ws) (.edgeTokenArrive t g b)
    | .ringSpace i k x => when' (!s.wouldWait t g b fun s => s.sendEntry i k x) (.ringSpace t g b)
    | .ringEntry k wd pop => when' (!s.wouldWait t g b fun s => s.awaitEntry k wd pop) (.ringEntryArrive t g b)
    | .batch n => when' (!s.wouldWait t g b fun s => s.waitBatch n) (.batchWaitEnd t g b)
    | _ => none

/-- Stores of a core on their way (R163). -/
def State.storeEvent (s : State) (c : Nat) : Option Event :=
  (s.coreAt c).outgoing.head?.map fun q => .storesReachSystemCache q.team q.group

/-- A sleep whose count may expire (R431). -/
def State.sleepEvent (s : State) (t g : Nat) (b : Bool) : Option Event :=
  match s.waitNow t g b with
  | some (.sleep _) => some (.sleepExpire t g b)
  | _ => none

/-- The device's own events that are due, each with its source: Gamelan and the fault queues, then each engine of each cluster
and core, the stores of each core, and the wait of each slot. A source is its class and its number there. -/
def State.dueEvents (s : State) : List ((Nat × Nat) × Event) :=
  let due := fun (c : Nat) (l : List (Nat × Option Event)) => l.filterMap fun p => p.2.map fun e => ((c, p.1), e)
  let clusters := s.clusters.map (·.1)
  let cores := s.cores.map (·.1)
  let slots := s.residentSlots.map fun p => (32 * p.1 + 2 * p.2.1 + p.2.2.toNat, p)
  due 0 [(0, s.queueEvent <|> s.nodeEvent <|> s.teamEvent)]
    ++ due 1 (clusters.map fun k => (k, s.binEvent k)) ++ due 2 (clusters.map fun k => (k, s.dcmpEvent k))
    ++ due 3 (cores.map fun c => (c, s.matrixEvent c)) ++ due 4 (cores.map fun c => (c, s.transformEvent c))
    ++ due 5 (cores.map fun c => (c, s.copyEvent c)) ++ due 6 (cores.map fun c => (c, s.storeEvent c))
    ++ due 7 (slots.map fun p => (p.1, s.waitEvent p.2.1 p.2.2.1 p.2.2.2))
    ++ due 8 (slots.map fun p => (p.1, s.sleepEvent p.2.1 p.2.2.1 p.2.2.2))

/-- A source stands behind another in the order of turns. -/
def sourceAfter (a b : Nat × Nat) : Bool := decide (a.1 < b.1) || (a.1 == b.1 && decide (a.2 < b.2))

/-- The device's own event that takes place next, if any is due, with its source. Sources take turns, so that none that goes on
without end keeps another from its event (R51). DESIGN CHOICE (log entry 7): the spec orders them by cause and effect alone. -/
def State.nextDue (s : State) : Option ((Nat × Nat) × Event) :=
  let l := s.dueEvents
  (l.find? fun p => sourceAfter s.lastSource p.1) <|> l.head?

def State.nextEvent (s : State) : Option Event := s.nextDue.map (·.2)

/-- The turn of an event whose source is known. -/
def State.tookFrom (s : State) (source : Nat × Nat) : State := { s with lastSource := source }

/-- What a step does. -/
inductive Turn where
  | event (e : Event) (s : State)
  | issue (i : Instr) (s : State)
  | issuePair (p i : Instr) (s : State)
  | stop (s : State)

/-- The turn of a path (R43, R51): its fetch, and the next turn goes to an event. -/
def State.pathTurn (s : State) (f : Focus) : Turn :=
  let s := (({ s with eventTurn := true, chosenNext := false } : State).turnTo f).ageOthers
  match s.fetch with
  | .stop s => .stop s
  | .run i s => .issue i s
  | .pair p i s => .issuePair p i s

/-- Whose turn it is: an event of the agenda, a pending delivery, a switch among paths and groups, a device event after a path has issued, a path, a
device event where no path can issue; nothing where none is due. -/
def State.turn (s : State) : Turn :=
  let s := { s with ticks := s.ticks + 1 }
  match s.agenda with
  | e :: rest => .event e { s with agenda := rest }
  | [] =>
    match s.slotTurn with
    | some e => .event e s
    | none =>
      let s' := { s with eventTurn := false }
      match (if s.eventTurn then s.nextDue else none) with
      | some e => .event e.2 (s'.tookFrom e.1)
      | none =>
        match s'.chosen with
        | some f => s'.pathTurn f
        | none =>
          match s'.nextDue with
          | some e => .event e.2 (s'.tookFrom e.1)
          | none => .stop s'

/-! ## Placing an instruction where the next step fetches -/

/-- Where `withFetchWord` lays the tables, the code page and the virtual address that maps it. -/
def fetchTables : Nat := 0x100000
def fetchCode : Nat := 0x200000
def fetchVa : Nat := 0x10000

/-- Tables that map the 4 KiB page at `fetchVa` to `fetchCode`, executable. -/
def State.mapFetchPage (s : State) : State :=
  let s := (List.range 5).foldl (fun s i =>
    s.writePhys (fetchTables + 0x1000 * i) 8 (fetchTables + 0x1000 * (i + 1) + 1)) s
  s.writePhys (fetchTables + 0x5000 + 8 * (fetchVa / 4096)) 8 (fetchCode + 0xB)

/-- A node, a team of one group of 64 lanes with the largest budgets, and its path at `fetchVa`, in region 0. -/
def State.placeFetchTeam (s : State) : State :=
  let v : Variant := { regs := 128, uregs := 64, groups := 1, acc := 16, scratch := 65536 }
  let r : Region := { s.regionAt 0 with active := true, root := fetchTables }
  let n : Node := { state := .running, image := { variants := [(0, some v)] }, addr := 0x300000 }
  let g : Group := { path0 := some { pc := BitVec.ofNat 64 fetchVa, mask := BitVec.allOnes 64 },
                     live := BitVec.allOnes 64, record := 0x400000, dsbase := 0x40FC00 }
  let t : Team := { node := s.nodes.length, tag := 1, groups := [g], image := 0x3F0000, imageSize := 0x20000 }
  let s := s.setRegion 0 r
  { s with nodes := s.nodes ++ [n], teams := s.teams ++ [t],
           focus := { team := s.teams.length, group := 0, slot := false }
           pending := none, eventTurn := false, chosenNext := true, agenda := []
           units := { unit := fetchCode / 4096, literals := [] } :: s.units }

/-- The state with the bytes of an instruction at the code page. -/
def State.withFetchBytes (s : State) (bs : List Byte) : State :=
  (s.mapFetchPage.placeFetchTeam).writeBytes fetchCode bs

end Sys2Proof.Machine
end

