-- ==== Sys2Proof/Machine/Atomics.lean ====
section
/-!
DEFINITION. Sys2Proof/Machine/Atomics.lean: ATOM, ATOMD and ATOML, majors 0x2A, 0x2B and 0x2E (R312 to R315).
-/
namespace Sys2Proof.Machine

/-- Table 18.4: the new value from the old and the operand, for `n` bits; CAS apart. -/
def atomOp {n : Nat} (op : Nat) (old v : BitVec n) : BitVec n :=
  match op with
  | 0 => old + v
  | 1 => if old.slt v then old else v
  | 2 => if old.slt v then v else old
  | 3 => if old < v then old else v
  | 4 => if old < v then v else old
  | 5 => old &&& v
  | 6 => old ||| v
  | 7 => old ^^^ v
  | 10 => BitVec.ofNat n (fpAdd .fp32 .rne old.toNat v.toNat).1
  | 11 => BitVec.ofNat n (fpPick .fp32 false old.toNat v.toNat).1
  | 12 => BitVec.ofNat n (fpPick .fp32 true old.toNat v.toNat).1
  | _ => v

/-- The new value a lane writes, if it writes: a CAS whose compare fails does not. -/
def atomNew {n : Nat} (op : Nat) (old v c : BitVec n) : Option (BitVec n) :=
  if op = 9 then (if old = c then some v else none) else some (atomOp op old v)

/-- The value an atomic finds: global bytes at the system cache, scratchpad bytes at the owning core; a team that is
gone reads zero (R160, R315). -/
def State.atomRead (s : State) (p : Place) (n : Nat) : Nat :=
  match p with
  | .global ps => leNat (ps.flatMap fun q => (List.range q.2).map fun i => mapGet 0 s.mem (s.phys (q.1 + i)))
  | .pad t o => leNat ((s.teamAt t).padRead o n)
  | .gone => 0

/-- Write an atomic's bytes at the system cache; D is set and the core's L1 loses the line (R163, R171, R315). -/
def State.atomWritePieces (s : State) : List (Nat × Nat) → List Byte → State
  | [], _ => s
  | p :: ps, bs =>
    let s := match s.translate s.coreNow s.rootNow p.1 with
      | .leaf e => ((s.markDirty e).writeBytes (e.physical p.1) (bs.take p.2)).l1Drop s.coreNow (e.physical p.1) p.2
      | _ => s
    s.atomWritePieces ps (bs.drop p.2)

def State.atomWrite (s : State) (p : Place) (bs : List Byte) : State :=
  match p with
  | .global ps => s.atomWritePieces ps bs
  | .pad t o => s.setTeam t ((s.teamAt t).padStore o bs)
  | .gone => s

/-- The core's L1 loses the lines of a global atomic, written or not (R315). -/
def State.atomDrop (s : State) (p : Place) : State :=
  p.pieces.foldl (fun s q => s.l1Drop s.coreNow (s.phys q.1) q.2) s

/-- One lane's read-modify-write of `n` bits: the old value, whether it wrote, and the state. -/
def State.atomLane (s : State) (n op : Nat) (v c : Nat → BitVec n) (a : Access) : BitVec n × Bool × State :=
  let old := BitVec.ofNat n (s.atomRead a.place (n / 8))
  match atomNew op old (v a.lane) (c a.lane) with
  | some x => (old, true, (s.atomWrite a.place (natLe (n / 8) x.toNat)).atomDrop a.place)
  | none => (old, false, s.atomDrop a.place)

/-- The lanes in increasing order (R313): old values, the lanes that wrote, and the state. -/
def State.atomLanes (s : State) (n op : Nat) (v c : Nat → BitVec n) :
    List Access → List (Nat × BitVec n) × List Access × State
  | [] => ([], [], s)
  | a :: as =>
    let (old, wrote, s1) := s.atomLane n op v c a
    let (olds, ws, s2) := s1.atomLanes n op v c as
    ((a.lane, old) :: olds, if wrote then a :: ws else ws, s2)

/-- The operand of a lane of an atomic: `n` bits of consecutive registers. -/
def State.atomOperand (s : State) (n r l : Nat) : BitVec n := BitVec.ofNat n (leNat (s.regBytes r l (n / 8)))

/-- The lanes of an atomic, operands v and vc read from `s`, run over the memory of `t` (R313). -/
def State.atomRun (s : State) (n op vt vc : Nat) (t : State) (as : List Access) :
    List (Nat × BitVec n) × List Access × State :=
  t.atomLanes n op (s.atomOperand n vt) (s.atomOperand n vc) as

/-- The accesses of an atomic; those that will write interlock as writes (R193). -/
def atomAccess (s : State) (n op vt vc : Nat) (early : State → Nat → Except AccessFault Access) : LaneAccess :=
  { early := single early, bytes := n / 8, write := true, reads := true, direct := true,
    writers := fun t as => (s.atomRun n op vt vc t as).2.1 }

/-- What an atomic leaves: it is performed at the system cache, after the core's own stores, and each lane's register takes
the value its lane found (R186, R313). -/
def State.finishAtom (s : State) (n op vt vc : Nat) (t : State) (as : List Access) : State :=
  let t := if as.any (fun a => !a.place.pieces.isEmpty) then t.drainCore t.coreNow else t
  (s.atomRun n op vt vc t as).2.2.lanesFrom vt (n / 32) fun i l =>
    ((((s.atomRun n op vt vc t as).1.find? fun p => p.1 == l).map Prod.snd).getD 0).extractLsb' (32 * i) 32

/-- An atomic of `n` bits whose lane addresses `early` gives (R313, R314). -/
def atomInstr (n : Nat) (early : State → Nat → Except AccessFault Access) (vt va : BitVec 7) (wb : BitVec 6)
    (op : BitVec 5) (s : State) : Outcome :=
  laneInstr { vr := regsFrom vt.toNat (n / 32) ++ (addrRegs va wb).1 ++ (if op = 9 then regsFrom s.vc (n / 32) else []),
              wr := (addrRegs va wb).2, vw := regsFrom vt.toNat (n / 32) } {} s fun s =>
    laneAccess (atomAccess s n op.toNat vt.toNat s.vc early) s.pfx.rnd.toNat s.pfx.scope s fun t as =>
      .next (s.finishAtom n op.toNat vt.toNat s.vc t as)

/-- Orders 1 to 4 of Table 18.5 for ATOM and ATOMD, whose address must be a multiple of `b` bytes. -/
def State.atomPlace (s : State) (va : BitVec 7) (wb : BitVec 6) (b : Nat) (l : Nat) : Except AccessFault Access :=
  let a := s.laneAddress va wb l
  match s.resolve (some l) a b with
  | .error f => .error f
  | .ok place =>
    if s.node.det && (windowOf a == .global || windowOf a == .cluster) then .error ⟨0x09, a, 0⟩
    else if a.toNat % b ≠ 0 then .error ⟨0x04, a, 0⟩
    else .ok { lane := l, addr := a, place := place }

def execAtom (vt va : BitVec 7) (wb : BitVec 6) (op : BitVec 5) (s : State) : Outcome :=
  atomInstr 32 (fun s l => s.atomPlace va wb 4 l) vt va wb op s
def execAtomd (vt va : BitVec 7) (wb : BitVec 6) (op : BitVec 5) (s : State) : Outcome :=
  atomInstr 64 (fun s l => s.atomPlace va wb 8 l) vt va wb op s
def execAtoml (vt va : BitVec 7) (wb : BitVec 6) (op : BitVec 5) (s : State) : Outcome :=
  atomInstr 32 (fun s l => s.localOffset va wb l 4) vt va wb op s

end Sys2Proof.Machine
end

