-- ==== Sys2Proof/Machine/LaneCross.lean ====
section
/-!
DEFINITION. Sys2Proof/Machine/LaneCross.lean: the cross-lane instructions and register moves, majors 0x1C to 0x1F.
-/
namespace Sys2Proof.Machine

/-- Inside a quad region, a lane whose source lane is active stands in the source's quad (Table 14.5). -/
def State.crossesQuad (s : State) (src : Nat → Option Nat) : Bool :=
  match s.path.region with
  | some r => r.gran == 1 && (lanesOf s.active).any fun l =>
      match src l with
      | some j => s.active.getLsbD j && j / 4 != l / 4
      | none => false
  | none => false

/-- A shuffle: lane l takes va of lane `src`, or its own where that lane is not active (R397). -/
def shuffle (sh : Shape) (h : Hold) (src : State → Nat → Nat) (vd va : BitVec 7) (s : State) : Outcome :=
  laneInstr { sh with purity := .quadUp } h s fun s =>
    if s.crossesQuad (fun l => some (src s l)) then .trap 0x08 0 3
    else .next (s.lanes vd.toNat fun l => if s.active.getLsbD (src s l) then s.lane va (src s l) else s.lane va l)

def execShfl (vd va vb : BitVec 7) (ha hb : Bool) (s : State) : Outcome :=
  shuffle (shapeRR vd va vb) (holdAB ha hb va vb) (fun s l => (s.lane vb l).toNat % Config.width) vd va s
def execShflx (vd va vb : BitVec 7) (ha hb : Bool) (s : State) : Outcome :=
  shuffle (shapeRR vd va vb) (holdAB ha hb va vb) (fun s l => l ^^^ ((s.lane vb l).toNat % Config.width)) vd va s
def execShflr (vd va vb : BitVec 7) (ha hb : Bool) (s : State) : Outcome :=
  shuffle (shapeRR vd va vb) (holdAB ha hb va vb) (fun s l => (l + (s.lane vb l).toNat) % Config.width) vd va s
def execShflh (vd va k : BitVec 7) (ha : Bool) (s : State) : Outcome :=
  shuffle (shapeR vd va) (holdA ha va) (fun _ l => l ^^^ (Config.width >>> k.toNat)) vd va s

/-- One scan step of LSTEP: the value of lane m combined with that of lane l (R365). -/
def stepCombine (op : Nat) (code : Nat) (m l : Word) : Word × BitVec 5 :=
  match op with
  | 0 => (m + l, 0)
  | 1 => word32 (fpAdd .fp32 (rndOf code true) m.toNat l.toNat)
  | 2 => word32 (fpPick .fp32 false m.toNat l.toNat)
  | _ => word32 (fpPick .fp32 true m.toNat l.toNat)

def execLstep (vd va k : BitVec 7) (op : BitVec 2) (ha : Bool) (s : State) : Outcome :=
  laneInstr { shapeR vd va with purity := .quadUp } (holdA ha va) s fun s =>
    let d := 2 ^ k.toNat
    let src := fun l => if d ≤ l then some (l - d) else none
    if s.crossesQuad src then .trap 0x08 0 3
    else
      let r := fun l =>
        if decide (d ≤ l) && s.active.getLsbD (l - d) then
          stepCombine op.toNat s.pfx.rnd.toNat (s.lane va (l - d)) (s.lane va l)
        else (s.lane va l, 0)
      .next ((s.lanes vd.toNat fun l => (r l).1).flag (s.laneFlags fun l => (r l).2))

/-- The active lanes whose va equals that of lane l (R367). -/
def State.equalLanes (s : State) (va : BitVec 7) (l : Nat) : List Nat :=
  (lanesOf s.active).filter fun m => s.lane va m == s.lane va l

/-- A member of the MATCH family: a number formed from the lanes that match. -/
def matchInstr (f : Nat → List Nat → Nat) (vd va : BitVec 7) (ha : Bool) (s : State) : Outcome :=
  laneInstr { shapeR vd va with purity := .groupTile } (holdA ha va) s fun s =>
    .next (s.lanes vd.toNat fun l => BitVec.ofNat 32 (f l (s.equalLanes va l)))

def execVmatch (vd va : BitVec 7) (ha : Bool) (s : State) : Outcome := matchInstr (fun l e => e.headD l) vd va ha s
def execMrank (vd va : BitVec 7) (ha : Bool) (s : State) : Outcome :=
  matchInstr (fun l e => (e.filter fun m => decide (m < l)).length) vd va ha s
def execMcnt (vd va : BitVec 7) (ha : Bool) (s : State) : Outcome := matchInstr (fun _ e => e.length) vd va ha s
def execMlast (vd va : BitVec 7) (ha : Bool) (s : State) : Outcome := matchInstr (fun l e => e.getLastD l) vd va ha s

/-! ## LANEID family (R356) -/

def execLaneid (vd : BitVec 7) (s : State) : Outcome :=
  laneInstr { vw := [vd.toNat], purity := .groupTile } {} s fun s => .next (s.lanes vd.toNat fun l => BitVec.ofNat 32 l)
def execVmov (vd va : BitVec 7) (ha : Bool) (s : State) : Outcome := laneR id vd va ha s
def execMovp (vd : BitVec 7) (pn : BitVec 3) (s : State) : Outcome :=
  laneInstr { pr := [pn], vw := [vd.toNat], purity := .all } {} s fun s =>
    .next (s.lanes vd.toNat fun l => if (s.pred pn).getLsbD l then 1 else 0)
def execSetp (pd : BitVec 3) (va : BitVec 7) (ha : Bool) (s : State) : Outcome :=
  laneInstr { vr := [va.toNat], pw := [pd], purity := .all } (holdA ha va) s fun s =>
    .next (s.writeP pd s.active (maskOf fun l => s.lane va l != 0))

end Sys2Proof.Machine
end

