-- ==== Sys2Proof/Machine/LaneFp.lean ====
section
/-!
DEFINITION. Sys2Proof/Machine/LaneFp.lean: the lane-space floating-point instructions, conversions and block-scaled
formats, majors 0x12 to 0x1B.
-/
namespace Sys2Proof.Machine

/-! ## FADD family (R339) -/

def execFadd (vd va vb : BitVec 7) (ha hb : Bool) (s : State) : Outcome :=
  laneFp2 (fun c a b => word32 (fpAdd .fp32 (rndOf c true) a.toNat b.toNat)) vd va vb ha hb s
def execFsub (vd va vb : BitVec 7) (ha hb : Bool) (s : State) : Outcome :=
  laneFp2 (fun c a b => word32 (fpSub .fp32 (rndOf c true) a.toNat b.toNat)) vd va vb ha hb s
def execFmul (vd va vb : BitVec 7) (ha hb : Bool) (s : State) : Outcome :=
  laneFp2 (fun c a b => word32 (fpMul .fp32 (rndOf c true) a.toNat b.toNat)) vd va vb ha hb s
def execFfma (vd va vb : BitVec 7) (ha hb : Bool) (s : State) : Outcome :=
  laneFp3 (fun c d a b => word32 (fpFma .fp32 (rndOf c true) d.toNat a.toNat b.toNat)) vd va vb ha hb s

/-! ## FMIN family (R343) and FCMP (R340) -/

def execFmin (vd va vb : BitVec 7) (ha hb : Bool) (s : State) : Outcome :=
  laneFp2 (fun _ a b => word32 (fpPick .fp32 false a.toNat b.toNat)) vd va vb ha hb s
def execFmax (vd va vb : BitVec 7) (ha hb : Bool) (s : State) : Outcome :=
  laneFp2 (fun _ a b => word32 (fpPick .fp32 true a.toNat b.toNat)) vd va vb ha hb s
/-- FABS keeps a NaN's payload and sets no flag (R135). -/
def execFabs (vd va : BitVec 7) (ha : Bool) (s : State) : Outcome := laneR (fun a => a &&& 0x7FFFFFFF) vd va ha s
def execFneg (vd va : BitVec 7) (ha : Bool) (s : State) : Outcome := laneR (fun a => a ^^^ 0x80000000) vd va ha s
def execFcmp (pd : BitVec 3) (va vb : BitVec 7) (rel : BitVec 2) (ha hb : Bool) (s : State) : Outcome :=
  laneInstr (shapeCmp pd va vb) (holdAB ha hb va vb) s fun s =>
    let r := fun l => fpRelation .fp32 rel.toNat (s.lane va l).toNat (s.lane vb l).toNat
    .next ((s.writeP pd s.active (maskOf fun l => (r l).1)).flag (s.laneFlags fun l => (r l).2))

/-! ## Packed FP16 (R345) and BF16 (R316) -/

/-- Two halves, each a function of the halves of a and b. -/
def packed2 (f : Nat → Nat → Nat × BitVec 5) (a b : Word) : Word × BitVec 5 :=
  packHalves (f (half a 0) (half b 0)) (f (half a 1) (half b 1))
/-- Two halves, each a function of the halves of d, a and b. -/
def packed3 (f : Nat → Nat → Nat → Nat × BitVec 5) (d a b : Word) : Word × BitVec 5 :=
  packHalves (f (half d 0) (half a 0) (half b 0)) (f (half d 1) (half a 1) (half b 1))

def execHaddp (vd va vb : BitVec 7) (ha hb : Bool) (s : State) : Outcome :=
  laneFp2 (fun c => packed2 (fpAdd .fp16 (rndOf c true))) vd va vb ha hb s
def execHmulp (vd va vb : BitVec 7) (ha hb : Bool) (s : State) : Outcome :=
  laneFp2 (fun c => packed2 (fpMul .fp16 (rndOf c true))) vd va vb ha hb s
def execHfmap (vd va vb : BitVec 7) (ha hb : Bool) (s : State) : Outcome :=
  laneFp3 (fun c => packed3 (fpFma .fp16 (rndOf c true))) vd va vb ha hb s
def execHmaxp (vd va vb : BitVec 7) (ha hb : Bool) (s : State) : Outcome :=
  laneFp2 (fun _ => packed2 (fpPick .fp16 true)) vd va vb ha hb s
def execBadd2 (vd va vb : BitVec 7) (ha hb : Bool) (s : State) : Outcome :=
  laneFp2 (fun c => packed2 (fpAdd .bf16 (rndOf c true))) vd va vb ha hb s
def execBmul2 (vd va vb : BitVec 7) (ha hb : Bool) (s : State) : Outcome :=
  laneFp2 (fun c => packed2 (fpMul .bf16 (rndOf c true))) vd va vb ha hb s
def execBfma2 (vd va vb : BitVec 7) (ha hb : Bool) (s : State) : Outcome :=
  laneFp3 (fun c => packed3 (fpFma .bf16 (rndOf c true))) vd va vb ha hb s
def execBmax2 (vd va vb : BitVec 7) (ha hb : Bool) (s : State) : Outcome :=
  laneFp2 (fun _ => packed2 (fpPick .bf16 true)) vd va vb ha hb s

/-! ## RCP family (R391) and LOG2 family (R363) -/

def execRcp (vd va : BitVec 7) (ha : Bool) (s : State) : Outcome := laneFp1 (fun _ a => word32 (fpRcp a.toNat)) vd va ha s
def execRsq (vd va : BitVec 7) (ha : Bool) (s : State) : Outcome := laneFp1 (fun _ a => word32 (fpRsq a.toNat)) vd va ha s
def execSqrt (vd va : BitVec 7) (ha : Bool) (s : State) : Outcome :=
  laneFp1 (fun c a => word32 (fpSqrt (rndOf c true) a.toNat)) vd va ha s
def execExp2 (vd va : BitVec 7) (ha : Bool) (s : State) : Outcome := laneFp1 (fun _ a => word32 (fpExp2 a.toNat)) vd va ha s
def execLog2 (vd va : BitVec 7) (ha : Bool) (s : State) : Outcome := laneFp1 (fun _ a => word32 (fpLog2 a.toNat)) vd va ha s
def execSin (vd va : BitVec 7) (ha : Bool) (s : State) : Outcome :=
  laneFp1 (fun _ a => word32 (fpTrig false a.toNat)) vd va ha s
def execCos (vd va : BitVec 7) (ha : Bool) (s : State) : Outcome :=
  laneFp1 (fun _ a => word32 (fpTrig true a.toNat)) vd va ha s
def execTanh (vd va : BitVec 7) (ha : Bool) (s : State) : Outcome := laneFp1 (fun _ a => word32 (fpTanh a.toNat)) vd va ha s

/-! ## CVT (R148) -/

/-- What a conversion code's source names (Table 8.7). -/
inductive CvtFmt where
  | float (f : Fmt)
  | int32
  | uint32
  | int8
  | uint8
deriving DecidableEq

def cvtSource (src : Nat) (x : Word) : CvtFmt × Nat :=
  match src with
  | 0 => (.float .fp32, x.toNat)
  | 1 => (.float .fp16, half x 0)
  | 2 => (.float .bf16, half x 0)
  | 3 => (.int32, x.toNat)
  | 4 => (.uint32, x.toNat)
  | 5 => (.float .fp16, half x 1)
  | _ => (.float .bf16, half x 1)

def cvtDest (dst : Nat) : CvtFmt :=
  match dst with
  | 0 => .float .fp32
  | 1 => .float .fp16
  | 2 => .float .bf16
  | 3 => .int32
  | 4 => .uint32
  | 5 => .float .e4m3
  | 6 => .float .e5m2
  | 7 => .int8
  | 8 => .uint8
  | 9 => .float .fp16
  | _ => .float .bf16

def CvtFmt.value (f : CvtFmt) (x : Nat) : FVal :=
  match f with
  | .float f => f.value x
  | .int32 => intValue (BitVec.ofNat 32 x).toInt
  | _ => .num false x 0

/-- Round to a destination, sign-extended or zero-extended as Table 8.7 gives. -/
def CvtFmt.convert (f : CvtFmt) (code : Nat) (x : FVal) : Word × BitVec 5 :=
  match f with
  | .float f => word32 (convertTo f (rndOf code f.wide) x)
  | .int32 =>
    let r := convertInt (-(2 ^ 31)) (2 ^ 31 - 1) (rndOf code true) x
    (BitVec.ofInt 32 r.1, r.2)
  | .uint32 =>
    let r := convertInt 0 (2 ^ 32 - 1) (rndOf code true) x
    (BitVec.ofInt 32 r.1, r.2)
  | .int8 =>
    let r := convertInt (-128) 127 (rndOf code false) x
    (BitVec.ofInt 32 r.1, r.2)
  | .uint8 =>
    let r := convertInt 0 255 (rndOf code false) x
    (BitVec.ofInt 32 r.1, r.2)

/-- CVT of one lane: `d` is vd's old value, kept in part by codes 9 and 10. -/
def cvtLane (src dst code : Nat) (d a : Word) : Word × BitVec 5 :=
  let (sf, x) := cvtSource src a
  let df := cvtDest dst
  let y := if sf = df then (BitVec.ofNat 32 x, 0) else df.convert code (sf.value x)
  if 9 ≤ dst then (y.1.extractLsb' 0 16 ++ d.extractLsb' 0 16, y.2) else y

/-- The rounding code of CVT: fn 1, 2, 3 are RTZ, RDN, RUP; fn 0 takes the prefix's. -/
def cvtCode (mode : BitVec 2) (rnd : BitVec 3) : Nat := if mode = 0 then rnd.toNat else mode.toNat + 1

def execCvt (vd va : BitVec 7) (src : BitVec 3) (dst : BitVec 4) (mode : BitVec 2) (ha : Bool) (s : State) : Outcome :=
  laneInstr { shapeR vd va with vr := va.toNat :: (if 9 ≤ dst.toNat then [vd.toNat] else []) } (holdA ha va) s fun s =>
    let r := fun l => cvtLane src.toNat dst.toNat (cvtCode mode s.pfx.rnd) (s.lane vd l) (s.lane va l)
    .next ((s.lanes vd.toNat fun l => (r l).1).flag (s.laneFlags fun l => (r l).2))

/-! ## QE4 family (R388) and DE4 family (R333), R149 -/

/-- The element formats of the block-scaled members, with their bits and count. -/
inductive QFmt where
  | e4m3 | e5m2 | int8 | e2m1
deriving DecidableEq

def QFmt.bits : QFmt → Nat
  | .e2m1 => 4
  | _ => 8
def QFmt.count : QFmt → Nat
  | .e2m1 => 8
  | _ => 4

/-- Quantise an exact product: the flags are those of the product and of its one rounding. -/
def QFmt.quantise (q : QFmt) (code : Nat) (p : FVal × Bool) : Nat × BitVec 5 :=
  let r := match q with
    | .e4m3 => roundTo .e4m3 (rndOf code false) p.1
    | .e5m2 => roundTo .e5m2 (rndOf code false) p.1
    | .e2m1 => roundTo .e2m1 (rndOf code false) p.1
    | .int8 =>
      let r := convertInt (-128) 127 (rndOf code false) p.1
      ((BitVec.ofInt 8 r.1).toNat, r.2)
  (r.1, r.2 ||| flagIf p.2 flagInvalid)

/-- The value of an element. -/
def QFmt.element (q : QFmt) (x : Nat) : FVal :=
  match q with
  | .e4m3 => Fmt.e4m3.value x
  | .e5m2 => Fmt.e5m2.value x
  | .e2m1 => Fmt.e2m1.value x
  | .int8 => intValue (BitVec.ofNat 8 x).toInt

/-- vd[l] packs the elements of va and the registers after it, times vb[l]. -/
def quantInstr (q : QFmt) (vd va vb : BitVec 7) (ha hb : Bool) (s : State) : Outcome :=
  laneInstr { vr := regsFrom va.toNat q.count ++ [vb.toNat], vw := [vd.toNat], purity := .all } (holdAB ha hb va vb) s
    fun s =>
      let e := fun l i => q.quantise s.pfx.rnd.toNat
        ((Fmt.fp32.value (s.vreg (va.toNat + i) l).toNat).mul (Fmt.fp32.value (s.lane vb l).toNat))
      let word := fun l => BitVec.ofNat 32 (((List.range q.count).map fun i => (e l i).1 * 2 ^ (q.bits * i)).sum)
      let flags := fun l => (List.range q.count).foldl (fun a i => a ||| (e l i).2) 0
      .next ((s.lanes vd.toNat word).flag (s.laneFlags flags))

/-- vd and the registers after it hold the elements of va[l] times vb[l], each rounded to FP32. -/
def dequantInstr (q : QFmt) (vd va vb : BitVec 7) (ha hb : Bool) (s : State) : Outcome :=
  laneInstr { vr := [va.toNat, vb.toNat], vw := regsFrom vd.toNat q.count, purity := .all } (holdAB ha hb va vb) s
    fun s =>
      let e := fun i l => rounded .fp32 (rndOf s.pfx.rnd.toNat true)
        ((q.element ((s.lane va l).toNat / 2 ^ (q.bits * i) % 2 ^ q.bits)).mul (Fmt.fp32.value (s.lane vb l).toNat))
      let flags := fun l => (List.range q.count).foldl (fun a i => a ||| (e i l).2) 0
      .next ((s.lanesFrom vd.toNat q.count fun i l => BitVec.ofNat 32 (e i l).1).flag (s.laneFlags flags))

def execQe4 (vd va vb : BitVec 7) (ha hb : Bool) (s : State) : Outcome := quantInstr .e4m3 vd va vb ha hb s
def execQe5 (vd va vb : BitVec 7) (ha hb : Bool) (s : State) : Outcome := quantInstr .e5m2 vd va vb ha hb s
def execQi8 (vd va vb : BitVec 7) (ha hb : Bool) (s : State) : Outcome := quantInstr .int8 vd va vb ha hb s
def execQf4 (vd va vb : BitVec 7) (ha hb : Bool) (s : State) : Outcome := quantInstr .e2m1 vd va vb ha hb s
def execDe4 (vd va vb : BitVec 7) (ha hb : Bool) (s : State) : Outcome := dequantInstr .e4m3 vd va vb ha hb s
def execDe5 (vd va vb : BitVec 7) (ha hb : Bool) (s : State) : Outcome := dequantInstr .e5m2 vd va vb ha hb s
def execDi8 (vd va vb : BitVec 7) (ha hb : Bool) (s : State) : Outcome := dequantInstr .int8 vd va vb ha hb s
def execDf4 (vd va vb : BitVec 7) (ha hb : Bool) (s : State) : Outcome := dequantInstr .e2m1 vd va vb ha hb s

end Sys2Proof.Machine
end

