-- ==== Sys2Proof/Machine/LaneInt.lean ====
section
/-!
DEFINITION. Sys2Proof/Machine/LaneInt.lean: the lane-space integer instructions, majors 0x00 to 0x11.
-/
namespace Sys2Proof.Machine

/-! ## IADD family (R346) and IMINU family (R350) -/

def execIadd (vd va vb : BitVec 7) (ha hb : Bool) (s : State) : Outcome := laneRR (· + ·) vd va vb ha hb s
def execIsub (vd va vb : BitVec 7) (ha hb : Bool) (s : State) : Outcome := laneRR (· - ·) vd va vb ha hb s
def execImin (vd va vb : BitVec 7) (ha hb : Bool) (s : State) : Outcome :=
  laneRR (fun a b => if a.toInt ≤ b.toInt then a else b) vd va vb ha hb s
def execImax (vd va vb : BitVec 7) (ha hb : Bool) (s : State) : Outcome :=
  laneRR (fun a b => if b.toInt ≤ a.toInt then a else b) vd va vb ha hb s
def execIminu (vd va vb : BitVec 7) (ha hb : Bool) (s : State) : Outcome :=
  laneRR (fun a b => if a ≤ b then a else b) vd va vb ha hb s
def execImaxu (vd va vb : BitVec 7) (ha hb : Bool) (s : State) : Outcome :=
  laneRR (fun a b => if a ≤ b then b else a) vd va vb ha hb s
def execIabsd (vd va vb : BitVec 7) (ha hb : Bool) (s : State) : Outcome :=
  laneRR (fun a b => if a ≤ b then b - a else a - b) vd va vb ha hb s

/-! ## IMUL family (R351) -/

def execImul (vd va vb : BitVec 7) (ha hb : Bool) (s : State) : Outcome := laneRR (· * ·) vd va vb ha hb s
def execImulhs (vd va vb : BitVec 7) (ha hb : Bool) (s : State) : Outcome :=
  laneRR (fun a b => BitVec.ofInt 32 (a.toInt * b.toInt / 2 ^ 32)) vd va vb ha hb s
def execImulhu (vd va vb : BitVec 7) (ha hb : Bool) (s : State) : Outcome :=
  laneRR (fun a b => BitVec.ofNat 32 (a.toNat * b.toNat / 2 ^ 32)) vd va vb ha hb s
/-- IMAD reads vc from its prefix, v0 where none stands before it (R107, R110). -/
def execImad (vd va vb : BitVec 7) (ha hb : Bool) (s : State) : Outcome :=
  laneInstr { shapeRR vd va vb with vr := [va.toNat, vb.toNat, s.vc] } (holdAB ha hb va vb) s fun s =>
    .next (s.lanes vd.toNat fun l => s.lane va l * s.lane vb l + s.vreg s.vc l)

/-! ## AND family (R310) and SHL family (R398) -/

def execAnd (vd va vb : BitVec 7) (ha hb : Bool) (s : State) : Outcome := laneRR (· &&& ·) vd va vb ha hb s
def execOr (vd va vb : BitVec 7) (ha hb : Bool) (s : State) : Outcome := laneRR (· ||| ·) vd va vb ha hb s
def execXor (vd va vb : BitVec 7) (ha hb : Bool) (s : State) : Outcome := laneRR (· ^^^ ·) vd va vb ha hb s
def execAndn (vd va vb : BitVec 7) (ha hb : Bool) (s : State) : Outcome := laneRR (fun a b => a &&& ~~~b) vd va vb ha hb s

/-- The shift count: bits 4 to 0 (R398). -/
def shiftCount (b : Word) : Nat := b.toNat % 32
def execShl (vd va vb : BitVec 7) (ha hb : Bool) (s : State) : Outcome :=
  laneRR (fun a b => a <<< shiftCount b) vd va vb ha hb s
def execShr (vd va vb : BitVec 7) (ha hb : Bool) (s : State) : Outcome :=
  laneRR (fun a b => a >>> shiftCount b) vd va vb ha hb s
def execSar (vd va vb : BitVec 7) (ha hb : Bool) (s : State) : Outcome :=
  laneRR (fun a b => a.sshiftRight (shiftCount b)) vd va vb ha hb s
def execRotl (vd va vb : BitVec 7) (ha hb : Bool) (s : State) : Outcome :=
  laneRR (fun a b => a.rotateLeft (shiftCount b)) vd va vb ha hb s

/-! ## POPC family (R385) -/

/-- The number of one bits. -/
def onesOf {n : Nat} (x : BitVec n) : Nat := ((List.range n).filter fun i => x.getLsbD i).length
/-- The number of zero bits above the highest one bit. -/
def leadingZeros (x : Word) : Nat := if x = 0 then 32 else 31 - x.toNat.log2
/-- Bit i of the result is bit 31 - i of the operand. -/
def reverseBits (x : Word) : Word :=
  (List.range 32).foldl (fun r i => if x.getLsbD (31 - i) then r ||| BitVec.twoPow 32 i else r) 0
/-- The bit field of R385. -/
def bitFieldExtract (a b c : Word) : Word :=
  let sh := b.toNat % 32
  let n := min (c.toNat % 64) (32 - sh)
  let f := a.toNat / 2 ^ sh % 2 ^ n
  if c.getLsbD 8 && decide (0 < n) && f.testBit (n - 1) then BitVec.ofInt 32 ((f : Int) - 2 ^ n) else BitVec.ofNat 32 f

def execPopc (vd va : BitVec 7) (ha : Bool) (s : State) : Outcome := laneR (fun a => BitVec.ofNat 32 (onesOf a)) vd va ha s
def execClz (vd va : BitVec 7) (ha : Bool) (s : State) : Outcome :=
  laneR (fun a => BitVec.ofNat 32 (leadingZeros a)) vd va ha s
def execBrev (vd va : BitVec 7) (ha : Bool) (s : State) : Outcome := laneR reverseBits vd va ha s
def execBfx (vd va vb : BitVec 7) (ha hb : Bool) (s : State) : Outcome :=
  laneInstr { shapeRR vd va vb with vr := [va.toNat, vb.toNat, s.vc] } (holdAB ha hb va vb) s fun s =>
    .next (s.lanes vd.toNat fun l => bitFieldExtract (s.lane va l) (s.lane vb l) (s.vreg s.vc l))

/-! ## ICMP (R349) and SEL (R396) -/

/-- EQ, NE, LT, LE of major 0x06. -/
def intRelation (rel : BitVec 2) (a b : Word) : Bool :=
  match rel.toNat with
  | 0 => a == b
  | 1 => a != b
  | 2 => decide (a.toInt < b.toInt)
  | _ => decide (a.toInt ≤ b.toInt)

def execIcmp (pd : BitVec 3) (va vb : BitVec 7) (rel : BitVec 2) (ha hb : Bool) (s : State) : Outcome :=
  laneTest (intRelation rel) pd va vb ha hb s
/-- LTU and LEU of major 0x07. -/
def execIcmpUnsigned (pd : BitVec 3) (va vb : BitVec 7) (rel : BitVec 2) (ha hb : Bool) (s : State) : Outcome :=
  laneTest (fun a b => if rel = 0 then a < b else a ≤ b) pd va vb ha hb s
def execSel (vd va vb : BitVec 7) (ps : BitVec 2) (ha hb : Bool) (s : State) : Outcome :=
  laneInstr { shapeRR vd va vb with pr := [ps.setWidth 3] } (holdAB ha hb va vb) s fun s =>
    .next (s.lanes vd.toNat fun l => if (s.pred (ps.setWidth 3)).getLsbD l then s.lane va l else s.lane vb l)

/-! ## IADD64 family (R347) -/

def execIadd64 (vd va vb : BitVec 7) (ha hb : Bool) (s : State) : Outcome := lanePair (· + ·) vd va vb ha hb s
def execIsub64 (vd va vb : BitVec 7) (ha hb : Bool) (s : State) : Outcome := lanePair (· - ·) vd va vb ha hb s
def execImul64 (vd va vb : BitVec 7) (ha hb : Bool) (s : State) : Outcome := lanePair (· * ·) vd va vb ha hb s
def execMadw (vd va vb : BitVec 7) (ha hb : Bool) (s : State) : Outcome :=
  laneInstr { vr := [va.toNat, vb.toNat] ++ regsFrom vd.toNat 2, vw := regsFrom vd.toNat 2, purity := .all }
    (holdAB ha hb va vb) s fun s =>
      let d := fun l => s.pair vd.toNat l + (s.lane va l).setWidth 64 * (s.lane vb l).setWidth 64
      .next (s.lanesFrom vd.toNat 2 fun i l => (d l).extractLsb' (32 * i) 32)

/-! ## Immediates (R348, R311, R383, R429, R399, R400, R395, R377) -/

/-- sext(imm10, 10). -/
def imm32 (imm : BitVec 10) : Word := imm.signExtend 32

def execIaddi (vd va : BitVec 7) (imm : BitVec 10) (ha : Bool) (s : State) : Outcome := laneR (· + imm32 imm) vd va ha s
def execAndi (vd va : BitVec 7) (imm : BitVec 10) (ha : Bool) (s : State) : Outcome := laneR (· &&& imm32 imm) vd va ha s
def execOri (vd va : BitVec 7) (imm : BitVec 10) (ha : Bool) (s : State) : Outcome := laneR (· ||| imm32 imm) vd va ha s
def execXori (vd va : BitVec 7) (imm : BitVec 10) (ha : Bool) (s : State) : Outcome := laneR (· ^^^ imm32 imm) vd va ha s
def execShli (vd va : BitVec 7) (imm : BitVec 10) (ha : Bool) (s : State) : Outcome := laneR (· <<< imm.toNat) vd va ha s
def execShri (vd va : BitVec 7) (imm : BitVec 10) (ha : Bool) (s : State) : Outcome := laneR (· >>> imm.toNat) vd va ha s
def execSari (vd va : BitVec 7) (imm : BitVec 10) (ha : Bool) (s : State) : Outcome :=
  laneR (fun a => a.sshiftRight imm.toNat) vd va ha s
def execMovi (vd : BitVec 7) (imm : BitVec 10) (s : State) : Outcome :=
  laneInstr { vw := [vd.toNat], purity := .all } {} s fun s => .next (s.lanes vd.toNat fun _ => imm32 imm)

end Sys2Proof.Machine
end

