-- ==== Sys2Proof/Machine/Status.lean ====
section
/-!
DEFINITION. Sys2Proof/Machine/Status.lean: the status registers (R98, R99, R408), and voting and broadcast, group-space
major 0x0A (R323).
-/
namespace Sys2Proof.Machine

/-- Three numbers in the packing of TEAMXYZ (R30). -/
def packXyz (x y z : Nat) : DWord := BitVec.ofNat 64 (x % 2 ^ 21 + y % 2 ^ 21 * 2 ^ 21 + z % 2 ^ 21 * 2 ^ 42)

/-- The value of a status register (Table 5.3); an unassigned number reads zero. -/
def State.status (s : State) (num : Nat) : DWord :=
  let t := s.team
  let n := s.node
  let g := s.group
  let nat := BitVec.ofNat 64
  match num with
  | 0x000 => nat Config.width
  | 0x001 => nat s.focus.group
  | 0x002 => nat (s.teamIx t)
  | 0x003 => packXyz t.x t.y t.z
  | 0x004 => packXyz n.gx n.gy n.gz
  | 0x005 => nat s.variant.groups
  | 0x006 => nat t.ensIx
  | 0x007 => if n.det then 0 else nat (coreId t.core)
  | 0x008 => t.variant.setWidth 64
  | 0x009 => nat n.region
  | 0x00A => nat s.spSize
  | 0x00B => n.nodearg
  | 0x00C => n.brecbase
  | 0x00D => if n.det || n.priv = 0 then 0 else g.pbase
  | 0x010 => g.tcause.setWidth 64
  | 0x011 => g.tpc
  | 0x012 => g.taddr
  | 0x013 => g.tmask
  | 0x014 => g.tinfo
  | 0x015 => g.record
  | 0x016 => g.tmaskh
  | 0x020 => t.memoHit
  | 0x021 => t.memoMiss
  | 0x030 => g.flags.setWidth 64
  | 0x031 => t.meshFlags.setWidth 64
  | 0x040 => if n.det then 1 else 0
  | 0x050 => if n.det then 0 else Config.clocks s.ticks
  | 0x100 => s.region.tvec
  | 0x101 => nat s.region.save
  | 0x102 => g.dsbase
  | 0x103 => g.docc.setWidth 64
  | 0x110 => s.region.savedWork
  | _ => 0

/-- Write the writable bits of a status register, the trap registers in trap mode alone (R99, R408). DEDUCED (log entry 39): a
write of TMASKH holds until the next trap, which sets it to zero, as every trap does where W is 64. -/
def State.setStatus (s : State) (num : Nat) (x : DWord) : State :=
  let g := s.group
  let inTrap := fun (g' : Group) => if g.trap.isSome then s.putGroup g' else s
  match num with
  | 0x010 => inTrap { g with tcause := x.setWidth 8 }
  | 0x011 => inTrap { g with tpc := x }
  | 0x012 => inTrap { g with taddr := x }
  | 0x013 => inTrap { g with tmask := x }
  | 0x014 => inTrap { g with tinfo := x }
  | 0x016 => inTrap { g with tmaskh := x }
  | 0x030 => s.putGroup { g with flags := x.setWidth 5 }
  | 0x031 => s.putTeam { s.team with meshFlags := (s.team.meshFlags &&& 0xFFF8) ||| (x.setWidth 16 &&& 7) }
  | 0x103 => s.putGroup { g with docc := x.setWidth 32 }
  | _ => s

/-- A number of 0x100 or above outside trap mode. -/
def State.privileged (s : State) (num : Nat) : Bool := decide (0x100 ≤ num) && s.group.trap.isNone

def execSrd (wd : BitVec 6) (num : BitVec 13) (s : State) : Outcome :=
  groupInstr { ww := [wd], purity := .only (num == 0) } 1 s fun s =>
    if s.privileged num.toNat then .trap 0x15 0 (num.setWidth 64) else .next (s.writeW wd (s.status num.toNat))

def execSwr (wa : BitVec 6) (num : BitVec 13) (s : State) : Outcome :=
  groupInstr { wr := [wa] } 1 s fun s =>
    if s.privileged num.toNat then .trap 0x15 0 (num.setWidth 64) else .next (s.setStatus num.toNat (s.uni wa))

/-! ## Votes and broadcasts (R323): M is the path's mask -/

def execBcast (v : BitVec 7) (w : BitVec 6) (s : State) : Outcome :=
  groupInstr { wr := [w], vw := [v.toNat], purity := .groupTile } 1 s fun s =>
    .next (s.writeV v.toNat s.path.mask fun _ => (s.uni w).extractLsb' 0 32)

def execRdfirst (v : BitVec 7) (w : BitVec 6) (s : State) : Outcome :=
  groupInstr { vr := [v.toNat], ww := [w], purity := .groupTile } 1 s fun s =>
    .next (s.writeW w ((s.lane v ((lanesOf s.path.mask).headD 0)).setWidth 64))

/-- w[wd] is a function of M and p[pn]. -/
def voteInstr (f : LaneMask → LaneMask → DWord) (w : BitVec 6) (pn : BitVec 3) (s : State) : Outcome :=
  groupInstr { pr := [pn], ww := [w], purity := .groupTile } 1 s fun s => .next (s.writeW w (f s.path.mask (s.pred pn)))

def execBallot (w : BitVec 6) (pn : BitVec 3) (half : BitVec 4) (s : State) : Outcome :=
  voteInstr (fun m p => if half = 0 then m &&& p else 0) w pn s
def execVany (w : BitVec 6) (pn : BitVec 3) (s : State) : Outcome :=
  voteInstr (fun m p => if m &&& p ≠ 0 then 1 else 0) w pn s
def execVall (w : BitVec 6) (pn : BitVec 3) (s : State) : Outcome :=
  voteInstr (fun m p => if m &&& ~~~p = 0 then 1 else 0) w pn s
def execVcnt (w : BitVec 6) (pn : BitVec 3) (s : State) : Outcome :=
  voteInstr (fun m p => BitVec.ofNat 64 (popCount (m &&& p))) w pn s
def execActm (w : BitVec 6) (half : BitVec 4) (s : State) : Outcome :=
  voteInstr (fun m _ => if half = 0 then m else 0) w 0 s

end Sys2Proof.Machine
end

