-- ==== Sys2Proof/Machine/Uniform.lean ====
section
/-!
DEFINITION. Sys2Proof/Machine/Uniform.lean: uniform arithmetic, compare and floating point, group-space majors 0x00 to
0x07 (R415 to R421, R425, R426), and the prefix word (R105, R384).
-/
namespace Sys2Proof.Machine

/-- PFX has no effect of its own: it stands before the word of the same step (R106, R384). -/
def execPfx (pm : BitVec 3) (pinv zm : Bool) (rnd scope : BitVec 3) (vc : BitVec 7) (s : State) : Outcome :=
  .next { s with pending := some { pm := pm, pinv := pinv, zm := zm, rnd := rnd, scope := scope, vc := vc } }

/-- w[wd] is a function of w[wa] and w[wb]. -/
def uniRR (f : DWord → DWord → DWord) (wd wa wb : BitVec 6) (s : State) : Outcome :=
  groupInstr { wr := [wa, wb], ww := [wd], purity := .all } 1 s fun s => .next (s.writeW wd (f (s.uni wa) (s.uni wb)))

/-- w[wd] is a function of w[wa]. -/
def uniR (f : DWord → DWord) (wd wa : BitVec 6) (s : State) : Outcome :=
  groupInstr { wr := [wa], ww := [wd], purity := .all } 1 s fun s => .next (s.writeW wd (f (s.uni wa)))

/-! ## UADD and USHL families (R416, R426) -/

def execUadd (wd wa wb : BitVec 6) (s : State) : Outcome := uniRR (· + ·) wd wa wb s
def execUsub (wd wa wb : BitVec 6) (s : State) : Outcome := uniRR (· - ·) wd wa wb s
def execUmul (wd wa wb : BitVec 6) (s : State) : Outcome := uniRR (· * ·) wd wa wb s
/-- Bits 127 to 64 of the unsigned product. -/
def mulHigh (a b : DWord) : DWord := BitVec.ofNat 64 (a.toNat * b.toNat / 2 ^ 64)
def execUmulh (wd wa wb : BitVec 6) (s : State) : Outcome := uniRR mulHigh wd wa wb s
def execUand (wd wa wb : BitVec 6) (s : State) : Outcome := uniRR (· &&& ·) wd wa wb s
def execUor (wd wa wb : BitVec 6) (s : State) : Outcome := uniRR (· ||| ·) wd wa wb s
def execUxor (wd wa wb : BitVec 6) (s : State) : Outcome := uniRR (· ^^^ ·) wd wa wb s
def execUandn (wd wa wb : BitVec 6) (s : State) : Outcome := uniRR (fun a b => a &&& ~~~b) wd wa wb s

/-- The shift count: bits 5 to 0 (R426). -/
def count64 (b : DWord) : Nat := b.toNat % 64
def execUshl (wd wa wb : BitVec 6) (s : State) : Outcome := uniRR (fun a b => a <<< count64 b) wd wa wb s
def execUshr (wd wa wb : BitVec 6) (s : State) : Outcome := uniRR (fun a b => a >>> count64 b) wd wa wb s
def execUsar (wd wa wb : BitVec 6) (s : State) : Outcome := uniRR (fun a b => a.sshiftRight (count64 b)) wd wa wb s
def execUmin (wd wa wb : BitVec 6) (s : State) : Outcome := uniRR (fun a b => if a.slt b then a else b) wd wa wb s
def execUmax (wd wa wb : BitVec 6) (s : State) : Outcome := uniRR (fun a b => if a.slt b then b else a) wd wa wb s
def execUminu (wd wa wb : BitVec 6) (s : State) : Outcome := uniRR (fun a b => if a < b then a else b) wd wa wb s
def execUmaxu (wd wa wb : BitVec 6) (s : State) : Outcome := uniRR (fun a b => if a < b then b else a) wd wa wb s
def execUpopc (wd wa : BitVec 6) (s : State) : Outcome := uniR (fun a => BitVec.ofNat 64 (popCount a)) wd wa s

/-! ## Immediates (R417, R425) -/

def execUaddi (wd wa : BitVec 6) (imm : BitVec 13) (s : State) : Outcome := uniR (· + imm.signExtend 64) wd wa s
def execUmovi (wd : BitVec 6) (imm : BitVec 13) (s : State) : Outcome :=
  groupInstr { ww := [wd], purity := .all } 1 s fun s => .next (s.writeW wd (imm.signExtend 64))
def execUli (wd : BitVec 6) (lit : BitVec 32) (s : State) : Outcome :=
  groupInstr { ww := [wd], purity := .all } 2 s fun s => .next (s.writeW wd (lit.setWidth 64))
def execUlih (wd : BitVec 6) (lit : BitVec 32) (s : State) : Outcome :=
  groupInstr { wr := [wd], ww := [wd], purity := .all } 2 s fun s =>
    .next (s.writeW wd (lit ++ (s.uni wd).extractLsb' 0 32))

/-! ## UCMP (R418) -/

/-- The relation of a function code; codes 6 and 7 are no instruction. -/
def uniRelation (rel : Nat) (a b : DWord) : Bool :=
  match rel with
  | 0 => a == b
  | 1 => a != b
  | 2 => a.slt b
  | 3 => a.sle b
  | 4 => decide (a < b)
  | _ => decide (a ≤ b)

def execUcmp (wd wa wb : BitVec 6) (rel : BitVec 3) (s : State) : Outcome :=
  uniRR (fun a b => if uniRelation rel.toNat a b then 1 else 0) wd wa wb s

/-! ## UFADD family (R419 to R421) -/

/-- The FP32 operand in bits 31 to 0. -/
def low32 (x : DWord) : Nat := (x.extractLsb' 0 32).toNat

/-- w[wd] and FLAGS are a function of the FP32 operands. -/
def uniFp (f : Nat → Nat → Nat × BitVec 5) (wd wa wb : BitVec 6) (s : State) : Outcome :=
  groupInstr { wr := [wa, wb], ww := [wd], purity := .all } 1 s fun s =>
    let r := f (low32 (s.uni wa)) (low32 (s.uni wb))
    .next ((s.writeW wd (BitVec.ofNat 64 r.1)).flag r.2)

def execUfadd (wd wa wb : BitVec 6) (rnd : BitVec 4) (s : State) : Outcome :=
  uniFp (fpAdd .fp32 (rndOf rnd.toNat true)) wd wa wb s
def execUfmul (wd wa wb : BitVec 6) (rnd : BitVec 4) (s : State) : Outcome :=
  uniFp (fpMul .fp32 (rndOf rnd.toNat true)) wd wa wb s
def execUffma (wd wa wb : BitVec 6) (rnd : BitVec 4) (s : State) : Outcome :=
  groupInstr { wr := [wa, wb, wd], ww := [wd], purity := .all } 1 s fun s =>
    let r := fpFma .fp32 (rndOf rnd.toNat true) (low32 (s.uni wd)) (low32 (s.uni wa)) (low32 (s.uni wb))
    .next ((s.writeW wd (BitVec.ofNat 64 r.1)).flag r.2)
def execUfmin (wd wa wb : BitVec 6) (s : State) : Outcome := uniFp (fpPick .fp32 false) wd wa wb s
def execUfmax (wd wa wb : BitVec 6) (s : State) : Outcome := uniFp (fpPick .fp32 true) wd wa wb s

/-- The value of a register under a UFCVT source code. -/
def ufcvtValue (src : Nat) (x : DWord) : FVal :=
  match src with
  | 0 => Fmt.fp32.value (low32 x)
  | 1 => intValue (x.extractLsb' 0 32).toInt
  | 2 => intValue (low32 x)
  | 3 => intValue x.toInt
  | _ => intValue x.toNat

/-- UFCVT (R421): the register value and the flags. -/
def ufcvt (src dst rnd : Nat) (x : DWord) : DWord × BitVec 5 :=
  let r := rndOf rnd true
  let v := ufcvtValue src x
  let int := fun (lo hi : Int) =>
    let c := convertInt lo hi r v
    (BitVec.ofInt 64 c.1, c.2)
  if src = dst then
    (match src with
     | 0 => BitVec.ofNat 64 (low32 x)
     | 1 => (x.extractLsb' 0 32).signExtend 64
     | 2 => BitVec.ofNat 64 (low32 x)
     | _ => x, 0)
  else match dst with
    | 0 =>
      let c := convertTo .fp32 r v
      (BitVec.ofNat 64 c.1, c.2)
    | 1 => int (-(2 ^ 31)) (2 ^ 31 - 1)
    | 2 => int 0 (2 ^ 32 - 1)
    | 3 => int (-(2 ^ 63)) (2 ^ 63 - 1)
    | _ => int 0 (2 ^ 64 - 1)

def execUfcvt (wd wa : BitVec 6) (src dst : BitVec 3) (rnd : BitVec 4) (s : State) : Outcome :=
  groupInstr { wr := [wa], ww := [wd], purity := .all } 1 s fun s =>
    let r := ufcvt src.toNat dst.toNat rnd.toNat (s.uni wa)
    .next ((s.writeW wd r.1).flag r.2)

end Sys2Proof.Machine
end

