-- ==== Sys2Proof/Machine/Dispatch.lean ====
section
/-!
DEFINITION. Sys2Proof/Machine/Dispatch.lean: which meaning each instruction has.
-/
namespace Sys2Proof.Machine

def exec (i : Instr) (s : State) : Host.Outcome State Fault Refusal :=
  match i with
  | .iadd vd va vb ha hb => Sys2Proof.Machine.execIadd vd va vb ha hb s
  | .isub vd va vb ha hb => Sys2Proof.Machine.execIsub vd va vb ha hb s
  | .imin vd va vb ha hb => Sys2Proof.Machine.execImin vd va vb ha hb s
  | .imax vd va vb ha hb => Sys2Proof.Machine.execImax vd va vb ha hb s
  | .iminu vd va vb ha hb => Sys2Proof.Machine.execIminu vd va vb ha hb s
  | .imaxu vd va vb ha hb => Sys2Proof.Machine.execImaxu vd va vb ha hb s
  | .iabsd vd va vb ha hb => Sys2Proof.Machine.execIabsd vd va vb ha hb s
  | .imul vd va vb ha hb => Sys2Proof.Machine.execImul vd va vb ha hb s
  | .imulhs vd va vb ha hb => Sys2Proof.Machine.execImulhs vd va vb ha hb s
  | .imulhu vd va vb ha hb => Sys2Proof.Machine.execImulhu vd va vb ha hb s
  | .imad vd va vb ha hb => Sys2Proof.Machine.execImad vd va vb ha hb s
  | .and vd va vb ha hb => Sys2Proof.Machine.execAnd vd va vb ha hb s
  | .or vd va vb ha hb => Sys2Proof.Machine.execOr vd va vb ha hb s
  | .xor vd va vb ha hb => Sys2Proof.Machine.execXor vd va vb ha hb s
  | .andn vd va vb ha hb => Sys2Proof.Machine.execAndn vd va vb ha hb s
  | .shl vd va vb ha hb => Sys2Proof.Machine.execShl vd va vb ha hb s
  | .shr vd va vb ha hb => Sys2Proof.Machine.execShr vd va vb ha hb s
  | .sar vd va vb ha hb => Sys2Proof.Machine.execSar vd va vb ha hb s
  | .rotl vd va vb ha hb => Sys2Proof.Machine.execRotl vd va vb ha hb s
  | .popc vd va ha => Sys2Proof.Machine.execPopc vd va ha s
  | .clz vd va ha => Sys2Proof.Machine.execClz vd va ha s
  | .brev vd va ha => Sys2Proof.Machine.execBrev vd va ha s
  | .bfx vd va vb ha hb => Sys2Proof.Machine.execBfx vd va vb ha hb s
  | .icmp pd va vb rel ha hb => Sys2Proof.Machine.execIcmp pd va vb rel ha hb s
  | .icmpUnsigned pd va vb rel ha hb => Sys2Proof.Machine.execIcmpUnsigned pd va vb rel ha hb s
  | .sel vd va vb ps ha hb => Sys2Proof.Machine.execSel vd va vb ps ha hb s
  | .iadd64 vd va vb ha hb => Sys2Proof.Machine.execIadd64 vd va vb ha hb s
  | .isub64 vd va vb ha hb => Sys2Proof.Machine.execIsub64 vd va vb ha hb s
  | .imul64 vd va vb ha hb => Sys2Proof.Machine.execImul64 vd va vb ha hb s
  | .madw vd va vb ha hb => Sys2Proof.Machine.execMadw vd va vb ha hb s
  | .iaddi vd va imm ha => Sys2Proof.Machine.execIaddi vd va imm ha s
  | .andi vd va imm ha => Sys2Proof.Machine.execAndi vd va imm ha s
  | .ori vd va imm ha => Sys2Proof.Machine.execOri vd va imm ha s
  | .xori vd va imm ha => Sys2Proof.Machine.execXori vd va imm ha s
  | .shli vd va imm ha => Sys2Proof.Machine.execShli vd va imm ha s
  | .shri vd va imm ha => Sys2Proof.Machine.execShri vd va imm ha s
  | .sari vd va imm ha => Sys2Proof.Machine.execSari vd va imm ha s
  | .movi vd imm => Sys2Proof.Machine.execMovi vd imm s
  | .fadd vd va vb ha hb => Sys2Proof.Machine.execFadd vd va vb ha hb s
  | .fsub vd va vb ha hb => Sys2Proof.Machine.execFsub vd va vb ha hb s
  | .fmul vd va vb ha hb => Sys2Proof.Machine.execFmul vd va vb ha hb s
  | .ffma vd va vb ha hb => Sys2Proof.Machine.execFfma vd va vb ha hb s
  | .fmin vd va vb ha hb => Sys2Proof.Machine.execFmin vd va vb ha hb s
  | .fmax vd va vb ha hb => Sys2Proof.Machine.execFmax vd va vb ha hb s
  | .fabs vd va ha => Sys2Proof.Machine.execFabs vd va ha s
  | .fneg vd va ha => Sys2Proof.Machine.execFneg vd va ha s
  | .fcmp pd va vb rel ha hb => Sys2Proof.Machine.execFcmp pd va vb rel ha hb s
  | .haddp vd va vb ha hb => Sys2Proof.Machine.execHaddp vd va vb ha hb s
  | .hmulp vd va vb ha hb => Sys2Proof.Machine.execHmulp vd va vb ha hb s
  | .hfmap vd va vb ha hb => Sys2Proof.Machine.execHfmap vd va vb ha hb s
  | .hmaxp vd va vb ha hb => Sys2Proof.Machine.execHmaxp vd va vb ha hb s
  | .badd2 vd va vb ha hb => Sys2Proof.Machine.execBadd2 vd va vb ha hb s
  | .bmul2 vd va vb ha hb => Sys2Proof.Machine.execBmul2 vd va vb ha hb s
  | .bfma2 vd va vb ha hb => Sys2Proof.Machine.execBfma2 vd va vb ha hb s
  | .bmax2 vd va vb ha hb => Sys2Proof.Machine.execBmax2 vd va vb ha hb s
  | .rcp vd va ha => Sys2Proof.Machine.execRcp vd va ha s
  | .rsq vd va ha => Sys2Proof.Machine.execRsq vd va ha s
  | .sqrt vd va ha => Sys2Proof.Machine.execSqrt vd va ha s
  | .exp2 vd va ha => Sys2Proof.Machine.execExp2 vd va ha s
  | .log2 vd va ha => Sys2Proof.Machine.execLog2 vd va ha s
  | .sin vd va ha => Sys2Proof.Machine.execSin vd va ha s
  | .cos vd va ha => Sys2Proof.Machine.execCos vd va ha s
  | .tanh vd va ha => Sys2Proof.Machine.execTanh vd va ha s
  | .cvt vd va src dst mode ha => Sys2Proof.Machine.execCvt vd va src dst mode ha s
  | .qe4 vd va vb ha hb => Sys2Proof.Machine.execQe4 vd va vb ha hb s
  | .qe5 vd va vb ha hb => Sys2Proof.Machine.execQe5 vd va vb ha hb s
  | .qi8 vd va vb ha hb => Sys2Proof.Machine.execQi8 vd va vb ha hb s
  | .qf4 vd va vb ha hb => Sys2Proof.Machine.execQf4 vd va vb ha hb s
  | .de4 vd va vb ha hb => Sys2Proof.Machine.execDe4 vd va vb ha hb s
  | .de5 vd va vb ha hb => Sys2Proof.Machine.execDe5 vd va vb ha hb s
  | .di8 vd va vb ha hb => Sys2Proof.Machine.execDi8 vd va vb ha hb s
  | .df4 vd va vb ha hb => Sys2Proof.Machine.execDf4 vd va vb ha hb s
  | .shfl vd va vb ha hb => Sys2Proof.Machine.execShfl vd va vb ha hb s
  | .shflx vd va vb ha hb => Sys2Proof.Machine.execShflx vd va vb ha hb s
  | .shflr vd va vb ha hb => Sys2Proof.Machine.execShflr vd va vb ha hb s
  | .shflh vd va k ha => Sys2Proof.Machine.execShflh vd va k ha s
  | .lstep vd va k op ha => Sys2Proof.Machine.execLstep vd va k op ha s
  | .vmatch vd va ha => Sys2Proof.Machine.execVmatch vd va ha s
  | .mrank vd va ha => Sys2Proof.Machine.execMrank vd va ha s
  | .mcnt vd va ha => Sys2Proof.Machine.execMcnt vd va ha s
  | .mlast vd va ha => Sys2Proof.Machine.execMlast vd va ha s
  | .laneid vd => Sys2Proof.Machine.execLaneid vd s
  | .vmov vd va ha => Sys2Proof.Machine.execVmov vd va ha s
  | .movp vd pn => Sys2Proof.Machine.execMovp vd pn s
  | .setp pd va ha => Sys2Proof.Machine.execSetp pd va ha s
  | .ldb vt va wb rec => Sys2Proof.Machine.execLdb vt va wb rec s
  | .ldh vt va wb rec => Sys2Proof.Machine.execLdh vt va wb rec s
  | .ldw vt va wb rec => Sys2Proof.Machine.execLdw vt va wb rec s
  | .ldd vt va wb rec => Sys2Proof.Machine.execLdd vt va wb rec s
  | .ldq vt va wb rec => Sys2Proof.Machine.execLdq vt va wb rec s
  | .stb vt va wb rec => Sys2Proof.Machine.execStb vt va wb rec s
  | .sth vt va wb rec => Sys2Proof.Machine.execSth vt va wb rec s
  | .stw vt va wb rec => Sys2Proof.Machine.execStw vt va wb rec s
  | .std vt va wb rec => Sys2Proof.Machine.execStd vt va wb rec s
  | .stq vt va wb rec => Sys2Proof.Machine.execStq vt va wb rec s
  | .atom vt va wb op => Sys2Proof.Machine.execAtom vt va wb op s
  | .atomd vt va wb op => Sys2Proof.Machine.execAtomd vt va wb op s
  | .ldl vt va wb sz => Sys2Proof.Machine.execLdl vt va wb sz s
  | .stl vt va wb sz => Sys2Proof.Machine.execStl vt va wb sz s
  | .atoml vt va wb op => Sys2Proof.Machine.execAtoml vt va wb op s
  | .tex vt va wb rec => Sys2Proof.Machine.execTex vt va wb rec s
  | .texl vt va wb rec => Sys2Proof.Machine.execTexl vt va wb rec s
  | .texg vt va wb rec => Sys2Proof.Machine.execTexg vt va wb rec s
  | .rayq vt va wb desc => Sys2Proof.Machine.execRayq vt va wb desc s
  | .prf va wb kind => Sys2Proof.Machine.execPrf va wb kind s
  | .pfx pm pinv zm rnd scope vc => Sys2Proof.Machine.execPfx pm pinv zm rnd scope vc s
  | .uadd wd wa wb => Sys2Proof.Machine.execUadd wd wa wb s
  | .usub wd wa wb => Sys2Proof.Machine.execUsub wd wa wb s
  | .umul wd wa wb => Sys2Proof.Machine.execUmul wd wa wb s
  | .umulh wd wa wb => Sys2Proof.Machine.execUmulh wd wa wb s
  | .uand wd wa wb => Sys2Proof.Machine.execUand wd wa wb s
  | .uor wd wa wb => Sys2Proof.Machine.execUor wd wa wb s
  | .uxor wd wa wb => Sys2Proof.Machine.execUxor wd wa wb s
  | .uandn wd wa wb => Sys2Proof.Machine.execUandn wd wa wb s
  | .ushl wd wa wb => Sys2Proof.Machine.execUshl wd wa wb s
  | .ushr wd wa wb => Sys2Proof.Machine.execUshr wd wa wb s
  | .usar wd wa wb => Sys2Proof.Machine.execUsar wd wa wb s
  | .umin wd wa wb => Sys2Proof.Machine.execUmin wd wa wb s
  | .umax wd wa wb => Sys2Proof.Machine.execUmax wd wa wb s
  | .uminu wd wa wb => Sys2Proof.Machine.execUminu wd wa wb s
  | .umaxu wd wa wb => Sys2Proof.Machine.execUmaxu wd wa wb s
  | .upopc wd wa => Sys2Proof.Machine.execUpopc wd wa s
  | .uaddi wd wa imm => Sys2Proof.Machine.execUaddi wd wa imm s
  | .umovi wd imm => Sys2Proof.Machine.execUmovi wd imm s
  | .uli wd lit => Sys2Proof.Machine.execUli wd lit s
  | .ulih wd lit => Sys2Proof.Machine.execUlih wd lit s
  | .ucmp wd wa wb rel => Sys2Proof.Machine.execUcmp wd wa wb rel s
  | .ufadd wd wa wb rnd => Sys2Proof.Machine.execUfadd wd wa wb rnd s
  | .ufmul wd wa wb rnd => Sys2Proof.Machine.execUfmul wd wa wb rnd s
  | .uffma wd wa wb rnd => Sys2Proof.Machine.execUffma wd wa wb rnd s
  | .ufmin wd wa wb => Sys2Proof.Machine.execUfmin wd wa wb s
  | .ufmax wd wa wb => Sys2Proof.Machine.execUfmax wd wa wb s
  | .ufcvt wd wa src dst rnd => Sys2Proof.Machine.execUfcvt wd wa src dst rnd s
  | .srd wd num => Sys2Proof.Machine.execSrd wd num s
  | .swr wa num => Sys2Proof.Machine.execSwr wa num s
  | .bcast v w => Sys2Proof.Machine.execBcast v w s
  | .rdfirst v w => Sys2Proof.Machine.execRdfirst v w s
  | .ballot w pn half => Sys2Proof.Machine.execBallot w pn half s
  | .vany w pn => Sys2Proof.Machine.execVany w pn s
  | .vall w pn => Sys2Proof.Machine.execVall w pn s
  | .vcnt w pn => Sys2Proof.Machine.execVcnt w pn s
  | .actm w half => Sys2Proof.Machine.execActm w half s
  | .uldw wd wa imm => Sys2Proof.Machine.execUldw wd wa imm s
  | .uldd wd wa imm => Sys2Proof.Machine.execUldd wd wa imm s
  | .ustw wd wa imm => Sys2Proof.Machine.execUstw wd wa imm s
  | .ustd wd wa imm => Sys2Proof.Machine.execUstd wd wa imm s
  | .bra disp => Sys2Proof.Machine.execBra disp s
  | .brd pn disp => Sys2Proof.Machine.execBrd pn disp s
  | .brany pn disp => Sys2Proof.Machine.execBrany pn disp s
  | .brall pn disp => Sys2Proof.Machine.execBrall pn disp s
  | .bz wa disp => Sys2Proof.Machine.execBz wa disp s
  | .bnz wa disp => Sys2Proof.Machine.execBnz wa disp s
  | .call disp => Sys2Proof.Machine.execCall disp s
  | .ret wa => Sys2Proof.Machine.execRet wa s
  | .jset disp => Sys2Proof.Machine.execJset disp s
  | .join => Sys2Proof.Machine.execJoin s
  | .exit => Sys2Proof.Machine.execExit s
  | .nop => Sys2Proof.Machine.execNop s
  | .bar n => Sys2Proof.Machine.execBar n s
  | .bara n => Sys2Proof.Machine.execBara n s
  | .barw n => Sys2Proof.Machine.execBarw n s
  | .barr wd vs op n => Sys2Proof.Machine.execBarr wd vs op n s
  | .bars vd vs op n => Sys2Proof.Machine.execBars vd vs op n s
  | .fence ord scope => Sys2Proof.Machine.execFence ord scope s
  | .batch wd => Sys2Proof.Machine.execBatch wd s
  | .waitb wa => Sys2Proof.Machine.execWaitb wa s
  | .testb wd wa => Sys2Proof.Machine.execTestb wd wa s
  | .msend ws wa wb ring => Sys2Proof.Machine.execMsend ws wa wb ring s
  | .mpoll wd ws ring => Sys2Proof.Machine.execMpoll wd ws ring s
  | .mwait wd ring => Sys2Proof.Machine.execMwait wd ring s
  | .mpop wd ring => Sys2Proof.Machine.execMpop wd ring s
  | .mring wa wb ring => Sys2Proof.Machine.execMring wa wb ring s
  | .cpy wa => Sys2Proof.Machine.execCpy wa s
  | .dcmp wa => Sys2Proof.Machine.execDcmp wa s
  | .cpyq wa wb => Sys2Proof.Machine.execCpyq wa wb s
  | .mma an wa wb => Sys2Proof.Machine.execMma an wa wb s
  | .mmaz an wa wb => Sys2Proof.Machine.execMmaz an wa wb s
  | .mmas an wa wb => Sys2Proof.Machine.execMmas an wa wb s
  | .mmasz an wa wb => Sys2Proof.Machine.execMmasz an wa wb s
  | .accrd an v wa => Sys2Proof.Machine.execAccrd an v wa s
  | .accwr an v wa => Sys2Proof.Machine.execAccwr an v wa s
  | .accz an => Sys2Proof.Machine.execAccz an s
  | .accst an wa => Sys2Proof.Machine.execAccst an wa s
  | .wmark an wa => Sys2Proof.Machine.execWmark an wa s
  | .xft wa wb lb => Sys2Proof.Machine.execXft wa wb lb s
  | .ixft an wb => Sys2Proof.Machine.execIxft an wb s
  | .ixftScratchpad wa wb => Sys2Proof.Machine.execIxftScratchpad wa wb s
  | .xact an wb f => Sys2Proof.Machine.execXact an wb f s
  | .xactBias an wa wb f => Sys2Proof.Machine.execXactBias an wa wb f s
  | .dtag wa wb => Sys2Proof.Machine.execDtag wa wb s
  | .dtagTile an wb => Sys2Proof.Machine.execDtagTile an wb s
  | .dset wa wb => Sys2Proof.Machine.execDset wa wb s
  | .emset wa m => Sys2Proof.Machine.execEmset wa m s
  | .emgen wa => Sys2Proof.Machine.execEmgen wa s
  | .epost wa wb e => Sys2Proof.Machine.execEpost wa wb e s
  | .etake wd ws e => Sys2Proof.Machine.execEtake wd ws e s
  | .etest wd e => Sys2Proof.Machine.execEtest wd e s
  | .mbegin wa g c h => Sys2Proof.Machine.execMbegin wa g c h s
  | .mkey v t => Sys2Proof.Machine.execMkey v t s
  | .mkeyUniform w => Sys2Proof.Machine.execMkeyUniform w s
  | .mkeyPredicate pd => Sys2Proof.Machine.execMkeyPredicate pd s
  | .mxcl v => Sys2Proof.Machine.execMxcl v s
  | .mxclUniform w => Sys2Proof.Machine.execMxclUniform w s
  | .mxclPredicate pd => Sys2Proof.Machine.execMxclPredicate pd s
  | .mout v => Sys2Proof.Machine.execMout v s
  | .moutUniform w => Sys2Proof.Machine.execMoutUniform w s
  | .moutPredicate pd => Sys2Proof.Machine.execMoutPredicate pd s
  | .mlook pn disp => Sys2Proof.Machine.execMlook pn disp s
  | .mend => Sys2Proof.Machine.execMend s
  | .minv h => Sys2Proof.Machine.execMinv h s
  | .mgen wd h => Sys2Proof.Machine.execMgen wd h s
  | .mstat wd k h => Sys2Proof.Machine.execMstat wd k h s
  | .mkeyt wa wb f => Sys2Proof.Machine.execMkeyt wa wb f s
  | .mdecl wa wb t => Sys2Proof.Machine.execMdecl wa wb t s
  | .memit wa => Sys2Proof.Machine.execMemit wa s
  | .fout v w f m => Sys2Proof.Machine.execFout v w f m s
  | .disc pn => Sys2Proof.Machine.execDisc pn s
  | .regrp vk n => Sys2Proof.Machine.execRegrp vk n s
  | .trap code => Sys2Proof.Machine.execTrap code s
  | .rte => Sys2Proof.Machine.execRte s
  | .tsave wa => Sys2Proof.Machine.execTsave wa s
  | .trest wa => Sys2Proof.Machine.execTrest wa s
  | .swpt n => Sys2Proof.Machine.execSwpt n s
  | .rgrow wd v => Sys2Proof.Machine.execRgrow wd v s
  | .rgroww wd v => Sys2Proof.Machine.execRgroww wd v s
  | .space wd wa => Sys2Proof.Machine.execSpace wd wa s
  | .scast wd wa => Sys2Proof.Machine.execScast wd wa s
  | .scastl wd wa => Sys2Proof.Machine.execScastl wd wa s
  | .cctlf => Sys2Proof.Machine.execCctlf s
  | .cctli wa wb => Sys2Proof.Machine.execCctli wa wb s
  | .cctlw => Sys2Proof.Machine.execCctlw s
  | .yieldIssue => Sys2Proof.Machine.execYieldIssue s
  | .sleep wa => Sys2Proof.Machine.execSleep wa s
  | .tailWrite region value => Sys2Proof.Machine.execTailWrite region value s
  | .interruptStatus ones => Sys2Proof.Machine.execInterruptStatus ones s
  | .registerWrite offset value => Sys2Proof.Machine.execRegisterWrite offset value s
  | .nodeValidate region => Sys2Proof.Machine.execNodeValidate region s
  | .nodeFail node => Sys2Proof.Machine.execNodeFail node s
  | .nodeReady node => Sys2Proof.Machine.execNodeReady node s
  | .ensemblePlacement node cores images privs => Sys2Proof.Machine.execEnsemblePlacement node cores images privs s
  | .placementHold node => Sys2Proof.Machine.execPlacementHold node s
  | .teamRetire team => Sys2Proof.Machine.execTeamRetire team s
  | .tryGrant core => Sys2Proof.Machine.execTryGrant core s
  | .growDeadlockSpill core => Sys2Proof.Machine.execGrowDeadlockSpill core s
  | .variantSwitch team image privs => Sys2Proof.Machine.execVariantSwitch team image privs s
  | .preemption node ens => Sys2Proof.Machine.execPreemption node ens s
  | .contextSave team => Sys2Proof.Machine.execContextSave team s
  | .ensembleRestore node ens cores => Sys2Proof.Machine.execEnsembleRestore node ens cores s
  | .faultQueueSpace region => Sys2Proof.Machine.execFaultQueueSpace region s
  | .faultDelivery team group slot => Sys2Proof.Machine.execFaultDelivery team group slot s
  | .uncorrectableError site => Sys2Proof.Machine.execUncorrectableError site s
  | .correctedError region => Sys2Proof.Machine.execCorrectedError region s
  | .securityAlarm => Sys2Proof.Machine.execSecurityAlarm s
  | .reset => Sys2Proof.Machine.execReset s
  | .governorSample => Sys2Proof.Machine.execGovernorSample s
  | .creditRefill region controller => Sys2Proof.Machine.execCreditRefill region controller s
  | .budgetPeriodStart region => Sys2Proof.Machine.execBudgetPeriodStart region s
  | .scanoutLine head scanning fc ln vt lp => Sys2Proof.Machine.execScanoutLine head scanning fc ln vt lp s
  | .engineSlotRelease slot next => Sys2Proof.Machine.execEngineSlotRelease slot next s
  | .pathSwitchCount team group => Sys2Proof.Machine.execPathSwitchCount team group s
  | .groupAging team group => Sys2Proof.Machine.execGroupAging team group s
  | .yieldHoldExpire team group => Sys2Proof.Machine.execYieldHoldExpire team group s
  | .sleepExpire team group slot => Sys2Proof.Machine.execSleepExpire team group slot s
  | .sleepWake team group slot => Sys2Proof.Machine.execSleepWake team group slot s
  | .tableWalkComplete team group slot => Sys2Proof.Machine.execTableWalkComplete team group slot s
  | .footprintWaitEnd team group slot => Sys2Proof.Machine.execFootprintWaitEnd team group slot s
  | .watermarkWaitEnd team group slot => Sys2Proof.Machine.execWatermarkWaitEnd team group slot s
  | .engineQueueSpace team group slot => Sys2Proof.Machine.execEngineQueueSpace team group slot s
  | .edgeSlotFree team group slot => Sys2Proof.Machine.execEdgeSlotFree team group slot s
  | .edgeTokenArrive team group slot => Sys2Proof.Machine.execEdgeTokenArrive team group slot s
  | .ringSpace team group slot => Sys2Proof.Machine.execRingSpace team group slot s
  | .ringEntryArrive team group slot => Sys2Proof.Machine.execRingEntryArrive team group slot s
  | .batchWaitEnd team group slot => Sys2Proof.Machine.execBatchWaitEnd team group slot s
  | .copyChunk core => Sys2Proof.Machine.execCopyChunk core s
  | .dcmpChunk cluster => Sys2Proof.Machine.execDcmpChunk cluster s
  | .matrixOpStart core => Sys2Proof.Machine.execMatrixOpStart core s
  | .matrixRowFinal core => Sys2Proof.Machine.execMatrixRowFinal core s
  | .transformOpComplete core => Sys2Proof.Machine.execTransformOpComplete core s
  | .binningJob cluster => Sys2Proof.Machine.execBinningJob cluster s
  | .activate node => Sys2Proof.Machine.execActivate node s
  | .deactivate node => Sys2Proof.Machine.execDeactivate node s
  | .deactivateDone node => Sys2Proof.Machine.execDeactivateDone node s
  | .preEmpt node => Sys2Proof.Machine.execPreEmpt node s
  | .kill node => Sys2Proof.Machine.execKill node s
  | .mapExecutable node => Sys2Proof.Machine.execMapExecutable node s
  | .unmapExecutable node => Sys2Proof.Machine.execUnmapExecutable node s
  | .tlbInvalidate node => Sys2Proof.Machine.execTlbInvalidate node s
  | .faultResumeReplay node => Sys2Proof.Machine.execFaultResumeReplay node s
  | .faultResumeDeliver node => Sys2Proof.Machine.execFaultResumeDeliver node s
  | .faultResumeKill node => Sys2Proof.Machine.execFaultResumeKill node s
  | .memoSlotCreate node => Sys2Proof.Machine.execMemoSlotCreate node s
  | .memoSlotFree node => Sys2Proof.Machine.execMemoSlotFree node s
  | .memoSlotFreeDone node => Sys2Proof.Machine.execMemoSlotFreeDone node s
  | .keyWrite node => Sys2Proof.Machine.execKeyWrite node s
  | .powerLevel node => Sys2Proof.Machine.execPowerLevel node s
  | .slotRelease node => Sys2Proof.Machine.execSlotRelease node s
  | .budgetExhausted region => Sys2Proof.Machine.execBudgetExhausted region s
  | .storesReachSystemCache team group => Sys2Proof.Machine.execStoresReachSystemCache team group s
  | .memoInstancesActed team group slot => Sys2Proof.Machine.execMemoInstancesActed team group slot s
  | .hostCoreWrite address bytes => Sys2Proof.Machine.execHostCoreWrite address bytes s

end Sys2Proof.Machine
end

