-- ==== Sys2Proof/Machine/Step.lean ====
section
/-!
DEFINITION. Sys2Proof/Machine/Step.lean: one step of the machine, and the placing of an instruction where the next step
fetches it.
-/
namespace Sys2Proof.Machine

/-- One step: the event or the path whose turn it is. A prefixed pair is one step (R106). -/
def step (s : State) : Host.Outcome State Fault Refusal :=
  match s.turn with
  | .event e s => runEvent e s
  | .issue i s => exec i s
  | .issuePair p i s =>
    match exec p s with
    | .next s => exec i s
    | .fault r => .fault r
    | .refused r => .refused r
  | .stop s => .next s

/-- `s` with the instruction whose bits are `w` placed where the next step fetches: a mapped and passed code page of
region 0 and a path of one group at it. It stands for the host's bring-up and launch (R307). -/
def State.withFetchWord (s : State) (nbits w : Nat) : State := s.withFetchBytes (tableBytes (w % 2 ^ nbits))

end Sys2Proof.Machine
end

