-- ==== Sys2Proof/Safety.lean ====
section
/-!
DEFINITION. Sys2Proof/Safety.lean: the terms that claims about the machine use: a path that can execute, the state after
an instruction has completed, what one register write leaves, and the canonical form of memory.
-/
namespace Sys2Proof.Machine

/-- Memory is in canonical form: addresses rise strictly and no listed byte is what an unlisted one reads as. -/
abbrev Memory.wf (m : NMap Byte) : Prop := mapWf 0 m = true

/-- The byte at a physical address, as the system cache holds it. -/
def State.byteAt (s : State) (a : Nat) : Byte := mapGet 0 s.mem a

/-- The focused path can execute its next instruction and go on after it: it is a path of a resident team that does not
wait (R46), no pure region is open on it (R257), and no single step is due (R285). -/
def State.Runs (s : State) : Prop :=
  s.live = true ∧ s.path.region = none ∧ (s.singleStep s.region = false ∨ s.group.trap.isSome = true)

/-- No pure region is open on the focused path, and no single step is due when its instruction completes (R285). -/
def State.Steady (s : State) : Prop :=
  s.path.region = none ∧ (s.singleStep s.region = false ∨ s.group.trap.isSome = true)

/-- A group-space access of `r` bytes at `a` leads to `p`, passes every check and waits for nothing (R423). -/
def State.UniClear (s : State) (a : BitVec 64) (r : Nat) (store : Bool) (p : Place) : Prop :=
  s.resolve none a r = .ok p ∧ a.toNat % r = 0 ∧ s.missingPages (pagesOf p.pieces) = [] ∧
    s.checkPieces a p.pieces store = none ∧ (store = false → s.poisonPieces p.pieces false = false) ∧
    s.interlocked s.focus.team s.acceptSeq (ownSpans s.focus.team r [p]) store = false

/-- Every check of a lane access passes and nothing makes it wait: `as` are its accesses (R169, R176). -/
def State.LaneClear (s : State) (x : LaneAccess) (ord : Nat) (scope : BitVec 3) (as : List Access) : Prop :=
  (∀ l ∈ lanesOf s.active, ∃ a, x.early s l = .ok a) ∧
    as = ((lanesOf s.active).flatMap fun l => ((x.early s l).toOption.getD [])) ∧
    s.missingPages (as.flatMap fun a => pagesOf a.place.pieces) = [] ∧
    (∀ a ∈ as, s.checkPieces a.addr a.place.pieces x.write = none) ∧
    (x.reads = true → ∀ a ∈ as, (s.orderAcquire ord scope).poisonPieces a.place.pieces x.direct = false ∧
      (x.texel = true → s.poisonPieces a.place.pieces x.direct = false)) ∧
    s.interlocked s.focus.team s.acceptSeq (ownSpans s.focus.team x.bytes (as.map (·.place))) false = false ∧
    s.interlocked s.focus.team s.acceptSeq (ownSpans s.focus.team x.bytes ((x.writers s as).map (·.place))) true = false ∧
    (hasRelease ord = true → wideScope scope = true → s.coreStoresPending s.coreNow = false)

/-- The operand latch emptied, as an instruction that holds no register leaves it (R95). -/
def State.unlatched (s : State) : State := s.latch {}

/-- The state once the pages that neither TLB of the core holds have been walked for (R176). -/
def State.walkedFor (s : State) (pages : List Nat) : State :=
  (s.missingPages pages).foldl (fun t p => t.tlbFill t.coreNow t.rootNow p) s

/-- The fault of lane `l` in a lane access, or none: the least row of Table 9.6 that fails, over its own checks as `s` makes them
and then those of the pages of its accesses as `v` maps them (R169); for a texture read, poison after them (row 7 of Table 22.3). -/
def LaneAccess.laneFault (x : LaneAccess) (s v : State) (l : Nat) : Option AccessFault :=
  match x.early s l with
  | .error f => some f
  | .ok as => leastFault ((as.flatMap fun a => v.pieceFaults a.addr a.place.pieces x.write)
      ++ if x.texel then as.filterMap (x.poisonOf v) else [])

/-- Where the lane access `x` of instruction `i`, made in the state `u`, stops before its effect (R169, R176, R193, R163, R291, Table
9.6). It waits for pages that neither TLB holds, once; else the lowest lane with a fault gives cause, TADDR and TINFO, and TMASK
holds the active lanes of that cause, or for a texture read every lane whose reads fault (Table 22.3); else the path waits for a footprint over the scratchpad bytes read or written, or for the
core's stores under a release; else a read of a poisoned word traps with cause 0x13, and TMASK holds the lanes that read one. -/
def State.AccessStops (s u : State) (x : LaneAccess) (ord : Nat) (scope : BitVec 3) (i : Instr) : Prop :=
  let lanes := lanesOf s.active
  let as := lanes.flatMap fun l => (x.early u l).toOption.getD []
  let pages := as.flatMap fun a => pagesOf a.place.pieces
  let v := u.walkedFor pages
  let w := v.ordered ord scope
  let reads := ownSpans s.focus.team x.bytes (as.map (·.place))
  let writes := ownSpans s.focus.team x.bytes ((x.writers v as).map (·.place))
  let busy := fun spans write => v.interlocked s.focus.team v.acceptSeq spans write = true
  let poisoned := fun (a : Access) => x.reads && w.poisonPieces a.place.pieces x.direct
  let waits := fun (t : State) (r : Wait) => exec i s = .next (t.park r)
  let traps := fun (cause : BitVec 8) (addr : BitVec 64) (info : Nat) (lane : Nat → Bool) => exec i s = .next (s.raiseTrap
    { cause := cause, tpc := s.path.pc, taddr := addr, tinfo := BitVec.ofNat 64 info, mask := maskOf lane } true)
  (u.missingPages pages ≠ [] → s.path.walked = false → waits u (.walk ((u.missingPages pages).map (BitVec.ofNat 64 ·)))) ∧
  (u.missingPages pages = [] ∨ s.path.walked = true →
    (∀ l ∈ lanes, ∀ f, x.laneFault u v l = some f → (∀ k ∈ lanes, k < l → x.laneFault u v k = none) →
      traps f.cause f.addr f.info fun k => s.active.getLsbD k && (x.laneFault u v k).any fun g => x.texel || g.cause == f.cause) ∧
    ((∀ l ∈ lanes, x.laneFault u v l = none) →
      (busy reads false → waits v (.footprint reads false)) ∧
      (¬busy reads false → busy writes true → waits v (.footprint writes true)) ∧
      (¬busy reads false → ¬busy writes true →
        let pending := hasRelease ord = true ∧ wideScope scope = true ∧ v.coreStoresPending v.coreNow = true
        (pending → s.path.released = false → waits v .stores) ∧
        (¬pending ∨ s.path.released = true → ∀ a, as.find? poisoned = some a →
          traps 0x13 a.addr 0 fun k => as.any fun b => b.lane == k && poisoned b))))

/-- Where the lane access of a lane-space instruction stops: that of one which holds no register in the latch (R95). -/
def State.LaneStops (s : State) (x : LaneAccess) (ord : Nat) (scope : BitVec 3) (i : Instr) : Prop :=
  s.AccessStops s.unlatched x ord scope i

/-- Every check of a group-space load of 8-byte words passes and nothing makes it wait: `ps` is where they lead. -/
def State.LoadsClear (s : State) (addrs : List (BitVec 64)) (ps : List Place) : Prop :=
  addrs.map (fun a => s.resolve none a 8) = ps.map Except.ok ∧ s.missingPages (ps.flatMap fun p => pagesOf p.pieces) = [] ∧
    (∀ p ∈ addrs.zip ps, s.checkPieces p.1 p.2.pieces false = none ∧ s.poisonPieces p.2.pieces false = false) ∧
    s.interlocked s.focus.team s.acceptSeq (ownSpans s.focus.team 8 ps) false = false

/-- A trap of the focused path at its instruction, with the path's whole mask (R278, R279). -/
def State.trapped (s : State) (cause : BitVec 8) (addr info : BitVec 64) : State :=
  s.raiseTrap { cause := cause, tpc := s.path.pc, taddr := addr, tinfo := info, mask := s.path.mask } true

/-- A trap of the focused path at its instruction for the lanes of a mask (R169, R278, R279). -/
def State.trappedLanes (s : State) (f : AccessFault) (lanes : LaneMask) : State :=
  s.raiseTrap { cause := f.cause, tpc := s.path.pc, taddr := f.addr, tinfo := BitVec.ofNat 64 f.info, mask := lanes } true

/-- Where a group-space access of `r` bytes at `a` of instruction `i` stops before its effect (R169, R176, R193, R291, R423): the
checks of its address, its alignment, one wait for pages that neither TLB holds, the checks of its pages, poison that a load
reads, and the wait for a footprint over the scratchpad bytes it reads or writes. -/
def State.UniStops (s : State) (a : BitVec 64) (r : Nat) (store : Bool) (i : Instr) : Prop :=
  let faults := fun (f : AccessFault) => exec i s = .next (s.trapped f.cause f.addr (BitVec.ofNat 64 f.info))
  (∀ f, s.resolve none a r = .error f → faults f) ∧
  ∀ p, s.resolve none a r = .ok p →
    let missing := s.missingPages (pagesOf p.pieces)
    let v := s.walkedFor (pagesOf p.pieces)
    let spans := ownSpans s.focus.team r [p]
    (a.toNat % r ≠ 0 → exec i s = .next (s.trapped 0x04 a 0)) ∧
    (a.toNat % r = 0 →
      (missing ≠ [] → s.path.walked = false → exec i s = .next (s.park (.walk (missing.map (BitVec.ofNat 64 ·))))) ∧
      (missing = [] ∨ s.path.walked = true →
        (∀ f, v.checkPieces a p.pieces store = some f → faults f) ∧
        (v.checkPieces a p.pieces store = none →
          let poisoned := store = false ∧ v.poisonPieces p.pieces false = true
          (poisoned → exec i s = .next (s.trapped 0x13 a 1)) ∧
          (¬poisoned → v.interlocked s.focus.team v.acceptSeq spans store = true →
            exec i s = .next (v.park (.footprint spans store))))))

/-- Where the loads of 8-byte words at some addresses by instruction `i` stop before its effect (R169, R176, R193, R207, R212, R291): the
first address that fails its own checks; one wait for pages that neither TLB holds; the least row of Table 9.6 that fails over all
words; poison that one of them reads; and the wait for a footprint over the scratchpad bytes they read. -/
def State.LoadsStop (s : State) (addrs : List (BitVec 64)) (i : Instr) : Prop :=
  let faults := fun (f : AccessFault) => exec i s = .next (s.trapped f.cause f.addr (BitVec.ofNat 64 f.info))
  (∀ before a after f, addrs = before ++ a :: after → (∀ b ∈ before, ∃ p, s.resolve none b 8 = .ok p) → s.resolve none a 8 = .error f →
    faults f) ∧
  ∀ ps, addrs.map (fun a => s.resolve none a 8) = ps.map Except.ok →
    let pages := ps.flatMap fun p => pagesOf p.pieces
    let v := s.walkedFor pages
    let spans := ownSpans s.focus.team 8 ps
    let rows := (addrs.zip ps).flatMap fun p => v.pieceFaults p.1 p.2.pieces false
    let poisoned := fun (p : BitVec 64 × Place) => v.poisonPieces p.2.pieces false
    (s.missingPages pages ≠ [] → s.path.walked = false →
      exec i s = .next (s.park (.walk ((s.missingPages pages).map (BitVec.ofNat 64 ·))))) ∧
    (s.missingPages pages = [] ∨ s.path.walked = true →
      (∀ f, leastFault rows = some f → faults f) ∧
      (rows = [] →
        (∀ p, (addrs.zip ps).find? poisoned = some p → exec i s = .next (s.trapped 0x13 p.1 1)) ∧
        ((addrs.zip ps).find? poisoned = none → v.interlocked s.focus.team v.acceptSeq spans false = true →
          exec i s = .next (v.park (.footprint spans false)))))

/-- Where MMA or MMAZ on two format blocks stops before it is accepted: the checks of Table 12.4 in their order, the wait for the
footprints over the granules whose tags it reads, which stands before check 5, and the wait for a place in the queue (R219, R220,
R222 to R224). -/
def State.MmaStops (s : State) (a b : RawBlock) (i : Instr) : Prop :=
  let float := !isIntFmt a.fmt
  let k := depthOf a.fmt.toNat b.fmt.toNat
  let spans := a.block.footprint k float (s.group.mask 0) ++ b.block.footprint k float (s.group.mask 1)
  let gs := granulesOf spans
  let spectral := gs.find? fun g => (s.team.gtag g).getLsbD 0
  let stops := fun (cause : BitVec 8) (addr info : Nat) => exec i s = .next (s.trapped cause (BitVec.ofNat 64 addr) (BitVec.ofNat 64 info))
  (goodPair a.fmt b.fmt = false → stops 0x03 0 4) ∧
  (goodPair a.fmt b.fmt = true →
    (a.reservedBad k float = true ∨ b.reservedBad k float = true → stops 0x03 0 4) ∧
    (a.reservedBad k float = false → b.reservedBad k float = false →
      (∀ o, (a.misaligned k float).or (b.misaligned k float) = some o → stops 0x04 o 0) ∧
      (a.misaligned k float = none → b.misaligned k float = none →
        (∀ o, beyond spans s.spSize = some o → stops 0x06 o 2) ∧
        (beyond spans s.spSize = none →
          (s.tagPending s.focus.team s.acceptSeq gs = true → exec i s = .next (s.park (.tags gs))) ∧
          (s.tagPending s.focus.team s.acceptSeq gs = false →
            (∀ g, spectral = some g → stops 0x0A (1024 * g) 2) ∧
            (spectral = none → 8 ≤ (s.coreAt s.coreNow).matrixQ.length →
              exec i s = .next (s.park (.engineQueue .matrix))))))))

/-- The granules and tags of an MMAS: those of A's enabled rows and of B's row 0 (R233). -/
def State.mmasRows (s : State) (a : RawBlock) : List Span := (maskRows (s.group.mask 0) 0).map fun i => ⟨a.off + i * a.stride, 64⟩

/-- Check 5 of Table 13.2: A and B of different sizes, or a row that does not stand at its place within its spectrum. -/
def State.MmasApart (s : State) (a b : RawBlock) : Prop :=
  let tb := s.team.gtag ((granulesOf [⟨b.off, 64⟩]).headD 0)
  let size := 2 * (16 * 2 ^ tagLogb tb)
  (∃ x, (granulesOf (s.mmasRows a)).head?.map s.team.gtag = some x ∧ tagLogb x ≠ tagLogb tb) ∨
    ∃ i ∈ maskRows (s.group.mask 0) 0, (a.off + i * a.stride) % size ≠ 64 * i % size ∨ b.off % size ≠ 64 * i % size

/-- Where MMAS or MMASZ on two format blocks stops before it is accepted: the checks of Table 13.2 in their order, the wait for the
footprints over the granules whose tags it reads, which stands before check 4, and the wait for a place in the queue (R224, R233). -/
def State.MmasStops (s : State) (zero : Bool) (an : BitVec 4) (a b : RawBlock) (i : Instr) : Prop :=
  let sa := s.mmasRows a
  let sb := [Span.mk b.off 64]
  let gs := granulesOf (sa ++ sb)
  let bad := (s.team.badGranule (granulesOf sa)).or (s.team.badGranule (granulesOf sb))
  let tile := s.tileTag an
  let wrongTile := zero = false ∧ (tile.spectral = false ∨ tile.logb ≠ tagLogb (s.team.gtag ((granulesOf sb).headD 0)))
  let stops := fun (cause : BitVec 8) (addr info : Nat) => exec i s = .next (s.trapped cause (BitVec.ofNat 64 addr) (BitVec.ofNat 64 info))
  (a.mmasBad = true ∨ b.mmasBad = true → stops 0x03 0 4) ∧
  (a.mmasBad = false → b.mmasBad = false →
    (∀ o, mmasMisaligned a b = some o → stops 0x04 o 0) ∧
    (mmasMisaligned a b = none →
      (∀ o, beyond (sa ++ sb) s.spSize = some o → stops 0x06 o 2) ∧
      (beyond (sa ++ sb) s.spSize = none →
        (s.tagPending s.focus.team s.acceptSeq gs = true → exec i s = .next (s.park (.tags gs))) ∧
        (s.tagPending s.focus.team s.acceptSeq gs = false →
          (∀ g, bad = some g → stops 0x0A (1024 * g) 1) ∧
          (bad = none →
            (s.MmasApart a b → stops 0x0A a.off 4) ∧
            (¬s.MmasApart a b →
              (wrongTile → stops 0x0A 0 3) ∧
              (¬wrongTile → 8 ≤ (s.coreAt s.coreNow).matrixQ.length →
                exec i s = .next (s.park (.engineQueue .matrix)))))))))

/-- Where ACCST with a descriptor stops before it is accepted: the rows of Table 18.1 in their order, and the wait for a place in the
queue (R224, R227, R308). -/
def State.AccstStops (s : State) (d : DWord) (i : Instr) : Prop :=
  let off := d.toNat % 2 ^ 32
  let stride := d.toNat / 2 ^ 32 % 2 ^ 16
  let stops := fun (cause : BitVec 8) (addr info : Nat) => exec i s = .next (s.trapped cause (BitVec.ofNat 64 addr) (BitVec.ofNat 64 info))
  (accstSize (d.extractLsb' 48 8) = none ∨ d.toNat / 2 ^ 56 ≠ 0 → stops 0x03 0 4) ∧
  ∀ z, accstSize (d.extractLsb' 48 8) = some z → d.toNat / 2 ^ 56 = 0 →
    let bytes := (maskRows (s.group.mask 0) 0).flatMap fun i => (maskRows (s.group.mask 1) 0).map fun j =>
      Span.mk (off + i * stride + j * z) z
    let misaligned := off % z ≠ 0 ∨ stride % 16 ≠ 0 ∨ stride < 32 * z
    (misaligned → stops 0x04 off 0) ∧
    (¬misaligned →
      (∀ o, beyond bytes s.spSize = some o → stops 0x06 o 2) ∧
      (beyond bytes s.spSize = none → 8 ≤ (s.coreAt s.coreNow).matrixQ.length →
        exec i s = .next (s.park (.engineQueue .matrix))))

/-- An operation on a tile stands last in the core's matrix queue, and `tag` is the tile tag it leaves (R224, R232). -/
def State.queued (s : State) (an : BitVec 4) (kind : MatrixKind) (tag : Option TileTag) : State :=
  let c := s.coreAt s.coreNow
  let o : MatrixOp := { seq := s.acceptSeq, team := s.focus.team, group := s.focus.group, batch := s.group.batch,
                        tile := an.toNat, masks := s.edgeMasks, kind := kind }
  let t := ({ s with acceptSeq := s.acceptSeq + 1 } : State).setCore s.coreNow { c with matrixQ := c.matrixQ ++ [o] }
  match tag with
  | some x => t.putTeam (t.team.setTileTag an.toNat x)
  | none => t

/-- Spans that lie below a size. -/
def Within (spans : List Span) (size : Nat) : Prop := ∀ x ∈ spans, x.start + x.len ≤ size

/-- Every check of Table 13.5 passes, no tag is pending, and the transform unit has room (R236, R240). -/
def State.TransformClear (s : State) (x : Transform) : Prop :=
  let dst := x.dst.spans x.len x.dst.desc.count
  let src := x.src.toList.flatMap fun y => y.spans x.len x.dst.desc.count
  let gs := granulesOf src
  (∀ y ∈ x.dst :: x.src.toList,
    y.fieldsBad ((if x.tile.isSome then 1024 else 16384) / x.len) x.shift = false ∧ y.misaligned x.len = none) ∧
  Within dst s.spSize ∧ Within src s.spSize ∧ x.tile ≠ some false ∧
  s.tagPending s.focus.team s.acceptSeq gs = false ∧
  (if x.src.any (·.spectral) then s.team.badGranule gs = none else ∀ g ∈ gs, (s.team.gtag g).getLsbD 0 = false) ∧
  (∀ g ∈ gs, g ∉ granulesOf dst) ∧ (s.coreAt s.coreNow).transformQ.length < 2

/-- Where a transform of instruction `i` stops before it is accepted: the checks of Table 13.5 in their order, the wait for
footprints over the granules whose tags it reads, which stands before checks 5 to 7, and the wait for a place in the unit's
queue (R236, R240). -/
def State.TransformStops (s : State) (x : Transform) (i : Instr) : Prop :=
  let sides := x.dst :: x.src.toList
  let dst := x.dst.spans x.len x.dst.desc.count
  let src := x.src.toList.flatMap fun y => y.spans x.len x.dst.desc.count
  let gs := granulesOf src
  let limit := (if x.tile.isSome then 1024 else 16384) / x.len
  let stops := fun (cause : BitVec 8) (addr info : Nat) => exec i s = .next (s.trapped cause (BitVec.ofNat 64 addr) (BitVec.ofNat 64 info))
  let bad := sides.any fun y => y.fieldsBad limit x.shift
  let spectral := x.src.any (·.spectral)
  let wrong := if spectral then s.team.badGranule gs else gs.find? fun g => (s.team.gtag g).getLsbD 0
  let both := gs.find? fun g => (granulesOf dst).contains g
  (bad = true → stops 0x03 0 4) ∧
  (bad = false →
    (∀ o, sides.findSome? (fun y => y.misaligned x.len) = some o → stops 0x04 o 0) ∧
    (sides.findSome? (fun y => y.misaligned x.len) = none →
      (∀ o, beyond (dst ++ src) s.spSize = some o → stops 0x06 o 2) ∧
      (beyond (dst ++ src) s.spSize = none →
        (x.tile = some false → stops 0x0A 0 3) ∧
        (x.tile ≠ some false →
          (s.tagPending s.focus.team s.acceptSeq gs = true → exec i s = .next (s.park (.tags gs))) ∧
          (s.tagPending s.focus.team s.acceptSeq gs = false →
            (∀ g, wrong = some g → stops 0x0A (1024 * g) (if spectral then 1 else 2)) ∧
            (wrong = none →
              (∀ g, both = some g → stops 0x0A (1024 * g) 5) ∧
              (both = none → 2 ≤ (s.coreAt s.coreNow).transformQ.length →
                exec i s = .next (s.park (.engineQueue .transform)))))))))

/-- A transform stands last in the core's transform queue. -/
def State.queuedTransform (s : State) (x : Transform) : State :=
  let c := s.coreAt s.coreNow
  ({ s with acceptSeq := s.acceptSeq + 1 } : State).setCore s.coreNow { c with transformQ := c.transformQ ++
    [{ seq := s.acceptSeq, team := s.focus.team, group := s.focus.group, batch := s.group.batch, len := x.len
       dst := x.dst.desc, kind := x.kind }] }

/-- A pure region is open on the focused path, which can execute its next instruction outside trap mode with no single
step due (R253, R285). -/
def State.InRegion (s : State) (r : PureRegion) : Prop :=
  s.live = true ∧ s.group.trap = none ∧ s.singleStep s.region = false ∧ s.path.region = some r

/-- Every check of the accesses of a group image of `n` bytes at `a` passes and nothing makes them wait: `ps` is where they
lead, 256 bytes each (R284, R423). -/
def State.ImageClear (s : State) (a : BitVec 64) (n : Nat) (write : Bool) (ps : List Place) : Prop :=
  (List.range (n / 256)).map (fun i => s.resolve none (a + BitVec.ofNat 64 (256 * i)) 256) = ps.map Except.ok ∧
    s.missingPages (ps.flatMap fun p => pagesOf p.pieces) = [] ∧
    (∀ p ∈ ps.zipIdx, s.checkPieces (a + BitVec.ofNat 64 (256 * p.2)) p.1.pieces write = none) ∧
    (write = false → ∀ p ∈ ps, s.poisonPieces p.pieces false = false) ∧
    s.interlocked s.focus.team s.acceptSeq (ownSpans s.focus.team 256 ps) write = false

/-- Where the accesses of a group image of `n` bytes at `a` stop before any effect (R176, R284, R423): the wait for pages that neither
TLB holds, once; then the first access that fails, by its own checks, those of its pages or poison that TREST reads; then the
wait for a footprint over the scratchpad bytes. -/
def State.ImageStops (s : State) (a : BitVec 64) (n : Nat) (write : Bool) (i : Instr) : Prop :=
  let at_ := fun (k : Nat) => a + BitVec.ofNat 64 (256 * k)
  let place := fun (k : Nat) => s.resolve none (at_ k) 256
  let good := (List.range (n / 256)).filterMap fun k => (place k).toOption
  let pages := good.flatMap fun p => pagesOf p.pieces
  let v := s.walkedFor pages
  let spans := ownSpans s.focus.team 256 good
  let fails := fun (k : Nat) (f : AccessFault) => place k = .error f ∨ ∃ p, place k = .ok p ∧
    (v.checkPieces (at_ k) p.pieces write = some f ∨
      v.checkPieces (at_ k) p.pieces write = none ∧ write = false ∧ v.poisonPieces p.pieces false = true ∧ f = ⟨0x13, at_ k, 1⟩)
  (s.missingPages pages ≠ [] → s.path.walked = false →
    exec i s = .next (s.park (.walk ((s.missingPages pages).map (BitVec.ofNat 64 ·))))) ∧
  (s.missingPages pages = [] ∨ s.path.walked = true →
    (∀ k < n / 256, ∀ f, fails k f → (∀ j < k, ∀ g, ¬fails j g) →
      exec i s = .next (s.trapped f.cause f.addr (BitVec.ofNat 64 f.info))) ∧
    ((∀ k < n / 256, ∀ f, ¬fails k f) → v.interlocked s.focus.team v.acceptSeq spans write = true →
      exec i s = .next (v.park (.footprint spans write))))

/-- The state after the focused path's instruction has completed at `pc`: the path goes on there, the group is young again, and
its current slot has issued once more if it is the path's (R43, R51). -/
def State.issued (s : State) (pc : BitVec 64) : State :=
  let g := s.group.setSlot s.focus.slot
    (some { s.path with pc := pc, wait := none, walked := false, released := false, bpSkip := false, again := none })
  { s.putGroup (g.countIssue s.focus.slot) with pending := none }

/-- Any values in the operand latch, which no result depends on (R95). -/
def State.putLatch (s : State) (a b : Option Latch) : State := s.putGroup { s.group with latchA := a, latchB := b }

/-- A group-space instruction completes, and its own effect leaves `t` (R44). -/
def Settles (i : Instr) (s t : State) : Prop := exec i s = .next (t.issued (s.nextPc i.wordCount))

/-- A lane-space instruction completes, and its own effect leaves `t` and some values in the operand latch (R9, R95). -/
def LaneSettles (i : Instr) (s t : State) : Prop :=
  ∃ a b, exec i s = .next ((t.putLatch a b).issued (s.nextPc 1))

/-- vn takes `f l` in each active lane l, and zero in each lane that zm zeroes (R9, R108). -/
def State.laneResult (s : State) (n : Nat) (f : Nat → Word) : State :=
  (s.writeV n s.active f).writeV n s.zeroed fun _ => 0

/-- vn and FLAGS take `r l` of each active lane l, and zm zeroes vn (R9, R99, R108). -/
def State.flaggedResult (s : State) (n : Nat) (r : Nat → Word × BitVec 5) : State :=
  ((s.writeV n s.active fun l => (r l).1).flag (s.laneFlags fun l => (r l).2)).writeV n s.zeroed fun _ => 0

/-- Registers n and n + 1 take the low and the high half of `f l` (R90). -/
def State.pairResult (s : State) (n : Nat) (f : Nat → DWord) : State :=
  ((((s.writeV n s.active fun l => (f l).extractLsb' 0 32).writeV (n + 1) s.active
    fun l => (f l).extractLsb' 32 32).writeV n s.zeroed fun _ => 0).writeV (n + 1) s.zeroed fun _ => 0)

/-- pn takes the test in each active lane, and zero in each lane that zm zeroes (R108). -/
def State.predResult (s : State) (n : BitVec 3) (f : Nat → Bool) : State :=
  (s.writeP n s.active (maskOf f)).writeP n s.zeroed 0

/-- A command node of a code, whose turn it is (R302). -/
def State.CommandReady (s : State) (node code : Nat) : Prop :=
  s.commandTurn node = true ∧ (s.nodeAt node).imageAddr.toNat = code

/-- The command has begun: a READY node is RUNNING (R302, Table 4.1). -/
def State.begun (s : State) (node : Nat) : State :=
  if (s.nodeAt node).state = .ready then s.enter node .running else s

/-- What a register instruction leaves as it was: everything outside the executing group, and of the group everything but
its registers, FLAGS, operand latch, slots and issue counts. -/
def State.KeepsOthers (s t : State) : Prop :=
  ({ t with teams := s.teams, pending := s.pending } : State) = s ∧
    t.teams = s.teams.set s.focus.team (s.team.setGroup s.focus.group t.group) ∧
    ({ t.group with vregs := s.group.vregs, shadowV := s.group.shadowV, wregs := s.group.wregs, shadowW := s.group.shadowW
                    preds := s.group.preds, flags := s.group.flags, latchA := s.group.latchA, latchB := s.group.latchB
                    path0 := s.group.path0, path1 := s.group.path1, issues := s.group.issues, age := s.group.age } : Group)
      = s.group ∧
    t.group.slot (!s.focus.slot) = s.group.slot (!s.focus.slot)

/-- What a finite value is, as a rational number (R134). -/
def FVal.real : FVal → Rat
  | .num neg m e => (if neg then -1 else 1) * m * (2 : Rat) ^ e
  | _ => 0

/-- One number lies below another; an infinity lies beyond every finite value, and no NaN lies below or above anything (R144). -/
def FVal.Below : FVal → FVal → Prop
  | .nan _, _ => False
  | _, .nan _ => False
  | .inf a, .inf b => a = true ∧ b = false
  | .inf a, .num .. => a = true
  | .num .., .inf b => b = false
  | .num a m e, .num b n k => (FVal.num a m e).real < (FVal.num b n k).real

/-- A number that is not negative rounded to an integer (R140, R141): to nearest with ties to even or away from zero, toward zero,
down or up, where `neg` says that it is a magnitude of a negative number. -/
def roundedNat (r : Rnd) (neg : Bool) (t : Rat) : Nat :=
  let n := ⌊t⌋₊
  match r with
  | .rtz => n
  | .rdn => if neg then ⌈t⌉₊ else n
  | .rup => if neg then n else ⌈t⌉₊
  | .rna => if t - n < 1 / 2 then n else n + 1
  | .rne => if t - n < 1 / 2 ∨ t - n = 1 / 2 ∧ n % 2 = 0 then n else n + 1

/-- A value is the finite number t, with the sign `neg` (R134). -/
def FVal.Is (x : FVal) (t : Rat) (neg : Bool) : Prop := ∃ m e, x = .num neg m e ∧ x.real = t

/-- `z` is the exact sum of two values and whether that is an invalid operation (R135, R143, Table 8.5): an exact zero is negative
where both terms are negative zeros, or, but for two zeros of one sign, under RDN. -/
def FVal.Sum (r : Rnd) (x y : FVal) (z : FVal × Bool) : Prop :=
  match x, y with
  | .num a m e, .num b n k =>
    let t := (FVal.num a m e).real + (FVal.num b n k).real
    z.2 = false ∧ z.1.Is t (if t ≠ 0 then decide (t < 0) else if m = 0 ∧ n = 0 ∧ a = b then a else decide (r = .rdn))
  | .inf a, .inf b => z = if a = b then (.inf a, false) else (.nan false, true)
  | .inf a, .num .. => z = (.inf a, false)
  | .num .., .inf b => z = (.inf b, false)
  | _, _ => z = (.nan false, x.signalling || y.signalling)

/-- `z` is the exact product of two values and whether that is an invalid operation (R135, R143, Table 8.5). -/
def FVal.Product (x y : FVal) (z : FVal × Bool) : Prop :=
  match x, y with
  | .num a m e, .num b n k => z.2 = false ∧ z.1.Is ((FVal.num a m e).real * (FVal.num b n k).real) (a != b)
  | .inf a, .inf b => z = (.inf (a != b), false)
  | .inf a, .num b n _ => z = if n = 0 then (.nan false, true) else (.inf (a != b), false)
  | .num a m _, .inf b => z = if m = 0 then (.nan false, true) else (.inf (a != b), false)
  | _, _ => z = (.nan false, x.signalling || y.signalling)

/-- The integer nearest to a number, ties to the even one (R411). -/
def nearestEven (t : Rat) : Int :=
  let n := ⌊t⌋
  if t - n < 1 / 2 ∨ t - n = 1 / 2 ∧ n % 2 = 0 then n else n + 1

/-- The index that an address mode gives for i on an axis of n texels; none is border (R411, Table 22.2). -/
def texelIndex (mode n : Nat) (i : Int) : Option Nat :=
  if mode = 0 then some (if i < 0 then 0 else min i.toNat (n - 1))
  else if mode = 1 then some (i % n).toNat
  else if 0 ≤ i ∧ i < n then some i.toNat else none

/-- What a lane samples at level m of an image: nearest, the texel whose square holds (u, v); else the four texels around it and
the blend weights a and b, from coordinates rounded to multiples of 1/256 (R410, R411). -/
def BufRec.Samples (r : BufRec) (p : Sampler) (gather : Bool) (m : Nat) (u v : Word) (x : Sample) : Prop :=
  let w := max 1 (r.tilex / 2 ^ m)
  let h := max 1 (r.tiley / 2 ^ m)
  let real := fun (c : Word) => match Fmt.fp32.value c.toNat with
    | .num neg k e => (FVal.num neg k e).real
    | _ => 0
  let texel := fun (i j : Int) => (texelIndex p.umode w i).bind fun i => (texelIndex p.vmode h j).map fun j =>
    r.levelOffset m + (j * w + i) * r.texelBytes
  let near := fun (c : Word) (n : Nat) => nearestEven ((real c * n - 1 / 2) * 256)
  if p.filter = 0 ∧ gather = false then x.taps = [texel ⌊real u * w⌋ ⌊real v * h⌋]
  else
    let i := near u w / 256
    let j := near v h / 256
    x.taps = [texel i j, texel (i + 1) j, texel i (j + 1), texel (i + 1) (j + 1)] ∧
      (x.a : Int) = near u w - 256 * i ∧ (x.b : Int) = near v h - 256 * j

/-- One visit of a ray's walk: the reference that stands first on the stack (R277). -/
structure RayVisit where
  kind : Nat
  off : Nat
  size : Nat

/-- The kind, offset and node size of a reference: 1 a box node, 2 a leaf (R277). -/
def rayVisit (r : Word) : RayVisit :=
  { kind := r.toNat / 2 ^ 30, off := 64 * (r.toNat % 2 ^ 30), size := if r.toNat / 2 ^ 30 = 1 then 256 else 64 }

/-- `x` is what sign, exponent field e and mantissa field m stand for in a format (R134, R135, Table 8.2). -/
def Fmt.Encodes (f : Fmt) (neg : Bool) (e m : Nat) (x : FVal) : Prop :=
  if f.ieee = true ∧ e = 2 ^ f.expo - 1 then x = if m = 0 then .inf neg else .nan (decide (m < 2 ^ (f.mant - 1)))
  else if f = .e4m3 ∧ e = 15 ∧ m = 7 then x = .nan false
  else
    let magnitude : Rat := if e = 0 then m * 2 ^ (1 - f.bias - f.mant) else (2 ^ f.mant + m) * 2 ^ (e - f.bias - f.mant)
    x.Is (if neg then -magnitude else magnitude) neg

/-- `z` is what the number t, which is not negative, or its negative, delivers in a signed format under a rounding code, and its
flags (R140, R141, R145, R146, Table 8.5). A zero is delivered as it is. A value becomes the multiple of its last place 2^q that the
code gives, inexact where that differs; beyond the largest finite value it becomes the result that R145 tables, or the largest value of
a format without infinities. Underflow is set where the value, rounded to the format's precision with no bound below, lies
below the smallest normal, and the result is inexact. -/
def Fmt.Delivers (f : Fmt) (r : Rnd) (neg : Bool) (t : Rat) (z : Nat × BitVec 5) : Prop :=
  let top := fun (q : Int) => (2 : Rat) ^ (q + f.mant)
  let largest := (f.value f.maxFinite).real
  let infinite := match r with
    | .rne | .rna => true
    | .rtz => false
    | .rdn => neg
    | .rup => !neg
  (t = 0 → z = (f.signed neg 0, 0)) ∧
  ∀ q : Int, (q = f.emin ∧ t < 2 * top q ∨ f.emin ≤ q ∧ top q ≤ t ∧ t < 2 * top q) →
    let unit := (2 : Rat) ^ q
    let n : Rat := roundedNat r neg (t / unit)
    (n * unit ≤ largest → (f.value z.1).Is (if neg then -(n * unit) else n * unit) neg ∧
      (z.2.getLsbD 3 = true ↔ n * unit ≠ t) ∧ z.2.getLsbD 0 = false ∧ z.2.getLsbD 1 = false ∧ z.2.getLsbD 4 = false ∧
      ∀ p : Int, top p ≤ t → t < 2 * top p →
        (z.2.getLsbD 2 = true ↔ roundedNat r neg (t / 2 ^ p) * (2 : Rat) ^ p < top f.emin ∧ n * unit ≠ t)) ∧
    (largest < n * unit → z = if f.ieee then (f.signed neg (if infinite then f.infinity else f.maxFinite), 0b01010)
      else (f.signed neg f.maxFinite, 0b11000))

/-- What a value gives in the integer range lo to hi under a rounding code, and its flags (R141, R146, Table 8.5): rounded
first and clamped then; a NaN gives 0 and is invalid. -/
def clampedInt (lo hi : Int) (r : Rnd) (x : FVal) : Int × BitVec 5 :=
  match x with
  | .nan _ => (0, 0b00001)
  | .inf neg => (if neg then lo else hi, 0b11000)
  | .num neg m e =>
    let t := (FVal.num false m e).real
    let n : Int := roundedNat r neg t
    let v := if neg then -n else n
    if v < lo then (lo, 0b11000) else if hi < v then (hi, 0b11000) else (v, if (n : Rat) = t then 0 else 0b01000)

/-- A write of vn lands: the budget holds the register, or it is one of the shadow set (R55, R96). -/
def State.holdsV (s : State) (n : Nat) : Bool := s.variant.hasV n || (s.group.trap.isSome && decide (n < 16))

/-- A write of wn lands: it is not w0, and the budget holds it or it is one of the shadow set (R55, R89, R96). -/
def State.holdsW (s : State) (n : BitVec 6) : Bool :=
  n != 0 && (s.variant.hasW n.toNat || (s.group.trap.isSome && decide (56 ≤ n.toNat)))

/-- A physical byte that stores at places reach (R162, R171). -/
def State.Stored (s : State) (ps : List Place) (x : Nat) : Prop :=
  ∃ p ∈ ps, ∃ q ∈ p.pieces, ∃ i < q.2, x = s.phys (q.1 + i)

/-- A byte of a scratchpad that stores of `n` bytes at places reach. -/
def PadStored (ps : List Place) (n team o : Nat) : Prop := ∃ p ∈ ps, ∃ b, p = .pad team b ∧ b ≤ o ∧ o < b + n

/-- The first byte of a table entry in which a store at places sets D (R171). -/
def State.DirtyByte (s : State) (ps : List Place) (x : Nat) : Prop :=
  ∃ p ∈ ps, ∃ q ∈ p.pieces, ∃ i < q.2, ∃ e, s.tlbFind s.coreNow s.rootNow (q.1 + i) = some e ∧ x = e.pte

/-- One TLB entry of the core maps every byte of a piece that lies in one page (R173, R174). -/
def State.Mapped (s : State) (ps : List Place) : Prop :=
  ∀ p ∈ ps, ∀ q ∈ p.pieces, ∀ i < q.2, ∃ e, s.tlbFind s.coreNow s.rootNow (q.1 + i) = some e ∧
    ∀ j < q.2, (q.1 + j) / 4096 = (q.1 + i) / 4096 → s.tlbFind s.coreNow s.rootNow (q.1 + j) = some e

/-- The path of `f` has the turn, and `u` is the state in which its next instruction is fetched (R43, R51). -/
def State.PathTurn (s : State) (f : Focus) (u : State) : Prop :=
  let s0 : State := { s with ticks := s.ticks + 1 }
  let s1 : State := { s0 with eventTurn := false }
  s.agenda = [] ∧ s0.slotTurn = none ∧ (s.eventTurn = true → s0.nextEvent = none) ∧ s1.chosen = some f ∧
    u = (({ s1 with eventTurn := true, chosenNext := false } : State).turnTo f).ageOthers

/-- The focused path's fetch finds its words at physical address `a` of the passed unit `p`, and `v` is the state once the
page stands in the core's TLBs (R116, R174). -/
def State.Fetches (u : State) (a : Nat) (p : PassedUnit) (v : State) : Prop :=
  u.path.pc.toNat % 4 = 0 ∧
    (∃ e, u.translate u.team.core u.region.root u.path.pc.toNat = .leaf e ∧ a = e.physical u.path.pc.toNat) ∧
    u.units.find? (fun x => x.unit == a / 4096) = some p ∧ v = u.tlbFill u.team.core u.region.root u.path.pc.toNat

end Sys2Proof.Machine
end

