-- ==== Sys2Proof/Certificates/Slice0/Obligations.lean ====
section
/-!
DEFINITION. Sys2Proof/Certificates/Slice0/Obligations.lean: the statements about the machine that are to be proved, in the
terms of Sys2Proof/Safety.lean. Each docstring names the rules of spec/ it comes from.
-/
open Sys2Proof Sys2Proof.Machine

/-! ## Lane-space arithmetic -/

/-- R346, R350, R351, R310, R398, R385, R396, R384: the two-operand integer instructions IADD, ISUB, IMIN, IMAX, IMINU,
IMAXU, IABSD, IMUL, IMULHS, IMULHU, AND, OR, XOR, ANDN, SHL, SHR, SAR and ROTL, then IMAD and BFX, whose third operand is
the prefix's vc, and SEL, POPC, CLZ and BREV complete in every path that runs, for every operand and hold bit; vd takes the
value of the rule in each active lane, and nothing else changes. -/
def Obligations.LaneIntegerResults : Prop :=
  ∀ (s : State), s.Runs → ∀ (vd va vb : BitVec 7) (ps : BitVec 2) (ha hb : Bool),
    let result := fun (i : Instr) (f : Word → Word → Word) =>
      LaneSettles i s (s.laneResult vd.toNat fun l => f (s.lane va l) (s.lane vb l))
    result (.iadd vd va vb ha hb) (fun a b => BitVec.ofNat 32 (a.toNat + b.toNat)) ∧
    result (.isub vd va vb ha hb) (fun a b => BitVec.ofInt 32 ((a.toNat : Int) - b.toNat)) ∧
    result (.imin vd va vb ha hb) (fun a b => BitVec.ofInt 32 (min a.toInt b.toInt)) ∧
    result (.imax vd va vb ha hb) (fun a b => BitVec.ofInt 32 (max a.toInt b.toInt)) ∧
    result (.iminu vd va vb ha hb) (fun a b => BitVec.ofNat 32 (min a.toNat b.toNat)) ∧
    result (.imaxu vd va vb ha hb) (fun a b => BitVec.ofNat 32 (max a.toNat b.toNat)) ∧
    result (.iabsd vd va vb ha hb) (fun a b => BitVec.ofNat 32 (max a.toNat b.toNat - min a.toNat b.toNat)) ∧
    result (.imul vd va vb ha hb) (fun a b => BitVec.ofNat 32 (a.toNat * b.toNat)) ∧
    result (.imulhs vd va vb ha hb) (fun a b => (a.signExtend 64 * b.signExtend 64).extractLsb' 32 32) ∧
    result (.imulhu vd va vb ha hb) (fun a b => (a.setWidth 64 * b.setWidth 64).extractLsb' 32 32) ∧
    result (.and vd va vb ha hb) (fun a b => a &&& b) ∧
    result (.or vd va vb ha hb) (fun a b => a ||| b) ∧
    result (.xor vd va vb ha hb) (fun a b => a ^^^ b) ∧
    result (.andn vd va vb ha hb) (fun a b => a &&& ~~~b) ∧
    result (.shl vd va vb ha hb) (fun a b => BitVec.ofNat 32 (a.toNat * 2 ^ (b.toNat % 32))) ∧
    result (.shr vd va vb ha hb) (fun a b => BitVec.ofNat 32 (a.toNat / 2 ^ (b.toNat % 32))) ∧
    result (.sar vd va vb ha hb) (fun a b => BitVec.ofInt 32 (a.toInt / 2 ^ (b.toNat % 32))) ∧
    result (.rotl vd va vb ha hb) (fun a b => a <<< (b.toNat % 32) ||| a >>> (32 - b.toNat % 32)) ∧
    LaneSettles (.imad vd va vb ha hb) s (s.laneResult vd.toNat fun l =>
      BitVec.ofNat 32 ((s.lane va l).toNat * (s.lane vb l).toNat + (s.vreg s.vc l).toNat)) ∧
    LaneSettles (.bfx vd va vb ha hb) s (s.laneResult vd.toNat fun l =>
      let b := (s.lane vb l).toNat % 32
      let c := s.vreg s.vc l
      let n := min (c.toNat % 64) (32 - b)
      let field := (s.lane va l >>> b) &&& BitVec.ofNat 32 (2 ^ n - 1)
      if c.getLsbD 8 = true ∧ 0 < n ∧ field.getLsbD (n - 1) = true then field ||| ~~~BitVec.ofNat 32 (2 ^ n - 1)
      else field) ∧
    LaneSettles (.sel vd va vb ps ha hb) s (s.laneResult vd.toNat fun l =>
      if (s.pred (0#1 ++ ps)).getLsbD l then s.lane va l else s.lane vb l) ∧
    LaneSettles (.popc vd va ha) s (s.laneResult vd.toNat fun l => (s.lane va l).cpop) ∧
    LaneSettles (.clz vd va ha) s (s.laneResult vd.toNat fun l => (s.lane va l).clz) ∧
    LaneSettles (.brev vd va ha) s (s.laneResult vd.toNat fun l => (s.lane va l).reverse)

/-- R310, R348, R383, R429, R399, R400, R395: IADDI, ORI, XORI, SHLI, SHRI and SARI: their base words, with every register field zero
and the immediate zero; the words the rules print; which immediates the verifier accepts; which prefixes they take, those
of a guard and zm alone; and their results. -/
def Obligations.ImmediateResults : Prop :=
  (encode (.iaddi 0 0 0 false) = [0x14000000] ∧ encode (.ori 0 0 0 false) = [0x18000000] ∧
    encode (.xori 0 0 0 false) = [0x1A000000] ∧ encode (.shli 0 0 0 false) = [0x1C000000] ∧
    encode (.shri 0 0 0 false) = [0x1E000000] ∧ encode (.sari 0 0 0 false) = [0x20000000]) ∧
  (decodeWord 0x140C1FFE 0 = .ok (.iaddi 3 3 (-1) false) ∧ decodeWord 0x140C1802 0 = .ok (.iaddi 3 3 1 false) ∧
    decodeWord 0x180C2002 0 = .ok (.ori 3 4 1 false) ∧ decodeWord 0x1A0C2002 0 = .ok (.xori 3 4 1 false) ∧
    decodeWord 0x1A0C27FE 0 = .ok (.xori 3 4 (-1) false) ∧ decodeWord 0x1C080802 0 = .ok (.shli 2 1 1 false) ∧
    decodeWord 0x1E080806 0 = .ok (.shri 2 1 3 false) ∧ decodeWord 0x20080806 0 = .ok (.sari 2 1 3 false)) ∧
  (∀ (vd va : BitVec 7) (imm : BitVec 10) (ha : Bool),
    (Instr.iaddi vd va imm ha).wellFormed = true ∧ (Instr.ori vd va imm ha).wellFormed = true ∧
    (Instr.xori vd va imm ha).wellFormed = true ∧
    (Instr.shli vd va imm ha).wellFormed = decide (imm.toNat ≤ 31) ∧
    (Instr.shri vd va imm ha).wellFormed = decide (imm.toNat ≤ 31) ∧
    (Instr.sari vd va imm ha).wellFormed = decide (imm.toNat ≤ 31)) ∧
  (∀ w : BitVec 32, (w.extractLsb' 25 7 = 0x0E ∨ w.extractLsb' 25 7 = 0x0F ∨ w.extractLsb' 25 7 = 0x10) →
    31 < (w.extractLsb' 1 10).toNat → decodeWord w 0 = .error .operandRange) ∧
  (∀ (p : Prefix) (vd va : BitVec 7) (imm : BitVec 10) (ha : Bool),
    ∀ i ∈ [Instr.iaddi vd va imm ha, .ori vd va imm ha, .xori vd va imm ha, .shli vd va imm ha, .shri vd va imm ha, .sari vd va imm ha],
      (pairFault p i = none ↔ p.rnd = 0 ∧ p.scope = 0 ∧ p.vc = 0) ∧
      (pairFault p i ≠ none → pairFault p i = some (true, .prefixField))) ∧
  ∀ (s : State), s.Runs → ∀ (vd va : BitVec 7) (imm : BitVec 10) (ha : Bool),
    let result := fun (i : Instr) (f : Word → Word) => LaneSettles i s (s.laneResult vd.toNat fun l => f (s.lane va l))
    result (.iaddi vd va imm ha) (fun a => BitVec.ofInt 32 (a.toNat + imm.toInt)) ∧
    result (.ori vd va imm ha) (fun a => a ||| BitVec.ofInt 32 imm.toInt) ∧
    result (.xori vd va imm ha) (fun a => a ^^^ BitVec.ofInt 32 imm.toInt) ∧
    result (.shli vd va imm ha) (fun a => BitVec.ofNat 32 (a.toNat * 2 ^ imm.toNat)) ∧
    result (.shri vd va imm ha) (fun a => BitVec.ofNat 32 (a.toNat / 2 ^ imm.toNat)) ∧
    result (.sari vd va imm ha) (fun a => BitVec.ofInt 32 (a.toInt / 2 ^ imm.toNat))

/-- R311, R377, R356: ANDI, MOVI, VMOV, MOVP and LANEID. -/
def Obligations.MoveResults : Prop :=
  ∀ (s : State), s.Runs → ∀ (vd va : BitVec 7) (pn : BitVec 3) (imm : BitVec 10) (ha : Bool),
    LaneSettles (.andi vd va imm ha) s
      (s.laneResult vd.toNat fun l => s.lane va l &&& BitVec.ofInt 32 imm.toInt) ∧
    LaneSettles (.movi vd imm) s (s.laneResult vd.toNat fun _ => BitVec.ofInt 32 imm.toInt) ∧
    LaneSettles (.vmov vd va ha) s (s.laneResult vd.toNat fun l => s.lane va l) ∧
    LaneSettles (.movp vd pn) s (s.laneResult vd.toNat fun l => BitVec.ofNat 32 ((s.pred pn).getLsbD l).toNat) ∧
    LaneSettles (.laneid vd) s (s.laneResult vd.toNat fun l => BitVec.ofNat 32 l)

/-- R347, R90: IADD64, ISUB64, IMUL64 and MADW on register pairs. -/
def Obligations.PairResults : Prop :=
  ∀ (s : State), s.Runs → ∀ (vd va vb : BitVec 7) (ha hb : Bool),
    let a := fun l => (s.pair va.toNat l).toNat
    let b := fun l => (s.pair vb.toNat l).toNat
    LaneSettles (.iadd64 vd va vb ha hb) s (s.pairResult vd.toNat fun l => BitVec.ofNat 64 (a l + b l)) ∧
    LaneSettles (.isub64 vd va vb ha hb) s (s.pairResult vd.toNat fun l => BitVec.ofInt 64 ((a l : Int) - b l)) ∧
    LaneSettles (.imul64 vd va vb ha hb) s (s.pairResult vd.toNat fun l => BitVec.ofNat 64 (a l * b l)) ∧
    LaneSettles (.madw vd va vb ha hb) s (s.pairResult vd.toNat fun l =>
      BitVec.ofNat 64 ((s.pair vd.toNat l).toNat + (s.lane va l).toNat * (s.lane vb l).toNat))

/-- R349, R340, R356, R144: ICMP with its signed and its unsigned relations, FCMP and SETP write a predicate in the active
lanes; FCMP sets FLAGS as well. A write of p0 is discarded. Then FCMP's relations: EQ, LT and LE hold of numbers alone, by their
values, the two zeros equal; UN holds exactly where an operand is a NaN; LT and LE of a NaN, and EQ and UN of a signalling one,
are invalid. -/
def Obligations.CompareResults : Prop :=
  (∀ (f : Fmt) (a b : Nat),
    let x := f.value a
    let y := f.value b
    let nan := x.isNan = true ∨ y.isNan = true
    let relation := fun (rel : Nat) => (fpRelation f rel a b).1 = true
    let flags := fun (rel : Nat) => (fpRelation f rel a b).2
    (relation 0 ↔ ¬nan ∧ ¬x.Below y ∧ ¬y.Below x) ∧ (relation 1 ↔ x.Below y) ∧ (relation 2 ↔ ¬nan ∧ ¬y.Below x) ∧
    (relation 3 ↔ nan) ∧
    (∀ rel ∈ [1, 2], (nan → flags rel = 0b00001) ∧ (¬nan → flags rel = 0)) ∧
    (∀ rel ∈ [0, 3], (x.signalling = true ∨ y.signalling = true → flags rel = 0b00001) ∧
      (x.signalling = false → y.signalling = false → flags rel = 0))) ∧
  ∀ (s : State), s.Runs → ∀ (pd : BitVec 3) (va vb : BitVec 7) (rel : BitVec 2) (ha hb : Bool),
    LaneSettles (.icmp pd va vb rel ha hb) s (s.predResult pd fun l =>
      let a := (s.lane va l).toInt
      let b := (s.lane vb l).toInt
      decide ((rel = 0 ∧ a = b) ∨ (rel = 1 ∧ a ≠ b) ∨ (rel = 2 ∧ a < b) ∨ (rel = 3 ∧ a ≤ b))) ∧
    LaneSettles (.icmpUnsigned pd va vb rel ha hb) s (s.predResult pd fun l =>
      let a := (s.lane va l).toNat
      let b := (s.lane vb l).toNat
      decide ((rel = 0 ∧ a < b) ∨ (rel ≠ 0 ∧ a ≤ b))) ∧
    LaneSettles (.setp pd va ha) s (s.predResult pd fun l => decide ((s.lane va l).toNat ≠ 0)) ∧
    (let r := fun l => fpRelation .fp32 rel.toNat (s.lane va l).toNat (s.lane vb l).toNat
     LaneSettles (.fcmp pd va vb rel ha hb) s
      (((s.writeP pd s.active (maskOf fun l => (r l).1)).flag (s.laneFlags fun l => (r l).2)).writeP pd s.zeroed 0))

/-- R339, R343, R135, R140, R144, R145: FADD, FSUB, FMUL, FFMA, FMIN, FMAX, FABS and FNEG: each active lane takes the exact
result of its operands' values, rounded once under the prefix's rounding code, and FLAGS takes what every active lane
raises. First the values: the sum and the product are exact, with R143's sign of a zero; infinity less infinity and zero times
infinity are invalid, and so is a signalling NaN. Then rounding: code 0 is to nearest, ties to even for a destination of 16
bits or more and away from zero for a narrower one; a NaN gives the canonical NaN, an infinity itself or the largest value of a
format without infinities, and a number what `Fmt.Delivers` says, with its inexact, overflow, underflow and saturate flags. Then
minimum and maximum: of two numbers the lesser or greater, of one NaN the other operand, of two the canonical NaN; -0 lies below +0. -/
def Obligations.Fp32Results : Prop :=
  (rndOf 0 true = .rne ∧ rndOf 0 false = .rna ∧
    ∀ wide, rndOf 1 wide = .rne ∧ rndOf 2 wide = .rtz ∧ rndOf 3 wide = .rdn ∧ rndOf 4 wide = .rup ∧ rndOf 5 wide = .rna) ∧
  (∀ (r : Rnd) (x y : FVal), x.Sum r y (x.add r y) ∧ x.Product y (x.mul y)) ∧
  (∀ (neg s : Bool) (m : Nat) (e : Int), FVal.neg (.num neg m e) = .num (!neg) m e ∧ FVal.neg (.inf neg) = .inf (!neg) ∧
    FVal.neg (.nan s) = .nan s) ∧
  (∀ (f : Fmt) (r : Rnd) (x : FVal) (invalid : Bool),
    rounded f r (x, invalid) = ((roundTo f r x).1, (roundTo f r x).2 ||| if invalid then 0b00001 else 0)) ∧
  (∀ (f : Fmt) (r : Rnd) (neg s : Bool) (m : Nat) (e : Int), f ≠ .e3m5 →
    f.Delivers r neg (FVal.num false m e).real (roundTo f r (.num neg m e)) ∧
    roundTo f r (.inf neg) = (if f.ieee then (f.signed neg f.infinity, 0) else (f.signed neg f.maxFinite, 0b11000)) ∧
    roundTo f r (.nan s) = (f.nan, if f = .e2m1 then 0b00001 else 0)) ∧
  (∀ (f : Fmt) (max : Bool) (a b : Nat),
    let x := f.value a
    let y := f.value b
    let z := fpPick f max a b
    let invalid : BitVec 5 := if x.signalling || y.signalling then 0b00001 else 0
    (x.Below y → z = (if max then b else a, 0)) ∧ (y.Below x → z = (if max then a else b, 0)) ∧
    (x.isNan = true → y.isNan = true → z = (f.nan, invalid)) ∧
    (x.isNan = true → y.isNan = false → z = (b, invalid)) ∧ (x.isNan = false → y.isNan = true → z = (a, invalid)) ∧
    (x.isNan = false → y.isNan = false → ¬x.Below y → ¬y.Below x → (z = (a, 0) ∨ z = (b, 0)) ∧
      z.1.testBit f.signBit = if max then a.testBit f.signBit && b.testBit f.signBit
        else a.testBit f.signBit || b.testBit f.signBit)) ∧
  ∀ (s : State), s.Runs → ∀ (vd va vb : BitVec 7) (ha hb : Bool),
    let r := rndOf s.pfx.rnd.toNat true
    let value := fun (v : BitVec 7) l => Fmt.fp32.value (s.lane v l).toNat
    LaneSettles (.fadd vd va vb ha hb) s
      (s.flaggedResult vd.toNat fun l => word32 (rounded .fp32 r ((value va l).add r (value vb l)))) ∧
    LaneSettles (.fsub vd va vb ha hb) s
      (s.flaggedResult vd.toNat fun l => word32 (rounded .fp32 r ((value va l).add r (value vb l).neg))) ∧
    LaneSettles (.fmul vd va vb ha hb) s
      (s.flaggedResult vd.toNat fun l => word32 (rounded .fp32 r ((value va l).mul (value vb l)))) ∧
    LaneSettles (.ffma vd va vb ha hb) s
      (s.flaggedResult vd.toNat fun l =>
        let p := (value va l).mul (value vb l)
        let d := (value vd l).add r p.1
        word32 (rounded .fp32 r (d.1, d.2 || p.2))) ∧
    LaneSettles (.fmin vd va vb ha hb) s
      (s.flaggedResult vd.toNat fun l => word32 (fpPick .fp32 false (s.lane va l).toNat (s.lane vb l).toNat)) ∧
    LaneSettles (.fmax vd va vb ha hb) s
      (s.flaggedResult vd.toNat fun l => word32 (fpPick .fp32 true (s.lane va l).toNat (s.lane vb l).toNat)) ∧
    LaneSettles (.fabs vd va ha) s
      (s.laneResult vd.toNat fun l => 0#1 ++ (s.lane va l).extractLsb' 0 31) ∧
    LaneSettles (.fneg vd va ha) s
      (s.laneResult vd.toNat fun l => ~~~(s.lane va l).extractLsb' 31 1 ++ (s.lane va l).extractLsb' 0 31)

/-- R345, R316: HADDP, HMULP, HFMAP, HMAXP on two FP16 halves, BADD2, BMUL2, BFMA2, BMAX2 on two BF16 halves: each half
is a result of its own, and the flags of both join. -/
def Obligations.PackedHalfResults : Prop :=
  ∀ (s : State), s.Runs → ∀ (vd va vb : BitVec 7) (ha hb : Bool),
    let both := fun (i : Instr) (f : Nat → Nat → Nat → Nat × BitVec 5) =>
      LaneSettles i s (s.flaggedResult vd.toNat fun l =>
        let part := fun h => f (half (s.lane vd l) h) (half (s.lane va l) h) (half (s.lane vb l) h)
        (BitVec.ofNat 16 (part 1).1 ++ BitVec.ofNat 16 (part 0).1, (part 0).2 ||| (part 1).2))
    let r := rndOf s.pfx.rnd.toNat true
    both (.haddp vd va vb ha hb) (fun _ a b => fpAdd .fp16 r a b) ∧
    both (.hmulp vd va vb ha hb) (fun _ a b => fpMul .fp16 r a b) ∧
    both (.hfmap vd va vb ha hb) (fun d a b => fpFma .fp16 r d a b) ∧
    both (.hmaxp vd va vb ha hb) (fun _ a b => fpPick .fp16 true a b) ∧
    both (.badd2 vd va vb ha hb) (fun _ a b => fpAdd .bf16 r a b) ∧
    both (.bmul2 vd va vb ha hb) (fun _ a b => fpMul .bf16 r a b) ∧
    both (.bfma2 vd va vb ha hb) (fun d a b => fpFma .bf16 r d a b) ∧
    both (.bmax2 vd va vb ha hb) (fun _ a b => fpPick .bf16 true a b)

/-- R391, R363, R147 with Table 8.6: RCP, RSQ, SQRT, EXP2, LOG2, SIN, COS and TANH. Each writes its function's value and
FLAGS in every active lane; SQRT alone takes the prefix's rounding code. Then the functions: a NaN gives the canonical NaN,
the special values of Table 8.6, RSQ, SQRT and LOG2 below zero; RCP, RSQ and SQRT are the exact value rounded once, from its
leading bits to any precision; EXP2 of an integer and LOG2 of a power of two are exact; EXP2 overflows at 128; and values of
EXP2, LOG2, SIN, COS and TANH between.
The model's choices it rests on: log entry 17. -/
def Obligations.ElementaryResults : Prop :=
  (∀ (s : State), s.Runs → ∀ (vd va : BitVec 7) (ha : Bool),
    let result := fun (i : Instr) (f : Nat → Nat × BitVec 5) =>
      LaneSettles i s (s.flaggedResult vd.toNat fun l => word32 (f (s.lane va l).toNat))
    result (.rcp vd va ha) fpRcp ∧ result (.rsq vd va ha) fpRsq ∧
    result (.sqrt vd va ha) (fpSqrt (rndOf s.pfx.rnd.toNat true)) ∧
    result (.exp2 vd va ha) fpExp2 ∧ result (.log2 vd va ha) fpLog2 ∧
    result (.sin vd va ha) (fpTrig false) ∧ result (.cos vd va ha) (fpTrig true) ∧ result (.tanh vd va ha) fpTanh) ∧
  (∀ (r : Rnd) (x : Nat) (signalling : Bool), Fmt.fp32.value x = .nan signalling →
    ∀ f ∈ [fpRcp, fpRsq, fpSqrt r, fpExp2, fpLog2, fpTrig false, fpTrig true, fpTanh],
      f x = (0x7FC00000, if signalling then 0b00001 else 0)) ∧
  (∀ r : Rnd,
    fpRcp 0 = (0x7F800000, 0) ∧ fpRcp 0x80000000 = (0xFF800000, 0) ∧
    fpRcp 0x7F800000 = (0, 0) ∧ fpRcp 0xFF800000 = (0x80000000, 0) ∧
    fpRsq 0 = (0x7F800000, 0) ∧ fpRsq 0x80000000 = (0xFF800000, 0) ∧ fpRsq 0x7F800000 = (0, 0) ∧
    fpSqrt r 0 = (0, 0) ∧ fpSqrt r 0x80000000 = (0x80000000, 0) ∧ fpSqrt r 0x7F800000 = (0x7F800000, 0) ∧
    fpExp2 0xFF800000 = (0, 0) ∧ fpExp2 0x7F800000 = (0x7F800000, 0) ∧
    fpExp2 0 = (0x3F800000, 0) ∧ fpExp2 0x80000000 = (0x3F800000, 0) ∧
    fpLog2 0 = (0xFF800000, 0) ∧ fpLog2 0x80000000 = (0xFF800000, 0) ∧
    fpLog2 0x3F800000 = (0, 0) ∧ fpLog2 0x7F800000 = (0x7F800000, 0) ∧
    fpTrig false 0 = (0, 0) ∧ fpTrig false 0x80000000 = (0x80000000, 0) ∧
    fpTrig true 0 = (0x3F800000, 0) ∧ fpTrig true 0x80000000 = (0x3F800000, 0) ∧
    (∀ x ∈ [0x7F800000, 0xFF800000], fpTrig false x = (0x7FC00000, 0b00001) ∧ fpTrig true x = (0x7FC00000, 0b00001)) ∧
    fpTanh 0 = (0, 0) ∧ fpTanh 0x80000000 = (0x80000000, 0) ∧
    fpTanh 0x7F800000 = (0x3F800000, 0) ∧ fpTanh 0xFF800000 = (0xBF800000, 0) ∧
    ∀ x, (Fmt.fp32.value x = .inf true ∨ ∃ m e, Fmt.fp32.value x = .num true m e ∧ m ≠ 0) →
      ∀ f ∈ [fpRsq, fpSqrt r, fpLog2], f x = (0x7FC00000, 0b00001)) ∧
  (∀ (x m : Nat) (e : Int) (neg : Bool) (p : Nat), Fmt.fp32.value x = .num neg m e → m ≠ 0 → 80 ≤ p →
    fpRcp x = roundNum .fp32 .rne neg (2 ^ p / m) (-p - e) (2 ^ p % m != 0)) ∧
  (∀ (r : Rnd) (x m n : Nat) (e k : Int) (p : Nat), Fmt.fp32.value x = .num false m e → m ≠ 0 → 80 ≤ p →
    (n = m ∧ e = 2 * k ∨ n = 2 * m ∧ e = 2 * k + 1) →
    fpSqrt r x = roundNum .fp32 r false (Nat.sqrt (n * 4 ^ p)) (k - p) (Nat.sqrt (n * 4 ^ p) ^ 2 != n * 4 ^ p) ∧
    fpRsq x = roundNum .fp32 .rne false (Nat.sqrt (4 ^ p / n)) (-p - k) (Nat.sqrt (4 ^ p / n) ^ 2 * n != 4 ^ p)) ∧
  (∀ (x m : Nat) (e : Int) (neg : Bool) (k : Int), Fmt.fp32.value x = .num neg m e →
    scaled neg m e (-149) = k * 2 ^ 149 →
      (-126 ≤ k → k ≤ 127 → fpExp2 x = ((k + 127).toNat * 2 ^ 23, 0)) ∧
      (-149 ≤ k → k < -126 → fpExp2 x = (2 ^ (k + 149).toNat, 0))) ∧
  (∀ (x m : Nat) (e : Int), Fmt.fp32.value x = .num false m e → 128 * 2 ^ 149 ≤ scaled false m e (-149) →
    fpExp2 x = (0x7F800000, 0b01010)) ∧
  (∀ (x j : Nat) (e : Int), Fmt.fp32.value x = .num false (2 ^ j) e →
    fpLog2 x = roundTo .fp32 .rne (intValue (e + j))) ∧
  (fpExp2 0x3F000000 = (0x3FB504F3, 0b01000) ∧ fpLog2 0x40400000 = (0x3FCAE00D, 0b01000) ∧
    fpTrig false 0x3F800000 = (0x3F576AA4, 0b01000) ∧ fpTrig true 0x3F800000 = (0x3F0A5140, 0b01000) ∧
    fpTrig false 1 = (1, 0b01100) ∧ fpTanh 1 = (1, 0b01100) ∧ fpTanh 0x3F800000 = (0x3F42F7D6, 0b01000))

/-- R148, R134, R146, Tables 8.2 and 8.7: CVT for every source, destination and rounding mode: equal formats copy, any other pair
converts the source's value, and the codes of a high half keep the low half of vd. Then what the codes name and the bits a
source is read from; what an encoding stands for; a conversion to a floating-point format, whose NaN is canonical and
invalid for a signalling one, and which saturates where the format has no infinity; a conversion to an integer, rounded and
then clamped, a NaN giving 0 and invalid; and the rows of Table 8.8. -/
def Obligations.ConversionResults : Prop :=
  (∀ (x : Word) (n : Nat),
    let low := (x.extractLsb' 0 16).toNat
    let high := (x.extractLsb' 16 16).toNat
    (List.range 7).map (cvtSource · x) = [(.float .fp32, x.toNat), (.float .fp16, low), (.float .bf16, low), (.int32, x.toNat),
      (.uint32, x.toNat), (.float .fp16, high), (.float .bf16, high)] ∧
    (List.range 11).map cvtDest = [.float .fp32, .float .fp16, .float .bf16, .int32, .uint32, .float .e4m3, .float .e5m2, .int8,
      .uint8, .float .fp16, .float .bf16] ∧
    (CvtFmt.int32.value x.toNat).Is x.toInt (decide (x.toInt < 0)) ∧ (CvtFmt.uint32.value x.toNat).Is x.toNat false ∧
    ∀ f : Fmt, (CvtFmt.float f).value n = f.value n) ∧
  (∀ (f : Fmt) (neg : Bool) (e m : Nat), f ≠ .e3m5 → e < 2 ^ f.expo → m < 2 ^ f.mant →
    f.Encodes neg e m (f.value (f.signed neg (e * 2 ^ f.mant + m)))) ∧
  (∀ f ∈ [Fmt.fp32, .fp16, .bf16, .e5m2, .e4m3], ∀ (code : Nat) (neg s : Bool) (m : Nat) (e : Int),
    let convert := (CvtFmt.float f).convert code
    (∃ z, f.Delivers (rndOf code (decide (16 ≤ 1 + f.expo + f.mant))) neg (FVal.num false m e).real z ∧
      convert (.num neg m e) = (BitVec.ofNat 32 z.1, z.2)) ∧
    convert (.nan s) = (BitVec.ofNat 32 f.nan, if s then 0b00001 else 0) ∧
    convert (.inf neg) = if f.ieee then (BitVec.ofNat 32 (f.signed neg f.infinity), 0)
      else (BitVec.ofNat 32 (f.signed neg f.maxFinite), 0b11000)) ∧
  (∀ (code : Nat) (x : FVal),
    let int := fun (f : CvtFmt) (lo hi : Int) (wide : Bool) =>
      let z := clampedInt lo hi (rndOf code wide) x
      f.convert code x = (BitVec.ofInt 32 z.1, z.2)
    int .int32 (-2 ^ 31) (2 ^ 31 - 1) true ∧ int .uint32 0 (2 ^ 32 - 1) true ∧ int .int8 (-128) 127 false ∧
      int .uint8 0 255 false) ∧
  (let row := fun (f : CvtFmt) (code x : Nat) => f.convert code (Fmt.fp32.value x)
   row (.float .bf16) 0 0x3F808000 = (0x3F80, 0b01000) ∧ row (.float .bf16) 5 0x3F808000 = (0x3F81, 0b01000) ∧
   row (.float .e4m3) 0 0x40080000 = (0x41, 0b01000) ∧ row (.float .e4m3) 1 0x40080000 = (0x40, 0b01000) ∧
   row (.float .e4m3) 0 0x43E80000 = (0x7E, 0b11000) ∧ row (.float .e4m3) 1 0x43E80000 = (0x7E, 0b01000) ∧
   (∀ code, row (.float .e4m3) code 0x7F800000 = (0x7E, 0b11000)) ∧ row .int8 0 0xC0200000 = (0xFFFFFFFD, 0b01000) ∧
   row .int8 0 0x43960000 = (0x7F, 0b11000) ∧ ∀ code, row .int32 code 0x7FA00000 = (0, 0b00001)) ∧
  ∀ (s : State), s.Runs → ∀ (vd va : BitVec 7) (src : BitVec 3) (dst : BitVec 4) (mode : BitVec 2) (ha : Bool),
    let code := if mode = 0 then s.pfx.rnd.toNat else mode.toNat + 1
    LaneSettles (.cvt vd va src dst mode ha) s (s.flaggedResult vd.toNat fun l =>
      let from_ := cvtSource src.toNat (s.lane va l)
      let dest := cvtDest dst.toNat
      let r := if from_.1 = dest then (BitVec.ofNat 32 from_.2, 0) else dest.convert code (from_.1.value from_.2)
      if dst.toNat < 9 then r else (r.1.extractLsb' 0 16 ++ (s.lane vd l).extractLsb' 0 16, r.2))

/-- R388, R333, R149, R146: QE4, QE5, QI8 and QF4 pack the scaled elements of consecutive registers into vd; DE4, DE5, DI8 and
DF4 unpack an element into each of consecutive registers. Each product with the scale is the exact one that Fp32Results states,
invalid where it is. Then the elements: E4M3, E5M2 and INT8 take 8 bits, four to a word, E2M1 takes 4, eight to a word; a
quantised number is rounded once, ties away from zero by default, and saturates in E4M3, E2M1 and INT8; a NaN gives 0x7F in E4M3, 0x7E
in E5M2, and 0 and invalid in E2M1 and INT8; what an element stands for; and an element's value quantises to that element. -/
def Obligations.BlockScaleResults : Prop :=
  (∀ q : QFmt, (q.bits, q.count) = if q = .e2m1 then (4, 8) else (8, 4)) ∧
  (∀ p ∈ [(QFmt.e4m3, Fmt.e4m3), (.e5m2, .e5m2), (.e2m1, .e2m1)], ∀ (code : Nat) (neg s invalid : Bool) (e m : Nat) (k : Int),
    let quantise := fun x => p.1.quantise code (x, invalid)
    let flag : BitVec 5 := if invalid then 0b00001 else 0
    (∃ z, p.2.Delivers (rndOf code false) neg (FVal.num false m k).real z ∧ quantise (.num neg m k) = (z.1, z.2 ||| flag)) ∧
    quantise (.inf neg) = (if p.2 = .e5m2 then (p.2.signed neg p.2.infinity, flag) else
      (p.2.signed neg p.2.maxFinite, 0b11000 ||| flag)) ∧
    quantise (.nan s) = (p.2.nan, if p.2 = .e2m1 then 0b00001 else flag) ∧
    (e < 2 ^ p.2.expo → m < 2 ^ p.2.mant → p.2.Encodes neg e m (p.1.element (p.2.signed neg (e * 2 ^ p.2.mant + m))))) ∧
  (∀ (code x : Nat) (v : FVal) (invalid : Bool),
    let z := clampedInt (-128) 127 (rndOf code false) v
    let n := (BitVec.ofNat 8 x).toInt
    QFmt.int8.quantise code (v, invalid) = ((BitVec.ofInt 8 z.1).toNat, z.2 ||| if invalid then 0b00001 else 0) ∧
    (QFmt.int8.element x).Is n (decide (n < 0))) ∧
  (∀ (q : QFmt) (code x : Nat), x < 2 ^ q.bits → (q.element x).isNan = false → q.quantise code (q.element x, false) = (x, 0)) ∧
  ∀ (s : State), s.Runs → ∀ (vd va vb : BitVec 7) (ha hb : Bool),
    let scale := fun l => Fmt.fp32.value (s.lane vb l).toNat
    let quant := fun (i : Instr) (q : QFmt) =>
      LaneSettles i s (s.flaggedResult vd.toNat fun l =>
        let e := fun j => q.quantise s.pfx.rnd.toNat ((Fmt.fp32.value (s.vreg (va.toNat + j) l).toNat).mul (scale l))
        (BitVec.ofNat 32 (((List.range q.count).map fun j => (e j).1 * 2 ^ (q.bits * j)).sum),
          (List.range q.count).foldl (fun a j => a ||| (e j).2) 0))
    let dequant := fun (i : Instr) (q : QFmt) =>
      let e := fun j l => rounded .fp32 (rndOf s.pfx.rnd.toNat true)
        ((q.element ((s.lane va l).toNat / 2 ^ (q.bits * j) % 2 ^ q.bits)).mul (scale l))
      LaneSettles i s (((s.lanesFrom vd.toNat q.count fun j l => BitVec.ofNat 32 (e j l).1).flag
        (s.laneFlags fun l => (List.range q.count).foldl (fun a j => a ||| (e j l).2) 0)).zeroDests
          { vw := regsFrom vd.toNat q.count } s.zeroed)
    quant (.qe4 vd va vb ha hb) .e4m3 ∧ quant (.qe5 vd va vb ha hb) .e5m2 ∧
    quant (.qi8 vd va vb ha hb) .int8 ∧ quant (.qf4 vd va vb ha hb) .e2m1 ∧
    dequant (.de4 vd va vb ha hb) .e4m3 ∧ dequant (.de5 vd va vb ha hb) .e5m2 ∧
    dequant (.di8 vd va vb ha hb) .int8 ∧ dequant (.df4 vd va vb ha hb) .e2m1

/-- R397, R365, R367: SHFL, SHFLX, SHFLR and SHFLH take va from another active lane, LSTEP combines with the lane 2^k
below, by the sum modulo 2^32, the rounded FP32 sum, the minimum or the maximum, VMATCH, MRANK, MCNT and MLAST report the active lanes of equal value. -/
def Obligations.CrossLaneResults : Prop :=
  (∀ (code : Nat) (m l : Word),
    stepCombine 0 code m l = (BitVec.ofNat 32 (m.toNat + l.toNat), 0) ∧
    stepCombine 1 code m l =
      word32 (rounded .fp32 (rndOf code true) ((Fmt.fp32.value m.toNat).add (rndOf code true) (Fmt.fp32.value l.toNat))) ∧
    stepCombine 2 code m l = word32 (fpPick .fp32 false m.toNat l.toNat) ∧
    stepCombine 3 code m l = word32 (fpPick .fp32 true m.toNat l.toNat)) ∧
  ∀ (s : State), s.Runs → ∀ (vd va vb k : BitVec 7) (op : BitVec 2) (ha hb : Bool),
    let take := fun (i : Instr) (src : Nat → Nat) =>
      LaneSettles i s (s.laneResult vd.toNat fun l =>
        if s.active.getLsbD (src l) then s.lane va (src l) else s.lane va l)
    let count := fun (i : Instr) (f : Nat → List Nat → Nat) =>
      LaneSettles i s (s.laneResult vd.toNat fun l =>
        BitVec.ofNat 32 (f l ((lanesOf s.active).filter fun m => s.lane va m == s.lane va l)))
    take (.shfl vd va vb ha hb) (fun l => (s.lane vb l).toNat % 64) ∧
    take (.shflx vd va vb ha hb) (fun l => l ^^^ ((s.lane vb l).toNat % 64)) ∧
    take (.shflr vd va vb ha hb) (fun l => (l + (s.lane vb l).toNat) % 64) ∧
    take (.shflh vd va k ha) (fun l => l ^^^ (64 / 2 ^ k.toNat)) ∧
    LaneSettles (.lstep vd va k op ha) s (s.flaggedResult vd.toNat fun l =>
      if 2 ^ k.toNat ≤ l ∧ s.active.getLsbD (l - 2 ^ k.toNat) = true then
        stepCombine op.toNat s.pfx.rnd.toNat (s.lane va (l - 2 ^ k.toNat)) (s.lane va l)
      else (s.lane va l, 0)) ∧
    count (.vmatch vd va ha) (fun l e => e.headD l) ∧
    count (.mrank vd va ha) (fun l e => (e.filter fun m => decide (m < l)).length) ∧
    count (.mcnt vd va ha) (fun _ e => e.length) ∧
    count (.mlast vd va ha) (fun l e => e.getLastD l)
/-! ## Uniform arithmetic, status registers and votes -/

/-- R416, R417, R418, R425, R426: UADD, USUB, UMUL, UMULH, UAND, UOR, UXOR, UANDN, USHL, USHR, USAR, UMIN, UMAX, UMINU, UMAXU, UPOPC,
UADDI, UMOVI, ULI, ULIH and UCMP complete in every path that runs and write w[wd] once; a write of w0 is discarded. ULI and
ULIH take two words, so the path goes on after the literal. -/
def Obligations.UniformIntegerResults : Prop :=
  ∀ (s : State), s.Runs → ∀ (wd wa wb : BitVec 6) (imm : BitVec 13) (lit : BitVec 32) (rel : BitVec 3),
    let a := s.uni wa
    let b := s.uni wb
    let result := fun (i : Instr) (x : DWord) => Settles i s (s.writeW wd x)
    result (.uadd wd wa wb) (BitVec.ofNat 64 (a.toNat + b.toNat)) ∧
    result (.usub wd wa wb) (BitVec.ofInt 64 ((a.toNat : Int) - b.toNat)) ∧
    result (.umul wd wa wb) (BitVec.ofNat 64 (a.toNat * b.toNat)) ∧
    result (.umulh wd wa wb) ((a.setWidth 128 * b.setWidth 128).extractLsb' 64 64) ∧
    result (.uand wd wa wb) (a &&& b) ∧
    result (.uor wd wa wb) (a ||| b) ∧
    result (.uxor wd wa wb) (a ^^^ b) ∧
    result (.uandn wd wa wb) (a &&& ~~~b) ∧
    result (.ushl wd wa wb) (BitVec.ofNat 64 (a.toNat * 2 ^ (b.toNat % 64))) ∧
    result (.ushr wd wa wb) (BitVec.ofNat 64 (a.toNat / 2 ^ (b.toNat % 64))) ∧
    result (.usar wd wa wb) (BitVec.ofInt 64 (a.toInt / 2 ^ (b.toNat % 64))) ∧
    result (.umin wd wa wb) (BitVec.ofInt 64 (min a.toInt b.toInt)) ∧
    result (.umax wd wa wb) (BitVec.ofInt 64 (max a.toInt b.toInt)) ∧
    result (.uminu wd wa wb) (BitVec.ofNat 64 (min a.toNat b.toNat)) ∧
    result (.umaxu wd wa wb) (BitVec.ofNat 64 (max a.toNat b.toNat)) ∧
    result (.upopc wd wa) a.cpop ∧
    Settles (.uaddi wd wa imm) s (s.writeW wd (BitVec.ofInt 64 (a.toNat + imm.toInt))) ∧
    Settles (.umovi wd imm) s (s.writeW wd (BitVec.ofInt 64 imm.toInt)) ∧
    Settles (.uli wd lit) s (s.writeW wd (BitVec.ofNat 64 lit.toNat)) ∧
    Settles (.ulih wd lit) s (s.writeW wd (lit ++ (s.uni wd).extractLsb' 0 32)) ∧
    (Instr.uli wd lit).wordCount = 2 ∧ (Instr.ulih wd lit).wordCount = 2 ∧ (Instr.umovi wd imm).wordCount = 1 ∧
    (rel.toNat ≤ 5 → Settles (.ucmp wd wa wb rel) s (s.writeW wd (BitVec.ofNat 64 (decide
      ((rel = 0 ∧ a = b) ∨ (rel = 1 ∧ a ≠ b) ∨ (rel = 2 ∧ a.toInt < b.toInt) ∨ (rel = 3 ∧ a.toInt ≤ b.toInt)
        ∨ (rel = 4 ∧ a.toNat < b.toNat) ∨ (rel = 5 ∧ a.toNat ≤ b.toNat))).toNat)))

/-- R419, R420, R421: UFADD, UFMUL, UFFMA, UFMIN, UFMAX and UFCVT on the FP32 values in the low halves, under the rounding
code of the word; bits 63 to 32 of an FP32 result are zero. Then UFCVT: source and destination codes 0 to 4 are FP32, INT32 and
UINT32 in the low half, INT64 and UINT64; equal codes keep the value, other integer destinations round and then clamp, an FP32
destination is rounded once; INT32 is sign-extended and FP32 and UINT32 zero-extended; and the rows of R421's table. -/
def Obligations.UniformFpResults : Prop :=
  (∀ (x : DWord) (src rnd : Nat), src < 5 →
    let low := x.extractLsb' 0 32
    let value := [Fmt.fp32.value low.toNat, intValue low.toInt, intValue low.toNat, intValue x.toInt, intValue x.toNat].getD src (.inf true)
    let r := rndOf rnd true
    let int := fun (lo hi : Int) =>
      let z := clampedInt lo hi r value
      (BitVec.ofInt 64 z.1, z.2)
    ufcvt src src rnd x = ([0#32 ++ low, low.signExtend 64, 0#32 ++ low, x, x].getD src 0, 0) ∧
    (src ≠ 0 → ufcvt src 0 rnd x = (0#32 ++ BitVec.ofNat 32 (roundTo .fp32 r value).1, (roundTo .fp32 r value).2)) ∧
    (src ≠ 1 → ufcvt src 1 rnd x = int (-2 ^ 31) (2 ^ 31 - 1)) ∧ (src ≠ 2 → ufcvt src 2 rnd x = int 0 (2 ^ 32 - 1)) ∧
    (src ≠ 3 → ufcvt src 3 rnd x = int (-2 ^ 63) (2 ^ 63 - 1)) ∧ (src ≠ 4 → ufcvt src 4 rnd x = int 0 (2 ^ 64 - 1))) ∧
  (∀ x : Int, (intValue x).Is x (decide (x < 0))) ∧
  (ufcvt 0 1 0 0xC0300000 = (0xFFFFFFFFFFFFFFFD, 0b01000) ∧ ufcvt 0 1 2 0xC0300000 = (0xFFFFFFFFFFFFFFFE, 0b01000) ∧
    ufcvt 3 0 0 16777217 = (0x4B800000, 0b01000) ∧ ufcvt 3 0 4 16777217 = (0x4B800001, 0b01000) ∧
    ufcvt 1 2 0 0x80000000 = (0, 0b11000)) ∧
  ∀ (s : State), s.Runs → ∀ (wd wa wb : BitVec 6) (src dst : BitVec 3) (rnd : BitVec 4),
    let value := fun w => Fmt.fp32.value (low32 (s.uni w))
    let r := rndOf rnd.toNat true
    let result := fun (i : Instr) (x : Nat × BitVec 5) =>
      Settles i s ((s.writeW wd (0#32 ++ BitVec.ofNat 32 x.1)).flag x.2)
    result (.ufadd wd wa wb rnd) (rounded .fp32 r ((value wa).add r (value wb))) ∧
    result (.ufmul wd wa wb rnd) (rounded .fp32 r ((value wa).mul (value wb))) ∧
    result (.uffma wd wa wb rnd)
      (let p := (value wa).mul (value wb)
       let d := (value wd).add r p.1
       rounded .fp32 r (d.1, d.2 || p.2)) ∧
    result (.ufmin wd wa wb) (fpPick .fp32 false (low32 (s.uni wa)) (low32 (s.uni wb))) ∧
    result (.ufmax wd wa wb) (fpPick .fp32 true (low32 (s.uni wa)) (low32 (s.uni wb))) ∧
    Settles (.ufcvt wd wa src dst rnd) s
      (let x := ufcvt src.toNat dst.toNat rnd.toNat (s.uni wa)
       (s.writeW wd x.1).flag x.2)

/-- R98, R99, R408: SRD reads every status register and SWR writes the writable bits of one, for every number that the
mode may name: below 0x100 in any mode, and any number in trap mode. Outside trap mode either one of a number of 0x100 or
above traps with cause 0x15 and the number in TINFO, and does nothing else. -/
def Obligations.StatusRegisterResults : Prop :=
  ∀ (s : State), s.Runs → ∀ (w : BitVec 6) (num : BitVec 13),
    (num.toNat < 0x100 ∨ s.group.trap.isSome = true →
      Settles (.srd w num) s (s.writeW w (s.status num.toNat)) ∧
      Settles (.swr w num) s (s.setStatus num.toNat (s.uni w))) ∧
    (0x100 ≤ num.toNat → s.group.trap = none →
      exec (.srd w num) s = .next (s.trapped 0x15 0 (BitVec.ofNat 64 num.toNat)) ∧
      exec (.swr w num) s = .next (s.trapped 0x15 0 (BitVec.ofNat 64 num.toNat)))

/-- R99, Table 5.3: what every status register holds, and what a write of one changes. WIDTH (0x000) to PRIVBASE, TFRAME,
MEMOHIT, MEMOMISS, DETMODE, CYCLE, TVEC, SAVEBASE, DSBASE and SAVEDWORK ignore a write. FLAGS takes five bits,
MESHFLAGS the three low bits, DOCC all 32; TCAUSE, TPC, TADDR, TMASK, TINFO and TMASKH take a write in trap mode and ignore
it outside. Every number that the table does not assign reads zero and ignores a write. A write changes no other register.
In a deterministic launch COREID, CYCLE and PRIVBASE read zero.
The model's choices it rests on: log entry 39. -/
def Obligations.StatusRegisterFields : Prop :=
  let assigned := [0x000, 0x001, 0x002, 0x003, 0x004, 0x005, 0x006, 0x007, 0x008, 0x009, 0x00A, 0x00B, 0x00C, 0x00D, 0x010,
    0x011, 0x012, 0x013, 0x014, 0x015, 0x016, 0x020, 0x021, 0x030, 0x031, 0x040, 0x050, 0x100, 0x101, 0x102, 0x103, 0x110]
  let trapRegisters := [0x010, 0x011, 0x012, 0x013, 0x014, 0x016]
  (∀ (s : State),
    let t := s.team
    let n := s.node
    let g := s.group
    let nat := BitVec.ofNat 64
    let xyz := fun (num x y z : Nat) => (s.status num).extractLsb' 0 21 = BitVec.ofNat 21 x ∧
      (s.status num).extractLsb' 21 21 = BitVec.ofNat 21 y ∧ (s.status num).extractLsb' 42 22 = BitVec.ofNat 22 (z % 2 ^ 21)
    s.status 0x000 = 64 ∧ s.status 0x001 = nat s.focus.group ∧ s.status 0x002 = nat (s.teamIx t) ∧
    xyz 0x003 t.x t.y t.z ∧ xyz 0x004 n.gx n.gy n.gz ∧ s.status 0x005 = nat s.variant.groups ∧
    s.status 0x006 = nat t.ensIx ∧ s.status 0x008 = t.variant.setWidth 64 ∧ s.status 0x009 = nat n.region ∧
    s.status 0x00A = nat s.spSize ∧ s.status 0x00B = n.nodearg ∧ s.status 0x00C = n.brecbase ∧
    s.status 0x010 = g.tcause.setWidth 64 ∧ s.status 0x011 = g.tpc ∧ s.status 0x012 = g.taddr ∧ s.status 0x013 = g.tmask ∧
    s.status 0x014 = g.tinfo ∧ s.status 0x015 = g.record ∧ s.status 0x016 = g.tmaskh ∧ s.status 0x020 = t.memoHit ∧
    s.status 0x021 = t.memoMiss ∧ s.status 0x030 = g.flags.setWidth 64 ∧ s.status 0x031 = t.meshFlags.setWidth 64 ∧
    s.status 0x040 = nat n.det.toNat ∧ s.status 0x100 = s.region.tvec ∧ s.status 0x101 = nat s.region.save ∧
    s.status 0x102 = g.dsbase ∧ s.status 0x103 = g.docc.setWidth 64 ∧ s.status 0x110 = s.region.savedWork ∧
    (n.det = true → s.status 0x007 = 0 ∧ s.status 0x00D = 0 ∧ s.status 0x050 = 0) ∧
    (n.det = false → s.status 0x007 = nat (256 * (t.core / 8) + t.core % 8) ∧
      s.status 0x00D = (if n.priv = 0 then 0 else g.pbase)) ∧
    ∀ num, num ∉ assigned → s.status num = 0) ∧
  ∀ (s : State) (x : DWord), s.Runs →
    ((s.setStatus 0x030 x).status 0x030).toNat = x.toNat % 32 ∧
    (s.setStatus 0x031 x).status 0x031 = (s.status 0x031 &&& 0xFFF8) ||| (x &&& 7) ∧
    ((s.setStatus 0x103 x).status 0x103).toNat = x.toNat % 2 ^ 32 ∧
    (s.group.trap.isSome = true → ((s.setStatus 0x010 x).status 0x010).toNat = x.toNat % 256 ∧
      ∀ num ∈ [0x011, 0x012, 0x013, 0x014, 0x016], (s.setStatus num x).status num = x) ∧
    (s.group.trap = none → ∀ num ∈ trapRegisters, s.setStatus num x = s) ∧
    (∀ num, num ∉ [0x030, 0x031, 0x103] ++ trapRegisters → s.setStatus num x = s) ∧
    ∀ num k, k ≠ num → (s.setStatus num x).status k = s.status k

/-- R323: BCAST, RDFIRST, BALLOT, VANY, VALL, VCNT and ACTM over the path's mask M. -/
def Obligations.VoteResults : Prop :=
  ∀ (s : State), s.Runs → ∀ (v : BitVec 7) (w : BitVec 6) (pn : BitVec 3) (half : BitVec 4),
    let m := s.path.mask
    let p := s.pred pn
    Settles (.bcast v w) s (s.writeV v.toNat m fun _ => (s.uni w).extractLsb' 0 32) ∧
    (∀ l < 64, m.getLsbD l = true → (∀ j < l, m.getLsbD j = false) →
      Settles (.rdfirst v w) s (s.writeW w (BitVec.ofNat 64 (s.lane v l).toNat))) ∧
    Settles (.ballot w pn half) s (s.writeW w (if half = 0 then m &&& p else 0)) ∧
    Settles (.vany w pn) s (s.writeW w (BitVec.ofNat 64 (decide (m &&& p ≠ 0)).toNat)) ∧
    Settles (.vall w pn) s (s.writeW w (BitVec.ofNat 64 (decide (m &&& ~~~p = 0)).toNat)) ∧
    Settles (.vcnt w pn) s (s.writeW w (m &&& p).cpop) ∧
    Settles (.actm w half) s (s.writeW w (if half = 0 then m else 0))
/-! ## Control flow -/

/-- R103, R324, R325, R328, R393, R382: BRA, BRANY, BRALL, BZ, BNZ, CALL, RET and NOP: where the whole path goes on, with the
link in w63, and the trap of a misaligned RET target, which moves nothing. -/
def Obligations.BranchResults : Prop :=
  ∀ (s : State), s.Runs → ∀ (pn : BitVec 3) (wa : BitVec 6) (d22 : BitVec 22) (d13 : BitVec 13),
    let far := s.path.pc + 4 * d22.signExtend 64
    let near := s.path.pc + 4 * d13.signExtend 64
    let next := s.nextPc 1
    let goes := fun (i : Instr) (t : State) (pc : BitVec 64) => exec i s = .next (t.issued pc)
    goes (.bra d22) s far ∧
    goes (.brany pn d22) s (if s.path.mask &&& s.pred pn = 0 then next else far) ∧
    goes (.brall pn d22) s (if s.path.mask &&& ~~~s.pred pn = 0 then far else next) ∧
    goes (.bz wa d13) s (if s.uni wa = 0 then near else next) ∧
    goes (.bnz wa d13) s (if s.uni wa = 0 then next else near) ∧
    goes (.call d22) (s.writeW 63 (s.path.pc + 4)) far ∧
    ((s.uni wa).toNat % 4 = 0 → goes (.ret wa) s (s.uni wa)) ∧
    ((s.uni wa).toNat % 4 ≠ 0 → exec (.ret wa) s =
      .next (s.raiseTrap { cause := 0x04, tpc := s.path.pc, taddr := s.uni wa, mask := s.path.mask } true)) ∧
    goes .nop s next

/-- R40: JSET. With every entry of the stack in use it traps with cause 0x0C; else the lowest free entry i becomes a join
frame at the target with the path's mask, a count of one and the path's own frame as its parent, the path stands in frame
i at the next word, and no other entry changes. -/
def Obligations.JsetOpensFrame : Prop :=
  ∀ (s : State), s.Runs → s.pending = none → s.path.pc.toNat % 4 = 0 → ∀ (disp : BitVec 22),
    (s.group.docc = BitVec.allOnes 32 → exec (.jset disp) s =
      .next (s.raiseTrap { cause := 0x0C, tpc := s.path.pc, mask := s.path.mask } true)) ∧
    ∀ i < 32, s.group.docc.getLsbD i = false → (∀ j < i, s.group.docc.getLsbD j = true) →
      (s.openFrame i (s.path.pc + 4 * disp.signExtend 64)).Steady →
      ∃ t, exec (.jset disp) s = .next t ∧ t.path.pc = s.path.pc + 4 ∧ t.path.mask = s.path.mask ∧
        t.path.fi.toNat = i ∧ t.path.fv = true ∧ t.group.docc = s.group.docc ||| BitVec.twoPow 32 i ∧
        t.dsRead i = { kind := 2, addr := s.path.pc + 4 * disp.signExtend 64, parent := s.path.fi, pv := s.path.fv,
                       cnt := 1, mask := s.path.mask } ∧
        ∀ j < 32, j ≠ i → t.dsRead j = s.dsRead j

/-- R39, R41, R42: BRD with one side empty moves the path alone, and with both sides taken splits it or traps on a full
stack; JOIN away from its frame's join point does nothing, and at it ends the path; EXIT ends the path's lanes, which every frame from
the path's own outward loses. A path that ends takes one from its frame's count; at zero the frame is freed and its lanes that are left
go on as one path after the join point, in the frame outside it, or with none left that frame loses one in turn; else the slot takes
the deferred path of the highest index. -/
def Obligations.PathControlResults : Prop :=
  ∀ (s : State), s.Runs → ∀ (pn : BitVec 3) (disp : BitVec 22),
    let taken := s.path.mask &&& s.pred pn
    let falls := s.path.mask &&& ~~~s.pred pn
    let target := s.path.pc + 4 * disp.signExtend 64
    let occupied := (s.group.slot (!s.focus.slot)).isSome = true ∨ s.node.det = true
    let ended := fun (t : State) =>
      ({ t.endPath.retireGroup s.focus.team s.focus.group with pending := none } : State)
    (taken = 0 → Settles (.brd pn disp) s s) ∧
    (taken ≠ 0 → falls = 0 → exec (.brd pn disp) s = .next (s.issued target)) ∧
    (taken ≠ 0 → falls ≠ 0 → occupied → s.group.docc = BitVec.allOnes 32 → exec (.brd pn disp) s =
      .next (s.raiseTrap { cause := 0x0C, tpc := s.path.pc, mask := s.path.mask } true)) ∧
    (taken ≠ 0 → falls ≠ 0 → ¬(occupied ∧ s.group.docc = BitVec.allOnes 32) → (s.splitPath taken falls target).Steady →
      Settles (.brd pn disp) s (s.splitPath taken falls target)) ∧
    ((s.path.fv = false ∨ (s.dsRead s.path.fi.toNat).addr ≠ s.path.pc) → Settles .join s s) ∧
    (s.path.fv = true → (s.dsRead s.path.fi.toNat).addr = s.path.pc → exec .join s = .next (ended s)) ∧
    (s.group.trap = none → exec .exit s =
      .next (let t := (s.dropLanes s.path.mask s.path.fi s.path.fv 32).endPath
             let t := t.putGroup { t.group with live := t.group.live &&& ~~~s.path.mask }
             { t.retireGroup s.focus.team s.focus.group with pending := none })) ∧
    (let b := s.focus.slot
     let f := s.path.fi.toNat
     let placed := fun (e : DsEntry) => ({ pc := e.addr + 4, mask := e.mask, fi := e.parent, fv := e.pv } : Path)
     let freed := fun (k : Nat) => s.group.docc &&& ~~~(BitVec.twoPow 32 k)
     let leaves := fun (i : Instr) (d : State) =>
      let e := d.dsRead f
      let left := (e.cnt + 255) % 256
      let g := e.parent.toNat
      let outer := d.dsRead g
      (left ≠ 0 → e.kind ≠ 1 → s.group.docc.getLsbD f = true → ∃ t, exec i s = .next t ∧ t.dsRead f = { e with cnt := left } ∧
        t.group.slot (!b) = s.group.slot (!b) ∧
        ((∀ k < 32, s.group.docc.getLsbD k = true → (d.dsRead k).kind ≠ 1) →
          t.group.slot b = none ∧ t.group.docc = s.group.docc) ∧
        ∀ k < 32, s.group.docc.getLsbD k = true → (d.dsRead k).kind = 1 →
          (∀ j < 32, k < j → s.group.docc.getLsbD j = true → (d.dsRead j).kind ≠ 1) →
          let q := d.dsRead k
          t.group.slot b = some { pc := q.addr, mask := q.mask, fi := q.parent, fv := q.pv } ∧ t.group.docc = freed k) ∧
      (left = 0 → e.mask ≠ 0 → ∃ t, exec i s = .next t ∧ t.group.slot b = some (placed e) ∧
        t.group.slot (!b) = s.group.slot (!b) ∧ t.group.docc = freed f ∧ (t.dsRead f).kind = 0) ∧
      (left = 0 → e.mask = 0 → e.pv = true → g ≠ f → (outer.cnt + 255) % 256 = 0 → outer.mask ≠ 0 →
        ∃ t, exec i s = .next t ∧ t.group.slot b = some (placed outer) ∧ t.group.slot (!b) = s.group.slot (!b) ∧
        t.group.docc = freed f &&& ~~~(BitVec.twoPow 32 g) ∧ (t.dsRead f).kind = 0 ∧ (t.dsRead g).kind = 0) ∧
      (left = 0 → e.mask = 0 → e.pv = true → g ≠ f → (outer.cnt + 255) % 256 ≠ 0 → s.group.docc.getLsbD g = true →
        ∃ t, exec i s = .next t ∧ (t.dsRead g).cnt = (outer.cnt + 255) % 256 ∧ t.group.docc.getLsbD f = false ∧
        t.group.slot (!b) = s.group.slot (!b))
     (s.path.fv = true → (s.dsRead f).addr = s.path.pc → leaves .join s) ∧
     (s.group.trap = none →
      let exits := s.dropLanes s.path.mask s.path.fi s.path.fv 32
      (s.path.fv = true → (exits.dsRead f) = { s.dsRead f with mask := (s.dsRead f).mask &&& ~~~s.path.mask } ∧
        ((s.dsRead f).pv = true → let g := (s.dsRead f).parent.toNat
          (exits.dsRead g).mask = (s.dsRead g).mask &&& ~~~s.path.mask) ∧
        leaves .exit exits) ∧
      ((s.group.slot (!b)).isSome = true → ∃ t, exec .exit s = .next t ∧ t.group.slot (!b) = s.group.slot (!b) ∧
        t.group.live = s.group.live &&& ~~~s.path.mask)))

/-- R342, R163, R330, R431: FENCE, CCTLF, CCTLI, CCTLW, YIELD and SLEEP. A release at ensemble scope or wider waits for the
core's stores, and a path that has waited goes behind the stores made since; an acquire there invalidates the core's L1.
CCTLW waits for the group's stores. CCTLI of a range of up to 2^20 bytes whose global pages the core's first-level TLB holds
invalidates the lines that hold a byte of it and no other line; of any other range but an empty one it acts as CCTLF. SLEEP of
zero acts as YIELD.
The model's choices it rests on: log entry 29. -/
def Obligations.CacheAndIssueResults : Prop :=
  ∀ (s : State), s.Runs → ∀ (ord : BitVec 3) (scope : BitVec 4) (wa wb : BitVec 6),
    let wide := 2 ≤ scope.toNat
    let core := s.coreNow
    let releases := wide ∧ ord ≠ 0 ∧ s.coreStoresPending core = true
    let waits := s.storesPending s.focus.team s.focus.group = true ∧ s.path.released = false
    let acquires := fun (t : State) => if wide ∧ ord ≠ 1 then t.l1Invalidate core else t
    let a := (s.uni wa).toNat
    let n := (s.uni wb).toNat
    let page := fun (p : Nat) => p % 4096 = 0 ∧ p < a + n ∧ a < p + 4096 ∧ p < 0xFFFFFD * 2 ^ 40
    let held := fun (p : Nat) => (s.coreAt core).tlb.find? fun e => e.covers s.rootNow p
    let holdsByte := fun (line : Nat) => ∃ p e, page p ∧ held p = some e ∧
      128 * line < e.physical (max p a) + (min (p + 4096) (a + n) - max p a) ∧ e.physical (max p a) < 128 * line + 128
    (ord.toNat ≤ 3 → ¬releases → Settles (.fence ord scope) s (acquires s)) ∧
    (ord.toNat ≤ 3 → releases → s.path.released = false → exec (.fence ord scope) s = .next (s.park .stores)) ∧
    (ord.toNat ≤ 3 → releases → s.path.released = true → Settles (.fence ord scope) s (acquires (s.drainCore core))) ∧
    Settles .cctlf s (s.l1Invalidate core) ∧
    (¬waits → Settles .cctlw s s) ∧ (waits → exec .cctlw s = .next (s.park .stores)) ∧
    (n = 0 → Settles (.cctli wa wb) s s) ∧
    (2 ^ 20 < n → Settles (.cctli wa wb) s (s.l1Invalidate core)) ∧
    (n ≠ 0 → (∃ p, page p ∧ held p = none) → Settles (.cctli wa wb) s (s.l1Invalidate core)) ∧
    (n ≠ 0 → n ≤ 2 ^ 20 → (∀ p, page p → (held p).isSome = true) → ∃ t, Settles (.cctli wa wb) s t ∧
      (∀ q, q ∈ (t.coreAt core).l1 ↔ q ∈ (s.coreAt core).l1 ∧ ¬holdsByte q.1) ∧
      ({ t.coreAt core with l1 := (s.coreAt core).l1 } : CoreUnit) = s.coreAt core ∧
      (∀ c, c ≠ core → t.coreAt c = s.coreAt c) ∧ ({ t with cores := s.cores } : State) = s) ∧
    (s.group.trap = none → Settles .yieldIssue s s.yielded) ∧
    (s.group.trap = none → s.uni wa = 0 → Settles (.sleep wa) s s.yielded) ∧
    (s.group.trap = none → s.uni wa ≠ 0 → exec (.sleep wa) s =
      .next (s.park (.sleep (BitVec.ofNat 64 (min (s.uni wa).toNat 1048576)))))

/-! ## Uniform memory -/

/-- R422, R423, R169, R176, R193: ULDW and ULDD read, USTW and USTD write, the bytes at w[wa] + imm, once the checks of the access
pass and nothing makes it wait; and where each of them traps or waits.
The model's choices it rests on: log entries 29 and 72. -/
def Obligations.UniformMemoryResults : Prop :=
  ∀ (s : State), s.Runs → ∀ (wd wa : BitVec 6) (imm : BitVec 13) (p : Place),
    let a := s.uni wa + imm.signExtend 64
    let loads := fun (i : Instr) (r : Nat) => s.UniClear a r false p →
      let t := (s.writeW wd (BitVec.ofNat 64 (leNat (s.loadPlace p r)))).allocPieces p.pieces
      Settles i s t
    let stores := fun (i : Instr) (r : Nat) => s.UniClear a r true p →
      let t := s.storePlace p (natLe r (s.uni wd).toNat)
      t.Steady → Settles i s t
    loads (.uldw wd wa imm) 4 ∧ loads (.uldd wd wa imm) 8 ∧
    stores (.ustw wd wa imm) 4 ∧ stores (.ustd wd wa imm) 8 ∧
    s.UniStops a 4 false (.uldw wd wa imm) ∧ s.UniStops a 8 false (.uldd wd wa imm) ∧
    s.UniStops a 4 true (.ustw wd wa imm) ∧ s.UniStops a 8 true (.ustd wd wa imm)

/-- R401: SPACE classifies an address, SCAST forms a scratchpad window address of this team, SCASTL takes one apart, and both
trap on an address or offset that is not of this team's scratchpad. -/
def Obligations.AddressSpaceResults : Prop :=
  ∀ (s : State), s.Runs → ∀ (wd wa : BitVec 6),
    let a := s.uni wa
    let c := spaceClass s.team.tag a
    let trap := fun (i : Instr) (cause : BitVec 8) (info : Nat) =>
      exec i s = .next (s.raiseTrap { cause := cause, tpc := s.path.pc, taddr := a, tinfo := BitVec.ofNat 64 info,
                                      mask := s.path.mask } true)
    Settles (.space wd wa) s (s.writeW wd (BitVec.ofNat 64 c)) ∧
    (a.toNat < s.spSize → Settles (.scast wd wa) s
      (s.writeW wd (0xFFFFFE0000000000 ||| (s.team.tag.setWidth 64 <<< 24) ||| a))) ∧
    (s.spSize ≤ a.toNat → trap (.scast wd wa) 0x06 2) ∧
    (c = 2 → a.toNat % 2 ^ 18 < s.spSize → Settles (.scastl wd wa) s (s.writeW wd (BitVec.ofNat 64 (a.toNat % 2 ^ 18)))) ∧
    (c = 2 → s.spSize ≤ a.toNat % 2 ^ 18 → trap (.scastl wd wa) 0x06 2) ∧
    (c = 3 → trap (.scastl wd wa) 0x05 (a.toNat / 2 ^ 24 % 2 ^ 16)) ∧
    (c ≠ 2 → c ≠ 3 → trap (.scastl wd wa) 0x06 5)
/-! ## Lane memory -/

/-- R358, R361, R163, R167, R169, R176, R193: LDB, LDH, LDW, LDD and LDQ through any buffer record, and LDL: with every check of
every active lane passed and nothing to wait for, each lane's registers take the bytes its access delivers, FLAGS what the
conversion raises, zm's lanes zero, and the lines read enter the L1 unless the record forbids it; and where each of them traps
(cause and TADDR of the lowest lane that fails a check, TMASK the lanes of that cause, poison after the others) or waits.
That poison is judged after an acquire has emptied the L1, and after every lane's other checks, is the model's choice (log
entry 53). The model's choices it rests on: log entries 24, 29, 39, 53, 56 and 69. -/
def Obligations.LoadResults : Prop :=
  ∀ (s : State), s.Runs → s.active ≠ 0 → ∀ (vt va : BitVec 7) (wb : BitVec 6) (rec sz : BitVec 5) (as : List Access),
    let u := s.unlatched
    let ord := s.pfx.rnd.toNat
    let v := u.orderAcquire ord s.pfx.scope
    let loads := fun (i : Instr) (r : Nat) =>
      let b := s.bufRec rec.toNat
      u.LaneClear (loadAccess va wb rec.toNat b r) ord s.pfx.scope as →
      let d := as.map fun a => (a.lane, v.loadLane (b.toOption.getD rawRec) rec.toNat r a)
      let t := (v.writeLoaded vt.toNat r (d.map fun p => (p.1, p.2.1))).flag (d.foldl (fun f p => f ||| p.2.2) 0)
      let t := if (b.toOption.map (·.noalloc)).getD false then t else as.foldl (fun s a => s.allocPieces a.place.pieces) t
      exec i s = .next ((t.zeroDests { vw := regsFrom vt.toNat (regCount r) } s.zeroed).issued (s.nextPc 1))
    loads (.ldb vt va wb rec) 1 ∧ loads (.ldh vt va wb rec) 2 ∧ loads (.ldw vt va wb rec) 4 ∧
    loads (.ldd vt va wb rec) 8 ∧ loads (.ldq vt va wb rec) 16 ∧
    (u.LaneClear (localAccess va wb (sizeBytes sz) false) ord s.pfx.scope as →
      exec (.ldl vt va wb sz) s = .next (((v.writeLoaded vt.toNat (sizeBytes sz)
        (as.map fun a => (a.lane, v.loadPlace a.place (sizeBytes sz)))).zeroDests
          { vw := regsFrom vt.toNat (regCount (sizeBytes sz)) } s.zeroed).issued (s.nextPc 1))) ∧
    (let stops := fun (i : Instr) (r : Nat) => s.LaneStops (loadAccess va wb rec.toNat (s.bufRec rec.toNat) r) ord s.pfx.scope i
     stops (.ldb vt va wb rec) 1 ∧ stops (.ldh vt va wb rec) 2 ∧ stops (.ldw vt va wb rec) 4 ∧
     stops (.ldd vt va wb rec) 8 ∧ stops (.ldq vt va wb rec) 16) ∧
    s.LaneStops (localAccess va wb (sizeBytes sz) false) ord s.pfx.scope (.ldl vt va wb sz)

/-- R404, R406, R162, R169: STB, STH, STW, STD and STQ through any buffer record, and STL: the active lanes store in
increasing order, each to the place its own address computation gives; and where each of them traps or waits.
That a buffer record which cannot be read faults as a read of its bytes is log entry 39 (DEDUCED); that the extent stands before RDONLY,
and that STL of a class-3 address traps with cause 0x05 whatever its offset, is log entry 53 (DEDUCED).
The model's choices it rests on: log entries 24, 29, 39, 53, 56, 69 and 72. -/
def Obligations.StoreResults : Prop :=
  ∀ (s : State), s.Runs → s.active ≠ 0 → ∀ (vt va : BitVec 7) (wb : BitVec 6) (rec sz : BitVec 5) (as : List Access),
    let u := s.unlatched
    let ord := s.pfx.rnd.toNat
    let v := u.orderAcquire ord s.pfx.scope
    let stores := fun (i : Instr) (r : Nat) =>
      let b := s.bufRec rec.toNat
      u.LaneClear (storeAccess va wb rec.toNat b r) ord s.pfx.scope as →
      let data := fun (a : Access) =>
        if rec = 0 ∨ a.place = .global [] then (v.regBytes vt.toNat a.lane r, (0 : BitVec 5))
        else (b.toOption.getD rawRec).storeConvert r (v.regBytes vt.toNat a.lane r)
      let t := (as.foldl (fun t a => t.storePlace a.place (data a).1) v).flag (as.foldl (fun f a => f ||| (data a).2) 0)
      t.Steady → exec i s = .next (t.issued (s.nextPc 1))
    stores (.stb vt va wb rec) 1 ∧ stores (.sth vt va wb rec) 2 ∧ stores (.stw vt va wb rec) 4 ∧
    stores (.std vt va wb rec) 8 ∧ stores (.stq vt va wb rec) 16 ∧
    (u.LaneClear (localAccess va wb (sizeBytes sz) true) ord s.pfx.scope as →
      exec (.stl vt va wb sz) s = .next ((as.foldl (fun t a =>
        t.storePlace a.place (v.regBytes vt.toNat a.lane (sizeBytes sz))) v).issued (s.nextPc 1))) ∧
    (let stops := fun (i : Instr) (r : Nat) => s.LaneStops (storeAccess va wb rec.toNat (s.bufRec rec.toNat) r) ord s.pfx.scope i
     stops (.stb vt va wb rec) 1 ∧ stops (.sth vt va wb rec) 2 ∧ stops (.stw vt va wb rec) 4 ∧
     stops (.std vt va wb rec) 8 ∧ stops (.stq vt va wb rec) 16) ∧
    s.LaneStops (localAccess va wb (sizeBytes sz) true) ord s.pfx.scope (.stl vt va wb sz)

/-- R312, R313, R314, R186: ATOM, ATOMD and ATOML: the active lanes read, combine and write in increasing order, each
register takes the value its lane found, and a compare that fails writes nothing; what each operation of Table 18.4 makes of
the value it finds; where each of them traps or waits; and the trap of ATOM and ATOMD on global memory or the cluster window in
a deterministic launch, with cause 0x09.
The model's choices it rests on: log entries 24, 29, 53 (poison is judged after the acquire has emptied the L1) and 72. -/
def Obligations.AtomicResults : Prop :=
  (∀ (old v c : BitVec 32),
    let writes := fun (op : Nat) (x : Word) => atomNew op old v c = some x
    writes 0 (BitVec.ofNat 32 (old.toNat + v.toNat)) ∧
    writes 1 (BitVec.ofInt 32 (min old.toInt v.toInt)) ∧ writes 2 (BitVec.ofInt 32 (max old.toInt v.toInt)) ∧
    writes 3 (BitVec.ofNat 32 (min old.toNat v.toNat)) ∧ writes 4 (BitVec.ofNat 32 (max old.toNat v.toNat)) ∧
    writes 5 (old &&& v) ∧ writes 6 (old ||| v) ∧ writes 7 (old ^^^ v) ∧ writes 8 v ∧
    atomNew 9 old v c = (if old = c then some v else none) ∧
    writes 10 (BitVec.ofNat 32 (fpAdd .fp32 .rne old.toNat v.toNat).1) ∧
    writes 11 (BitVec.ofNat 32 (fpPick .fp32 false old.toNat v.toNat).1) ∧
    writes 12 (BitVec.ofNat 32 (fpPick .fp32 true old.toNat v.toNat).1)) ∧
  ∀ (s : State), s.Runs → s.active ≠ 0 → ∀ (vt va : BitVec 7) (wb : BitVec 6) (op : BitVec 5) (as : List Access),
    let u := s.unlatched
    let ord := s.pfx.rnd.toNat
    let atom := fun (i : Instr) (n : Nat) (early : State → Nat → Except AccessFault Access) =>
      let run := fun (t : State) (as : List Access) =>
        t.atomLanes n op.toNat (fun l => BitVec.ofNat n (leNat (u.regBytes vt.toNat l (n / 8))))
          (fun l => BitVec.ofNat n (leNat (u.regBytes s.vc l (n / 8)))) as
      let x : LaneAccess := { early := single early, bytes := n / 8, write := true, reads := true, direct := true,
                              writers := fun s as => (run s as).2.1 }
      s.LaneStops x ord s.pfx.scope i ∧ (u.LaneClear x ord s.pfx.scope as →
      let v := u.orderAcquire ord s.pfx.scope
      let v := if as.any fun a => !a.place.pieces.isEmpty then v.drainCore v.coreNow else v
      let t := (run v as).2.2.lanesFrom vt.toNat (n / 32) fun j l =>
        ((((run v as).1.find? fun p => p.1 == l).map Prod.snd).getD 0).extractLsb' (32 * j) 32
      let t := t.zeroDests { vw := regsFrom vt.toNat (n / 32) } s.zeroed
      t.Steady → exec i s = .next (t.issued (s.nextPc 1)))
    atom (.atom vt va wb op) 32 (fun s l => s.atomPlace va wb 4 l) ∧
    atom (.atomd vt va wb op) 64 (fun s l => s.atomPlace va wb 8 l) ∧
    atom (.atoml vt va wb op) 32 (fun s l => s.localOffset va wb l 4) ∧
    (let traps := fun (i : Instr) (b : Nat) => ∀ l0, (lanesOf s.active).head? = some l0 → s.node.det = true →
        (∀ l ∈ lanesOf s.active, let a := s.laneAddress va wb l
          (windowOf a = .global ∨ windowOf a = .cluster) ∧ ∃ p, s.resolve (some l) a b = .ok p) →
        exec i s = .next (s.raiseTrap
          { cause := 0x09, tpc := s.path.pc, taddr := s.laneAddress va wb l0, mask := s.active } true)
     traps (.atom vt va wb op) 4 ∧ traps (.atomd vt va wb op) 8)

/-- R409 to R412, R277, R389, R390, R387: TEX, TEXL and TEXG write the four results of their samples, RAYQ the eight words of each
lane's record, and PRF changes nothing beside the latch and the TLBs, once every check passes and no page is to be walked for. PRF
parks once for pages that neither TLB holds, and traps with cause 0x07 where a lane's page is a compressed view. A
texture instruction traps under the rows of Table 22.3 and RAYQ under those of Table 21.4, in their order, the shared rows with the
active mask and the others with the lanes whose reads fault; each waits once for pages that neither TLB holds. Then what they
compute: where an image's levels start, the texels a lane samples and their weights, and the one rounding of each output (a
UINT8 component is a 255th); and a ray's record, its walk reference by reference, which children go first and which
hit is kept, with the header and the stored record that a memoised query takes.
The model's choices it rests on: log entries 15, 33, 39 and 57. Log entry 39 (DEDUCED) is the clause that an image record which cannot
be read traps with the fault of that read and the record's address in TADDR: no row of Table 22.3 gives it. -/
def Obligations.SampleResults : Prop :=
  (∀ (r : BufRec) (p : Sampler) (gather : Bool) (m k : Nat) (u v : Word),
    r.Samples p gather m u v (r.sample p gather m u v) ∧ r.levelOffset 0 = 0 ∧
    (let last := r.levelOffset m + max 1 (r.tilex / 2 ^ m) * max 1 (r.tiley / 2 ^ m) * r.texelBytes
     256 ∣ r.levelOffset (m + 1) ∧ last ≤ r.levelOffset (m + 1) ∧ r.levelOffset (m + 1) < last + 256) ∧
    (r.mem = 0x02 → r.texelBytes = 4) ∧ (r.mem = 0x09 ∨ r.mem = 0x0A → r.texelBytes = 8) ∧ (r.mem = 0x08 → r.texelBytes = 16) ∧
    ∀ (x : Sample) (bs : List Byte) (taps : List (List Byte)),
      let scale := if r.scale = 0 then .num false 1 0 else Fmt.fp32.value r.scale
      (r.component [] k).Is 0 false ∧
      (bs ≠ [] →
        (r.mem = 0x08 → ∃ z, (Fmt.fp32.value (leNat bs / 2 ^ (32 * k) % 2 ^ 32)).Product scale z ∧ z.1 = r.component bs k) ∧
        (r.mem = 0x09 → ∃ z, (Fmt.fp16.value (leNat bs / 2 ^ (16 * k) % 2 ^ 16)).Product scale z ∧ z.1 = r.component bs k) ∧
        (r.mem = 0x0A → ∃ z, (Fmt.bf16.value (leNat bs / 2 ^ (16 * k) % 2 ^ 16)).Product scale z ∧ z.1 = r.component bs k) ∧
        (r.mem = 0x02 → ∃ z, (FVal.num false (leNat bs / 2 ^ (8 * k) % 2 ^ 8) 0).Product scale z ∧ z.1 = r.component bs k)) ∧
      (∀ v : FVal, r.mem ≠ 0x02 → r.texRound v = BitVec.ofNat 32 (roundTo .fp32 .rne v).1) ∧
      r.texResult p false x [bs] k = r.texRound (r.component bs k) ∧
      r.texResult p true x taps k = r.texRound (r.component (taps.getD k []) p.gcomp) ∧
      ∀ t00 t10 t01 t11 : List Byte,
        let ts := [t00, t10, t01, t11]
        let finite := ∀ t ∈ ts, ∃ neg n e, r.component t k = .num neg n e
        let value := fun (t : List Byte) => (r.component t k).real
        ∃ v, r.texResult p false x ts k = r.texRound v ∧
          (finite → ∃ neg, v.Is (((256 - x.a : Nat) * (256 - x.b : Nat) * value t00 + x.a * (256 - x.b : Nat) * value t10 +
            (256 - x.a : Nat) * x.b * value t01 + x.a * x.b * value t11) / 65536) neg) ∧
          ((∃ t ∈ ts, (r.component t k).isNan = true) → v.isNan = true)) ∧
  (let unorm := fun n => ({ rawRec with mem := 0x02 } : BufRec).texRound (.num false n 0)
   unorm 0 = 0 ∧ unorm 1 = 0x3B808081 ∧ unorm 128 = 0x3F008081 ∧ unorm 255 = 0x3F800000) ∧
  (∀ (s : State) (d : RayDesc) (ray : List Word) (e budget fuel : Nat) (w : RayWalk) (r : Word) (rest : List Word),
    let x := rayVisit r
    let w1 : RayWalk := { w with stack := rest, visits := w.visits + 1 }
    let walk := fun (w : RayWalk) => s.rayLoop d ray e budget fuel w
    let go := s.rayLoop d ray e budget (fuel + 1) { w with stack := r :: rest }
    let va := (d.structureAt + x.off) % 2 ^ 64
    let now := ray.take 7 ++ [w.tmax]
    let read := fun (n : Nat) => ({ w1 with reads := (va, n) :: w.reads } : RayWalk)
    s.rayLoop d ray e budget (fuel + 1) { w with stack := [] } = .ok (.finished, { w with stack := [] }) ∧
    (budget < w.visits + 1 → go = .ok (.abandoned, w1)) ∧
    (w.visits + 1 ≤ budget →
      (x.kind = 0 → go = walk w1) ∧
      (x.kind = 3 ∨ x.kind ≠ 0 ∧ e < x.off + x.size → go = .ok (.malformed, w1)) ∧
      (x.kind = 1 → x.off + 256 ≤ e →
        (∀ f, s.rayRead va 224 = .error f → go = .error (f, (va, 224) :: w.reads)) ∧
        ∀ bs, s.rayRead va 224 = .ok bs → go = walk { read 224 with stack := boxChildren now bs ++ rest }) ∧
      (x.kind = 2 → x.off + 64 ≤ e →
        (∀ f, s.rayRead va 44 = .error f → go = .error (f, (va, 44) :: w.reads)) ∧
        ∀ bs, s.rayRead va 44 = .ok bs →
          let w2 := fun (h : RayHit) => ({ read 44 with best := some h, tmax := h.t } : RayWalk)
          (leafHit d.cull now (ray.getD 6 0) (read 44) bs = none → go = walk (read 44)) ∧
          ∀ h, leafHit d.cull now (ray.getD 6 0) (read 44) bs = some h →
            go = if d.first then .ok (.finished, w2 h) else walk (w2 h)))) ∧
  (∀ (cull : Bool) (ray : List Word) (tmin : Word) (w : RayWalk) (bs : List Byte) (h : RayHit),
    leafHit cull ray tmin w bs = some h ↔
      Config.triangleHit ray ((List.range 9).map (wordOf bs)) = some (h.t, h.u, h.v, h.back) ∧ h.prim = wordOf bs 9 ∧
      h.geom = wordOf bs 10 ∧ ¬(cull = true ∧ h.back = true) ∧ fLe tmin h.t = true ∧ fLe h.t w.tmax = true ∧
      ∀ b, w.best = some b → fLt h.t b.t = true ∨ fEq h.t b.t = true ∧ h.prim < b.prim) ∧
  (∀ (e x : Word × Word) (l : List (Word × Word)), insertEntry e [] = [e] ∧
    insertEntry e (x :: l) = if fLt e.1 x.1 then e :: x :: l else x :: insertEntry e l) ∧
  (∀ (ray : List Word) (bs : List Byte), boxChildren ray bs =
    (((List.range 8).filterMap fun c => (Config.boxEntry ray ((List.range 6).map fun i => wordOf (bs.drop (24 * c)) i)).bind
      fun t => if fLe (ray.getD 6 0) t = true ∧ fLe t (ray.getD 7 0) = true then some (t, wordOf (bs.drop (192 + 4 * c)) 0)
        else none).foldl (fun l e => insertEntry e l) []).map Prod.snd) ∧
  (∀ (ray : List Word) (w : RayWalk) (h : RayHit),
    let visits := BitVec.ofNat 32 w.visits
    rayRecord ray .abandoned w = [2, 0, 0, 0, 0, 0, 0, visits] ∧ rayRecord ray .malformed w = [3, 0, 0, 0, 0, 0, 0, visits] ∧
    rayRecord ray .finished { w with best := some h } = [1, h.t, h.u, h.v, h.prim, h.geom, if h.back then 1 else 0, visits] ∧
    (let miss := rayRecord ray .finished { w with best := none }
     miss.length = 8 ∧ miss.headD 1 = 0 ∧ (miss.getD 6 0).toNat < 2 ∧ miss.getD 7 0 = visits)) ∧
  (∀ (s : State) (d : RayDesc) (ray : List Word),
    let lane := s.rayLane d ray
    (∀ f, s.rayRead d.structureAt 32 = .error f → lane = ([(d.structureAt, 32)], .error f)) ∧
    ∀ bs, s.rayRead d.structureAt 32 = .ok bs →
      let field := fun hi lo => bitField (leNat bs) hi lo
      let budget := if field 255 224 = 0 then 8192 else field 255 224
      let walk := s.rayLoop d ray (field 191 128) budget (budget + 2)
        { stack := [BitVec.ofNat 32 (field 223 192)], tmax := ray.getD 7 0, reads := [(d.structureAt, 32)] }
      (d.memo = false →
        (∀ f ps, walk = .error (f, ps) → lane = (ps, .error f)) ∧
        ∀ st w, walk = .ok (st, w) → lane = (w.reads, .ok (rayRecord ray st w, s))) ∧
      ∀ i m, d.memo = true → s.boundSlot s.node d.handle = some i → s.memoSlot s.node.region i = some m →
        let refused := memoDetRefuses s.node.det d.cls m || s.signatureVoid d.structureAt
        let key := rayKey (s.node.image.tol d.cls) ray (rayHeaderOf bs)
        let x := m.instanceAt s.coreNow
        let look := if refused || (s.keyOf s.node.region).isNone then (none, x) else m.lookup x key
        (∀ out, look.1 = some out → lane = ([(d.structureAt, 32)],
          .ok ((List.range 8).map (wordOf out), (s.setInstance i m (look.2.countHit d.cost)).teamHit d.cost))) ∧
        (look.1 = none →
          (∀ f ps, walk = .error (f, ps) → lane = (ps, .error f)) ∧
          ∀ st w, walk = .ok (st, w) →
            let counted := { look.2 with misses := look.2.misses + 1 }
            let words := rayRecord ray st w
            lane = (w.reads, .ok (words, (s.setInstance i m (if refused = true ∨ st ≠ .finished then counted
              else m.insert counted key (words.flatMap fun r => natLe 4 r.toNat))).teamMiss)))) ∧
  ∀ (s : State), s.Runs → s.active ≠ 0 → ∀ (vt va : BitVec 7) (wb : BitVec 6) (rec desc : BitVec 5) (kind : BitVec 2)
    (as : List Access),
    let u := s.unlatched
    let done := fun (i : Instr) (t : State) (n : Nat) =>
      exec i s = .next ((t.zeroDests { vw := regsFrom vt.toNat n } s.zeroed).issued (s.nextPc 1))
    let w := (s.uni wb).toNat
    let shared := fun (i : Instr) (cause : BitVec 8) (addr : BitVec 64) (info : Nat) =>
      exec i s = .next (s.trappedLanes ⟨cause, addr, info⟩ s.active)
    let ra := BitVec.ofNat 64 (s.recAddr rec.toNat)
    let texStops := fun (i : Instr) (gather : Bool) (coords : Nat) =>
      (∀ f, s.bufRec rec.toNat = .error f → shared i f.cause ra f.info) ∧
      ∀ r, s.bufRec rec.toNat = .ok r →
        let base := BitVec.ofNat 64 r.base
        let sampler := w < 2 ^ 14 ∧ w / 2 ^ 6 % 4 = 0 ∧ w / 2 ^ 8 % 16 ≤ 14 ∧ w / 2 ^ 4 % 4 ≤ 2 ∧ w / 2 ^ 2 % 4 ≤ 2 ∧ w % 4 ≤ 1
        let image := rec ≠ 0 ∧ (r.mem = 0x02 ∨ r.mem = 0x09 ∨ r.mem = 0x0A ∨ r.mem = 0x08) ∧ r.reg = 0x08 ∧ badScale r.scale = false ∧
          r.swz = 0 ∧ 1 ≤ r.tilex ∧ r.tilex ≤ 16384 ∧ 1 ≤ r.tiley ∧ r.tiley ≤ 16384
        let level := fun (l : Nat) => if coords = 3 then (min (max (u.vreg (wrapReg va 2) l).toInt 0) (samplerOf w).levels).toNat else 0
        (¬image → shared i 0x03 ra 4) ∧ (image → ¬sampler → shared i 0x03 0 4) ∧
        (image → sampler → windowOf base ≠ .global → shared i 0x06 base 4) ∧
        (image → sampler → windowOf base = .global → r.base % 16 ≠ 0 → shared i 0x04 base 0) ∧
        (image → sampler → windowOf base = .global → r.base % 16 = 0 →
          s.LaneStops (texAccess fun l => r.texelPlaces l
            (r.sample (samplerOf w) gather (level l) (u.vreg (wrapReg va 0) l) (u.vreg (wrapReg va 1) l)).taps) 0 0 i)
    let tex := fun (i : Instr) (gather : Bool) (coords : Nat) => ∀ r, s.bufRec rec.toNat = .ok r → rec ≠ 0 →
      r.imageOk = true → samplerOk w = true → windowOf (BitVec.ofNat 64 r.base) = .global → r.base % 16 = 0 →
      let sample := fun (l : Nat) => r.sample (samplerOf w) gather
        (if coords = 3 then (min (max (u.vreg (wrapReg va 2) l).toInt 0) (samplerOf w).levels).toNat else 0)
        (u.vreg (wrapReg va 0) l) (u.vreg (wrapReg va 1) l)
      u.LaneClear (texAccess fun l => r.texelPlaces l (sample l).taps) 0 0 as →
      let out := (lanesOf s.active).map fun l => (l, (List.range 4).map
        (r.texResult (samplerOf w) gather (sample l) ((as.filter fun a => a.lane == l).map fun a => u.loadPlace a.place r.texelBytes)))
      let t := u.lanesFrom vt.toNat 4 fun k l => (((out.find? fun p => p.1 == l).map Prod.snd).getD []).getD k 0
      done i (if r.noalloc then t else as.foldl (fun s a => s.allocPieces a.place.pieces) t) 4
    texStops (.tex vt va wb rec) false 2 ∧ texStops (.texl vt va wb rec) false 3 ∧ texStops (.texg vt va wb rec) true 2 ∧
    (let a := s.uni wb + BitVec.ofNat 64 (64 * desc.toNat)
     let i := Instr.rayq vt va wb desc
     let waits := fun (t : State) (missing : List Nat) => exec i s = .next (t.park (.walk (missing.map (BitVec.ofNat 64 ·))))
     (windowOf a ≠ .global → shared i 0x06 a 4) ∧ (windowOf a = .global → a.toNat % 64 ≠ 0 → shared i 0x04 a 0) ∧
     (windowOf a = .global → a.toNat % 64 = 0 →
      let pages := pagesOf [(a.toNat, 16)]
      (u.missingPages pages ≠ [] → s.path.walked = false → waits u (u.missingPages pages)) ∧
      (u.missingPages pages = [] ∨ s.path.walked = true →
        let v := u.walkedFor pages
        (∀ f, v.rayRead a.toNat 16 = .error f → shared i f.cause f.addr f.info) ∧
        ∀ bs, v.rayRead a.toNat 16 = .ok bs →
          let d := rayDescOf bs
          let structure_ := BitVec.ofNat 64 d.structureAt
          let slot := (v.boundSlot v.node d.handle).bind (v.memoSlot v.node.region)
          let refused := d.reserved = true ∨ d.memo = true ∧ ¬∃ m, slot = some m ∧ m.keyb = 48 ∧ m.outb = 32
          (windowOf structure_ ≠ .global → shared i 0x06 structure_ 4) ∧
          (windowOf structure_ = .global → d.structureAt % 64 ≠ 0 → shared i 0x04 structure_ 0) ∧
          (windowOf structure_ = .global → d.structureAt % 64 = 0 → refused → shared i 0x03 0 4) ∧
          (windowOf structure_ = .global → d.structureAt % 64 = 0 → ¬refused →
            let pages := pagesOf (v.rayLanes d va (lanesOf s.active)).1
            (v.missingPages pages ≠ [] → s.path.walked = false → waits v (v.missingPages pages)) ∧
            (v.missingPages pages = [] ∨ s.path.walked = true →
              ∀ l f more, ((v.walkedFor pages).rayLanes d va (lanesOf s.active)).2.2.1 = (l, f) :: more →
                exec i s = .next (s.trappedLanes f
                  (maskOf fun k => ((l, f) :: more).any fun p => p.1 == k))))))) ∧
    tex (.tex vt va wb rec) false 2 ∧ tex (.texl vt va wb rec) false 3 ∧ tex (.texg vt va wb rec) true 2 ∧
    (let a := s.uni wb + BitVec.ofNat 64 (64 * desc.toNat)
     ∀ bs, windowOf a = .global → a.toNat % 64 = 0 → u.missingPages (pagesOf [(a.toNat, 16)]) = [] →
      u.rayRead a.toNat 16 = .ok bs → u.rayShared (rayDescOf bs) = none →
      let lanes := u.rayLanes (rayDescOf bs) va (lanesOf s.active)
      u.missingPages (pagesOf lanes.1) = [] → lanes.2.2.1 = [] →
      done (.rayq vt va wb desc) ((lanes.2.2.2.lanesFrom vt.toNat 8 fun k l =>
        (((lanes.2.1.find? fun p => p.1 == l).map Prod.snd).getD []).getD k 0).allocPieces ((a.toNat, 16) :: lanes.1)) 8) ∧
    (let address := fun (l : Nat) => u.laneAddress va wb l
     let reached := (lanesOf s.active).filter fun l => windowOf (address l) = .global
     let pages := reached.map fun l => (address l).toNat / 4096 * 4096
     let v := u.walkedFor pages
     let viewed := fun (l : Nat) => match v.translate v.coreNow v.rootNow (address l).toNat with
       | .leaf e => e.cv
       | _ => false
     (u.missingPages pages ≠ [] → s.path.walked = false →
      exec (.prf va wb kind) s = .next (u.park (.walk ((u.missingPages pages).map (BitVec.ofNat 64 ·))))) ∧
     (u.missingPages pages = [] ∨ s.path.walked = true →
      (∀ before l after, reached = before ++ l :: after → (∀ j ∈ before, viewed j = false) → viewed l = true →
        exec (.prf va wb kind) s = .next (s.trappedLanes ⟨0x07, address l, 0⟩
          (maskOf fun k => reached.contains k && viewed k))) ∧
      ((∀ l ∈ reached, viewed l = false) → v.Steady → exec (.prf va wb kind) s = .next (v.issued (s.nextPc 1))))) ∧
    ((∀ l ∈ lanesOf s.active, windowOf (u.laneAddress va wb l) = .global →
        ∃ e, u.tlbFind u.coreNow u.rootNow (u.laneAddress va wb l).toNat = some e ∧ e.cv = false) →
      (∀ l ∈ lanesOf s.active, windowOf (u.laneAddress va wb l) = .global →
        (u.tlbFind u.coreNow u.rootNow ((u.laneAddress va wb l).toNat / 4096 * 4096)).isSome = true) →
      exec (.prf va wb kind) s = .next (u.issued (s.nextPc 1)))

/-- R108, R9: with no lane active a lane-space instruction is fault-free: whatever its operands, it completes at the next word
and changes nothing but the operand latch, where zm zeroes no lane; and a lane load, an atomic, a texture sample or a ray
query, whose results are otherwise of the active lanes alone, zeroes its registers in the lanes that zm zeroes.
The model's choices it rests on: log entry 24. -/
def Obligations.NoActiveLaneIsFaultFree : Prop :=
  ∀ (s : State), s.Runs → s.active = 0 →
    (s.zeroed = 0 → ∀ (i : Instr), i.laneMajor.isSome = true → LaneSettles i s s) ∧
    ∀ (vt va : BitVec 7) (wb : BitVec 6) (rec sz op desc : BitVec 5),
      let zeroes := fun (i : Instr) (n : Nat) => LaneSettles i s (s.zeroDests { vw := regsFrom vt.toNat n } s.zeroed)
      zeroes (.ldb vt va wb rec) 1 ∧ zeroes (.ldh vt va wb rec) 1 ∧ zeroes (.ldw vt va wb rec) 1 ∧
      zeroes (.ldd vt va wb rec) 2 ∧ zeroes (.ldq vt va wb rec) 4 ∧
      zeroes (.ldl vt va wb sz) (regCount (sizeBytes sz)) ∧
      zeroes (.atom vt va wb op) 1 ∧ zeroes (.atomd vt va wb op) 2 ∧ zeroes (.atoml vt va wb op) 1 ∧
      zeroes (.tex vt va wb rec) 4 ∧ zeroes (.texl vt va wb rec) 4 ∧ zeroes (.texg vt va wb rec) 4 ∧
      zeroes (.rayq vt va wb desc) 8

/-! ## Team-level instructions -/

/-- R318, R320, R47, R87: BAR, BARR and BARS arrive and wait, or complete the phase where every unretired group has arrived; BARA
arrives and goes on; BARW waits only in the phase its group has arrived in. Where a restore has the path issue one of them again
that a halt found waiting, it enters the same wait with no count and no contribution, or goes on where the phase has ended since.
The model's choices it rests on: log entries 26 and 71. -/
def Obligations.BarrierResults : Prop :=
  ∀ (s : State), s.Runs → s.group.trap = none → ∀ (n : BitVec 4) (wd vs op : BitVec 6),
    let b := n.toNat
    let me := s.focus.team
    let first := fun (w : Wait) => ∀ r, s.path.again = some r → r.wait ≠ w
    let reenters := fun (i : Instr) (w : Wait) => ∀ r, s.path.again = some r → r.wait = w →
      (r.ended = false → exec i s = .next (s.park w)) ∧ (r.ended = true → Settles i s s)
    let waits := fun (i : Instr) (op : BitVec 6) (vals : List (Nat × Word)) (d : BarDest) =>
      let t := (s.arrive b op vals).park (.barrier b d)
      reenters i (.barrier b d) ∧ (first (.barrier b d) →
      ((t.teamAt me).phaseReady b = false → exec i s = .next t) ∧
      ((t.teamAt me).phaseReady b = true → exec i s = .next { t.completePhase me b with pending := none }))
    waits (.bar n) 0 [] .none ∧
    waits (.barr wd vs op n) op (s.contribution vs) (.uniform wd op) ∧
    waits (.bars wd vs op n) op (s.contribution vs) (.lanes (wd.setWidth 7) op) ∧
    (let t := (s.arrive b 0 []).issued (s.nextPc 1)
     ((t.teamAt me).phaseReady b = false → exec (.bara n) s = .next t) ∧
     ((t.teamAt me).phaseReady b = true → exec (.bara n) s = .next { t.completePhase me b with pending := none })) ∧
    reenters (.barw n) (.barrier b .none) ∧
    (first (.barrier b .none) → (s.team.barrier b).arrived.getLsbD s.focus.group = false → Settles (.barw n) s s) ∧
    (first (.barrier b .none) → (s.team.barrier b).arrived.getLsbD s.focus.group = true → exec (.barw n) s = .next (s.park (.barrier b .none)))

/-- R319: what the contributions of a phase combine to: for each operation the combination of a list of values is the
operation over all of them, the identity of an empty list among them; BARR delivers the combination of all the
contributions to wd, and BARS to each lane of the path's mask that of the contributions below its team lane index, under each
of the five operations; lanes outside the mask keep vd. -/
def Obligations.ReductionResults : Prop :=
  ∀ (x : Barrier) (v : Variant) (g : Group) (gi : Nat) (mask : LaneMask) (wd op : BitVec 6) (vd : BitVec 7) (l : Nat),
    let vals := x.values.map (·.2)
    let below := (x.values.filter fun p => decide (p.1 < 64 * gi + l)).map (·.2)
    let combines := fun (op : BitVec 6) (vals : List Word) (r : Word) =>
      (op = 0 → r = BitVec.ofNat 32 ((vals.map (·.toNat)).sum)) ∧
      (op = 1 → (∀ y ∈ vals, r.toInt ≤ y.toInt) ∧ (vals ≠ [] → r ∈ vals) ∧ (vals = [] → r = 0x7FFFFFFF)) ∧
      (op = 2 → (∀ y ∈ vals, y.toInt ≤ r.toInt) ∧ (vals ≠ [] → r ∈ vals) ∧ (vals = [] → r = 0x80000000)) ∧
      (op = 3 → ∀ k < 32, r.getLsbD k = vals.all fun y => y.getLsbD k) ∧
      (op = 4 → ∀ k < 32, r.getLsbD k = vals.any fun y => y.getLsbD k)
    (op.toNat ≤ 4 → combines op vals (x.combine op.toNat none)) ∧
    (vals = [] → x.combine 0 none = 0 ∧ x.combine 1 none = 0x7FFFFFFF ∧ x.combine 2 none = 0x80000000 ∧
      x.combine 3 none = 0xFFFFFFFF ∧ x.combine 4 none = 0) ∧
    (op.toNat ≤ 4 → wd ≠ 0 → v.hasW wd.toNat = true → g.trap = none → ∃ r, combines op vals r ∧
      (x.deliver v gi mask (.uniform wd op) g).wget v wd = r.setWidth 64) ∧
    (op.toNat ≤ 4 → l < 64 → mask.getLsbD l = true → v.hasV vd.toNat = true → g.trap = none →
      combines op below ((x.deliver v gi mask (.lanes vd op) g).vget v vd.toNat l)) ∧
    (l < 64 → mask.getLsbD l = false → (x.deliver v gi mask (.lanes vd op) g).vget v vd.toNat l = g.vget v vd.toNat l)

/-- R209, R210, R321: BATCH reads the batch counter and counts it up; WAITB waits while a covered job runs and none
stands suspended unreported, reports the next covered failure, and else goes on; TESTB reports, or says whether every covered job has ended.
The model's choices it rests on: log entries 26, 31 and 32. -/
def Obligations.BatchResults : Prop :=
  ∀ (s : State), s.Runs → s.group.trap = none → ∀ (wd wa : BitVec 6),
    let n := s.uni wa
    let u := s.resumeJobs n
    let reports := fun (i : Instr) (f : JobFault) =>
      exec i s = .next { ((u.reportFault f).raiseTrap
        { cause := jobCause f.reason, tpc := s.path.pc, taddr := f.taddr, mask := s.path.mask
          tinfo := BitVec.ofNat 64 (0x100 + f.reason.toNat + (f.batch.toNat % 2 ^ 32) * 2 ^ 32) } true) with pending := none }
    (let t := s.writeW wd s.group.batch
     Settles (.batch wd) s (t.putGroup { t.group with batch := s.group.batch + 1 })) ∧
    (u.runningJobs n ≠ [] → u.leafUnreported n = false → exec (.waitb wa) s = .next (u.park (.batch n))) ∧
    (∀ f, u.runningJobs n = [] ∨ u.leafUnreported n = true → u.nextFault n = some f → reports (.waitb wa) f) ∧
    (u.runningJobs n = [] → u.nextFault n = none → Settles (.waitb wa) s u) ∧
    (∀ f, u.nextFault n = some f → reports (.testb wd wa) f) ∧
    (u.nextFault n = none → Settles (.testb wd wa) s (u.writeW wd (if u.openJobs n = [] then 1 else 0)))

/-- R169, R176, R193, R199, R202, R207, R208, R212, R291, R331: CPY, CPYQ and DCMP: the traps of a card that breaks an issue reason (CPYQ's
first, with its address), of a bad count and of a misaligned address; the access faults and the poison of the words that CPYQ
and DCMP read, with the waits for their pages and their footprint; the wait for a full queue; and the acceptance of the
jobs, in order, the lines read entering the L1.
The model's choices it rests on: log entries 29, 31, 34 and 42. -/
def Obligations.JobIssueResults : Prop :=
  ∀ (s : State), s.Runs → s.group.trap = none → ∀ (wa wb : BitVec 6) (ps : List Place),
    let trap := fun (i : Instr) (cause : BitVec 8) (addr info : BitVec 64) =>
      exec i s = .next (s.raiseTrap { cause := cause, tpc := s.path.pc, taddr := addr, tinfo := info, mask := s.path.mask } true)
    let queued := (s.coreAt s.coreNow).copyQ.length
    let card := s.uni (wa + 4) ++ s.uni (wa + 3) ++ s.uni (wa + 2) ++ s.uni (wa + 1) ++ s.uni wa
    let a := s.uni wa
    let n := (s.uni wb).toNat
    let bytes := ps.flatMap fun p => s.loadPlace p 8
    let cards := cardsOf n bytes
    let cached := fun (t : State) => ps.foldl (fun (t : State) p => t.allocPieces p.pieces) t
    (∀ r, s.cardReason (cardOf card) = some r → trap (.cpy wa) 0x03 0 (BitVec.ofNat 64 (0x100 + r))) ∧
    (s.cardReason (cardOf card) = none → queued = 64 → exec (.cpy wa) s = .next (s.park (.engineQueue (.copy 1)))) ∧
    (s.cardReason (cardOf card) = none → queued < 64 → (s.acceptCopies [card]).Steady →
      Settles (.cpy wa) s (s.acceptCopies [card])) ∧
    (n = 0 ∨ 64 < n → trap (.cpyq wa wb) 0x03 0 0x108) ∧
    (1 ≤ n → n ≤ 64 → a.toNat % 8 ≠ 0 → trap (.cpyq wa wb) 0x04 a 0) ∧
    (1 ≤ n → n ≤ 64 → a.toNat % 8 = 0 → s.LoadsStop (wordsAt a (5 * n)) (.cpyq wa wb)) ∧
    (a.toNat % 64 = 0 → s.LoadsStop (wordsAt a 8) (.dcmp wa)) ∧
    (1 ≤ n → n ≤ 64 → a.toNat % 8 = 0 → s.LoadsClear (wordsAt a (5 * n)) ps →
      (∀ c ∈ cards, s.cardReason (cardOf c) = none) → queued + n ≤ 64 →
      (s.acceptCopies cards).Steady → Settles (.cpyq wa wb) s (cached (s.acceptCopies cards))) ∧
    (1 ≤ n → n ≤ 64 → a.toNat % 8 = 0 → s.LoadsClear (wordsAt a (5 * n)) ps →
      (∀ c ∈ cards, s.cardReason (cardOf c) = none) → 64 < queued + n →
      exec (.cpyq wa wb) s = .next (s.park (.engineQueue (.copy n)))) ∧
    (∀ i r c, 1 ≤ n → n ≤ 64 → a.toNat % 8 = 0 → s.LoadsClear (wordsAt a (5 * n)) ps →
      cards[i]? = some c → s.cardReason (cardOf c) = some r →
      (∀ j < i, ∀ d, cards[j]? = some d → s.cardReason (cardOf d) = none) →
      trap (.cpyq wa wb) 0x03 (a + BitVec.ofNat 64 (40 * i)) (BitVec.ofNat 64 (0x100 + r))) ∧
    (a.toNat % 64 ≠ 0 → trap (.dcmp wa) 0x04 a 0) ∧
    (a.toNat % 64 = 0 → s.LoadsClear (wordsAt a 8) ps → 64 ≤ s.dcmpCount s.focus.team →
      exec (.dcmp wa) s = .next (s.park (.engineQueue .dcmp))) ∧
    (a.toNat % 64 = 0 → s.LoadsClear (wordsAt a 8) ps → s.dcmpCount s.focus.team < 64 →
      let d := s.drainCore s.coreNow
      let u : State := { d with acceptSeq := d.acceptSeq + 1 }
      let k := u.clusterAt (u.coreNow / 8)
      let t := u.setCluster (u.coreNow / 8) { k with dcmpQ := k.dcmpQ ++
        [{ seq := d.acceptSeq, team := s.focus.team, group := s.focus.group, batch := u.group.batch, addr := a
           card := BitVec.ofNat 512 (leNat bytes) }] }
      t.Steady → Settles (.dcmp wa) s (cached t))

/-- R216, R217, R379: MRING declares a ring or traps; MSEND to a team that is gone does nothing, waits for a ring that is undeclared, full or
of a team that drains to a variant switch, or for a footprint over the entry in its own team's ring, and else writes the entry at the tail; in a deterministic launch it binds the ring to its group first, and the
send of another group traps with cause 0x09, TINFO 3; MPOLL, MWAIT and MPOP read the head entry, MPOP advances past it, and on
an empty ring MPOLL says so where the others wait.
That MRING of a count of 0 traps on a base that is misaligned or beyond SPSIZE too is the model's choice: log entry 54 (DEDUCED).
The model's choices it rests on: log entries 29, 40 and 54. -/
def Obligations.RingResults : Prop :=
  ∀ (s : State), s.Runs → s.group.trap = none → ∀ (wd ws wa wb : BitVec 6) (ring : BitVec 2) (t : Nat),
    let k := ring.toNat
    let r := s.team.ring k
    let o := (s.uni wa).toNat
    let n := (s.uni wb).toNat
    let sized := n = 0 ∨ ∃ j, 1 ≤ j ∧ j ≤ 12 ∧ n = 2 ^ j
    let placed := o % 16 = 0 ∧ o + 16 * n ≤ s.spSize ∧ o < 2 ^ 18
    let slot := (s.uni ws).toNat
    let x := s.teamAt t
    let far := x.ring k
    let entry := s.uni wb ++ s.uni wa
    let e := BitVec.ofNat 128 (leNat (s.team.padRead (r.entryAt r.head) 16))
    let got := ((s.writeW wd (e.extractLsb' 0 64)).writeW (wd + 1) (e.extractLsb' 64 64))
    let empty := r.declared = false ∨ r.used = 0
    let ready := r.declared = true ∧ r.used ≠ 0 ∧ s.entryBusy k = none ∧ r.spoiled = false
    (sized → placed → Settles (.mring wa wb ring) s (s.putTeam (s.team.setRing k
      { base := o, capacity := n, declared := n != 0, sender := r.sender }))) ∧
    (¬(sized ∧ placed) → exec (.mring wa wb ring) s =
      .next (s.raiseTrap { cause := 0x03, tpc := s.path.pc, tinfo := 0x110, mask := s.path.mask } true)) ∧
    (s.team.ensTeams ≤ slot → exec (.msend ws wa wb ring) s = .next (s.raiseTrap
      { cause := 0x06, tpc := s.path.pc, taddr := s.uni ws, tinfo := 3, mask := s.path.mask } true)) ∧
    (slot < s.team.ensTeams → (s.slotTeam slot = none ∨ s.slotTeam slot = some t ∧ x.alive = false) →
      Settles (.msend ws wa wb ring) s s) ∧
    (slot < s.team.ensTeams → s.slotTeam slot = some t → x.alive = true → (far.declared = false ∨ (x.barrier 16).draining = true) →
      exec (.msend ws wa wb ring) s = .next (s.park (.ringSpace slot k entry))) ∧
    (slot < s.team.ensTeams → s.slotTeam slot = some t → x.alive = true → s.node.det = false → far.declared = true →
      (x.barrier 16).draining = false → far.used = far.capacity →
      exec (.msend ws wa wb ring) s = .next (s.park (.ringSpace slot k entry))) ∧
    (slot < s.team.ensTeams → s.slotTeam slot = some t → x.alive = true → far.declared = true → (x.barrier 16).draining = false →
      (s.node.det = true → far.sender = none ∨ far.sender = some (s.focus.team, s.focus.group)) → far.used ≠ far.capacity →
      t = s.focus.team → s.interlocked t s.acceptSeq [⟨far.entryAt far.tail, 16⟩] true = true →
      exec (.msend ws wa wb ring) s = .next (s.park (.footprint [⟨far.entryAt far.tail, 16⟩] true))) ∧
    (slot < s.team.ensTeams → s.slotTeam slot = some t → x.alive = true → s.node.det = false → far.declared = true →
      (x.barrier 16).draining = false → far.used ≠ far.capacity →
      (t = s.focus.team → s.interlocked t s.acceptSeq [⟨far.entryAt far.tail, 16⟩] true = false) →
      let d := s.drainCore s.coreNow
      let u := (d.setTeam t ((d.teamAt t).pushRing k entry)).wake t fun _ => true
      u.Steady → Settles (.msend ws wa wb ring) s u) ∧
    (slot < s.team.ensTeams → s.slotTeam slot = some t → x.alive = true → s.node.det = true → far.declared = true →
      (x.barrier 16).draining = false →
      let me := (s.focus.team, s.focus.group)
      (∀ y, far.sender = some y → y ≠ me → exec (.msend ws wa wb ring) s =
        .next (s.raiseTrap { cause := 0x09, tpc := s.path.pc, tinfo := 3, mask := s.path.mask } true)) ∧
      ((far.sender = none ∨ far.sender = some me) →
        let b := s.setTeam t (x.setRing k { far with sender := some me })
        let d := b.drainCore b.coreNow
        let u := (d.setTeam t ((d.teamAt t).pushRing k entry)).wake t fun _ => true
        (far.used = far.capacity → exec (.msend ws wa wb ring) s = .next (s.park (.ringSpace slot k entry))) ∧
        (far.used ≠ far.capacity → (t = s.focus.team → s.interlocked t s.acceptSeq [⟨far.entryAt far.tail, 16⟩] true = false) →
          u.Steady → Settles (.msend ws wa wb ring) s u))) ∧
    (empty → Settles (.mpoll wd ws ring) s (((s.writeW wd 0).writeW (wd + 1) 0).writeW ws 1)) ∧
    (empty → exec (.mwait wd ring) s = .next (s.park (.ringEntry k wd false))) ∧
    (empty → exec (.mpop wd ring) s = .next (s.park (.ringEntry k wd true))) ∧
    (ready → Settles (.mpoll wd ws ring) s ((got.l1Invalidate got.coreNow).writeW ws 0)) ∧
    (ready → Settles (.mwait wd ring) s (got.l1Invalidate got.coreNow)) ∧
    (ready → let t := got.putTeam (got.team.setRing k { r with head := r.head + 1 })
      Settles (.mpop wd ring) s (t.l1Invalidate t.coreNow))

/-- R73, R74, R75, R337, R450: EPOST, ETAKE and ETEST on an edge number: the trap of an unbound or one-shot edge; a token posted
at the tail, or staged in a deterministic launch; a token taken from the head, the end of a closed edge, and the waits; in a
deterministic launch the trap of an ETAKE of a group other than group 0, with cause 0x09 and TINFO 2, and its wait for the
team's turn on the curve; the trap, before any effect, of an edge record or a ring that fails a check of the device; and ETEST's
count with CLOSED, in trap mode as well, a free value of a record that the device cannot read.
The model's choices it rests on: log entries 29, 37, 46 and 73. -/
def Obligations.EdgeResults : Prop :=
  ∀ (s : State), s.Runs → ∀ (wd ws wa wb : BitVec 6) (e : BitVec 4) (a : BitVec 64) (r : EdgeRec),
    let bound := s.node.edge e.toNat
    let token := s.uni wb ++ s.uni wa
    let refused := fun (i : Instr) => exec i s = .next (s.raiseTrap
      { cause := 0x03, tpc := s.path.pc, tinfo := BitVec.ofNat 64 e.toNat, mask := s.path.mask } true)
    let streams := bound = some a ∧ s.edgeAt s.rootNow a = .ok r ∧ r.stream = true
    let takes := s.node.det = false ∨ s.focus.group = 0 ∧ s.curveTurn s.focus.team = true
    let faults := fun (i : Instr) (f : AccessFault) => exec i s = .next (s.trapped f.cause f.addr (BitVec.ofNat 64 f.info))
    (bound = none → Settles (.etest wd e) s (s.writeW wd (BitVec.allOnes 64))) ∧
    (bound = some a → s.edgeAt s.rootNow a = .ok r → r.stream = false →
      Settles (.etest wd e) s (s.writeW wd (BitVec.ofBool r.closed ++ 0#63))) ∧
    (streams → Settles (.etest wd e) s (s.writeW wd (BitVec.ofBool r.closed ++
      BitVec.ofNat 63 (if 8 ≤ e.toNat then 2 ^ r.logcap - r.tokens else r.tokens)))) ∧
    (∀ f, bound = some a → s.edgeAt s.rootNow a = .error f → Settles (.etest wd e) s
      (({ s with freeCount := s.freeCount + 1 } : State).writeW wd (Config.freeValue s.freeCount))) ∧
    (s.group.trap = none →
    (bound = none → refused (.epost wa wb e) ∧ refused (.etake wd ws e)) ∧
    (bound = some a → s.edgeAt s.rootNow a = .ok r → r.stream = false →
      refused (.epost wa wb e) ∧ refused (.etake wd ws e)) ∧
    (∀ f, bound = some a → s.edgeAt s.rootNow a = .error f → faults (.epost wa wb e) f ∧ faults (.etake wd ws e) f) ∧
    (∀ f, streams → s.node.det = false → r.freeSlots ≠ 0 →
      (s.drainCore s.coreNow).pushToken s.rootNow a r token = .error f → faults (.epost wa wb e) f) ∧
    (∀ f, streams → takes → r.tokens ≠ 0 →
      (s.deviceNat s.rootNow (r.tokenAt r.head) 16 = .error f → faults (.etake wd ws e) f) ∧
      ∀ x, s.deviceNat s.rootNow (r.tokenAt r.head) 16 = .ok x →
        s.deviceWrite s.rootNow (a.toNat + 20) (natLe 4 (r.head + 1).toNat) = .error f → faults (.etake wd ws e) f) ∧
    (streams → s.node.det = false → r.freeSlots = 0 → exec (.epost wa wb e) s = .next (s.park (.edgeSlot e.toNat token))) ∧
    (∀ t, streams → s.node.det = false → r.freeSlots ≠ 0 →
      (s.drainCore s.coreNow).pushToken s.rootNow a r token = .ok t → t.Steady →
      Settles (.epost wa wb e) s t) ∧
    (streams → s.node.det = true → s.team.tokens.length < 16 →
      let t := (s.putTeam { s.team with tokens := s.team.tokens ++ [(s.focus.group, e.toNat, token)] }).stageOut s.focus.team
      t.Steady → Settles (.epost wa wb e) s t) ∧
    (streams → s.node.det = true → 16 ≤ s.team.tokens.length → exec (.epost wa wb e) s =
      .next (s.raiseTrap { cause := 0x09, tpc := s.path.pc, tinfo := 1, mask := s.path.mask } true)) ∧
    (streams → s.node.det = true → s.focus.group ≠ 0 → exec (.etake wd ws e) s =
      .next (s.raiseTrap { cause := 0x09, tpc := s.path.pc, tinfo := 2, mask := s.path.mask } true)) ∧
    (streams → s.node.det = true → s.focus.group = 0 → s.curveTurn s.focus.team = false →
      exec (.etake wd ws e) s = .next (s.park (.edgeToken e.toNat wd ws))) ∧
    (streams → takes → r.tokens = 0 → r.closed = true →
      Settles (.etake wd ws e) s ((((s.writeW wd 0).writeW (wd + 1) 0).writeW ws 1).l1Invalidate s.coreNow)) ∧
    (streams → takes → r.tokens = 0 → r.closed = false →
      exec (.etake wd ws e) s = .next (s.park (.edgeToken e.toNat wd ws))) ∧
    (∀ x t, streams → takes → r.tokens ≠ 0 → s.deviceNat s.rootNow (r.tokenAt r.head) 16 = .ok x →
      s.deviceWrite s.rootNow (a.toNat + 20) (natLe 4 (r.head + 1).toNat) = .ok t → t.Steady →
      let u := ((t.writeW wd (BitVec.ofNat 64 x)).writeW (wd + 1) (BitVec.ofNat 64 (x / 2 ^ 64))).writeW ws 0
      Settles (.etake wd ws e) s (u.l1Invalidate u.coreNow)))

/-- R60, R62, R276: RGROW and RGROWW write the code of Table 3.3, RGROWW waiting where an allowed request is not granted; where a
request is taken, the paths that waited for the one before it go on with 0, and the instruction's own code is written last; SWPT
waits for its phase, completes it plainly (where a condition fails, or the grant is refused), or lets the switch drain; REGRP
waits or moves the lanes, and traps with two paths or private memory. SWPT and REGRP that a restore has issue again enter the
wait that the halt found, or go on where it has ended since (R87).
The model's choices it rests on: log entries 7, 27, 28, 66 and 71. -/
def Obligations.VariantRequestResults : Prop :=
  ∀ (s : State), s.Runs → s.group.trap = none → ∀ (wd vk : BitVec 6) (v : BitVec 2) (n : BitVec 4),
    let me := s.focus.team
    let both := fun (code : DWord) (t : State) => (t.writeW wd code).Steady →
      Settles (.rgrow wd v) s (t.writeW wd code) ∧ Settles (.rgroww wd v) s (t.writeW wd code)
    let asked := s.setRequest { target := v, valid := true }
    let own := fun (code : DWord) (t : State) =>
      let u := (t.complete (t.nextPc 1)).releaseGrow me 0
      u.setGroup me s.focus.group ((u.groupAt me s.focus.group).own fun g => g.wset t.variant wd code)
    let answered := fun (i : Instr) (code : DWord) (t : State) => exec i s = .next { own code t with pending := none }
    (s.node.det = true → both 4 s) ∧
    (s.node.det = false → s.node.allowed.getLsbD v.toNat = false → both 2 s) ∧
    (s.node.det = false → s.node.allowed.getLsbD v.toNat = true → v = s.team.variant →
      answered (.rgrow wd v) 1 (s.setRequest {}) ∧ answered (.rgroww wd v) 1 (s.setRequest {})) ∧
    (∀ t, s.node.det = false → s.node.allowed.getLsbD v.toNat = true → v ≠ s.team.variant →
      asked.tryGrantTeam me = (true, t) → answered (.rgrow wd v) 3 t ∧ answered (.rgroww wd v) 3 t) ∧
    (∀ t, s.node.det = false → s.node.allowed.getLsbD v.toNat = true → v ≠ s.team.variant →
      asked.tryGrantTeam me = (false, t) → answered (.rgrow wd v) 0 t ∧
      exec (.rgroww wd v) s = .next { (t.park (.grow wd v)).releaseGrow me 0
        (fun p => p == (s.focus.group, s.focus.slot)) with pending := none }) ∧
    (∀ r, s.path.again = some r →
      let reenters := fun (i : Instr) (w : Wait) => r.wait = w →
        (r.ended = false → exec i s = .next (s.park w)) ∧ (r.ended = true → Settles i s s)
      reenters (.swpt n) (.switchPoint n.toNat) ∧
      (s.group.singlePath = true → s.node.priv = 0 → reenters (.regrp vk n) (.regroup (vk.setWidth 7) n.toNat))) ∧
    ((∀ r, s.path.again = some r → r.wait ≠ .switchPoint n.toNat) →
     let x := s.team.barrier 16
     let points := if x.arrived.getLsbD s.focus.group then x.points else x.points ++ [(s.focus.group, n.toNat)]
     let w := (s.putTeam (s.team.setBarrier 16
       { x with arrived := x.arrived ||| BitVec.twoPow 16 s.focus.group, points := points })).park (.switchPoint n.toNat)
     let y := (w.teamAt me).barrier 16
     let ready := (w.teamAt me).phaseReady 16
     (ready = false → exec (.swpt n) s = .next w) ∧
     (ready = true → y.draining = false →
       (y.samePoint = none ∨ ∃ m, y.samePoint = some m ∧ w.switchConditions me m = false) →
       exec (.swpt n) s = .next { w.plainSwitch me with pending := none }) ∧
     (∀ m u, ready = true → y.draining = false → y.samePoint = some m → w.switchConditions me m = true →
       w.tryGrantTeam me = (true, u) → exec (.swpt n) s =
         .next { u.setTeam me ((u.teamAt me).setBarrier 16 { y with draining := true }) with pending := none }) ∧
     (∀ m u, ready = true → y.draining = false → y.samePoint = some m → w.switchConditions me m = true →
       w.tryGrantTeam me = (false, u) → exec (.swpt n) s = .next { u.plainSwitch me with pending := none }) ∧
     (ready = true → y.draining = true → exec (.swpt n) s = .next { w with pending := none })) ∧
    (s.group.singlePath = false ∨ s.node.priv ≠ 0 → exec (.regrp vk n) s =
      .next (s.raiseTrap { cause := 0x03, tpc := s.path.pc, tinfo := 13, mask := s.path.mask } true)) ∧
    (s.group.singlePath = true → s.node.priv = 0 → (∀ r, s.path.again = some r → r.wait ≠ .regroup (vk.setWidth 7) n.toNat) →
      let x := s.team.barrier 17
      let w := (s.putTeam (s.team.setBarrier 17
        { x with arrived := x.arrived ||| BitVec.twoPow 16 s.focus.group })).park (.regroup (vk.setWidth 7) n.toNat)
      ((w.teamAt me).phaseReady 17 = false → exec (.regrp vk n) s = .next w) ∧
      ((w.teamAt me).phaseReady 17 = true → exec (.regrp vk n) s = .next { w.checkRegroup me with pending := none }))

/-! ## Engines at issue -/

/-- R219 to R224, R227, R232, R233, R308, R309, Tables 12.4, 13.2 and 18.1: MMA, MMAZ, MMAS, MMASZ and ACCST: with every check passed,
no footprint pending over the tags read and a place in the queue, the operation is accepted with its tile tag, and one on a
tile outside the budget has no effect; else it traps by the first check of its table that fails, with its cause, TADDR and
TINFO, or waits for a footprint over a tag it reads or for a place in the queue. `beyond` gives the lowest byte of the spans that
lies at or above the size, if there is one.
The model's choices it rests on: log entries 30, 31, 34 and 76. -/
def Obligations.MatrixIssueResults : Prop :=
  ∀ (s : State), s.Runs → s.group.trap = none → ∀ (an : BitVec 4) (wa wb : BitVec 6),
    let a := s.blockAt wa
    let b := s.blockAt wb
    let room := (s.coreAt s.coreNow).matrixQ.length < 8
    let settled := fun (spans : List Span) => s.tagPending s.focus.team s.acceptSeq (granulesOf spans) = false
    let accepts := fun (i : Instr) (kind : MatrixKind) (tag : Option TileTag) =>
      (s.hasTile an = true → Settles i s (s.queued an kind tag)) ∧ (s.hasTile an = false → Settles i s s)
    let mma := fun (i : Instr) (zero : Bool) =>
      s.MmaStops a b i ∧
      let float := !isIntFmt a.fmt
      let k := depthOf a.fmt.toNat b.fmt.toNat
      let spans := a.block.footprint k float (s.group.mask 0) ++ b.block.footprint k float (s.group.mask 1)
      (goodPair a.fmt b.fmt = true → a.reservedBad k float = false → b.reservedBad k float = false →
        a.misaligned k float = none → b.misaligned k float = none → Within spans s.spSize → settled spans →
        (∀ g ∈ granulesOf spans, (s.team.gtag g).getLsbD 0 = false) → room →
        accepts i (.mma zero a.block b.block) (some {}))
    let rows := maskRows (s.group.mask 0) 0
    let sa := rows.map fun i => Span.mk (a.off + i * a.stride) 64
    let sb := [Span.mk b.off 64]
    let tb := s.team.gtag ((granulesOf sb).headD 0)
    let ta := (granulesOf sa).head?.map s.team.gtag
    let len := 16 * 2 ^ tagLogb tb
    let e := (ta.map tagExp).getD 0 + tagExp tb
    let clear := a.mmasBad = false ∧ b.mmasBad = false ∧ mmasMisaligned a b = none ∧ Within (sa ++ sb) s.spSize ∧
      settled (sa ++ sb) ∧ s.team.badGranule (granulesOf sa) = none ∧ s.team.badGranule (granulesOf sb) = none ∧
      (∀ x, ta = some x → tagLogb x = tagLogb tb) ∧
      (∀ i ∈ rows, (a.off + i * a.stride) % (2 * len) = 64 * i % (2 * len) ∧ b.off % (2 * len) = 64 * i % (2 * len))
    let tile := s.tileTag an
    let d := s.uni wa
    let off := d.toNat % 2 ^ 32
    let stride := d.toNat / 2 ^ 32 % 2 ^ 16
    let fmt := d.extractLsb' 48 8
    (∀ spans size, (beyond spans size = none ↔ Within spans size) ∧
      ∀ o, beyond spans size = some o → size ≤ o ∧ (∃ x ∈ spans, x.start ≤ o ∧ o < x.start + x.len ∨ x.start + x.len = o ∧ x.len = 0) ∧
        ∀ x ∈ spans, ∀ y, x.start ≤ y → y < x.start + x.len → size ≤ y → o ≤ y) ∧
    mma (.mma an wa wb) false ∧ mma (.mmaz an wa wb) true ∧
    s.MmasStops false an a b (.mmas an wa wb) ∧ s.MmasStops true an a b (.mmasz an wa wb) ∧ s.AccstStops d (.accst an wa) ∧
    (clear → room → accepts (.mmasz an wa wb) (.mmas true a.block b.block (len / 2) 0)
      (some { spectral := true, logb := tagLogb tb, et := e })) ∧
    (clear → room → tile.spectral = true → tile.logb = tagLogb tb →
      Settles (.mmas an wa wb) s (s.queued an (.mmas false a.block b.block (len / 2) (e - tile.et)) none)) ∧
    (∀ z, accstSize fmt = some z → d.toNat / 2 ^ 56 = 0 → off % z = 0 → stride % 16 = 0 → 32 * z ≤ stride →
      Within ((maskRows (s.group.mask 0) 0).flatMap fun i => (maskRows (s.group.mask 1) 0).map fun j =>
        ⟨off + i * stride + j * z, z⟩) s.spSize → room →
      Settles (.accst an wa) s (s.queued an (.accst off stride fmt) none))

/-- R226, R227, R194, R308, R93, R336: ACCRD and ACCWR move a row of the tile for the path's lanes, ACCRD once the row is final
and ACCWR once nothing is in flight; ACCZ zeroes the tile and its tag; WMARK reads the watermark; EMSET writes an edge
mask, and EMGEN forms em0 to em7 from three counts. In trap mode ACCRD, WMARK, EMSET and EMGEN act as outside it.
The model's choices it rests on: log entry 34. -/
def Obligations.AccumulatorResults : Prop :=
  ∀ (s : State), s.Runs → ∀ (an m : BitVec 4) (v : BitVec 7) (wa : BitVec 6),
    let f := (s.uni wa).toNat
    let me := s.focus.team
    let flat := f < 1024 ∧ f % 64 = 0
    let row := (f + 63) / 32
    let mark := s.watermark me an.toNat
    let busy := s.tileBusy me an.toNat
    let permitted := s.group.trap = none
    (¬flat → exec (.accrd an v wa) s = .next (s.trapped 0x03 (s.uni wa) 8)) ∧
    (permitted → ¬flat → exec (.accwr an v wa) s = .next (s.trapped 0x03 (s.uni wa) 8)) ∧
    (flat → mark ≤ row → exec (.accrd an v wa) s = .next (s.park (.watermark an.toNat row))) ∧
    (flat → row < mark → Settles (.accrd an v wa) s
      (s.writeV v.toNat s.path.mask fun l => s.team.accAt an.toNat (f + l))) ∧
    (permitted → flat → busy = true → exec (.accwr an v wa) s = .next (s.park (.tileIdle an.toNat))) ∧
    (permitted → flat → busy = false → s.hasTile an = false → Settles (.accwr an v wa) s s) ∧
    (permitted → flat → busy = false → s.hasTile an = true → ∃ t, Settles (.accwr an v wa) s (s.putTeam t) ∧
      t = { s.team with acc := t.acc } ∧
      ∀ tile < 16, ∀ k < 1024, t.accAt tile k =
        if tile = an.toNat ∧ f ≤ k ∧ k < f + 64 ∧ s.path.mask.getLsbD (k - f) = true then s.lane v (k - f)
        else s.team.accAt tile k) ∧
    (permitted → busy = true → exec (.accz an) s = .next (s.park (.tileIdle an.toNat))) ∧
    (permitted → busy = false → Settles (.accz an) s
      (s.putTeam ({ s.team with acc := mapClear (1024 * an.toNat) 1024 s.team.acc }.setTileTag an.toNat {}))) ∧
    Settles (.wmark an wa) s (s.writeW wa (BitVec.ofNat 64 mark)) ∧
    Settles (.emset wa m) s (s.putGroup (s.group.setMask m.toNat ((s.uni wa).extractLsb' 0 32))) ∧
    (∃ g, Settles (.emgen wa) s (s.putGroup g) ∧ g = { s.group with masks := g.masks } ∧ ∀ i < 32,
      (g.mask 0).getLsbD i = decide (i < f % 2 ^ 16) ∧ (g.mask 1).getLsbD i = decide (i < f / 2 ^ 16 % 2 ^ 16) ∧
      ∀ j < 6, (g.mask (2 + j)).getLsbD i = decide (32 * j + i < f / 2 ^ 32 % 2 ^ 16))

/-- R236 to R240, R427, R428: XFT, both forms of IXFT and both of XACT: with every check of Table 13.5 passed
and a place in the unit's queue, the operation is accepted; else it traps by the first check that fails, with its cause, TADDR and
TINFO, or waits for a footprint over a tag it reads or for a place in the queue.
The model's choices it rests on: log entries 30, 31 and 34. -/
def Obligations.TransformIssueResults : Prop :=
  ∀ (s : State), s.Runs → s.group.trap = none → ∀ (an lb : BitVec 4) (wa wb : BitVec 6) (f : BitVec 2),
    let src := s.descAt wa
    let dst := s.descAt wb
    let tile := s.tileTag an
    let accepts := fun (i : Instr) (x : Transform) => s.TransformStops x i ∧ (s.TransformClear x → Settles i s (s.queuedTransform x))
    let fromTile := fun (spectral : Bool) (bias : Option Side) (kind : TransformKind) =>
      ({ len := 16 * 2 ^ tile.logb, tile := some tile.spectral, dst := { desc := dst, spectral := spectral, dest := true }
         src := bias, shift := spectral, kind := kind } : Transform)
    let g := src.off / 1024
    let tag := if src.off < s.spSize then s.team.gtag g else 0
    let len := 16 * 2 ^ (if tag.getLsbD 0 = true ∧ tagLogb tag ≤ 4 then tagLogb tag else 0)
    accepts (.xft wa wb lb) { len := 16 * 2 ^ lb.toNat, tile := none, dst := { desc := dst, spectral := true, dest := true }
                              src := some { desc := src, spectral := false }, shift := true, kind := .xft src } ∧
    accepts (.ixft an wb) (fromTile false none (.ixftTile an.toNat tile.et)) ∧
    accepts (.xact an wb f) (fromTile true none (.xact an.toNat tile.et f.toNat none)) ∧
    accepts (.xactBias an wa wb f) (fromTile true (some { desc := src, spectral := false, bias := true })
      (.xact an.toNat tile.et f.toNat (some src))) ∧
    (src.off < s.spSize → s.tagPending s.focus.team s.acceptSeq [g] = true →
      exec (.ixftScratchpad wa wb) s = .next (s.park (.tags [g]))) ∧
    ((src.off < s.spSize → s.tagPending s.focus.team s.acceptSeq [g] = false) →
      accepts (.ixftScratchpad wa wb) { len := len, tile := none, dst := { desc := dst, spectral := false, dest := true }
                                        src := some { desc := src, spectral := true }, shift := false
                                        kind := .ixftScratch src (tagExp tag) })

/-- R241: DTAG reads the tag of the granule that holds an offset, or of a tile, and DSET writes a granule's; an offset outside
the scratchpad and a value that is no tag trap, and a pending footprint over the granule makes both wait.
The model's choices it rests on: log entries 30 and 31. -/
def Obligations.GranuleTagResults : Prop :=
  ∀ (s : State), s.Runs → s.group.trap = none → ∀ (an : BitVec 4) (wa wb : BitVec 6),
    let o := (s.uni wa).toNat
    let x := s.uni wb
    let inside := o < 2 ^ 18 ∧ o < s.spSize
    let g := o / 1024
    let pending := s.tagPending s.focus.team s.acceptSeq [g]
    let isTag := x.toNat < 2 ^ 16 ∧ (x = 0 ∨ (x.toNat % 2 = 1 ∧ x.toNat / 2 % 8 ≤ 4 ∧ x.toNat / 2 ^ 12 = 0))
    let outside := fun (i : Instr) => exec i s = .next (s.trapped 0x06 (s.uni wa) 2)
    let t := s.tileTag an
    (¬inside → outside (.dtag wa wb) ∧ outside (.dset wa wb)) ∧
    (inside → pending = true → exec (.dtag wa wb) s = .next (s.park (.tags [g]))) ∧
    (inside → pending = false → Settles (.dtag wa wb) s (s.writeW wb ((s.team.gtag g).setWidth 64))) ∧
    Settles (.dtagTile an wb) s
      (s.writeW wb (BitVec.ofNat 64 (t.spectral.toNat + 2 * t.logb + 16 * (t.et % 2 ^ 16).toNat))) ∧
    (inside → ¬isTag → exec (.dset wa wb) s = .next (s.trapped 0x03 0 9)) ∧
    (inside → isTag → pending = true → exec (.dset wa wb) s = .next (s.park (.tags [g]))) ∧
    (inside → isTag → pending = false →
      Settles (.dset wa wb) s (s.putTeam { s.team with gtags := mapSet 0 s.team.gtags g (x.setWidth 32) }))

/-! ## Memoisation -/

/-- R253, R254, R255, R256, R371 to R374, R376: in an open region before its MLOOK, each form of MKEY, MXCL and MOUT, and
MKEYT, adds to the key, the exclusions or the outputs; a form that the granularity does not take traps with TINFO 7. An MKEYT whose
offset has a bit above 17, whose length is 0 or whose end lies beyond SPSIZE traps with cause 0x06, TINFO 2, a misaligned one with
0x04, and one over a footprint of an earlier operation waits.
The model's choices it rests on: log entries 22, 25 and 37. -/
def Obligations.KeyingResults : Prop :=
  ∀ (s : State) (r : PureRegion), s.InRegion r → r.looked = false →
    ∀ (v : BitVec 7) (w wa wb : BitVec 6) (pd : BitVec 3) (form : BitVec 5) (f : BitVec 4),
    let t := s.tolerance r
    let perLane := fun (x : Nat → List (BitVec 16)) =>
      (lanesOf s.path.mask).foldl (fun (r : PureRegion) l => r.append (unitOf r.gran l) (x l)) r
    let perUnit := fun (hs : List (BitVec 16)) =>
      (unitsOf r.gran s.path.mask).foldl (fun (r : PureRegion) u => r.append u.1 hs) r
    let narrow := r.gran.toNat < 2
    let refused := fun (i : Instr) => exec i s = .next (s.trapped 0x08 0 7)
    let lanes := perLane fun l => keyHalves t form.toNat (s.lane v l)
    let bits := perLane fun l => [if (s.pred pd).getLsbD l then 1 else 0]
    let units := perUnit (halvesOf (quantI 64 (s.uni w).toNat t.int) 4)
    let o := (s.uni wa).toNat
    let n := (s.uni wb).toNat
    let tile := tileMessage t f.toNat (s.team.padRead o n)
    (narrow → Settles (.mkey v form) s (s.putRegion { lanes with keyed := lanes.keyed.addV v.toNat })) ∧
    (narrow → Settles (.mkeyPredicate pd) s (s.putRegion { bits with keyed := bits.keyed.addP pd })) ∧
    (¬narrow → refused (.mkey v form) ∧ refused (.mkeyPredicate pd) ∧ refused (.mout v) ∧ refused (.moutPredicate pd)) ∧
    Settles (.mkeyUniform w) s (s.putRegion { units with keyed := units.keyed.addW w }) ∧
    Settles (.mxcl v) s (s.putRegion { r with excluded := r.excluded.addV v.toNat }) ∧
    Settles (.mxclUniform w) s (s.putRegion { r with excluded := r.excluded.addW w }) ∧
    Settles (.mxclPredicate pd) s (s.putRegion { r with excluded := r.excluded.addP pd }) ∧
    (narrow → Settles (.mout v) s (s.putRegion { r with outputs := r.outputs ++ [.vector v] })) ∧
    (narrow → Settles (.moutPredicate pd) s (s.putRegion { r with outputs := r.outputs ++ [.predicate pd] })) ∧
    (¬narrow → Settles (.moutUniform w) s (s.putRegion { r with outputs := r.outputs ++ [.uniform w] })) ∧
    (narrow → refused (.moutUniform w)) ∧
    (r.unkeyed { wr := [wa, wb] } = none → r.gran ≠ 3 → refused (.mkeyt wa wb f)) ∧
    (r.unkeyed { wr := [wa, wb] } = none → r.gran = 3 →
      let inside := o < 2 ^ 18 ∧ n ≠ 0 ∧ o + n ≤ s.spSize
      let aligned := o % 4 = 0 ∧ n % 4 = 0
      (¬inside → exec (.mkeyt wa wb f) s = .next (s.trapped 0x06 (s.uni wa) 2)) ∧
      (inside → ¬aligned → exec (.mkeyt wa wb f) s = .next (s.trapped 0x04 (s.uni wa) 0)) ∧
      (inside → aligned → s.interlocked s.focus.team s.acceptSeq [⟨o, n⟩] false = true →
        exec (.mkeyt wa wb f) s = .next (s.park (.footprint [⟨o, n⟩] false)))) ∧
    (r.unkeyed { wr := [wa, wb] } = none → r.gran = 3 → o < 2 ^ 18 → n ≠ 0 → o + n ≤ s.spSize → o % 4 = 0 → n % 4 = 0 →
      s.interlocked s.focus.team s.acceptSeq [⟨o, n⟩] false = false →
      Settles (.mkeyt wa wb f) s (s.putRegion (r.appendSignature ((s.keyOf s.node.region).map fun k => sipHash k tile))))

/-- R253, R255 to R257, R259, Table 14.5: a keying instruction with no region open traps with TINFO 5, and behind the region's MLOOK
with TINFO 2; MLOOK or MEND out of place traps with TINFO 5, and so does an MBEGIN inside a region. Inside one, a register read
that is not keyed, excluded or written traps with TINFO 1 and the register in TADDR, else the instruction completes and the
registers it writes join the written ones; an instruction that Table 14.5 does not permit, or not at the region's granularity,
traps with TINFO 4, and at quad granularity a lane that takes a value from outside its quad with TINFO 3.
The model's choices it rests on: log entries 22, 23 and 25. -/
def Obligations.RegionTraps : Prop :=
  ∀ (s : State) (v va vb : BitVec 7) (w wa wb wc g : BitVec 6) (pd pn c : BitVec 3) (h k : BitVec 4) (form rec desc : BitVec 5)
    (disp : BitVec 22) (d13 num : BitVec 13) (ps rel op : BitVec 2) (ring : BitVec 2) (q : BitVec 1) (ord : BitVec 3)
    (ha hb : Bool),
    let refused := fun (info : BitVec 64) (i : Instr) => exec i s = .next (s.trapped 0x08 0 info)
    let keying : List Instr := [.mkey v form, .mkeyPredicate pd, .mkeyUniform w, .mxcl v, .mxclUniform w, .mxclPredicate pd,
      .mout v, .moutUniform w, .moutPredicate pd]
    (s.Runs → s.group.trap = none → (∀ i ∈ keying, refused 5 i) ∧ refused 5 (.mkeyt wa wb h) ∧ refused 5 (.mlook pn disp) ∧
      refused 5 .mend) ∧
    (∀ r, s.InRegion r → refused 5 (.mbegin wa g c h)) ∧
    (∀ r, s.InRegion r → r.looked = true → (∀ i ∈ keying, refused 2 i) ∧ refused 5 (.mlook pn disp) ∧
      (r.unkeyed { wr := [wa, wb] } = none → refused 2 (.mkeyt wa wb h))) ∧
    (∀ r, s.InRegion r → r.looked = false → refused 5 .mend) ∧
    ∀ r, s.InRegion r →
      let ok := (r.keyed.union r.excluded).union r.written
      let pm := s.pfx.pm
      let reads := fun (i : Instr) (vs : List Nat) (ps : List (BitVec 3)) (ws : List (BitVec 6)) (written : RegSet) =>
        let outside := (vs.filter fun n => !ok.hasV n) ++ ((ps.filter fun p => p != 0 && !ok.hasP p).map fun p => 512 + p.toNat)
          ++ ((ws.filter fun n => n != 0 && !ok.hasW n).map fun n => 256 + n.toNat)
        (∀ n more, outside = n :: more → exec i s = .next (s.trapped 0x08 (BitVec.ofNat 64 n) 1)) ∧
        (outside = [] → ∃ t, exec i s = .next t ∧ t.path.region = some { r with written := written } ∧
          t.path.pc = s.nextPc i.wordCount)
      let vector := r.written.addV v.toNat
      let uniform := r.written.addW w
      (∀ i ∈ ([.iadd v va vb ha hb, .isub v va vb ha hb, .imin v va vb ha hb, .imul v va vb ha hb, .and v va vb ha hb,
          .shl v va vb ha hb, .fadd v va vb ha hb, .fmul v va vb ha hb, .fmax v va vb ha hb, .haddp v va vb ha hb] : List Instr),
        reads i [va.toNat, vb.toNat] [pm] [] vector) ∧
      (∀ i ∈ ([.imad v va vb ha hb, .bfx v va vb ha hb] : List Instr), reads i [va.toNat, vb.toNat, s.vc] [pm] [] vector) ∧
      (∀ i ∈ ([.ffma v va vb ha hb, .hfmap v va vb ha hb] : List Instr), reads i [va.toNat, vb.toNat, v.toNat] [pm] [] vector) ∧
      (∀ i ∈ ([.popc v va ha, .vmov v va ha, .fneg v va ha, .rcp v va ha] : List Instr), reads i [va.toNat] [pm] [] vector) ∧
      reads (.sel v va vb ps ha hb) [va.toNat, vb.toNat] [ps.setWidth 3, pm] [] vector ∧
      reads (.movp v pn) [] [pn, pm] [] vector ∧
      (∀ i ∈ ([.icmp pd va vb rel ha hb, .fcmp pd va vb rel ha hb] : List Instr),
        reads i [va.toNat, vb.toNat] [pm] [] (r.written.addP pd)) ∧
      reads (.setp pd va ha) [va.toNat] [pm] [] (r.written.addP pd) ∧
      (∀ i ∈ ([.uadd w wa wb, .uxor w wa wb, .ushl w wa wb] : List Instr), reads i [] [] [wa, wb] uniform) ∧
      reads (.uaddi w wa d13) [] [] [wa] uniform ∧ reads (.umovi w d13) [] [] [] uniform ∧ reads .nop [] [] [] r.written ∧
      reads (.srd w 0) [] [] [] uniform ∧
      (2 ≤ r.gran.toNat → reads (.ballot w pn 0) [] [pn] [] uniform ∧ reads (.bcast v wa) [] [] [wa] vector ∧
        reads (.mcnt v va ha) [va.toNat] [pm] [] vector ∧ reads (.laneid v) [] [pm] [] vector) ∧
      (∀ i ∈ ([.stb v va wa rec, .sth v va wa rec, .stw v va wa rec, .std v va wa rec, .stq v va wa rec, .stl v va wa rec,
          .ldl v va wa rec, .atom v va wa desc, .atomd v va wa desc, .atoml v va wa desc, .swr w num, .uldw w wa d13, .uldd w wa d13,
          .ustw w wa d13, .ustd w wa d13, .bra disp, .brd pn disp, .brany pn disp, .brall pn disp, .bz wa d13, .bnz wa d13,
          .call disp, .ret wa, .jset disp, .join, .exit, .bar h, .bara h, .barw h, .barr w wa wb h, .bars w wa wb h,
          .fence ord k, .batch w, .waitb wa, .testb w wa, .msend wc wa wb ring, .mpoll w wc ring, .mwait w ring, .mpop w ring,
          .mring wa wb ring, .cpy wa, .cpyq wa wb, .dcmp wa, .mma h wa wb, .mmaz h wa wb, .mmas h wa wb, .mmasz h wa wb,
          .accrd h va wa, .accwr h va wa, .accz h, .accst h wa, .wmark h w, .xft wa wb h, .ixft h wb, .ixftScratchpad wa wb,
          .xact h wb ps, .xactBias h wa wb ps, .dtag wa w, .dtagTile h w, .dset wa wb, .emset wa h, .emgen wa, .epost wa wb h,
          .etake w wc h, .etest w h, .minv h, .mgen w h, .mstat w g h, .mdecl wa wb q, .memit wa, .fout v wa form h, .disc pn,
          .regrp g h, .swpt h, .rgrow w ps, .rgroww w ps, .trap num, .space w wa, .scast w wa, .scastl w wa, .cctlf,
          .cctli wa wb, .cctlw, .yieldIssue, .sleep wa] : List Instr), refused 4 i) ∧
      (num ≠ 0 → refused 4 (.srd w num)) ∧
      ((rec = 0 ∨ ∀ b, s.bufRec rec.toNat = .ok b → b.rdonly = false) →
        ∀ i ∈ ([.ldb v va wa rec, .ldh v va wa rec, .ldw v va wa rec, .ldd v va wa rec, .ldq v va wa rec] : List Instr), refused 4 i) ∧
      (r.gran.toNat < 2 → ∀ i ∈ ([.laneid v, .vmatch v va ha, .mrank v va ha, .mcnt v va ha, .mlast v va ha, .bcast v wa,
        .rdfirst v w, .ballot w pn 0, .vany w pn, .vall w pn, .vcnt w pn, .actm w 0] : List Instr), refused 4 i) ∧
      (r.gran = 0 → ∀ i ∈ ([.shfl v va vb ha hb, .shflx v va vb ha hb, .shflr v va vb ha hb, .shflh v va vb ha,
        .lstep v va vb op ha] : List Instr), refused 4 i) ∧
      (r.gran = 1 → ok.hasV va.toNat = true → ok.hasV vb.toNat = true → pm = 0 ∨ ok.hasP pm = true →
        let leaves := fun (source : Nat → Nat) => ∃ l, s.active.getLsbD l = true ∧ s.active.getLsbD (source l) = true ∧
          source l / 4 ≠ l / 4
        (leaves (fun l => (s.lane vb l).toNat % 64) → refused 3 (.shfl v va vb ha hb)) ∧
        (leaves (fun l => l ^^^ ((s.lane vb l).toNat % 64)) → refused 3 (.shflx v va vb ha hb)) ∧
        (leaves (fun l => (l + (s.lane vb l).toNat) % 64) → refused 3 (.shflr v va vb ha hb)) ∧
        (leaves (fun l => l ^^^ (64 / 2 ^ vb.toNat)) → refused 3 (.shflh v va vb ha)) ∧
        (leaves (fun l => if 2 ^ vb.toNat ≤ l then l - 2 ^ vb.toNat else l) → refused 3 (.lstep v va vb op ha)))

/-- R253, R258 to R260, R374: MBEGIN opens a region, or waits for the sibling's; MLOOK looks every unit up, writes the hits'
outputs and pn, and closes the region at its target where every lane hit, or else goes on with the lanes that missed; it traps
with TINFO 6 where a complete unit's key or outputs are not the table's sizes, and with TINFO 7 in a tile region without an MKEYT; MEND
inserts the units that missed and closes the region with every lane back.
The model's choices it rests on: log entries 22 and 25. -/
def Obligations.LookupResults : Prop :=
  ∀ (s : State) (wa g : BitVec 6) (c pn : BitVec 3) (h : BitVec 4) (disp : BitVec 22) (d : MemoDecl) (i : Nat) (m : MemoSlot),
    let declared := fun (h : Nat) =>
      s.node.image.memoDecl h = some d ∧ s.boundSlot s.node h = some i ∧ s.memoSlot s.node.region i = some m
    let sibling := (s.group.slot (!s.focus.slot)).bind (·.region)
    let mask := s.path.mask
    (s.Runs → s.group.trap = none → s.node.image.memoDecl h.toNat = none →
      exec (.mbegin wa g c h) s = .next (s.trapped 0x08 0 8)) ∧
    (s.Runs → s.group.trap = none → declared h.toNat → sibling.isSome = true →
      exec (.mbegin wa g c h) s = .next (s.park .siblingRegion)) ∧
    (s.Runs → s.group.trap = none → declared h.toNat → sibling = none → Settles (.mbegin wa g c h) s
      (s.putRegion { handle := h, cls := c, gran := g.setWidth 2, cost := (s.uni wa).setWidth 32 })) ∧
    (∀ r, s.InRegion r → r.looked = false → declared r.handle.toNat → r.sizesWrong d mask = true →
      exec (.mlook pn disp) s = .next (s.trapped 0x08 0 6)) ∧
    (∀ r, s.InRegion r → r.looked = false → declared r.handle.toNat → r.sizesWrong d mask = false → r.gran = 3 →
      r.sawMkeyt = false → exec (.mlook pn disp) s = .next (s.trapped 0x08 0 7)) ∧
    (∀ r, s.InRegion r → r.looked = false → declared r.handle.toNat → r.sizesWrong d mask = false →
      (r.gran = 3 → r.sawMkeyt = true) →
      let q := (unitsOf r.gran mask).foldl (State.lookUnit (memoDetRefuses s.node.det r.cls.toNat m) i)
        (s, { r with epoch := (m.instanceAt s.coreNow).epoch, units := mask, looked := true })
      let t := q.1.writeP pn mask q.2.hit
      (q.2.hit = mask → exec (.mlook pn disp) s = .next ((t.endRegion mask).issued (s.path.pc + 4 * disp.signExtend 64))) ∧
      (q.2.hit ≠ mask → exec (.mlook pn disp) s = .next ((t.putPath { s.path with
        mask := mask &&& ~~~q.2.hit, region := some { q.2 with written := q.2.written.addP pn } }).issued (s.nextPc 1)))) ∧
    (∀ r x, s.InRegion r → r.looked = true → r.badOutput = some x →
      exec .mend s = .next (s.trapped 0x08 (BitVec.ofNat 64 x) 1)) ∧
    (∀ r, s.InRegion r → r.looked = true → r.badOutput = none → declared r.handle.toNat →
      let inserts := d.policy = 0 ∧ (m.instanceAt s.coreNow).epoch = r.epoch ∧
        memoDetRefuses s.node.det r.cls.toNat m = false
      (¬inserts → exec .mend s = .next ((s.endRegion (mask ||| r.hit)).issued (s.nextPc 1))) ∧
      (inserts → exec .mend s = .next ((((unitsOf r.gran r.units).foldl (State.insertUnit r i) s).endRegion
        (mask ||| r.hit)).issued (s.nextPc 1))))

/-- R250, R261, R372: MINV and MGEN act on a system-cache slot at once and wait for the cores' instances of a Carillon one;
MSTAT reads a counter of the core's instance; each traps with TINFO 8 on a handle that is not declared.
The model's choices it rests on: log entry 37. -/
def Obligations.MemoTableResults : Prop :=
  ∀ (s : State), s.Runs → s.group.trap = none →
    ∀ (wd k : BitVec 6) (h : BitVec 4) (d : MemoDecl) (n : Nat) (m : MemoSlot),
    let region := s.node.region
    let declared := s.node.image.memoDecl h.toNat = some d ∧ s.boundSlot s.node h.toNat = some n ∧
      s.memoSlot region n = some m
    let counters := fun (x : MemoInstance) =>
      [x.hits, x.misses, x.inserts, x.evictions, x.collisions, x.gen.setWidth 64, x.saved]
    (s.node.image.memoDecl h.toNat = none → exec (.minv h) s = .next (s.trapped 0x08 0 8) ∧
      exec (.mgen wd h) s = .next (s.trapped 0x08 0 8) ∧ exec (.mstat wd k h) s = .next (s.trapped 0x08 0 8)) ∧
    (declared → m.home = 0 → exec (.minv h) s = .next (s.park (.memo n none)) ∧
      exec (.mgen wd h) s = .next (s.park (.memo n (some wd)))) ∧
    (declared → m.home ≠ 0 → (s.actAll region n false).Steady → Settles (.minv h) s (s.actAll region n false)) ∧
    (declared → m.home ≠ 0 →
      let t := s.actAll region n true
      let u := t.writeW wd (t.memoGen region n t.coreNow)
      u.Steady → Settles (.mgen wd h) s u) ∧
    (declared → k.toNat < 7 →
      Settles (.mstat wd k h) s (s.writeW wd ((counters (m.instanceAt s.coreNow)).getD k.toNat 0)))

/-! ## Mesh and fragment output -/

/-- R169, R176, R193, R272, R275, R334, R344, R369, R370: MDECL records a declaration, or traps on a misaligned, oversized or overlong
one; MEMIT waits for a footprint over its window, passes its primitives on and notes its flags, and traps behind itself with TINFO
11 where the declaration asks for it; FOUT stores the enabled components of each live lane's pixel, or traps with TINFO 4 on a
target that is absent or badly named, or by its pages, or waits for them; DISC makes lanes helpers; outside their kind of
node they trap with TINFO 12.
The model's choices it rests on: log entries 36 and 47. -/
def Obligations.MeshAndFragmentResults : Prop :=
  ∀ (s : State), s.Runs → s.group.trap = none →
    ∀ (wa wb w : BitVec 6) (q : BitVec 1) (v : BitVec 7) (f : BitVec 5) (mk : BitVec 4) (pn : BitVec 3),
    let off := (s.uni wa).toNat
    let c := (s.uni wb).toNat
    let verts := c % 2 ^ 16
    let prims := c / 2 ^ 16 % 2 ^ 16
    let refused := fun (i : Instr) => exec i s = .next (s.trapped 0x03 0 12)
    (s.node.kind ≠ 1 → refused (.mdecl wa wb q) ∧ refused (.memit wa)) ∧
    (s.node.kind ≠ 2 → refused (.fout v w f mk) ∧ refused (.disc pn)) ∧
    (s.node.kind = 1 → off % 16 = 0 → verts ≤ 256 → prims ≤ 512 → c < 2 ^ 32 →
      off + verts * s.node.vstride + 4 * prims ≤ s.spSize →
      Settles (.mdecl wa wb q) s (s.putTeam { s.team with
        decl := some { off := off, verts := verts, prims := prims, trapOnFlag := q = 1 } })) ∧
    (s.node.kind = 1 → off % 16 ≠ 0 → exec (.mdecl wa wb q) s = .next (s.trapped 0x04 (s.uni wa) 0)) ∧
    (s.node.kind = 1 → off % 16 = 0 → (256 < verts ∨ 512 < prims ∨ 2 ^ 32 ≤ c) →
      exec (.mdecl wa wb q) s = .next (s.trapped 0x03 0 10)) ∧
    (s.node.kind = 1 → off % 16 = 0 → verts ≤ 256 → prims ≤ 512 → c < 2 ^ 32 →
      s.spSize < off + verts * s.node.vstride + 4 * prims →
      exec (.mdecl wa wb q) s = .next (s.trapped 0x06 (s.uni wa) 2)) ∧
    (s.node.kind = 1 → s.team.decl = none → refused (.memit wa)) ∧
    (∀ d, s.node.kind = 1 → s.team.decl = some d → 2 ^ 32 ≤ off →
      exec (.memit wa) s = .next (s.trapped 0x03 0 10)) ∧
    (∀ d, s.node.kind = 1 → s.team.decl = some d → off < 2 ^ 32 →
      let window := [Span.mk d.off (d.verts * s.node.vstride + 4 * d.prims)]
      s.interlocked s.focus.team s.acceptSeq window false = true → exec (.memit wa) s = .next (s.park (.footprint window false))) ∧
    (∀ d, s.node.kind = 1 → s.team.decl = some d → off < 2 ^ 32 →
      s.interlocked s.focus.team s.acceptSeq [⟨d.off, d.verts * s.node.vstride + 4 * d.prims⟩] false = false →
      let nv := off % 2 ^ 16
      let np := off / 2 ^ 16
      let found := (List.range (min np d.prims)).map (s.meshPrim d (min nv d.verts))
      let flags : BitVec 16 := (if d.prims < np then 1 else 0) ||| (if d.verts < nv then 2 else 0)
        ||| (if found.any (·.2) then 4 else 0)
      let k := s.clusterAt (s.coreNow / 8)
      let u := s.setCluster (s.coreNow / 8) { k with binQ := k.binQ ++ found.filterMap (·.1) }
      let t := u.putTeam { u.team with decl := none, meshFlags := u.team.meshFlags ||| flags }
      (d.trapOnFlag = false ∨ flags = 0 → Settles (.memit wa) s t) ∧
      (d.trapOnFlag = true → flags ≠ 0 → exec (.memit wa) s =
        .next (({ t.putPath { t.path with walked := false, released := false, bpSkip := false, again := none } with
          pending := none } : State).raiseTrap
            { cause := 0x03, tpc := s.nextPc 1, tinfo := 11, mask := s.path.mask } false))) ∧
    (∀ targets, s.node.kind = 2 → (s.passOf s.node).map (·.targets) = some targets →
      (8 ≤ (s.uni w).toNat ∨ targets.length ≤ (s.uni w).toNat) → exec (.fout v w f mk) s = .next (s.trapped 0x03 0 4)) ∧
    (∀ t targets, s.node.kind = 2 → (s.passOf s.node).map (·.targets) = some targets → (s.uni w).toNat < 8 →
      targets[(s.uni w).toNat]? = some t →
      let spot := fun (l c : Nat) => t.at_ (s.lanePixel l).1 (s.lanePixel l).2 c
      let stores : LaneAccess :=
        { early := fun u l => if u.group.helper.getLsbD l then .ok [] else .ok (((List.range 4).filter fun c => mk.getLsbD c).map fun c =>
            { lane := l, addr := spot l c, place := .global [((spot l c).toNat, t.comp)] })
          bytes := t.comp, write := true, reads := false }
      s.AccessStops s stores 0 0 (.fout v w f mk)) ∧
    (∀ t targets (as : List Access), s.node.kind = 2 → (s.passOf s.node).map (·.targets) = some targets → (s.uni w).toNat < 8 →
      targets[(s.uni w).toNat]? = some t →
      let comps := (List.range 4).filter fun c => mk.getLsbD c
      let lit := lanesOf (s.path.mask &&& ~~~s.group.helper)
      let spot := fun (p : Nat × Nat) => t.at_ (s.lanePixel p.1).1 (s.lanePixel p.1).2 p.2
      let pairs := lit.flatMap fun l => comps.map fun c => (l, c)
      as = pairs.map (fun p => ({ lane := p.1, addr := spot p, place := .global [((spot p).toNat, t.comp)] } : Access)) →
      s.missingPages (as.flatMap fun a => pagesOf a.place.pieces) = [] →
      (∀ a ∈ as, s.checkPieces a.addr a.place.pieces true = none) →
      let u := pairs.foldl (fun (u : State) p => u.storePlace (.global [((spot p).toNat, t.comp)])
        (foutBytes t.fmt (f = 1) (s.foutSource v (f = 1) p.1 p.2))) s
      s.pfx.pm = 0 → s.pfx.pinv = false → u.Steady → Settles (.fout v w f mk) s u) ∧
    (s.node.kind = 2 → Settles (.disc pn) s
      (s.putGroup { s.group with helper := s.group.helper ||| (s.path.mask &&& s.pred pn) }))

/-! ## Traps -/

/-- R283: TRAP, whole: its words, the words that are rejected, the prefix it does not take, its trap with cause 0x01, and the
double fault in trap mode. -/
def Obligations.TrapInstruction : Prop :=
  (∀ code : BitVec 13, encode (.trap code) = [0xF0000000 ||| code.setWidth 32]) ∧
  encode (.trap 7) = [0xF0000007] ∧
  (∀ w lit code, decodeWord w lit = .ok (.trap code) ↔ w = 0xF0000000 ||| code.setWidth 32) ∧
  (∀ p code, pairFault p (.trap code) = some (true, .prefixGroupSpace)) ∧
  ∀ (s : State), s.live = true → s.pending = none → ∀ (code : BitVec 13),
    (s.group.trap = none → s.path.region = none →
      let t := s.putPath { s.path with walked := false, released := false, bpSkip := false, again := none }
      exec (.trap code) s = .next (t.raiseTrap
        { cause := 0x01, tpc := s.path.pc + 4, tinfo := code.setWidth 64, mask := s.path.mask } false)) ∧
    (s.group.trap.isSome = true → s.path.region = none →
      ∃ t, exec (.trap code) s = .next t ∧ (t.teamAt s.focus.team).status = .killed)

/-- R279, R280, R281, R286, R96, R258, R297, Tables 16.2 and 16.3: a trap of a path outside trap mode. A purity trap first closes the
path's region, its lanes those of M and H. One that is routed parks its path, beside which the sibling stands as it did, and the
fault record goes to the region's queue, where it has room, with FQTAIL counted and interrupt bit 0 raised. One that is not
routed, in a region without a vector, is a double fault: the team is killed, and the fault domain's record holds cause 0x14 with
the trap's cause, TPC and TADDR. One that is not routed, in a region with a vector, writes the registers that record the trap;
the frame at TFRAME, byte by byte: the path block, the zero bytes around it with the handler's empty stack among them, and
the end; nothing else in memory but the records of open regions, and nothing of another team; the handler's path and its zero
shadow set; and the interrupted paths kept for RTE.
The model's choices it rests on: log entries 7, 20, 39 and 65. -/
def Obligations.TrapEntry : Prop :=
  (∀ (s : State) (i : TrapInfo) (replay : Bool), s.live = true → s.group.trap = none → s.routed i.cause = true →
    let x := s.region
    let t := s.raiseTrap i replay
    let a := x.fqbase + 64 * (x.fqtail.toNat % 256)
    let field := fun (o n : Nat) => memNat t.mem (a + o) n
    let room := s.faultRoom x = true
    t.focus = s.focus ∧ t.group.trap = none ∧ t.pending = none ∧ t.path = { s.path with
      wait := some (if s.faultRoom x then .parked x.fqtail i replay else .faultQueue i replay), walked := false, released := false } ∧
    t.group.slot (!s.focus.slot) = s.group.slot (!s.focus.slot) ∧ (∀ k, k ≠ s.focus.team → t.teamAt k = s.teamAt k) ∧
    (¬room → t.mem = s.mem ∧ t.region = x) ∧
    (room → t.region.fqtail = x.fqtail + 1 ∧ memNat t.mem (x.rcb + 0x78) 4 = (x.fqtail + 1).toNat ∧
      t.intStatus.getLsbD 0 = true ∧ (a + 64 ≤ x.rcb + 0x78 ∨ x.rcb + 0x7C ≤ a →
        field 0 8 = i.tpc.toNat ∧ field 8 8 = i.taddr.toNat ∧ field 16 8 = i.tinfo.toNat ∧ field 24 16 = i.mask.toNat ∧
        field 40 1 = i.cause.toNat ∧ field 44 4 = x.fqtail.toNat ∧ field 48 8 = s.node.addr % 2 ^ 64))) ∧
  (∀ (s : State) (i : TrapInfo) (replay : Bool), s.live = true → s.group.trap = none → s.routed i.cause = false →
    s.region.tvec = 0 →
    let t := s.raiseTrap i replay
    let record := s.fdBase.toNat + 64 * s.region.fdom
    (t.teamAt s.focus.team).status = .killed ∧ t.pending = none ∧ t.intStatus.getLsbD 4 = true ∧
      t.byteAt (record + 4) = 1 ∧ t.byteAt (record + 8) = 0x14 ∧ t.byteAt (record + 9) = i.cause ∧
      memNat t.mem (record + 16) 8 = i.tpc.toNat ∧ memNat t.mem (record + 24) 8 = i.taddr.toNat) ∧
  ∀ (s : State) (i : TrapInfo) (replay : Bool), s.live = true → s.group.trap = none → s.routed i.cause = false →
    s.region.tvec ≠ 0 →
    let u := match s.path.region with
      | some r => if i.cause = 0x08 then s.putPath { s.path with mask := s.path.mask ||| r.hit, region := none } else s
      | none => s
    let g := u.group
    let t := s.raiseTrap i replay
    let f := g.record.toNat
    let field := fun (o n : Nat) => memNat t.mem (f + o) n
    let pcOf := fun (p : Option Path) => match p with | some p => p.pc.toNat | none => 0
    let maskOf := fun (p : Option Path) => match p with | some p => p.mask.toNat | none => 0
    let ctlOf := fun (p : Option Path) => match p with | some p => 1 + 2 * p.fi.toNat + 64 * p.fv.toNat | none => 0
    let open_ := fun (p : Option Path) => ∃ q r, p = some q ∧ q.region = some r
    (t.group.tcause = i.cause ∧ t.group.tpc = i.tpc ∧ t.group.taddr = i.taddr ∧ t.group.tmask = i.mask ∧
      t.group.tmaskh = 0 ∧ t.group.tinfo = i.tinfo) ∧
    (field 0 8 = pcOf g.path0 ∧ field 8 8 = pcOf g.path1 ∧ field 16 4 = 0 ∧ field 20 8 = maskOf g.path0 ∧ field 28 8 = 0 ∧
      field 36 8 = maskOf g.path1 ∧ field 44 8 = 0 ∧ field 52 4 = ctlOf g.path0 ∧ field 56 4 = ctlOf g.path1 ∧
      field 60 4 = g.docc.toNat ∧ field 64 1 = g.cur.toNat + 2 * s.focus.slot.toNat ∧ field 65 8 = g.dsbase.toNat ∧
      ∀ o, 73 ≤ o ∧ o < 0x800 ∨ 0x3000 ≤ o ∧ o < 0x4000 → t.byteAt (f + o) = 0) ∧
    (∀ a, a < f ∨ f + 0x800 ≤ a → a < f + 0x3000 ∨ f + 0x4000 ≤ a →
      ¬(open_ g.path0 ∧ f + 0x800 ≤ a ∧ a < f + 0x1C00) → ¬(open_ g.path1 ∧ f + 0x1C00 ≤ a ∧ a < f + 0x3000) →
      t.byteAt a = s.byteAt a) ∧
    (∀ k, k ≠ s.focus.team → t.teamAt k = s.teamAt k) ∧
    t.group.path0 = some { pc := s.region.tvec, mask := i.mask } ∧ t.group.path1 = none ∧ t.group.docc = 0 ∧
    t.group.dsbase = s.group.record + 0x400 ∧ t.group.trap.isSome = true ∧ t.focus.slot = false ∧ t.pending = none ∧
    (∀ n < 16, ∀ l < 64, t.vreg n l = 0) ∧ (∀ n : BitVec 6, 56 ≤ n.toNat → t.uni n = 0) ∧
    (∀ n, 16 ≤ n → ∀ l < 64, t.vreg n l = s.vreg n l) ∧ (∀ n : BitVec 6, n.toNat < 56 → t.uni n = s.uni n) ∧
    (∀ n, t.pred n = s.pred n) ∧ t.group.masks = s.group.masks ∧ t.group.flags = s.group.flags ∧
    (∀ c, t.group.trap = some c → c.slot = s.focus.slot ∧ c.cur = g.cur ∧ c.docc = g.docc ∧
      c.dsbase = g.dsbase ∧ c.path0 = g.path0.map Path.abandon ∧ c.path1 = g.path1.map Path.abandon ∧
      c.issues = g.issues + if g.cur = s.focus.slot then 1 else 0)

/-- R282, R286, Table 16.4: in trap mode each instruction of Table 16.4 is a double fault of its own cause, 0x08 for the
memoisation instructions and 0x0B for the others; a double fault kills the team, and the fault domain's record holds cause
0x14 with the event's cause, and raises interrupt bit 4.
The model's choices it rests on: log entries 22 and 30. -/
def Obligations.TrapModeRefusals : Prop :=
  ∀ (s : State), s.live = true → s.group.trap.isSome = true →
    ∀ (wd wa wb ws g : BitVec 6) (n m : BitVec 4) (c pn : BitVec 3) (ring e : BitVec 2) (v : BitVec 7) (f : BitVec 5)
      (q : BitVec 1) (disp : BitVec 22),
    let doubled := fun (cause : Nat) =>
      ({ s.doubleFault s.focus.team s.focus.group cause s.path.pc 0 with pending := none } : State)
    (∀ i ∈ ([.bar n, .bara n, .barw n, .barr wd wa wb n, .bars wd wa wb n, .batch wd, .waitb wa, .testb wd wa,
        .msend ws wa wb ring, .mpoll wd ws ring, .mwait wd ring, .mpop wd ring, .mring wa wb ring, .cpy wa, .dcmp wa,
        .cpyq wa wb, .mma n wa wb, .mmaz n wa wb, .mmas n wa wb, .mmasz n wa wb, .accwr n v wa, .accz n, .accst n wa,
        .xft wa wb n, .ixft n wb, .ixftScratchpad wa wb, .xact n wb e, .xactBias n wa wb e, .dtag wa wb, .dtagTile n wb,
        .dset wa wb, .epost wa wb n, .etake wd ws n, .rgrow wd e,
        .rgroww wd e, .swpt n, .regrp g n, .exit, .yieldIssue, .sleep wa, .mdecl wa wb q, .memit wa, .fout v wa f m,
        .disc pn] : List Instr), exec i s = .next (doubled 0x0B)) ∧
    (∀ i ∈ ([.mbegin wa g c n, .mkey v f, .mkeyPredicate pn, .mkeyUniform wa, .mkeyt wa wb n, .mxcl v,
        .mxclUniform wa, .mxclPredicate pn, .mout v, .moutUniform wa, .moutPredicate pn, .mlook pn disp, .mend, .minv n,
        .mgen wd n, .mstat wd g n] : List Instr), exec i s = .next (doubled 0x08)) ∧
    ∀ cause : BitVec 8,
      let t := doubled cause.toNat
      let record := s.fdBase.toNat + 64 * s.region.fdom
      (t.teamAt s.focus.team).status = .killed ∧ t.intStatus.getLsbD 4 = true ∧ t.byteAt (record + 4) = 1 ∧
        t.byteAt (record + 8) = 0x14 ∧ t.byteAt (record + 9) = cause

/-- R97, R284: outside trap mode RTE, TSAVE and TREST trap with cause 0x15; in it RTE puts the interrupted slots, DOCC and
DSBASE back with the trapping slot at TPC and the latch empty, or is a double fault while a path stands in slot 1, be it the handler's
one path, or the stack holds an entry; where software has written the frame, the program counters and masks of the interrupted paths
and DOCC are free values; TSAVE writes and TREST reads the group image at a 256-byte-aligned generic
address, once its accesses pass every check and wait for nothing; before that they trap or wait as group-space accesses do.
That RTE is a double fault also where the handler's one path stands in slot 1, and that TSAVE and TREST take any generic address, is
log entry 54 (DEDUCED). The model's choices it rests on: log entries 18, 20, 54 and 72. -/
def Obligations.HandlerInstructions : Prop :=
  ∀ (s : State), s.live = true → s.path.region = none → ∀ (wa : BitVec 6) (ps : List Place),
    let alone := s.group.path1 = none ∧ s.group.docc = 0
    let a := s.uni wa
    let doubled := ({ s.doubleFault s.focus.team s.focus.group 0x0B s.path.pc 0 with pending := none } : State)
    (∀ (g : Group) (c : TrapContext),
      let h := g.leaveTrap c
      let kept := fun (b : Bool) => if b = true then c.path1 else c.path0
      h.trap = none ∧ h.docc = c.docc ∧ h.dsbase = c.dsbase ∧ h.cur = c.cur ∧ h.latchA = none ∧ h.latchB = none ∧
      h.shadowV = [] ∧ h.shadowW = [] ∧ h.vregs = g.vregs ∧ h.wregs = g.wregs ∧ h.preds = g.preds ∧ h.masks = g.masks ∧
      h.flags = g.flags ∧ h.live = g.live ∧ h.slot (!c.slot) = kept (!c.slot) ∧ (kept c.slot = none → h.slot c.slot = none) ∧
      ∀ p, kept c.slot = some p → ∃ q, h.slot c.slot = some q ∧ q.pc = g.tpc ∧ q.mask = p.mask ∧ q.fi = p.fi ∧ q.fv = p.fv ∧
        q.region = p.region ∧ q.wait = none ∧ q.bpSkip = true) ∧
    (s.group.trap = none → exec .rte s = .next (s.trapped 0x15 0 0x2000) ∧
      exec (.tsave wa) s = .next (s.trapped 0x15 0 0x2000) ∧ exec (.trest wa) s = .next (s.trapped 0x15 0 0x2000)) ∧
    ∀ c, s.group.trap = some c →
      (alone → s.frameIntact c = true → ∃ t, exec .rte s = .next t ∧ t.group = s.group.leaveTrap c ∧
        t.focus.slot = c.cur ∧ (∀ x, t.byteAt x = s.byteAt x)) ∧
      (alone → s.frameIntact c = false →
        let free := fun (k : Nat) => Config.freeValue (s.freeCount + k)
        let altered := fun (p : Option Path) (k : Nat) =>
          p.map fun p => ({ p with pc := free k, mask := free (k + 1) &&& s.group.live } : Path)
        ∃ t, exec .rte s = .next t ∧ t.group = s.group.leaveTrap
            { c with path0 := altered c.path0 0, path1 := altered c.path1 2, docc := (free 4).setWidth 32 } ∧
          t.focus.slot = c.cur ∧ (∀ x, t.byteAt x = s.byteAt x) ∧ ∀ k, k ≠ s.focus.team → t.teamAt k = s.teamAt k) ∧
      (¬alone → exec .rte s = .next doubled) ∧
      (a.toNat % 256 ≠ 0 → exec (.tsave wa) s = .next (s.trapped 0x04 a 0) ∧
        exec (.trest wa) s = .next (s.trapped 0x04 a 0)) ∧
      (a.toNat % 256 = 0 → s.ImageStops a (imageBytes s.variant.regs) true (.tsave wa) ∧
        s.ImageStops a (0x300 + 256 * s.variant.regs) false (.trest wa)) ∧
      (a.toNat % 256 = 0 → s.ImageClear a (imageBytes s.variant.regs) true ps →
        let bs := s.group.imageOf s.variant
        Settles (.tsave wa) s
          (ps.zipIdx.foldl (fun t p => t.storePlace p.1 ((bs.drop (256 * p.2)).take 256)) s)) ∧
      (a.toNat % 256 = 0 → s.ImageClear a (0x300 + 256 * s.variant.regs) false ps →
        let bs := ps.flatMap fun p => s.loadPlace p 256
        let u := ps.foldl (fun t p => t.allocPieces p.pieces) s
        Settles (.trest wa) s (u.putGroup (u.group.fromImage u.variant bs)))

/-! ## Commands, and the events of the host and the device -/

/-- R302 with R27, R76, R79, R85, R118, R173, R247, R280, R296, R304, R305 and R306: a command whose turn it is runs its node, has the
effect of its code, and completes with its result bytes, waits, or is refused with reason 0x0C; one whose turn it is not
changes nothing. The kill of a fault domain, key write and TLB invalidate are written out, and so are the ranges of a memo slot's
fields and the detail of each refusal. A slot is released once every store on its way has reached the system cache (R27).
The model's choices it rests on: log entries 11, 37, 43, 44, 50, 60, 61 and 75. -/
def Obligations.CommandResults : Prop :=
  ∀ (s : State) (node : Nat),
    let n := s.nodeAt node
    let u := s.begun node
    let r := n.opB.toNat
    let active := r < 256 ∧ (u.regionAt r).active = true
    let started := u.setNode node { u.nodeAt node with started := true }
    let ends := fun (i : Instr) (t : State) (bytes : List Byte) => exec i s = .next (t.completeNode node bytes)
    let done := fun (i : Instr) (t : State) => ends i t zeroResult
    let waits := fun (i : Instr) (t : State) => exec i s = .next t
    let refused := fun (i : Instr) => exec i s = .next (u.failNode node 0x0C)
    let turn := s.CommandReady node
    let record := u.parkedOn r (n.opC.setWidth 32)
    let slotAddr := (u.regionAt r).memotab + 32 * n.opC.toNat
    let slotBits := u.readPhys slotAddr 32
    let detail := u.createDetail r n.opC.toNat slotBits
    (s.commandTurn node = false → ∀ i ∈ ([.activate node, .deactivate node, .deactivateDone node, .preEmpt node, .kill node,
      .mapExecutable node, .unmapExecutable node, .tlbInvalidate node, .faultResumeReplay node, .faultResumeDeliver node,
      .faultResumeKill node, .memoSlotCreate node, .memoSlotFree node, .memoSlotFreeDone node, .keyWrite node,
      .powerLevel node, .slotRelease node] : List Instr), waits i s) ∧
    (turn 1 → (∀ t, u.activate r n.opA.toNat = some t → done (.activate node) t) ∧
      (u.activate r n.opA.toNat = none → refused (.activate node))) ∧
    (turn 2 → (active ∧ r ≠ 0 → waits (.deactivate node) started) ∧ (¬active ∨ r = 0 → refused (.deactivate node))) ∧
    (turn 2 → n.started = true → (u.regionBusy r = true → waits (.deactivateDone node) u) ∧
      (u.regionBusy r = false → done (.deactivateDone node) (u.endRegionLife r))) ∧
    (turn 3 → (¬active → refused (.preEmpt node)) ∧
      (active → u.regionOff r = true →
        done (.preEmpt node) (u.setRegion r { u.regionAt r with preemptAsked := false })) ∧
      (active → u.regionOff r = false → waits (.preEmpt node) ((u.setRegion r { u.regionAt r with
        preemptAsked := true }).setNode node { u.nodeAt node with started := true }))) ∧
    (turn 4 → (64 ≤ r → refused (.kill node)) ∧
      (r < 64 → done (.kill node) ((List.range u.nodes.length).foldl (fun t i =>
        if (t.regionAt (t.nodeAt i).region).fdom = r then t.failNode i 0x06 else t)
          (u.domainRecord r true { kind := 3, region := 0 })))) ∧
    (turn 5 →
      (u.presentLeaf r n.opA.toNat = none → refused (.mapExecutable node)) ∧
      ∀ level pte x, u.presentLeaf r n.opA.toNat = some (level, pte, x) →
        let group := leafGroup level pte (pageSize level (bitField x 11 8))
        let sized := pageSize level (bitField x 11 8) = some n.opC.toNat ∧ n.opA.toNat % n.opC.toNat = 0
        let w := leafOf u.installed r n.opA.toNat level pte x
        (¬sized → refused (.mapExecutable node)) ∧
        (sized → u.executable pte = true → done (.mapExecutable node) u) ∧
        (sized → u.executable pte = false → (∀ e, w ≠ .leaf e) →
          ends (.mapExecutable node) u (natLe 4 0x0D ++ natLe 4 0 ++ natLe 4 0 ++ natLe 4 0)) ∧
        ∀ e, sized → u.executable pte = false → w = .leaf e →
          let v := u.refuseStores e
          (∀ us, v.checkUnits e (pageUnits e) = .ok us →
            done (.mapExecutable node) (({ v with units := v.units ++ us, execMaps := v.execMaps ++
              [{ root := e.root, va := e.va, size := e.size, pa := e.pa, pte := e.pte }] } : State).setExecutable group true)) ∧
          (∀ w off reason, v.checkUnits e (pageUnits e) = .error (w, off, reason) →
            ends (.mapExecutable node) v (natLe 4 reason ++ natLe 4 off ++ natLe 4 0 ++ natLe 4 w.toNat))) ∧
    (turn 6 →
      (u.presentLeaf r n.opA.toNat = none → done (.unmapExecutable node) u) ∧
      ∀ level pte x, u.presentLeaf r n.opA.toNat = some (level, pte, x) →
        (u.executable pte = false → done (.unmapExecutable node) u) ∧
        (u.executable pte = true →
          let group := leafGroup level pte (pageSize level (bitField x 11 8))
          let covers := fun (l : List ExecMapping) (unit : Nat) =>
            l.any fun m => decide (m.pa ≤ 4096 * unit) && decide (4096 * unit < m.pa + m.size)
          let maps := u.execMaps.filter fun m => !group.contains m.pte
          let gone := u.execMaps.filter fun m => group.contains m.pte
          done (.unmapExecutable node) (({ u with
            units := u.units.filter fun p => covers maps p.unit || !covers gone p.unit
            execMaps := maps } : State).setExecutable group false))) ∧
    (turn 7 →
      let keep := fun (l : List TlbEntry) => l.filter fun e => !e.meets r n.opA.toNat n.opC.toNat
      let t := u.cores.foldl (fun t p => t.setCore p.1 { p.2 with tlb := keep p.2.tlb }) u
      done (.tlbInvalidate node) (t.clusters.foldl (fun t p => t.setCluster p.1 { p.2 with tlb := keep p.2.tlb }) t)) ∧
    (turn 8 → active → n.opC.toNat < 2 ^ 32 → ∀ t g b p i, record = some (t, g, b, p, i) →
      (n.opD = 0 → done (.faultResumeReplay node) (u.replay t g b p i)) ∧
      (n.opD = 1 → done (.faultResumeDeliver node)
        ((u.setInterrupted t g b { p with wait := some (.delivery i) }).due (.faultDelivery t g b))) ∧
      (n.opD = 2 → done (.faultResumeKill node)
        (u.doubleFault t g i.cause.toNat i.tpc i.taddr))) ∧
    (turn 8 → ¬active ∨ 2 ^ 32 ≤ n.opC.toNat ∨ record = none →
      (n.opD = 0 → refused (.faultResumeReplay node)) ∧ (n.opD = 1 → refused (.faultResumeDeliver node)) ∧
      (n.opD = 2 → refused (.faultResumeKill node))) ∧
    (turn 9 → active → n.opC.toNat < 64 →
      (n.opD = 0 → detail = 0 → done (.memoSlotCreate node)
        ((u.setMemoSlot r n.opC.toNat (some (memoSlotOf slotBits))).writePhys (slotAddr + 8) 4 1)) ∧
      (n.opD = 0 → detail ≠ 0 → detail ≠ 4 → exec (.memoSlotCreate node) s =
        .next ((u.writePhys (slotAddr + 8) 4 (2 + 256 * detail)).failNode node 0x0C)) ∧
      (n.opD = 0 → detail = 4 → exec (.memoSlotCreate node) s =
        .next ((u.writePhys (slotAddr + 8) 2 (2 + u.readPhys (slotAddr + 8) 1 % 2 + 256 * 4)).failNode node 0x0C)) ∧
      (n.opD = 1 → waits (.memoSlotFree node) started)) ∧
    (turn 9 → ¬active ∨ 64 ≤ n.opC.toNat →
      (n.opD = 0 → refused (.memoSlotCreate node)) ∧ (n.opD = 1 → refused (.memoSlotFree node))) ∧
    (let f := fun (hi lo : Nat) => bitField slotBits hi lo
     let region := u.regionAt r
     let mask := BitVec.ofNat 16 (f 63 48)
     let created := (u.memoSlot r n.opC.toNat).isSome = true
     let geometry := 2 ≤ f 7 0 ∧ f 7 0 ≤ 16 ∧ (f 15 8 = 1 ∨ f 15 8 = 2 ∨ f 15 8 = 4) ∧ 1 ≤ f 23 16 ∧ f 23 16 ≤ 64 ∧ 1 ≤ f 31 24 ∧
       f 31 24 ≤ 64
     let inRange := geometry ∧ f 39 32 ≤ 1 ∧ f 47 40 ≤ 1 ∧ (f 39 32 = 0 → mask = 0) ∧ f 127 96 = 0 ∧ f 255 192 = 0
     let entry := 16 + (if f 47 40 = 0 then f 23 16 else 0) + f 31 24
     let tooLarge := f 39 32 = 0 ∧ ∃ k < 144, region.cores.getLsbD k = true ∧
       65536 < u.carillonUsed k + 2 ^ f 7 0 * ((entry + 15) / 16 * 16)
     let badWays := f 39 32 = 1 ∧ (mask = 0 ∨ mask &&& ~~~region.ways ≠ 0)
     (created → detail = 4) ∧
     (¬created → (¬inRange → detail = 1) ∧
      (inRange → (tooLarge → detail = 2) ∧ (¬tooLarge → badWays → detail = 3) ∧ (¬tooLarge → ¬badWays → detail = 0)))) ∧
    (turn 9 → n.opD = 1 → n.started = true →
      (u.slotBound r n.opC.toNat = true → waits (.memoSlotFreeDone node) u) ∧
      (u.slotBound r n.opC.toNat = false → done (.memoSlotFreeDone node) (u.freeSlot r n.opC.toNat))) ∧
    (turn 10 → (256 ≤ r → refused (.keyWrite node)) ∧
      (r < 256 → done (.keyWrite node) ((({ u with
        keys := mapSet none u.keys r (some (BitVec.ofNat 128 (u.readPhys n.opA.toNat 16))) } : State).voidTables r).voidSignatures
          (· == r)))) ∧
    (turn 11 → (n.opA.toNat < 150 ∨ 700 < n.opA.toNat → refused (.powerLevel node)) ∧
      (150 ≤ n.opA.toNat → n.opA.toNat ≤ 700 → done (.powerLevel node) { u with powerLevel := n.opA })) ∧
    (turn 12 → (64 ≤ n.opC.toNat → refused (.slotRelease node)) ∧
      (n.opC.toNat < 64 →
        let v := u.drainAll
        let a := v.slotBase.toNat + 32 * n.opC.toNat
        done (.slotRelease node) (v.writeBytes (a + 16)
          (natLe 4 ((v.readPhys (a + 16) 4 + 1) % 2 ^ 32) ++ natLe 2 (n.opD.setWidth 12).toNat ++ natLe 1 0))))

/-- R68, R76, R77, R78, R81, R117, R291, R293, R294, R295, R304, R306, R307: what the host's register and memory writes, the
heads, the regulators, the errors, the alarm and reset leave. A relaunch or a kill follows an error in a team's state
(R292).
The model's choices it rests on: log entries 4, 6, 12, 37, 41, 44, 50, 51 and 52. -/
def Obligations.HostEventResults : Prop :=
  ∀ (s : State) (r c head slot a : Nat) (num : BitVec 8) (v : BitVec 64) (off : BitVec 16) (next : BitVec 12)
    (bs : List Byte) (scanning : Bool) (fc ln vt lp : Nat),
    let goes := fun (i : Instr) (t : State) => exec i s = .next t
    let told := ({ s with tails := mapSet 0 s.tails num.toNat v } : State)
    let x := s.regionAt num.toNat
    let q := 2 ^ x.logq
    let y := s.regionAt r
    let event := fun (m : Node) (g core : Nat) => ({ kind := 2, region := m.region, cause := 0x13, group := g
                                                     core := coreId core, taddr := v.toNat, node := m.addr } : DomainEvent)
    (x.active = true → v.toNat < q → (x.qtail + q - x.qhead) % q ≤ (v.toNat + q - x.qhead) % q →
      goes (.tailWrite num v) (told.setRegion num.toNat { x with qtail := v.toNat })) ∧
    (x.active = true → q ≤ v.toNat ∨ (v.toNat + q - x.qhead) % q < (x.qtail + q - x.qhead) % q →
      goes (.tailWrite num v) (told.writePhys x.rcb 1 (told.readPhys x.rcb 1 ||| 2))) ∧
    (x.active = false → num ≠ 0 → goes (.tailWrite num v) told) ∧
    (x.active = false → num = 0 → ∀ t, told.activateRoot = some t → goes (.tailWrite num v) (t.submitTail 0 v)) ∧
    goes (.interruptStatus v) { s with intStatus := s.intStatus &&& ~~~v } ∧
    ((s.regionAt 0).active = true → goes (.registerWrite off v) s) ∧
    ((s.regionAt 0).active = false →
      goes (.registerWrite 0x800 v) { s with rootRcb := v } ∧ goes (.registerWrite 0x808 v) { s with slotBase := v } ∧
      goes (.registerWrite 0x810 v) { s with saveWays := v &&& 0xFFFF } ∧ goes (.registerWrite 0x818 v) { s with fdBase := v }) ∧
    ((∀ i < bs.length, s.passed (a + i) = false) → ∃ t, goes (.hostCoreWrite a bs) t ∧
      (∀ i, ∀ h : i < bs.length, t.byteAt (a + i) = bs[i]) ∧ ∀ k, k < a ∨ a + bs.length ≤ k → t.byteAt k = s.byteAt k) ∧
    ((∃ i < bs.length, s.passed (a + i) = true) → goes (.hostCoreWrite a bs) s) ∧
    (head < 4 → ∃ t, goes (.scanoutLine head scanning fc ln vt lp) t ∧
      mapGet {} t.heads head = { scanning := scanning, fc := fc, ln := ln, vt := vt, lp := lp }) ∧
    (slot < 64 → 0x100 ≤ (s.handSlot slot).holder → (s.handSlot slot).holder ≤ 0x10B →
      goes (.engineSlotRelease slot next) (s.releaseSlot slot next (s.handSlot slot).status)) ∧
    (y.active = true → y.share ≠ 0 → c < 16 → goes (.creditRefill r c)
      (s.setRegion r { y with credit := mapSet 0 y.credit c (172800 * y.share / 256) })) ∧
    goes (.budgetPeriodStart r) (s.setRegion r { y with budgetSpent := false }) ∧
    (y.active = true → y.budget ≠ 0 → goes (.budgetExhausted r) (s.setRegion r { y with budgetSpent := true })) ∧
    (∃ t, goes .governorSample t ∧ t.intStatus.getLsbD 2 = true) ∧
    (y.active = true → goes (.correctedError r)
      (s.writePhys (y.rcb + 0xA8) 8 ((s.readPhys (y.rcb + 0xA8) 8 + 1) % 2 ^ 64))) ∧
    (y.active = true → s.faultRoom y = true → ∀ f rest, y.waitingRecords = f :: rest →
      goes (.faultQueueSpace r) ((s.setRegion r { y with waitingRecords := rest }).appendRecord r f)) ∧
    (∃ t, goes (.uncorrectableError (.memoryWord a)) t ∧ t.poisonedAt a = true ∧
      (∀ k, k / 8 ≠ a / 8 → t.poisonedAt k = s.poisonedAt k) ∧
      (s.poisonedAt a = false → ∀ p ∈ t.poisonParts, p.word ≠ a / 8)) ∧
    goes (.uncorrectableError (.instructionCache c)) s ∧
    goes (.uncorrectableError (.dataCacheLine c a)) (s.l1Drop c (128 * a) 128) ∧
    goes (.uncorrectableError (.tlb c a)) (s.setCore c { s.coreAt c with tlb := (s.coreAt c).tlb.eraseIdx a }) ∧
    goes (.uncorrectableError (.clusterTlb c a))
      (s.setCluster c { s.clusterAt c with tlb := (s.clusterAt c).tlb.eraseIdx a }) ∧
    goes (.uncorrectableError .keyStore) s.alarmed ∧
    (goes .securityAlarm s.alarmed ∧ s.alarmed.intStatus.getLsbD 3 = true) ∧
    (∀ t g, t < s.teams.length → (s.teamAt t).onCore = true →
      let m := s.nodeAt (s.teamAt t).node
      (m.idempotent = true → (s.teamAt t).relaunches < 3 → goes (.uncorrectableError (.teamState t g v)) (s.relaunch t)) ∧
      (m.idempotent = false ∨ 3 ≤ (s.teamAt t).relaunches → goes (.uncorrectableError (.teamState t g v))
        ((s.stopTeam t).domainRecord (s.regionAt m.region).fdom false (event m g (s.teamAt t).core)))) ∧
    goes .reset { State.reset with
      mem := s.mem, poison := s.poison, uniqueCounter := s.uniqueCounter, enabled := s.enabled, installed := s.installed
      tagCounter := (Config.freeValue s.freeCount).setWidth 16, ticks := s.ticks, freeCount := s.freeCount + 1 }

/-- R43, R46, R51, R60, R73, R163, R176, R193, R194, R217, R250, R253, R280, R295, R431: the turn of a path, a group or a held group
comes, and each wait ends once what it names has come about: the path issues its instruction again, or the instruction
completes. Stores reach the system cache core by core, and the paths that wait for them issue again; the wait for a sibling's
region ends as that region closes; the wait for the fault queue becomes the wait for the host's answer, its record written. A
wait whose condition does not hold stands.
The model's choices it rests on: log entries 7, 11, 12, 25, 26, 27 and 29. -/
def Obligations.PathEventResults : Prop :=
  ∀ (s : State) (t g core : Nat) (b : Bool),
    let x := s.teamAt t
    let y := s.groupAt t g
    let goes := fun (i : Instr) (u : State) => exec i s = .next u
    let waits := fun (w : Wait) => s.waitNow t g b = some w
    let ends := fun (i : Instr) (met : Bool) => goes i (if met = true then s.reissue t g b else s)
    let resumed := fun (i : Instr) (k : State → Res) => goes i (s.resume t g b k)
    let root := (s.regionAt (s.nodeAt x.node).region).root
    (x.status = .resident → 256 ≤ y.issues → y.ready (!y.cur) = true → goes (.pathSwitchCount t g)
      ((s.setGroup t g { y with cur := !y.cur, issues := 0, latchA := none, latchB := none }).followSlot t g)) ∧
    (y.issues < 256 ∨ y.ready (!y.cur) = false → goes (.pathSwitchCount t g) s) ∧
    (x.status = .resident → 256 ≤ y.age → ∀ c, y.issueSlot = some c → goes (.groupAging t g)
      ({ ((s.setGroup t g { y with yieldHold := false }).turnTo ⟨t, g, c⟩) with chosenNext := true } : State)) ∧
    (y.age < 256 ∨ y.issueSlot = none → goes (.groupAging t g) s) ∧
    (y.yieldHold = true → 16 ≤ y.yieldCycles →
      goes (.yieldHoldExpire t g) ((s.setGroup t g { y with yieldHold := false }).followSlot t g)) ∧
    (y.yieldHold = false ∨ y.yieldCycles < 16 → goes (.yieldHoldExpire t g) s) ∧
    (∀ n, waits (.sleep n) →
      let u := s.at { team := t, group := g, slot := b } fun u => u.proceed (u.nextPc 1)
      goes (.sleepExpire t g b) u ∧ goes (.sleepWake t g b) u) ∧
    (∀ pages, waits (.walk pages) → goes (.tableWalkComplete t g b)
      ((pages.foldl (fun u p => u.tlbFill x.core root p.toNat) s).at { team := t, group := g, slot := b } fun u =>
        u.putPath { u.path with wait := none, walked := true })) ∧
    (∀ spans w, waits (.footprint spans w) →
      ends (.footprintWaitEnd t g b) (!s.interlocked t s.acceptSeq spans w)) ∧
    (∀ gs, waits (.tags gs) → ends (.footprintWaitEnd t g b) (!s.tagPending t s.acceptSeq gs)) ∧
    (∀ tile row, waits (.watermark tile row) →
      ends (.watermarkWaitEnd t g b) (decide (row < s.watermark t tile))) ∧
    (∀ tile, waits (.tileIdle tile) → ends (.watermarkWaitEnd t g b) (!s.tileBusy t tile)) ∧
    (∀ n, waits (.engineQueue (.copy n)) → ends (.engineQueueSpace t g b) (decide ((s.coreAt x.core).copyQ.length + n ≤ 64))) ∧
    (waits (.engineQueue .dcmp) → ends (.engineQueueSpace t g b) (decide (s.dcmpCount t < 64))) ∧
    (waits (.engineQueue .matrix) → ends (.engineQueueSpace t g b) (decide ((s.coreAt x.core).matrixQ.length < 8))) ∧
    (waits (.engineQueue .transform) → ends (.engineQueueSpace t g b) (decide ((s.coreAt x.core).transformQ.length < 2))) ∧
    (∀ e token, waits (.edgeSlot e token) → resumed (.edgeSlotFree t g b) (fun u => u.postToken e token)) ∧
    (∀ e wd ws, waits (.edgeToken e wd ws) → resumed (.edgeTokenArrive t g b) (fun u => u.takeToken e wd ws)) ∧
    (∀ i k entry, waits (.ringSpace i k entry) → resumed (.ringSpace t g b) (fun u => u.sendEntry i k entry)) ∧
    (∀ k wd pop, waits (.ringEntry k wd pop) → resumed (.ringEntryArrive t g b) (fun u => u.awaitEntry k wd pop)) ∧
    (∀ n, waits (.batch n) → resumed (.batchWaitEnd t g b) (fun u => u.waitBatch n true)) ∧
    (let u := s.drainCore x.core
     let again := fun (u : State) (b : Bool) => match u.waitNow t g b, (u.groupAt t g).slot b with
       | some .stores, some p =>
         u.setGroup t g ((u.groupAt t g).setSlot b (some { p with wait := none, released := true }))
       | _, _ => u
     u.storesPending t g = false ∧ goes (.storesReachSystemCache t g) (again (again u false) true)) ∧
    (s.live = true → ∀ mask, let u := s.endRegion mask
      u.path.region = none ∧ u.path.mask = mask ∧ ∀ p, s.group.slot (!s.focus.slot) = some p →
        u.group.slot (!s.focus.slot) = some (if p.wait = some .siblingRegion then { p with wait := none } else p)) ∧
    (∀ r rest i replay p, (s.regionAt r).active = true → s.faultRoom (s.regionAt r) = true →
      (s.regionAt r).waitingRecords = [] → s.waiters r Wait.forQueue = (t, g, b) :: rest → y.interrupted b = some p →
      p.wait = some (.faultQueue i replay) → goes (.faultQueueSpace r)
        ((s.setInterrupted t g b { p with wait := some (.parked (s.regionAt r).fqtail i replay) }).appendRecord r
          (s.faultRecordOf t g i))) ∧
    (∀ i adv, x.status = .resident → (y.slot b).bind (·.wait) = some (.memo i adv) →
      let region := (s.nodeAt x.node).region
      let u := s.actAll region i adv.isSome
      goes (.memoInstancesActed t g b) (u.finishWait t g b fun h =>
        match adv with
        | some wd => h.wset (u.variantOf x) wd (u.memoGen region i x.core)
        | none => h)) ∧
    (∀ i, y.trap = none → waits (.delivery i) → goes (.faultDelivery t g b)
      ((s.reissue t g b).at { team := t, group := g, slot := b } fun u => u.takeTrap i)) ∧
    goes (.tryGrant core) ((s.byAge core).foldl (fun u i =>
      if (u.teamAt i).request.valid && !(u.teamAt i).request.granted then
        (if (u.tryGrantTeam i).1 then (u.tryGrantTeam i).2.releaseGrow i 3 else (u.tryGrantTeam i).2)
      else u) s)

/-- R18, R193, R194, R206, R208, R210, R211, R213, R214, R224, R227, R228, R239, R240, R271, R273: one move of each engine.
The matrix engine starts its oldest operation and finishes it row by row in increasing order; the transform unit finishes its
oldest operation whole; the copy engine takes the job that its cluster's decompression engine is at, or else the first of its queue that can go
on, and writes one chunk, ends the job, or suspends or fails it at its start, in a chunk or at its end, and so does the
decompression engine. What a job writes to global memory the earlier jobs of its group leave alone from then on (R208): the bits that
a later job has written of a physical byte stay as they are. A cluster's decompression
engine, which copies of a stream use too, stays at the job it is at until that ends or stops, and else
takes that of the region of highest priority, the earliest accepted of these; its binning unit goes on with the job it is
at, and else takes the first to arrive of the highest priority, none of a halted or saved team. An engine that has to wait,
or has nothing to do, changes nothing. That the end of an ACCST and of a transform wakes the sleeping paths of its group is the
model's choice (log entry 27): R431 names the jobs of the group's batches.
The model's choices it rests on: log entries 11, 27, 32, 34, 35, 36, 58, 64, 68, 70 and 72. -/
def Obligations.EngineEventResults : Prop :=
  ∀ (s : State) (core cluster : Nat),
    let c := s.coreAt core
    let goes := fun (i : Instr) (t : State) => exec i s = .next t
    (c.matrixQ = [] → goes (.matrixOpStart core) s ∧ goes (.matrixRowFinal core) s) ∧
    (c.transformQ = [] → goes (.transformOpComplete core) s) ∧
    (s.copyHead core = none → goes (.copyChunk core) s) ∧
    (s.dcmpHead cluster = none → goes (.dcmpChunk cluster) s) ∧
    ((s.clusterAt cluster).binQ = [] → goes (.binningJob cluster) s) ∧
    (∀ o rest, c.matrixQ = o :: rest →
      let put := fun (t : State) (q : List MatrixOp) => t.setCore core { t.coreAt core with matrixQ := q }
      let ended := fun (t : State) => if o.kind.updates then t else t.wake o.team (· == o.group)
      let row := fun (i : Nat) => s.setTeam o.team ((s.teamAt o.team).matrixRow o i)
      (o.started = false → goes (.matrixOpStart core) (s.setCore core { c with matrixQ := { o with started := true } :: rest })) ∧
      (o.started = false ∨ s.matrixBlocked core o = true → goes (.matrixRowFinal core) s) ∧
      (o.started = true → s.matrixBlocked core o = false →
        (maskRows o.em0 o.row = [] → goes (.matrixRowFinal core) (ended (put s rest))) ∧
        (∀ i, maskRows o.em0 o.row = [i] → goes (.matrixRowFinal core) (ended (put (row i) rest))) ∧
        (∀ i j more, maskRows o.em0 o.row = i :: j :: more →
          goes (.matrixRowFinal core) (put (row i) ({ o with row := i + 1 } :: rest))))) ∧
    (∀ o rest, c.transformQ = o :: rest →
      (s.transformBlocked core o = true → goes (.transformOpComplete core) s) ∧
      (s.transformBlocked core o = false →
        let t := s.setTeam o.team ((s.teamAt o.team).runTransform o)
        goes (.transformOpComplete core) ((t.setCore core { t.coreAt core with transformQ := rest }).wake o.team
          (· == o.group)))) ∧
    (∀ j, s.copyHead core = some j →
      let m := s.nodeAt (s.teamAt j.team).node
      let x : CopyCtx := { core := core, root := (s.regionAt m.region).root, team := j.team, seq := j.seq, card := cardOf j.card
                           dcmp := none }
      let fails := fun (t : State) (f : JobStop) => goes (.copyChunk core)
        (((t.putCopy core j.seq (if f.reason = 0x10 then some { j with suspended := true } else none)).copyEngine j false).recordFault
          j.team j.group j.seq j.batch f)
      let ended := fun (t : State) => goes (.copyChunk core)
        (((t.putCopy core j.seq none).copyEngine j false).jobEnded j.team j.group)
      let y := s.copyEngine j true
      let goesOn := fun (i : CopyJob) => i.suspended = false ∧ s.copyHalted i = false
      let atHand := fun (i : CopyJob) => (s.clusterAt (core / 8)).dcmpAt = some i.seq ∧ goesOn i
      (∃ before after, c.copyQ = before ++ j :: after ∧ goesOn j ∧
        (atHand j ∨ (∀ i ∈ c.copyQ, ¬atHand i) ∧ ∀ i ∈ before, ¬goesOn i)) ∧
      (s.copyBlocked j = true → goes (.copyChunk core) s) ∧
      (s.copyBlocked j = false →
        (∀ f, y.copyStart x j m.region = .error f → fails y f) ∧
        (∀ t k, y.copyStart x j m.region = .ok (t, k) →
          let z := { x with dcmp := k.dcmp }
          (k.chunk < x.card.chunks →
            (∀ f, t.copyStep z k = .error f → fails t f) ∧
            ∀ t' k', t.copyStep z k = .ok (t', k') →
              (k'.chunk < x.card.chunks ∨ k'.hash.isSome = true ∨ k'.dcmp.isSome = true →
                goes (.copyChunk core) (t'.putCopy core k'.seq (some k'))) ∧
              (x.card.chunks ≤ k'.chunk → k'.hash = none → k'.dcmp = none → ended t')) ∧
          (x.card.chunks ≤ k.chunk →
            (∀ f, t.copyFinish z k = .error f → fails t f) ∧
            ∀ t', t.copyFinish z k = .ok t' → ended t')))) ∧
    (∀ (seq team group : Nat) (l : List (Nat × Byte)), s.jobGroup seq = some (team, group) →
      let t := s.takeBytes seq l
      let earlier := fun (u g k : Nat) => u = team ∧ g = group ∧ k < seq
      (∀ i, (t.coreAt i).copyQ = (s.coreAt i).copyQ.map fun j =>
        if earlier j.team j.group j.seq then { j with taken := j.taken ++ takenRuns l } else j) ∧
      (∀ i, (t.clusterAt i).dcmpQ = (s.clusterAt i).dcmpQ.map fun j =>
        if earlier j.team j.group j.seq then { j with taken := j.taken ++ takenRuns l } else j)) ∧
    (∀ (l : List (Nat × Byte)) (a : Nat), takenMask (takenRuns l) a = l.foldl (fun m p => if p.1 = a then m ||| p.2 else m) 0) ∧
    (∀ (root seq va : Nat) (bs : List (Byte × Byte)) (ps : List (Nat × Nat)) (u t : State),
      s.enginePages core root va bs.length true false (bs.length / 4096 + 2) = .ok (ps, u) →
      s.engineMerge core root seq va bs = .ok t →
      let at_ := ps.flatMap fun p => (List.range p.2).map (p.1 + ·)
      (∀ a, a ∉ at_ → t.byteAt a = u.byteAt a) ∧
      (at_.Nodup → ∀ (i a : Nat) (m b : Byte), at_[i]? = some a → bs[i]? = some (m, b) →
        let n := m &&& ~~~(takenMask (u.takenFrom seq) a)
        t.byteAt a = (u.byteAt a &&& ~~~n) ||| (b &&& n))) ∧
    (∀ e, s.engineHead cluster = some e → e ∈ s.engineJobs cluster ∧
      ((s.clusterAt cluster).dcmpAt = some e.seq ∨ ∀ i ∈ s.engineJobs cluster, (s.clusterAt cluster).dcmpAt ≠ some i.seq ∧
        (s.teamPrio i.team < s.teamPrio e.team ∨ s.teamPrio i.team = s.teamPrio e.team ∧ e.seq ≤ i.seq))) ∧
    (∀ j, s.dcmpHead cluster = some j →
      let at_ := (s.teamAt j.team).core
      let m := s.nodeAt (s.teamAt j.team).node
      let root := (s.regionAt m.region).root
      let d := dcmpCardOf j.card.toNat
      let fails := fun (t : State) (k : DcmpJob) (f : JobStop) =>
        (f.reason = 0x10 → goes (.dcmpChunk cluster)
          (((t.putDcmp cluster k.seq (some { k with suspended := true })).engineAt cluster none).recordFault
            k.team k.group k.seq k.batch f)) ∧
        (f.reason ≠ 0x10 → goes (.dcmpChunk cluster)
          ((((t.dcmpFailed at_ root m.det d k).putDcmp cluster k.seq none).engineAt cluster none).recordFault
            k.team k.group k.seq k.batch f))
      let y := s.engineAt cluster (some j.seq)
      (∀ f, y.dcmpStart at_ root d j = .error f → fails y j f) ∧
      ∀ t k, y.dcmpStart at_ root d j = .ok (t, k) →
        (k.chunk < d.nChunk →
          (∀ f, t.dcmpStep at_ root m.det d k = .error f → fails t k f) ∧
          ∀ t' k', t.dcmpStep at_ root m.det d k = .ok (t', k') →
            goes (.dcmpChunk cluster) (t'.putDcmp cluster k'.seq (some k'))) ∧
        (d.nChunk ≤ k.chunk →
          (∀ f, t.dcmpFinish at_ root m.det d k (if k.malformed then 1 else 0) = .error f → fails t k f) ∧
          ∀ t', t.dcmpFinish at_ root m.det d k (if k.malformed then 1 else 0) = .ok t' →
            goes (.dcmpChunk cluster) (((t'.putDcmp cluster k.seq none).engineAt cluster none).jobEnded k.team k.group))) ∧
    (let k := s.clusterAt cluster
     let waiting := k.binQ.filter fun p => (s.teamAt p.team).status ≠ .halted ∧ (s.teamAt p.team).status ≠ .saved
     let prio := fun (p : MeshPrim) => (s.regionAt (s.nodeAt p.node).region).prio
     (waiting = [] → goes (.binningJob cluster) s) ∧
     ∀ before p after, waiting = before ++ p :: after →
      (k.binJob = some p.job ∧ (∀ o ∈ before, k.binJob ≠ some o.job) ∨
        (∀ o ∈ waiting, k.binJob ≠ some o.job) ∧ (∀ o ∈ before, prio o < prio p) ∧ ∀ o ∈ after, prio o ≤ prio p) →
      let t := s.setCluster cluster { k with binQ := k.binQ.erase p, binJob := some p.job }
      let m := s.nodeAt p.node
      (m.failing = none → m.state = .running → goes (.binningJob cluster) (t.binPrim p)) ∧
      (m.failing.isSome = true ∨ m.state ≠ .running → goes (.binningJob cluster) t))

/-- R33, R49, R50, R61, R64, R65, R66, R67, R69, R71, R80, R81, R82, R85, R86, R87, R88, R264, R274, R287, R289, R290, R301: Gamelan validates a record and
takes it, or rejects it with its written-resource list, fails a node, makes a node ready while the pool has room, places an
ensemble or holds the cores that come free for it, retires a finished team, switches the variant of a drained team whose grant
stands, halts, saves and restores ensembles, whose drained switches are decided again. What the rules do not allow changes
nothing. What a placed team and its groups start with, what a halt leaves of a path, what a restored team takes from its image, what a
switch moves and what a retirement leaves stand in fields of the state. The retry of the waiting grants after a restore and the wake
of a team after its switch are the model's choices (log entry 27).
The model's choices it rests on: log entries 11, 16, 27, 29, 37, 39, 43, 45, 46, 47, 48, 49, 62, 63, 66, 71
and 73. -/
def Obligations.NodeEventResults : Prop :=
  ∀ (s : State) (r i t e core image : Nat) (cores images privs : List Nat),
    let goes := fun (j : Instr) (u : State) => exec j s = .next u
    let x := s.regionAt r
    let n := s.nodeAt i
    let y := s.teamAt t
    (x.active = true → x.qhead ≠ x.qtail → s.poolFull = false →
      let addr := x.qbase + 256 * x.qhead
      let raw := memRead s.mem addr 256
      let head := (x.qhead + 1) % 2 ^ x.logq
      let u := (s.setRegion r { x with qhead := head }).writePhys (x.rcb + 0x10) 4 head
      let rec_ := nodeOf r addr raw
      let k := u.nodes.length
      let listed := u.readResources x.root (fieldOf raw 0xF0 8)
      let rejected := fun (rs : List Resource) (faults : List AccessFault) (z : BitVec 8) => goes (.nodeValidate r)
        ((faults.foldl (fun (v : State) f => v.nodeFault k f) { u with nodes := u.nodes ++ [{ rec_ with
          state := .submitted, resources := rs
          pass := if rec_.kind = 2 then (u.namedPass r rec_.passRef).map (·.opener) else none }] }).failNode k z)
      (∀ z f rs, u.checkNode rec_ raw = .error ⟨z, f⟩ → listed = .ok rs → rejected rs f.toList z) ∧
      (∀ z f e, u.checkNode rec_ raw = .error ⟨z, f⟩ → listed = .error e →
        rejected [] (f.toList ++ if z = 0x0B ∧ f.isSome = true then [] else e.fault.toList) z) ∧
      (∀ m, u.checkNode rec_ raw = .ok (m, none) →
        let v := ({ u with nodes := u.nodes ++ [m] } : State).enter k .submitted
        goes (.nodeValidate r) ((if v.conditionsMet m then v else v.enter k .waiting).noteMissed k)) ∧
      (∀ m p targets, u.checkNode rec_ raw = .ok (m, some (p, targets)) →
        let v := (({ u with nodes := u.nodes ++ [m] } : State).enter k .submitted).joinPass k p targets
        goes (.nodeValidate r) ((if v.conditionsMet m then v else v.enter k .waiting).noteMissed k))) ∧
    (x.active = false ∨ x.qhead = x.qtail ∨ s.poolFull = true → goes (.nodeValidate r) s) ∧
    (s.failReason i = none → goes (.nodeFail i) s) ∧
    (∀ z, s.failReason i = some z → n.failing.isSome = true ∨ z ≠ 0x04 → goes (.nodeFail i) (s.failNode i z)) ∧
    (∀ f, s.failReason i = some 0x04 → n.failing = none → s.edgeFaultOf n = some f →
      goes (.nodeFail i) ((s.nodeFault i f).failNode i 0x04)) ∧
    (s.poolFull = true → goes (.nodeReady i) s) ∧
    (i < s.nodes.length → n.state = .submitted ∨ n.state = .waiting → s.failReason i = none → s.conditionsMet n = true →
      s.poolFull = false →
      let u := s.enter i .ready
      let v := u.closePass i
      (n.kind ≠ 2 → goes (.nodeReady i) u) ∧
      (n.kind = 2 → ((v.passOf n).map fun p => p.tiles.isEmpty).getD true = false → goes (.nodeReady i) v) ∧
      (n.kind = 2 → ((v.passOf n).map fun p => p.tiles.isEmpty).getD true = true →
        goes (.nodeReady i) (v.completeNode i []))) ∧
    (let g := s.regionAt n.region
     let vs := s.variantsOn n cores
     s.mayPlace i = true → s.topPlaceable i = true → s.coresAllowed i cores = true →
      imagesFree g.save g.saveSize (vs.map fun v => (n.variant v).imageBytes) images (s.usedImages n.region s.teams.length)
        = true →
      privs.length = n.privCount vs → s.privsFree n.region n.privBytes privs (s.usedPrivs n.region) = true →
      let u := (s.placeTeams i 0 (s.ensemblePositions n n.placed) cores images privs).setNode i
        { n with placed := n.placed + 1, hold := false, heldCores := [] }
      goes (.ensemblePlacement i cores images privs) (if n.state = .ready then u.enter i .running else u)) ∧
    (s.mayPlace i = false → goes (.ensemblePlacement i cores images privs) s) ∧
    (s.unplaced i = true → s.mayPlace i = false → goes (.placementHold i)
      (s.setNode i { n with hold := true, heldCores := if n.hold = true then n.heldCores else [] })) ∧
    (s.mayRetire t = false → goes (.teamRetire t) s) ∧
    (s.mayRetire t = true →
      let p := (s.drainCore y.core).appendTokens y.node y.tokenOrder
      let u := p.1.setTeam t { p.1.teamAt t with tokens := p.2 }
      (p.2 ≠ [] → goes (.teamRetire t) u) ∧
      (p.2 = [] → goes (.teamRetire t) ((y.entryOverflow.foldl (fun v a => v.flagOverflow y.node a)
        (y.entries.foldl (fun v a => v.appendEntry y.node a) u)).retireTeam t))) ∧
    (s.growDeadlocked core = true → ∀ k, (s.byAge core).getLast? = some k →
      goes (.growDeadlockSpill core) (s.haltEnsemble (s.teamAt k).node (s.teamAt k).ens)) ∧
    (s.growDeadlocked core = false → goes (.growDeadlockSpill core) s) ∧
    (let m := s.nodeAt y.node
     let bar := y.barrier switchBarrier
     let goal := m.variant y.request.target
     let g := s.regionAt m.region
     (y.request.granted = false → goes (.variantSwitch t image privs) s) ∧
     (y.status = .resident → bar.draining = true → y.request.granted = true → s.teamDrained t = true → s.reentering t = false →
      image % 65536 = 0 →
      rangeFree g.save g.saveSize (s.usedImages m.region t) image goal.imageBytes = true →
      privs.length = (if m.priv = 0 then 0 else goal.groups - (s.variantOf y).groups) →
      s.privsFree m.region m.privBytes privs (s.usedPrivs m.region) = true →
      let k := bar.samePoint.getD 0
      let u := (s.setTeam t ((y.switched m k image privs).setBarrier switchBarrier { phase := bar.phase + 1 })).zeroPrivate
        y.node y.core m.privBytes privs
      goes (.variantSwitch t image privs) ((((u.slotsOf t).foldl (fun v p =>
        match v.waitOf t p.1 p.2 with
        | some (.switchPoint _) => v.at { team := t, group := p.1, slot := p.2 } fun v =>
            v.proceed (m.codeVa (goal.swOff.getD k 0 + 4))
        | _ => v) u).wake t fun _ => true).freedFrom s y.core))) ∧
    ((s.regionAt n.region).preemptAsked = true → (i, e) ∈ s.residentEnsembles → goes (.preemption i e) (s.haltEnsemble i e)) ∧
    (s.nextVictim = some (i, e) → goes (.preemption i e) (s.haltEnsemble i e)) ∧
    (s.saveReady t = true → ∃ u, goes (.contextSave t) u ∧ (u.teamAt t).status = .saved ∧
      (u.teamAt t).request.granted = false ∧ (∀ j ∈ (u.coreAt y.core).copyQ, j.team ≠ t)) ∧
    (s.saveReady t = false → goes (.contextSave t) s) ∧
    (s.mayRestore i e = true → s.topRestorable i = true → s.restoreAllowed i (s.savedTeams i e) cores = true →
      goes (.ensembleRestore i e cores) (cores.foldl State.retryGrants
        ((s.savedTeams i e).foldl State.checkSwitch (s.restoreTeams (s.savedTeams i e) cores)))) ∧
    (s.mayRestore i e = false → goes (.ensembleRestore i e cores) s) ∧
    (∀ (x y z k image : Nat) (privs : List Nat),
      let a := (s.placeTeam i (x, y, z) k core image privs).teamAt s.teams.length
      let b := n.variant a.variant
      a.status = .resident ∧ a.node = i ∧ a.ens = n.placed ∧ a.ensIx = k ∧ a.core = core ∧ a.image = image ∧
      (a.x, a.y, a.z) = (x, y, z) ∧ a.variant = (s.chooseVariant n core).getD 0 ∧ a.sp = [] ∧ a.gtags = [] ∧ a.acc = [] ∧
      a.barriers = [] ∧ a.rings = [] ∧ a.request = {} ∧ a.groups.length = b.groups ∧
      (n.det = true → a.rank = n.placed ∧ a.tag = BitVec.ofNat 16 (1 + n.placed % 65535)) ∧
      ∀ g < b.groups,
        let h := a.groupAt g
        let start := fun (mask : LaneMask) => ({ pc := n.codeVa b.entry, mask := mask } : Path)
        h.wregs = [] ∧ h.masks = [] ∧ h.flags = 0 ∧ h.docc = 0 ∧ h.trap = none ∧ h.batch = 1 ∧ h.path1 = none ∧
        h.record = BitVec.ofNat 64 (b.recordAt image g) ∧ h.dsbase = BitVec.ofNat 64 (b.recordAt image g + 0xFC00) ∧
        h.pbase = BitVec.ofNat 64 (privs.getD g 0) ∧
        (n.kind ≠ 2 → h.path0 = some (start (BitVec.allOnes 64)) ∧ h.live = BitVec.allOnes 64 ∧ h.vregs = [] ∧ h.preds = []) ∧
        (n.kind = 2 → h.path0 = (if h.live = 0 then none else some (start h.live)) ∧ ∀ l < 64,
          let v := fun (r : Nat) => mapGet 0 h.vregs (64 * r + l)
          match s.fragmentLane n b.groups x y z (64 * g + l) with
          | some (d, p) => h.live.getLsbD l = true ∧ h.helper.getLsbD l = false ∧ (mapGet 0 h.preds 1).getLsbD l = true ∧
            v 0 = p.key ∧ v 1 = p.draw.setWidth 32 ∧ v 4 = d
          | none => h.helper.getLsbD l = h.live.getLsbD l ∧ (mapGet 0 h.preds 1).getLsbD l = false ∧
            (h.live.getLsbD l = true → v 0 = 0xFFFFFFFF ∧ v 1 = 0 ∧ v 2 = 0 ∧ v 3 = 0 ∧ v 4 = 0))) ∧
    (t < s.teams.length →
      let u := s.retireTeam t
      let m := s.nodeAt y.node
      (u.teamAt t).status = .retired ∧
      (s.lastTeam t = true → y.node < s.nodes.length → m.teamKilled = false → m.failing = none → m.finished = false →
        m.late = false → (u.nodeAt y.node).state = .complete)) ∧
    (let u := s.haltEnsemble i e
     let taken := fun (k : Nat) => k ∈ s.ensembleTeams i e ∧ (s.teamAt k).status = .resident
     u = { s with teams := u.teams } ∧ (∀ k, ¬taken k → u.teamAt k = s.teamAt k) ∧
     ∀ k, taken k →
      let a := s.teamAt k
      let z := u.teamAt k
      z = { a with status := .halted, groups := z.groups } ∧ z.groups.length = a.groups.length ∧
      ∀ g < a.groups.length,
        let h := a.groupAt g
        let l := z.groupAt g
        l = { h with path0 := l.path0, path1 := l.path1, latchA := none, latchB := none } ∧
        ∀ b, (h.slot b = none → l.slot b = none) ∧
          ∀ p, h.slot b = some p → ∃ q, l.slot b = some q ∧ q.mask = p.mask ∧ q.fi = p.fi ∧ q.fv = p.fv ∧ q.region = p.region ∧
            ((∃ c, p.wait = some (.sleep c)) → q.pc = p.pc + 4) ∧ ((∀ c, p.wait ≠ some (.sleep c)) → q.pc = p.pc) ∧
            (p.wait = none → q.wait = none) ∧ ∀ w, p.wait = some w →
              let answered := (∃ c d f, w = .parked c d f) ∨ (∃ c d, w = .faultQueue c d) ∨ ∃ c, w = .delivery c
              let entered := (∃ c d, w = .barrier c d) ∨ (∃ c, w = .switchPoint c) ∨ ∃ c d, w = .regroup c d
              (answered → q.wait = some w) ∧ (¬answered → q.wait = none) ∧ (entered → q.again = some { wait := w })) ∧
    (t < s.teams.length →
      let u := s.restoreTeam t core
      let z := u.teamAt t
      let v := s.variantOf y
      u.mem = s.mem ∧ z.status = .resident ∧ z.core = core ∧ z.variant = y.variant ∧ z.groups.length = y.groups.length ∧
      (∀ o < v.scratch, z.padByte o = s.byteAt (y.image + v.padOffset + o)) ∧
      (∀ k < 1024 * v.acc, mapGet 0 z.acc k = BitVec.ofNat 32 (s.readPhys (y.image + 0x1000 + 4 * k) 4)) ∧
      (∀ k < 17, (z.barrier k).phase = BitVec.ofNat 32 (s.readPhys (y.image + 0x10 + 8 * k) 4) ∧
        (z.barrier k).arrived = BitVec.ofNat 16 (s.readPhys (y.image + 0x14 + 8 * k) 2)) ∧
      ∀ g < y.groups.length,
        let a := y.groupAt g
        let h := z.groupAt g
        let r := a.record.toNat
        let block := if a.trap.isSome = true then r + 0x80 else r
        let own := r + 0x4000
        h.docc = BitVec.ofNat 32 (s.readPhys (block + 60) 4) ∧ h.flags = BitVec.ofNat 5 (s.readPhys (own + 0x2A0) 1) ∧
        h.batch = BitVec.ofNat 64 (s.readPhys (r + 0x3000) 8) ∧ h.latchA = none ∧ h.latchB = none ∧
        (∀ k l, v.hasV k = true → l < 64 →
          mapGet 0 h.vregs (64 * k + l) = BitVec.ofNat 32 (s.readPhys (own + 0x300 + 256 * k + 4 * l) 4)) ∧
        (∀ k, 1 ≤ k → k < 64 → v.hasW k = true → mapGet 0 h.wregs k = BitVec.ofNat 64 (s.readPhys (own + 8 * k) 8)) ∧
        (∀ k, 1 ≤ k → k < 8 → mapGet 0 h.preds k = BitVec.ofNat 64 (s.readPhys (own + 0x200 + 16 * k) 8)) ∧
        ∀ b, let c := s.readPhys (block + 52 + 4 * b.toNat) 1
          (c % 2 = 0 → h.slot b = none) ∧
          (c % 2 = 1 → ∃ p, h.slot b = some p ∧ p.pc = BitVec.ofNat 64 (s.readPhys (block + 8 * b.toNat) 8) ∧
            p.mask = BitVec.ofNat 64 (s.readPhys (block + 20 + 16 * b.toNat) 8) ∧ p.fi = BitVec.ofNat 5 (c / 2) ∧
            p.fv = c.testBit 6)) ∧
    (∀ k,
      let m := s.nodeAt y.node
      let own := m.variant y.variant
      let goal := m.variant y.request.target
      let z := y.switched m k image privs
      let keep := min own.scratch goal.scratch
      let moves := liveMoves (((m.image.maps.find? fun p => p.1 = k).map (·.2)).getD [])
      y.groups.length = own.groups →
      z.variant = y.request.target ∧ z.request = {} ∧ z.image = image ∧ z.groups.length = goal.groups ∧
      (∀ o, z.padByte o = if o < keep then y.padByte o else 0) ∧
      (∀ o, mapGet 0 z.gtags o = if 1024 * o < keep then mapGet 0 y.gtags o else 0) ∧
      (∀ f, mapGet 0 z.acc f = if f < 1024 * min own.acc goal.acc then mapGet 0 y.acc f else 0) ∧
      (∀ g < min own.groups goal.groups,
        let a := y.groupAt g
        let h := z.groupAt g
        let named := fun (c dst : Nat) => ∃ src, (src, dst) ∈ moves c y.variant y.request.target
        let from_ := fun (c src dst : Nat) => (src, dst) ∈ moves c y.variant y.request.target ∧
          ∀ o, (o, dst) ∈ moves c y.variant y.request.target → o = src
        h.flags = a.flags ∧ h.masks = a.masks ∧ h.live = a.live ∧
        (∀ src dst l, l < 64 → from_ 0 src dst → mapGet 0 h.vregs (64 * dst + l) = mapGet 0 a.vregs (64 * src + l)) ∧
        (∀ dst l, l < 64 → ¬named 0 dst → mapGet 0 h.vregs (64 * dst + l) = 0) ∧
        (∀ src dst, dst ≠ 0 → from_ 1 src dst → mapGet 0 h.wregs dst = mapGet 0 a.wregs src) ∧
        (∀ dst, ¬named 1 dst → mapGet 0 h.wregs dst = 0) ∧
        (∀ src dst, dst ≠ 0 → from_ 2 src dst → mapGet 0 h.preds dst = mapGet 0 a.preds src) ∧
        (∀ dst, ¬named 2 dst → mapGet 0 h.preds dst = 0)) ∧
      ∀ g, own.groups ≤ g → g < goal.groups →
        let h := z.groupAt g
        h.path0 = some { pc := m.codeVa (goal.swOff.getD k 0 + 4), mask := BitVec.allOnes 64 } ∧ h.path1 = none ∧
        h.live = BitVec.allOnes 64 ∧ h.vregs = [] ∧ h.preds = [] ∧ (0 < own.groups → h.wregs = (z.groupAt 0).wregs))

/-! ## The whole machine -/

/-- R307: after reset no region is active, the key store is empty and every core is idle: no team is placed, no path can
issue, no engine holds work; no event is due, no alarm stands, and memory is in canonical form.
The model's choices it rests on: log entries 1 and 6. -/
def Obligations.ResetState : Prop :=
  (∀ r, (State.reset.regionAt r).active = false) ∧ (∀ r, mapGet none State.reset.keys r = none) ∧
  State.reset.teams = [] ∧ State.reset.nodes = [] ∧ State.reset.issuers = [] ∧
  (∀ c, (State.reset.coreAt c).matrixQ = [] ∧ (State.reset.coreAt c).transformQ = [] ∧
    (State.reset.coreAt c).outgoing = [] ∧ (State.reset.coreAt c).l1 = []) ∧
  State.reset.units = [] ∧ State.reset.nextEvent = none ∧ State.reset.alarm = false ∧ Memory.wf State.reset.mem

/-- Memory keeps its canonical form (R22): whatever instruction or event a step runs, an address is listed at most once, in
rising order, and never with the byte that an unlisted address reads as.
The model's choices it rests on: log entry 1. -/
def Obligations.StepKeepsMemoryForm : Prop :=
  ∀ (s t : State), Memory.wf s.mem → step s = .next t → Memory.wf t.mem

/-- R100 to R107: decoding the words of any well-formed instruction gives the instruction back and leaves the words after it;
and a word that decodes is the word of the instruction it decodes to, its literal the word after it. -/
def Obligations.EncodeDecodeRoundTrip : Prop :=
  (∀ (i : Instr) (rest : List (BitVec 32)), i.wellFormed = true → decode (encode i ++ rest) = .ok (i, rest)) ∧
  ∀ (w lit : BitVec 32) (i : Instr), decodeWord w lit = .ok i →
    i.wellFormed = true ∧ (encode i = [w] ∨ encode i = [w, lit])

/-- R113, R114, R118: words that the spec prints decode to the instructions it prints beside them, in every family, and words
that it reserves are rejected with the reason it gives.
The model's choices it rests on: log entry 42. -/
def Obligations.DecodeWords : Prop :=
  let ok := fun (w : BitVec 32) (i : Instr) => decodeWord w 0 = .ok i
  (ok 0x06143070 (.and 5 6 7 false false) ∧ ok 0x0C040828 (.icmp 1 1 2 2 false false) ∧
    ok 0x221007FE (.movi 4 0x3FF) ∧ ok 0x1210082C (.madw 4 1 2 false false) ∧ ok 0x12103080 (.iadd64 4 6 8 false false)) ∧
  (ok 0x24284040 (.fadd 10 8 4 false false) ∧ ok 0x2A201038 (.hfmap 8 2 3 false false) ∧ ok 0x2E0C2004 (.rsq 3 4 false) ∧
    ok 0x320C2054 (.cvt 3 4 0 5 1 false) ∧ ok 0x34242080 (.qe4 9 4 8 false false) ∧ ok 0x38143070 (.shfl 5 6 7 false false)) ∧
  (ok 0x44183880 (.ldw 6 7 4 0) ∧ ok 0x4A0C10A0 (.stb 3 2 5 0) ∧ ok 0x56103008 (.atomd 4 6 0 8) ∧
    ok 0x580C0882 (.ldl 3 1 4 2) ∧ ok 0x60404141 (.tex 16 8 10 1) ∧ ok 0x66404142 (.rayq 16 8 10 2) ∧
    ok 0x68001080 (.prf 2 4 0)) ∧
  (ok 0x84189FFF (.uaddi 3 4 0x1FFF) ∧ ok 0x8E188284 (.ufadd 3 4 5 4) ∧ ok 0x90180030 (.srd 3 0x30) ∧
    ok 0x94003220 (.ballot 3 1 0) ∧ ok 0x94106000 (.bcast 4 6) ∧ ok 0x99D72008 (.uldd 58 57 8) ∧
    decodeWord 0x88200000 0x400 = .ok (.uli 4 0x400)) ∧
  (ok 0xAE07E000 (.ret 63) ∧ ok 0xB8000000 (.bar 0) ∧ ok 0xBA000034 (.fence 3 4) ∧ ok 0xBC700000 (.batch 14) ∧
    ok 0xBE188280 (.msend 3 4 5 0)) ∧
  (ok 0xC00082A0 (.cpyq 4 5) ∧ ok 0xC2082400 (.mma 0 16 18) ∧ ok 0xC4001630 (.accst 0 22) ∧ ok 0xC6020A30 (.dtag 4 5) ∧
    ok 0xC6401210 (.ixft 2 9) ∧ ok 0xC800C002 (.emset 6 2) ∧ ok 0xCA008289 (.epost 4 5 9) ∧ ok 0xCA20C012 (.etake 4 6 2)) ∧
  (ok 0xD000E0A3 (.mbegin 7 1 2 3) ∧ ok 0xD2040010 (.mkey 1 1) ∧ ok 0xD4009001 (.mxclUniform 9) ∧ ok 0xD6080000 (.mout 2) ∧
    ok 0xDC280220 (.mstat 5 4 0) ∧ ok 0xE220300F (.fout 8 3 0 0xF) ∧ ok 0xE4000400 (.disc 2)) ∧
  (ok 0xE600A004 (.regrp 5 4) ∧ ok 0xF0000007 (.trap 7) ∧ ok 0xF2070010 (.tsave 56) ∧ ok 0xF4280023 (.rgroww 5 3) ∧
    ok 0xF6288010 (.scast 5 4) ∧ ok 0xF8008290 (.cctli 4 5) ∧ ok 0xFA00A010 (.sleep 5)) ∧
  (ok 0xFE06C000 (.pfx 0 false false 3 3 0) ∧ ok 0xFE000400 (.pfx 0 false false 0 0 8)) ∧
  (decodeWord 0x0200000C 0 = .error .reservedFn ∧ decodeWord 0x5E000000 0 = .error .reservedMajor ∧
    decodeWord 0x9E000000 0 = .error .reservedMajor ∧ decodeWord 0xFE000001 0 = .error .mustBeZero ∧
    decodeWord 0xFE0C0000 0 = .error .operandRange ∧ decodeWord 0xFE014000 0 = .error .operandRange ∧
    decodeWord 0x12082080 0 = .ok (.iadd64 2 4 8 false false) ∧ decodeWord 0x120C2080 0 = .error .misalignedRegister)

/-- R106, R107, R116, R384: where a path has the turn and the word at its program counter decodes, a step is `exec` of that
instruction; where the word is a PFX, the step is `exec` of the instruction after it with the prefix pending. Reached on its
own, a PFX changes nothing but the pending prefix.
The model's choices it rests on: log entries 7 and 38. -/
def Obligations.StepRunsDecodedInstruction : Prop :=
  (∀ (s u v : State) (f : Focus) (a : Nat) (p : PassedUnit) (i : Instr),
    s.PathTurn f u → u.Fetches a p v → p.literals.contains (a % 4096 / 4) = false → v.breakpoint v.path.pc = none →
    (decodeWord (v.wordAt a) (v.wordAt (a + 4)) = .ok i → (∀ pm pinv zm rnd scope vc, i ≠ .pfx pm pinv zm rnd scope vc) →
      step s = exec i v) ∧
    (∀ pm pinv zm rnd scope vc, decodeWord (v.wordAt a) (v.wordAt (a + 4)) = .ok (.pfx pm pinv zm rnd scope vc) →
      decodeWord (v.wordAt (a + 4)) 0 = .ok i → step s = exec i { v with pending := some ⟨pm, pinv, zm, rnd, scope, vc⟩ })) ∧
  ∀ (s : State) (pm : BitVec 3) (pinv zm : Bool) (rnd scope : BitVec 3) (vc : BitVec 7),
    exec (.pfx pm pinv zm rnd scope vc) s = .next { s with pending := some ⟨pm, pinv, zm, rnd, scope, vc⟩ }

/-- R116, R285, Tables 16.1 and 16.2: what a fetch traps on, in the path whose turn it is: a program counter that no word
starts at, a page absent or malformed, a word of no passed unit, a literal, a breakpoint. Then single step: where the host has
set it, an instruction of a path outside trap mode has its effect, and the path traps behind it with cause 0x11 and the next
program counter in TPC, its slot still at the instruction; in trap mode none does.
The model's choices it rests on: log entries 7, 38, 42, 67 and 74. -/
def Obligations.FetchTraps : Prop :=
  (∀ (s : State), s.live = true → s.path.region = none → s.singleStep s.region = true →
    ∀ (v va vb : BitVec 7) (w wa wb : BitVec 6) (disp : BitVec 22) (d13 : BitVec 13) (ha hb : Bool),
    let steps := fun (i : Instr) (t : State) (pc : BitVec 64) =>
      (s.group.trap = none → exec i s = .next (({ t.putPath { s.path with walked := false, released := false, bpSkip := false, again := none } with
        pending := none } : State).raiseTrap { cause := 0x11, tpc := pc, mask := s.path.mask } false)) ∧
      (s.group.trap.isSome = true → exec i s = .next (t.issued pc))
    let far := s.path.pc + 4 * disp.signExtend 64
    steps .nop s (s.nextPc 1) ∧ steps (.bra disp) s far ∧
    steps (.bz wa d13) s (if s.uni wa = 0 then s.path.pc + 4 * d13.signExtend 64 else s.nextPc 1) ∧
    steps (.call disp) (s.writeW 63 (s.path.pc + 4)) far ∧
    steps (.uadd w wa wb) (s.writeW w (BitVec.ofNat 64 ((s.uni wa).toNat + (s.uni wb).toNat))) (s.nextPc 1) ∧
    ∃ a b, steps (.iadd v va vb ha hb) ((s.laneResult v.toNat fun l =>
      BitVec.ofNat 32 ((s.lane va l).toNat + (s.lane vb l).toNat)).putLatch a b) (s.nextPc 1)) ∧
  ∀ (s u : State) (f : Focus), s.PathTurn f u →
    let pc := u.path.pc.toNat
    let w := u.translate u.team.core u.region.root pc
    (pc % 4 ≠ 0 → step s = .next (u.trapped 0x04 u.path.pc 0)) ∧
    (pc % 4 = 0 → w = .absent → step s = .next (u.trapped 0x02 u.path.pc 0)) ∧
    (pc % 4 = 0 → w = .malformed → step s = .next (u.trapped 0x03 u.path.pc 7)) ∧
    (pc % 4 = 0 → ∀ e, w = .leaf e → u.units.find? (fun x => x.unit == e.physical pc / 4096) = none →
      step s = .next (u.trapped 0x03 u.path.pc 2)) ∧
    ∀ (v : State) (a : Nat) (p : PassedUnit), u.Fetches a p v →
      (p.literals.contains (a % 4096 / 4) = true → step s = .next (v.trapped 0x03 v.path.pc 1)) ∧
      (p.literals.contains (a % 4096 / 4) = false → ∀ k, v.breakpoint v.path.pc = some k →
        step s = .next (v.trapped 0x10 0 (BitVec.ofNat 64 k)))

/-! ## Frames -/

/-- R9, R89, R96, R99, R108: what the results that LaneSettles and Settles speak of leave of the registers. One result changes
its own register in the active lanes, in the lanes that zm zeroes, and nothing else of the register files; FLAGS only gain
the flags raised; memory, every other team and every special register stay. -/
def Obligations.RegisterFrames : Prop :=
  ∀ (s : State), s.live = true → ∀ (a b : Option Latch) (pc : BitVec 64) (n : Nat) (f : Nat → Word)
      (r : Nat → Word × BitVec 5) (d : Nat → DWord) (pn : BitVec 3) (test : Nat → Bool) (wn : BitVec 6) (x : DWord),
    let lane := fun (m l : Nat) (y : Word) =>
      if s.holdsV m then if s.zeroed.getLsbD l then 0 else if s.active.getLsbD l then y else s.vreg m l else s.vreg m l
    let same := fun (t : State) => s.KeepsOthers t ∧ ∀ y, t.byteAt y = s.byteAt y
    let sameV := fun (t : State) => ∀ m l, l < 64 → t.vreg m l = s.vreg m l
    let sameU := fun (t : State) => ∀ m, t.uni m = s.uni m
    let sameP := fun (t : State) => ∀ m, t.group.pget m = s.group.pget m
    let sameF := fun (t : State) => t.group.flags = s.group.flags
    let one := ((s.laneResult n f).putLatch a b).issued pc
    let flagged := ((s.flaggedResult n r).putLatch a b).issued pc
    let pair := ((s.pairResult n d).putLatch a b).issued pc
    let pred := ((s.predResult pn test).putLatch a b).issued pc
    let uni := (s.writeW wn x).issued pc
    (same one ∧ sameU one ∧ sameP one ∧ sameF one ∧
      ∀ m l, l < 64 → one.vreg m l = if m = n then lane n l (f l) else s.vreg m l) ∧
    (same flagged ∧ sameU flagged ∧ sameP flagged ∧
      flagged.group.flags = s.group.flags ||| s.laneFlags (fun l => (r l).2) ∧
      ∀ m l, l < 64 → flagged.vreg m l = if m = n then lane n l (r l).1 else s.vreg m l) ∧
    (same pair ∧ sameU pair ∧ sameP pair ∧ sameF pair ∧
      ∀ m l, l < 64 → pair.vreg m l =
        if m = n then lane n l ((d l).extractLsb' 0 32)
        else if m = n + 1 then lane (n + 1) l ((d l).extractLsb' 32 32) else s.vreg m l) ∧
    (same pred ∧ sameV pred ∧ sameU pred ∧ sameF pred ∧
      (∀ m, m ≠ pn ∨ pn = 0 → pred.group.pget m = s.group.pget m) ∧
      ∀ l, l < 64 → pn ≠ 0 → (pred.group.pget pn).getLsbD l =
        if s.zeroed.getLsbD l then false else if s.active.getLsbD l then test l else (s.group.pget pn).getLsbD l) ∧
    (same uni ∧ sameV uni ∧ sameP uni ∧ sameF uni ∧
      (s.holdsW wn = true → uni.uni wn = x) ∧ ∀ m, m ≠ wn ∨ s.holdsW wn = false → uni.uni m = s.uni m) ∧
    (s.uni 0 = 0 ∧ s.group.pget 0 = BitVec.allOnes 64)

/-- R162, R163, R169, R358, R404: what loads and stores leave. A load changes no byte of memory or of a scratchpad, and only
its own registers in the active and the zeroed lanes; an LDW through no buffer record takes the four bytes at its address.
A store changes no register, and only the bytes that its lanes' own address computations give, beside the D bit of the table
entries that map them (R171).
The model's choices it rests on: log entry 29. -/
def Obligations.MemoryFrames : Prop :=
  ∀ (s : State), s.Runs → s.active ≠ 0 → ∀ (vt va : BitVec 7) (wb : BitVec 6) (rec sz : BitVec 5) (as : List Access),
    let u := s.unlatched
    let ord := s.pfx.rnd.toNat
    let v := u.orderAcquire ord s.pfx.scope
    let places := as.map (·.place)
    let keeps := fun (t : State) => (∀ w, t.uni w = s.uni w) ∧ ∀ n, t.group.pget n = s.group.pget n
    let loads := fun (i : Instr) (r : Nat) => ∃ t, exec i s = .next t ∧ keeps t ∧ (∀ x, t.byteAt x = s.byteAt x) ∧
      (∀ team o, (t.teamAt team).padByte o = (s.teamAt team).padByte o) ∧
      ∀ n l, l < 64 → n < vt.toNat ∨ vt.toNat + regCount r ≤ n ∨ s.active.getLsbD l = false ∧ s.zeroed.getLsbD l = false →
        t.vreg n l = s.vreg n l
    let loadRec := fun (i : Instr) (r : Nat) =>
      u.LaneClear (loadAccess va wb rec.toNat (s.bufRec rec.toNat) r) ord s.pfx.scope as → loads i r
    let stores := fun (i : Instr) (r : Nat) (t : State) => u.Mapped places → t.Steady → ∃ t', exec i s = .next t' ∧ keeps t' ∧
      (∀ n l, l < 64 → t'.vreg n l = s.vreg n l) ∧
      (∀ x, ¬u.DirtyByte places x → t'.byteAt x = s.byteAt x) ∧
      (∀ x, ¬u.Stored places x → ¬u.DirtyByte places x → t'.coreByte s.coreNow x = v.coreByte s.coreNow x) ∧
      ∀ team o, ¬PadStored places r team o → (t'.teamAt team).padByte o = (s.teamAt team).padByte o
    let storeRec := fun (i : Instr) (r : Nat) =>
      let b := s.bufRec rec.toNat
      u.LaneClear (storeAccess va wb rec.toNat b r) ord s.pfx.scope as →
      let data := fun (a : Access) =>
        if rec = 0 ∨ a.place = .global [] then (v.regBytes vt.toNat a.lane r, (0 : BitVec 5))
        else (b.toOption.getD rawRec).storeConvert r (v.regBytes vt.toNat a.lane r)
      stores i r ((as.foldl (fun t a => t.storePlace a.place (data a).1) v).flag (as.foldl (fun f a => f ||| (data a).2) 0))
    loadRec (.ldb vt va wb rec) 1 ∧ loadRec (.ldh vt va wb rec) 2 ∧ loadRec (.ldw vt va wb rec) 4 ∧
    loadRec (.ldd vt va wb rec) 8 ∧ loadRec (.ldq vt va wb rec) 16 ∧
    (u.LaneClear (localAccess va wb (sizeBytes sz) false) ord s.pfx.scope as → loads (.ldl vt va wb sz) (sizeBytes sz)) ∧
    (u.LaneClear (loadAccess va wb 0 (s.bufRec 0) 4) ord s.pfx.scope as → s.holdsV vt.toNat = true → ord = 0 →
      ∃ t, exec (.ldw vt va wb 0) s = .next t ∧
        ∀ a ∈ as, t.vreg vt.toNat a.lane = BitVec.ofNat 32 (leNat (s.loadPlace a.place 4))) ∧
    storeRec (.stb vt va wb rec) 1 ∧ storeRec (.sth vt va wb rec) 2 ∧ storeRec (.stw vt va wb rec) 4 ∧
    storeRec (.std vt va wb rec) 8 ∧ storeRec (.stq vt va wb rec) 16 ∧
    (u.LaneClear (localAccess va wb (sizeBytes sz) true) ord s.pfx.scope as →
      stores (.stl vt va wb sz) (sizeBytes sz)
        (as.foldl (fun t a => t.storePlace a.place (v.regBytes vt.toNat a.lane (sizeBytes sz))) v))
end

