-- ==== Sys2Proof/Laws/Cells.lean ====
section
/-!
SUPPORT. Sys2Proof/Laws/Cells.lean: the laws of sparse stores: read after write, and the canonical form that every
write keeps.
-/
namespace Sys2Proof.Machine

variable {α : Type}

@[simp] theorem mapGet_nil (d : α) (k : Nat) : mapGet d [] k = d := rfl

@[simp] theorem mapGet_cons (d : α) (k k' : Nat) (v : α) (t : NMap α) :
    mapGet d ((k', v) :: t) k = if k' = k then v else mapGet d t k := rfl

theorem mapGet_mapErase_self (d : α) (k : Nat) (m : NMap α) : mapGet d (mapErase k m) k = d := by
  induction m with
  | nil => rfl
  | cons p t ih =>
    obtain ⟨k', v⟩ := p
    by_cases h : k' = k <;> simp [mapErase, h, ih]

theorem mapGet_mapErase_ne (d : α) {k j : Nat} (h : j ≠ k) (m : NMap α) : mapGet d (mapErase k m) j = mapGet d m j := by
  induction m with
  | nil => rfl
  | cons p t ih =>
    obtain ⟨k', v⟩ := p
    by_cases hk : k' = k
    · subst hk
      simp [mapErase, ih, Ne.symm h]
    · simp [mapErase, hk, ih]

theorem mapGet_mapInsert_self (d : α) (k : Nat) (v : α) {m : NMap α} (hm : ∀ p ∈ m, p.1 ≠ k) :
    mapGet d (mapInsert k v m) k = v := by
  induction m with
  | nil => simp [mapInsert]
  | cons p t ih =>
    obtain ⟨k', v'⟩ := p
    have hk : k' ≠ k := hm (k', v') (by simp)
    have ht : ∀ p ∈ t, p.1 ≠ k := fun p hp => hm p (by simp [hp])
    by_cases hlt : k < k' <;> simp [mapInsert, hlt, hk, ih ht]

theorem mapGet_mapInsert_ne (d : α) {k j : Nat} (h : j ≠ k) (v : α) (m : NMap α) :
    mapGet d (mapInsert k v m) j = mapGet d m j := by
  induction m with
  | nil => simp [mapInsert, Ne.symm h]
  | cons p t ih =>
    obtain ⟨k', v'⟩ := p
    by_cases hlt : k < k' <;> simp [mapInsert, hlt, ih, Ne.symm h]

theorem mem_mapErase {k : Nat} {m : NMap α} {p : Nat × α} (h : p ∈ mapErase k m) : p ∈ m ∧ p.1 ≠ k := by
  induction m with
  | nil => simp [mapErase] at h
  | cons q t ih =>
    obtain ⟨k', v⟩ := q
    by_cases hk : k' = k
    · simp only [mapErase, hk, if_true] at h
      exact ⟨by simp [(ih h).1], (ih h).2⟩
    · simp only [mapErase, hk, if_false, List.mem_cons] at h
      rcases h with h | h
      · subst h
        exact ⟨by simp, hk⟩
      · exact ⟨by simp [(ih h).1], (ih h).2⟩

/-- A key reads what was written there last. -/
@[simp] theorem mapGet_mapSet_self [DecidableEq α] (d : α) (m : NMap α) (k : Nat) (v : α) :
    mapGet d (mapSet d m k v) k = v := by
  unfold mapSet
  split
  · next h => rw [mapGet_mapErase_self, h]
  · exact mapGet_mapInsert_self d k v fun p hp => (mem_mapErase hp).2

/-- A write leaves every other key alone. -/
theorem mapGet_mapSet_ne [DecidableEq α] (d : α) (m : NMap α) {k j : Nat} (h : j ≠ k) (v : α) :
    mapGet d (mapSet d m k v) j = mapGet d m j := by
  unfold mapSet
  split
  · exact mapGet_mapErase_ne d h m
  · rw [mapGet_mapInsert_ne d h, mapGet_mapErase_ne d h]

theorem mapGet_mapSet [DecidableEq α] (d : α) (m : NMap α) (k j : Nat) (v : α) :
    mapGet d (mapSet d m k v) j = if j = k then v else mapGet d m j := by
  by_cases h : j = k
  · simp [h]
  · simp [h, mapGet_mapSet_ne d m h]

theorem mapGet_mapClear (d : α) (lo n : Nat) (m : NMap α) (k : Nat) :
    mapGet d (mapClear lo n m) k = if lo ≤ k ∧ k < lo + n then d else mapGet d m k := by
  induction m with
  | nil => simp [mapClear]
  | cons p t ih =>
    obtain ⟨k', v⟩ := p
    simp only [mapClear] at ih
    by_cases hin : lo ≤ k' ∧ k' < lo + n
    · have h1 : ¬ k' < lo := by omega
      have h2 : ¬ lo + n ≤ k' := by omega
      simp only [mapClear, List.filter_cons, h1, h2, decide_false, Bool.or_self, Bool.false_eq_true, if_false, ih,
        mapGet_cons]
      split
      · rfl
      · have hne : k' ≠ k := by omega
        simp [hne]
    · have h3 : (decide (k' < lo) || decide (lo + n ≤ k')) = true := by
        simp only [Bool.or_eq_true, decide_eq_true_eq]
        omega
      simp only [mapClear, List.filter_cons, h3, if_true, mapGet_cons, ih]
      by_cases hk : k' = k
      · subst hk
        simp [hin]
      · simp [hk]

/-! ## The canonical form -/

/-- Keys rise strictly, and no pair holds the default: the list form of `mapWf`. -/
theorem mapWf_iff [DecidableEq α] (d : α) (m : NMap α) :
    mapWf d m = true ↔ m.Pairwise (fun p q => p.1 < q.1) ∧ ∀ p ∈ m, p.2 ≠ d := by
  induction m with
  | nil => simp [mapWf]
  | cons p t ih =>
    obtain ⟨k, v⟩ := p
    cases t with
    | nil => simp [mapWf]
    | cons q t =>
      obtain ⟨k', v'⟩ := q
      simp only [mapWf, Bool.and_eq_true, decide_eq_true_eq, ih, List.pairwise_cons, List.mem_cons,
        forall_eq_or_imp]
      constructor
      · rintro ⟨⟨hv, hk⟩, ⟨hlt, hp⟩, hv', ht⟩
        exact ⟨⟨⟨hk, fun a ha => Nat.lt_trans hk (hlt a ha)⟩, hlt, hp⟩, hv, hv', ht⟩
      · rintro ⟨⟨⟨hk, _⟩, hlt, hp⟩, hv, hv', ht⟩
        exact ⟨⟨hv, hk⟩, ⟨hlt, hp⟩, hv', ht⟩

theorem mapErase_sublist (k : Nat) (m : NMap α) : (mapErase k m).Sublist m := by
  induction m with
  | nil => exact .slnil
  | cons p t ih =>
    obtain ⟨k', v⟩ := p
    by_cases h : k' = k
    · simpa [mapErase, h] using ih.cons (k', v)
    · simpa [mapErase, h] using ih.cons_cons (k', v)

theorem mapWf_of_sublist [DecidableEq α] (d : α) {m n : NMap α} (h : m.Sublist n) (hn : mapWf d n = true) :
    mapWf d m = true := by
  rw [mapWf_iff] at hn ⊢
  exact ⟨hn.1.sublist h, fun p hp => hn.2 p (h.subset hp)⟩

theorem mem_mapInsert {k : Nat} {v : α} {m : NMap α} {p : Nat × α} (h : p ∈ mapInsert k v m) : p = (k, v) ∨ p ∈ m := by
  induction m with
  | nil => simpa [mapInsert] using h
  | cons q t ih =>
    by_cases hlt : k < q.1
    · simpa [mapInsert, hlt] using h
    · simp only [mapInsert, hlt, if_false, List.mem_cons] at h
      rcases h with h | h
      · exact .inr (by simp [h])
      · rcases ih h with h | h
        · exact .inl h
        · exact .inr (by simp [h])

theorem mapInsert_pairwise {k : Nat} {v : α} {m : NMap α} (hm : m.Pairwise (fun p q => p.1 < q.1))
    (hk : ∀ p ∈ m, p.1 ≠ k) : (mapInsert k v m).Pairwise (fun p q => p.1 < q.1) := by
  induction m with
  | nil => simp [mapInsert]
  | cons q t ih =>
    rw [List.pairwise_cons] at hm
    by_cases hlt : k < q.1
    · rw [mapInsert, if_pos hlt, List.pairwise_cons, List.pairwise_cons]
      refine ⟨fun p hp => ?_, hm⟩
      rcases List.mem_cons.mp hp with h | h
      · exact h ▸ hlt
      · exact Nat.lt_trans hlt (hm.1 p h)
    · rw [mapInsert, if_neg hlt, List.pairwise_cons]
      refine ⟨fun p hp => ?_, ih hm.2 fun p hp => hk p (by simp [hp])⟩
      rcases mem_mapInsert hp with h | h
      · have := hk q (by simp)
        subst h
        show q.1 < k
        omega
      · exact hm.1 p h

/-- Every write keeps the canonical form. -/
theorem mapSet_wf [DecidableEq α] (d : α) {m : NMap α} (hm : mapWf d m = true) (k : Nat) (v : α) :
    mapWf d (mapSet d m k v) = true := by
  have he := mapWf_of_sublist d (mapErase_sublist k m) hm
  unfold mapSet
  split
  · exact he
  · next hv =>
    rw [mapWf_iff] at he ⊢
    refine ⟨mapInsert_pairwise he.1 fun p hp => (mem_mapErase hp).2, fun p hp => ?_⟩
    rcases mem_mapInsert hp with h | h
    · subst h
      exact hv
    · exact he.2 p h

theorem mapClear_wf [DecidableEq α] (d : α) (lo n : Nat) {m : NMap α} (hm : mapWf d m = true) :
    mapWf d (mapClear lo n m) = true := mapWf_of_sublist d List.filter_sublist hm

/-! ## Bytes -/

theorem memWrite_wf {m : NMap Byte} (hm : mapWf 0 m = true) (a : Nat) (bs : List Byte) :
    mapWf 0 (memWrite m a bs) = true := by
  induction bs generalizing m a with
  | nil => exact hm
  | cons b bs ih => exact ih (mapSet_wf 0 hm a b) (a + 1)

/-- A byte outside the bytes written reads as before. -/
theorem mapGet_memWrite_of_outside (m : NMap Byte) (a : Nat) (bs : List Byte) (k : Nat)
    (h : k < a ∨ a + bs.length ≤ k) : mapGet 0 (memWrite m a bs) k = mapGet 0 m k := by
  induction bs generalizing m a with
  | nil => rfl
  | cons b bs ih =>
    rw [List.length_cons] at h
    rw [memWrite, ih _ _ (by omega), mapGet_mapSet_ne 0 m (by omega)]

/-- A byte inside the bytes written reads as written. -/
theorem mapGet_memWrite_of_inside (m : NMap Byte) (a : Nat) (bs : List Byte) (i : Nat) (h : i < bs.length) :
    mapGet 0 (memWrite m a bs) (a + i) = bs[i] := by
  induction bs generalizing m a i with
  | nil => simp at h
  | cons b bs ih =>
    cases i with
    | zero => rw [memWrite, mapGet_memWrite_of_outside _ _ _ _ (by omega)]; simp
    | succ i =>
      have := ih (mapSet 0 m a b) (a + 1) i (by simpa using h)
      rw [memWrite, List.getElem_cons_succ, ← this, Nat.add_assoc, Nat.add_comm 1 i]

theorem memRead_length (m : NMap Byte) (a n : Nat) : (memRead m a n).length = n := by simp [memRead]

theorem natLe_length (n x : Nat) : (natLe n x).length = n := by
  induction n generalizing x with
  | zero => rfl
  | succ n ih => simp [natLe, ih]

/-- Reading back the bytes just written gives them. -/
theorem memRead_memWrite (m : NMap Byte) (a : Nat) (bs : List Byte) : memRead (memWrite m a bs) a bs.length = bs := by
  apply List.ext_getElem
  · simp [memRead]
  · intro i h1 h2
    rw [← mapGet_memWrite_of_inside m a bs i h2]
    simp [memRead]

theorem memRead_memWrite_of_apart (m : NMap Byte) (a b n : Nat) (bs : List Byte) (h : b + n ≤ a ∨ a + bs.length ≤ b) :
    memRead (memWrite m a bs) b n = memRead m b n := by
  simp only [memRead]
  apply List.map_congr_left
  intro i hi
  have := List.mem_range.mp hi
  exact mapGet_memWrite_of_outside m a bs (b + i) (by omega)

theorem leNat_natLe (n x : Nat) : leNat (natLe n x) = x % 256 ^ n := by
  induction n generalizing x with
  | zero => simp [natLe, leNat, Nat.mod_one]
  | succ n ih =>
    simp only [natLe, leNat, ih, BitVec.toNat_ofNat]
    have h := Nat.mod_mul (x := x) (a := 256) (b := 256 ^ n)
    rw [show 256 ^ (n + 1) = 256 * 256 ^ n by ring, h]

/-- A number read back from where it was written. -/
theorem memNat_memWriteNat (m : NMap Byte) (a n x : Nat) : memNat (memWriteNat m a n x) a n = x % 256 ^ n := by
  have h := memRead_memWrite m a (natLe n x)
  rw [natLe_length] at h
  rw [memNat, memWriteNat, h, leNat_natLe]

/-! ## Lanes -/

/-- One register's lanes after a write of the lanes of a mask: lane l stands at key 64 n + l. -/
theorem mapGet_writeLanes (m : NMap Word) (n : Nat) (mask : LaneMask) (f : Nat → Word) (k : Nat) :
    mapGet 0 (writeLanes m n mask f) k =
      if 64 * n ≤ k ∧ k < 64 * n + 64 ∧ mask.getLsbD (k - 64 * n) = true then f (k - 64 * n) else mapGet 0 m k := by
  have aux : ∀ (c : Nat) (m : NMap Word),
      mapGet 0 ((List.range c).foldl (fun m l => if mask.getLsbD l then mapSet 0 m (64 * n + l) (f l) else m) m) k =
        if 64 * n ≤ k ∧ k < 64 * n + c ∧ mask.getLsbD (k - 64 * n) = true then f (k - 64 * n) else mapGet 0 m k := by
    intro c
    induction c with
    | zero =>
      intro m
      simp only [List.range_zero, List.foldl_nil]
      rw [if_neg (by omega)]
    | succ c ih =>
      intro m
      rw [List.range_succ, List.foldl_append, List.foldl_cons, List.foldl_nil]
      by_cases hk : k = 64 * n + c
      · subst hk
        have e : 64 * n + c - 64 * n = c := by omega
        by_cases hm : mask.getLsbD c = true
        · rw [if_pos hm, mapGet_mapSet_self, if_pos ⟨by omega, by omega, by rw [e]; exact hm⟩, e]
        · rw [if_neg hm, ih, if_neg (fun h => by omega), if_neg (by rw [e]; exact fun h => hm h.2.2)]
      · have h1 : (64 * n ≤ k ∧ k < 64 * n + (c + 1) ∧ mask.getLsbD (k - 64 * n) = true) ↔
            (64 * n ≤ k ∧ k < 64 * n + c ∧ mask.getLsbD (k - 64 * n) = true) :=
          ⟨fun h => ⟨h.1, by have := h.2.1; omega, h.2.2⟩, fun h => ⟨h.1, by have := h.2.1; omega, h.2.2⟩⟩
        rw [if_congr h1 rfl rfl]
        split
        · rw [mapGet_mapSet_ne 0 _ hk, ih]
        · rw [ih]
  exact aux 64 m

theorem writeLanes_wf {m : NMap Word} (hm : mapWf 0 m = true) (n : Nat) (mask : LaneMask) (f : Nat → Word) :
    mapWf 0 (writeLanes m n mask f) = true := by
  have aux : ∀ (l : List Nat) (m : NMap Word), mapWf 0 m = true →
      mapWf 0 (l.foldl (fun m l => if mask.getLsbD l then mapSet 0 m (64 * n + l) (f l) else m) m) = true := by
    intro l
    induction l with
    | nil => intro m h; exact h
    | cons a l ih =>
      intro m h
      rw [List.foldl_cons]
      apply ih
      split
      · exact mapSet_wf 0 h _ _
      · exact h
  exact aux _ m hm

theorem mem_lanesOf (m : LaneMask) (l : Nat) : l ∈ lanesOf m ↔ m.getLsbD l = true := by
  simp only [lanesOf, List.mem_filter, List.mem_range]
  refine ⟨fun h => h.2, fun h => ⟨?_, h⟩⟩
  by_cases hl : l < 64
  · exact hl
  · simp [BitVec.getLsbD_of_ge m l (by omega)] at h

/-- Bit l of `maskOf f` is f l. -/
theorem getLsbD_maskOf (f : Nat → Bool) (l : Nat) : (maskOf f).getLsbD l = (decide (l < 64) && f l) := by
  have aux : ∀ (c : Nat), c ≤ 64 → ∀ l,
      ((List.range c).foldl (fun m l => if f l then m ||| BitVec.twoPow 64 l else m) (0 : LaneMask)).getLsbD l =
        (decide (l < c) && f l) := by
    intro c
    induction c with
    | zero => intro _ l; simp
    | succ c ih =>
      intro hc l
      rw [List.range_succ, List.foldl_append, List.foldl_cons, List.foldl_nil]
      by_cases hf : f c = true
      · rw [if_pos hf, BitVec.getLsbD_or, ih (by omega), BitVec.getLsbD_twoPow]
        by_cases hl : l = c
        · subst hl
          simp [hf]
          omega
        · have h1 : decide (c = l) = false := by simp; omega
          have h2 : decide (l < c + 1) = decide (l < c) := by
            simp only [decide_eq_decide]; omega
          rw [h1, h2]
          simp
      · rw [if_neg hf, ih (by omega)]
        by_cases hl : l = c
        · subst hl
          simp [hf]
        · have h2 : decide (l < c + 1) = decide (l < c) := by
            simp only [decide_eq_decide]; omega
          rw [h2]
  exact aux 64 (by omega) l

end Sys2Proof.Machine
end

