-- ==== Sys2Proof/Laws/State.lean ====
section
/-!
SUPPORT. Sys2Proof/Laws/State.lean: what each update of the state leaves every field at, one lemma per field per update,
and what is read after the parts of the state are written.
-/
namespace Sys2Proof.Machine

/-! ## Fields after an update of the state -/

@[simp] theorem State.setTeam_mem (s : State) (t : Nat) (x : Team) : (s.setTeam t x).mem = s.mem := rfl
@[simp] theorem State.setTeam_poison (s : State) (t : Nat) (x : Team) : (s.setTeam t x).poison = s.poison := rfl
@[simp] theorem State.setTeam_poisonParts (s : State) (t : Nat) (x : Team) : (s.setTeam t x).poisonParts = s.poisonParts := rfl
@[simp] theorem State.setTeam_enabled (s : State) (t : Nat) (x : Team) : (s.setTeam t x).enabled = s.enabled := rfl
@[simp] theorem State.setTeam_installed (s : State) (t : Nat) (x : Team) : (s.setTeam t x).installed = s.installed := rfl
@[simp] theorem State.setTeam_rootRcb (s : State) (t : Nat) (x : Team) : (s.setTeam t x).rootRcb = s.rootRcb := rfl
@[simp] theorem State.setTeam_slotBase (s : State) (t : Nat) (x : Team) : (s.setTeam t x).slotBase = s.slotBase := rfl
@[simp] theorem State.setTeam_saveWays (s : State) (t : Nat) (x : Team) : (s.setTeam t x).saveWays = s.saveWays := rfl
@[simp] theorem State.setTeam_fdBase (s : State) (t : Nat) (x : Team) : (s.setTeam t x).fdBase = s.fdBase := rfl
@[simp] theorem State.setTeam_intStatus (s : State) (t : Nat) (x : Team) : (s.setTeam t x).intStatus = s.intStatus := rfl
@[simp] theorem State.setTeam_tails (s : State) (t : Nat) (x : Team) : (s.setTeam t x).tails = s.tails := rfl
@[simp] theorem State.setTeam_powerLevel (s : State) (t : Nat) (x : Team) : (s.setTeam t x).powerLevel = s.powerLevel := rfl
@[simp] theorem State.setTeam_alarm (s : State) (t : Nat) (x : Team) : (s.setTeam t x).alarm = s.alarm := rfl
@[simp] theorem State.setTeam_keys (s : State) (t : Nat) (x : Team) : (s.setTeam t x).keys = s.keys := rfl
@[simp] theorem State.setTeam_heads (s : State) (t : Nat) (x : Team) : (s.setTeam t x).heads = s.heads := rfl
@[simp] theorem State.setTeam_regions (s : State) (t : Nat) (x : Team) : (s.setTeam t x).regions = s.regions := rfl
@[simp] theorem State.setTeam_nodes (s : State) (t : Nat) (x : Team) : (s.setTeam t x).nodes = s.nodes := rfl
@[simp] theorem State.setTeam_teams (s : State) (t : Nat) (x : Team) : (s.setTeam t x).teams = s.teams.set t x := rfl
@[simp] theorem State.setTeam_cores (s : State) (t : Nat) (x : Team) : (s.setTeam t x).cores = s.cores := rfl
@[simp] theorem State.setTeam_clusters (s : State) (t : Nat) (x : Team) : (s.setTeam t x).clusters = s.clusters := rfl
@[simp] theorem State.setTeam_passes (s : State) (t : Nat) (x : Team) : (s.setTeam t x).passes = s.passes := rfl
@[simp] theorem State.setTeam_storedSignatures (s : State) (t : Nat) (x : Team) : (s.setTeam t x).storedSignatures = s.storedSignatures := rfl
@[simp] theorem State.setTeam_contentSignatures (s : State) (t : Nat) (x : Team) : (s.setTeam t x).contentSignatures = s.contentSignatures := rfl
@[simp] theorem State.setTeam_units (s : State) (t : Nat) (x : Team) : (s.setTeam t x).units = s.units := rfl
@[simp] theorem State.setTeam_execMaps (s : State) (t : Nat) (x : Team) : (s.setTeam t x).execMaps = s.execMaps := rfl
@[simp] theorem State.setTeam_tagCounter (s : State) (t : Nat) (x : Team) : (s.setTeam t x).tagCounter = s.tagCounter := rfl
@[simp] theorem State.setTeam_uniqueCounter (s : State) (t : Nat) (x : Team) : (s.setTeam t x).uniqueCounter = s.uniqueCounter := rfl
@[simp] theorem State.setTeam_acceptSeq (s : State) (t : Nat) (x : Team) : (s.setTeam t x).acceptSeq = s.acceptSeq := rfl
@[simp] theorem State.setTeam_residenceSeq (s : State) (t : Nat) (x : Team) : (s.setTeam t x).residenceSeq = s.residenceSeq := rfl
@[simp] theorem State.setTeam_pending (s : State) (t : Nat) (x : Team) : (s.setTeam t x).pending = s.pending := rfl
@[simp] theorem State.setTeam_focus (s : State) (t : Nat) (x : Team) : (s.setTeam t x).focus = s.focus := rfl
@[simp] theorem State.setTeam_chosenNext (s : State) (t : Nat) (x : Team) : (s.setTeam t x).chosenNext = s.chosenNext := rfl
@[simp] theorem State.setTeam_eventTurn (s : State) (t : Nat) (x : Team) : (s.setTeam t x).eventTurn = s.eventTurn := rfl
@[simp] theorem State.setTeam_lastSource (s : State) (t : Nat) (x : Team) : (s.setTeam t x).lastSource = s.lastSource := rfl
@[simp] theorem State.setTeam_agenda (s : State) (t : Nat) (x : Team) : (s.setTeam t x).agenda = s.agenda := rfl
@[simp] theorem State.setTeam_ticks (s : State) (t : Nat) (x : Team) : (s.setTeam t x).ticks = s.ticks := rfl
@[simp] theorem State.setTeam_freeCount (s : State) (t : Nat) (x : Team) : (s.setTeam t x).freeCount = s.freeCount := rfl

@[simp] theorem State.setNode_mem (s : State) (n : Nat) (x : Node) : (s.setNode n x).mem = s.mem := rfl
@[simp] theorem State.setNode_poison (s : State) (n : Nat) (x : Node) : (s.setNode n x).poison = s.poison := rfl
@[simp] theorem State.setNode_poisonParts (s : State) (n : Nat) (x : Node) : (s.setNode n x).poisonParts = s.poisonParts := rfl
@[simp] theorem State.setNode_enabled (s : State) (n : Nat) (x : Node) : (s.setNode n x).enabled = s.enabled := rfl
@[simp] theorem State.setNode_installed (s : State) (n : Nat) (x : Node) : (s.setNode n x).installed = s.installed := rfl
@[simp] theorem State.setNode_rootRcb (s : State) (n : Nat) (x : Node) : (s.setNode n x).rootRcb = s.rootRcb := rfl
@[simp] theorem State.setNode_slotBase (s : State) (n : Nat) (x : Node) : (s.setNode n x).slotBase = s.slotBase := rfl
@[simp] theorem State.setNode_saveWays (s : State) (n : Nat) (x : Node) : (s.setNode n x).saveWays = s.saveWays := rfl
@[simp] theorem State.setNode_fdBase (s : State) (n : Nat) (x : Node) : (s.setNode n x).fdBase = s.fdBase := rfl
@[simp] theorem State.setNode_intStatus (s : State) (n : Nat) (x : Node) : (s.setNode n x).intStatus = s.intStatus := rfl
@[simp] theorem State.setNode_tails (s : State) (n : Nat) (x : Node) : (s.setNode n x).tails = s.tails := rfl
@[simp] theorem State.setNode_powerLevel (s : State) (n : Nat) (x : Node) : (s.setNode n x).powerLevel = s.powerLevel := rfl
@[simp] theorem State.setNode_alarm (s : State) (n : Nat) (x : Node) : (s.setNode n x).alarm = s.alarm := rfl
@[simp] theorem State.setNode_keys (s : State) (n : Nat) (x : Node) : (s.setNode n x).keys = s.keys := rfl
@[simp] theorem State.setNode_heads (s : State) (n : Nat) (x : Node) : (s.setNode n x).heads = s.heads := rfl
@[simp] theorem State.setNode_regions (s : State) (n : Nat) (x : Node) : (s.setNode n x).regions = s.regions := rfl
@[simp] theorem State.setNode_nodes (s : State) (n : Nat) (x : Node) : (s.setNode n x).nodes = s.nodes.set n x := rfl
@[simp] theorem State.setNode_teams (s : State) (n : Nat) (x : Node) : (s.setNode n x).teams = s.teams := rfl
@[simp] theorem State.setNode_cores (s : State) (n : Nat) (x : Node) : (s.setNode n x).cores = s.cores := rfl
@[simp] theorem State.setNode_clusters (s : State) (n : Nat) (x : Node) : (s.setNode n x).clusters = s.clusters := rfl
@[simp] theorem State.setNode_passes (s : State) (n : Nat) (x : Node) : (s.setNode n x).passes = s.passes := rfl
@[simp] theorem State.setNode_storedSignatures (s : State) (n : Nat) (x : Node) : (s.setNode n x).storedSignatures = s.storedSignatures := rfl
@[simp] theorem State.setNode_contentSignatures (s : State) (n : Nat) (x : Node) : (s.setNode n x).contentSignatures = s.contentSignatures := rfl
@[simp] theorem State.setNode_units (s : State) (n : Nat) (x : Node) : (s.setNode n x).units = s.units := rfl
@[simp] theorem State.setNode_execMaps (s : State) (n : Nat) (x : Node) : (s.setNode n x).execMaps = s.execMaps := rfl
@[simp] theorem State.setNode_tagCounter (s : State) (n : Nat) (x : Node) : (s.setNode n x).tagCounter = s.tagCounter := rfl
@[simp] theorem State.setNode_uniqueCounter (s : State) (n : Nat) (x : Node) : (s.setNode n x).uniqueCounter = s.uniqueCounter := rfl
@[simp] theorem State.setNode_acceptSeq (s : State) (n : Nat) (x : Node) : (s.setNode n x).acceptSeq = s.acceptSeq := rfl
@[simp] theorem State.setNode_residenceSeq (s : State) (n : Nat) (x : Node) : (s.setNode n x).residenceSeq = s.residenceSeq := rfl
@[simp] theorem State.setNode_pending (s : State) (n : Nat) (x : Node) : (s.setNode n x).pending = s.pending := rfl
@[simp] theorem State.setNode_focus (s : State) (n : Nat) (x : Node) : (s.setNode n x).focus = s.focus := rfl
@[simp] theorem State.setNode_chosenNext (s : State) (n : Nat) (x : Node) : (s.setNode n x).chosenNext = s.chosenNext := rfl
@[simp] theorem State.setNode_eventTurn (s : State) (n : Nat) (x : Node) : (s.setNode n x).eventTurn = s.eventTurn := rfl
@[simp] theorem State.setNode_lastSource (s : State) (n : Nat) (x : Node) : (s.setNode n x).lastSource = s.lastSource := rfl
@[simp] theorem State.setNode_agenda (s : State) (n : Nat) (x : Node) : (s.setNode n x).agenda = s.agenda := rfl
@[simp] theorem State.setNode_ticks (s : State) (n : Nat) (x : Node) : (s.setNode n x).ticks = s.ticks := rfl
@[simp] theorem State.setNode_freeCount (s : State) (n : Nat) (x : Node) : (s.setNode n x).freeCount = s.freeCount := rfl

@[simp] theorem State.setRegion_mem (s : State) (r : Nat) (x : Region) : (s.setRegion r x).mem = s.mem := rfl
@[simp] theorem State.setRegion_poison (s : State) (r : Nat) (x : Region) : (s.setRegion r x).poison = s.poison := rfl
@[simp] theorem State.setRegion_poisonParts (s : State) (r : Nat) (x : Region) : (s.setRegion r x).poisonParts = s.poisonParts := rfl
@[simp] theorem State.setRegion_enabled (s : State) (r : Nat) (x : Region) : (s.setRegion r x).enabled = s.enabled := rfl
@[simp] theorem State.setRegion_installed (s : State) (r : Nat) (x : Region) : (s.setRegion r x).installed = s.installed := rfl
@[simp] theorem State.setRegion_rootRcb (s : State) (r : Nat) (x : Region) : (s.setRegion r x).rootRcb = s.rootRcb := rfl
@[simp] theorem State.setRegion_slotBase (s : State) (r : Nat) (x : Region) : (s.setRegion r x).slotBase = s.slotBase := rfl
@[simp] theorem State.setRegion_saveWays (s : State) (r : Nat) (x : Region) : (s.setRegion r x).saveWays = s.saveWays := rfl
@[simp] theorem State.setRegion_fdBase (s : State) (r : Nat) (x : Region) : (s.setRegion r x).fdBase = s.fdBase := rfl
@[simp] theorem State.setRegion_intStatus (s : State) (r : Nat) (x : Region) : (s.setRegion r x).intStatus = s.intStatus := rfl
@[simp] theorem State.setRegion_tails (s : State) (r : Nat) (x : Region) : (s.setRegion r x).tails = s.tails := rfl
@[simp] theorem State.setRegion_powerLevel (s : State) (r : Nat) (x : Region) : (s.setRegion r x).powerLevel = s.powerLevel := rfl
@[simp] theorem State.setRegion_alarm (s : State) (r : Nat) (x : Region) : (s.setRegion r x).alarm = s.alarm := rfl
@[simp] theorem State.setRegion_keys (s : State) (r : Nat) (x : Region) : (s.setRegion r x).keys = s.keys := rfl
@[simp] theorem State.setRegion_heads (s : State) (r : Nat) (x : Region) : (s.setRegion r x).heads = s.heads := rfl
@[simp] theorem State.setRegion_regions (s : State) (r : Nat) (x : Region) : (s.setRegion r x).regions = mapSet {} s.regions r x := rfl
@[simp] theorem State.setRegion_nodes (s : State) (r : Nat) (x : Region) : (s.setRegion r x).nodes = s.nodes := rfl
@[simp] theorem State.setRegion_teams (s : State) (r : Nat) (x : Region) : (s.setRegion r x).teams = s.teams := rfl
@[simp] theorem State.setRegion_cores (s : State) (r : Nat) (x : Region) : (s.setRegion r x).cores = s.cores := rfl
@[simp] theorem State.setRegion_clusters (s : State) (r : Nat) (x : Region) : (s.setRegion r x).clusters = s.clusters := rfl
@[simp] theorem State.setRegion_passes (s : State) (r : Nat) (x : Region) : (s.setRegion r x).passes = s.passes := rfl
@[simp] theorem State.setRegion_storedSignatures (s : State) (r : Nat) (x : Region) : (s.setRegion r x).storedSignatures = s.storedSignatures := rfl
@[simp] theorem State.setRegion_contentSignatures (s : State) (r : Nat) (x : Region) : (s.setRegion r x).contentSignatures = s.contentSignatures := rfl
@[simp] theorem State.setRegion_units (s : State) (r : Nat) (x : Region) : (s.setRegion r x).units = s.units := rfl
@[simp] theorem State.setRegion_execMaps (s : State) (r : Nat) (x : Region) : (s.setRegion r x).execMaps = s.execMaps := rfl
@[simp] theorem State.setRegion_tagCounter (s : State) (r : Nat) (x : Region) : (s.setRegion r x).tagCounter = s.tagCounter := rfl
@[simp] theorem State.setRegion_uniqueCounter (s : State) (r : Nat) (x : Region) : (s.setRegion r x).uniqueCounter = s.uniqueCounter := rfl
@[simp] theorem State.setRegion_acceptSeq (s : State) (r : Nat) (x : Region) : (s.setRegion r x).acceptSeq = s.acceptSeq := rfl
@[simp] theorem State.setRegion_residenceSeq (s : State) (r : Nat) (x : Region) : (s.setRegion r x).residenceSeq = s.residenceSeq := rfl
@[simp] theorem State.setRegion_pending (s : State) (r : Nat) (x : Region) : (s.setRegion r x).pending = s.pending := rfl
@[simp] theorem State.setRegion_focus (s : State) (r : Nat) (x : Region) : (s.setRegion r x).focus = s.focus := rfl
@[simp] theorem State.setRegion_chosenNext (s : State) (r : Nat) (x : Region) : (s.setRegion r x).chosenNext = s.chosenNext := rfl
@[simp] theorem State.setRegion_eventTurn (s : State) (r : Nat) (x : Region) : (s.setRegion r x).eventTurn = s.eventTurn := rfl
@[simp] theorem State.setRegion_lastSource (s : State) (r : Nat) (x : Region) : (s.setRegion r x).lastSource = s.lastSource := rfl
@[simp] theorem State.setRegion_agenda (s : State) (r : Nat) (x : Region) : (s.setRegion r x).agenda = s.agenda := rfl
@[simp] theorem State.setRegion_ticks (s : State) (r : Nat) (x : Region) : (s.setRegion r x).ticks = s.ticks := rfl
@[simp] theorem State.setRegion_freeCount (s : State) (r : Nat) (x : Region) : (s.setRegion r x).freeCount = s.freeCount := rfl

@[simp] theorem State.setCore_mem (s : State) (c : Nat) (x : CoreUnit) : (s.setCore c x).mem = s.mem := rfl
@[simp] theorem State.setCore_poison (s : State) (c : Nat) (x : CoreUnit) : (s.setCore c x).poison = s.poison := rfl
@[simp] theorem State.setCore_poisonParts (s : State) (c : Nat) (x : CoreUnit) : (s.setCore c x).poisonParts = s.poisonParts := rfl
@[simp] theorem State.setCore_enabled (s : State) (c : Nat) (x : CoreUnit) : (s.setCore c x).enabled = s.enabled := rfl
@[simp] theorem State.setCore_installed (s : State) (c : Nat) (x : CoreUnit) : (s.setCore c x).installed = s.installed := rfl
@[simp] theorem State.setCore_rootRcb (s : State) (c : Nat) (x : CoreUnit) : (s.setCore c x).rootRcb = s.rootRcb := rfl
@[simp] theorem State.setCore_slotBase (s : State) (c : Nat) (x : CoreUnit) : (s.setCore c x).slotBase = s.slotBase := rfl
@[simp] theorem State.setCore_saveWays (s : State) (c : Nat) (x : CoreUnit) : (s.setCore c x).saveWays = s.saveWays := rfl
@[simp] theorem State.setCore_fdBase (s : State) (c : Nat) (x : CoreUnit) : (s.setCore c x).fdBase = s.fdBase := rfl
@[simp] theorem State.setCore_intStatus (s : State) (c : Nat) (x : CoreUnit) : (s.setCore c x).intStatus = s.intStatus := rfl
@[simp] theorem State.setCore_tails (s : State) (c : Nat) (x : CoreUnit) : (s.setCore c x).tails = s.tails := rfl
@[simp] theorem State.setCore_powerLevel (s : State) (c : Nat) (x : CoreUnit) : (s.setCore c x).powerLevel = s.powerLevel := rfl
@[simp] theorem State.setCore_alarm (s : State) (c : Nat) (x : CoreUnit) : (s.setCore c x).alarm = s.alarm := rfl
@[simp] theorem State.setCore_keys (s : State) (c : Nat) (x : CoreUnit) : (s.setCore c x).keys = s.keys := rfl
@[simp] theorem State.setCore_heads (s : State) (c : Nat) (x : CoreUnit) : (s.setCore c x).heads = s.heads := rfl
@[simp] theorem State.setCore_regions (s : State) (c : Nat) (x : CoreUnit) : (s.setCore c x).regions = s.regions := rfl
@[simp] theorem State.setCore_nodes (s : State) (c : Nat) (x : CoreUnit) : (s.setCore c x).nodes = s.nodes := rfl
@[simp] theorem State.setCore_teams (s : State) (c : Nat) (x : CoreUnit) : (s.setCore c x).teams = s.teams := rfl
@[simp] theorem State.setCore_cores (s : State) (c : Nat) (x : CoreUnit) : (s.setCore c x).cores = mapSet {} s.cores c x := rfl
@[simp] theorem State.setCore_clusters (s : State) (c : Nat) (x : CoreUnit) : (s.setCore c x).clusters = s.clusters := rfl
@[simp] theorem State.setCore_passes (s : State) (c : Nat) (x : CoreUnit) : (s.setCore c x).passes = s.passes := rfl
@[simp] theorem State.setCore_storedSignatures (s : State) (c : Nat) (x : CoreUnit) : (s.setCore c x).storedSignatures = s.storedSignatures := rfl
@[simp] theorem State.setCore_contentSignatures (s : State) (c : Nat) (x : CoreUnit) : (s.setCore c x).contentSignatures = s.contentSignatures := rfl
@[simp] theorem State.setCore_units (s : State) (c : Nat) (x : CoreUnit) : (s.setCore c x).units = s.units := rfl
@[simp] theorem State.setCore_execMaps (s : State) (c : Nat) (x : CoreUnit) : (s.setCore c x).execMaps = s.execMaps := rfl
@[simp] theorem State.setCore_tagCounter (s : State) (c : Nat) (x : CoreUnit) : (s.setCore c x).tagCounter = s.tagCounter := rfl
@[simp] theorem State.setCore_uniqueCounter (s : State) (c : Nat) (x : CoreUnit) : (s.setCore c x).uniqueCounter = s.uniqueCounter := rfl
@[simp] theorem State.setCore_acceptSeq (s : State) (c : Nat) (x : CoreUnit) : (s.setCore c x).acceptSeq = s.acceptSeq := rfl
@[simp] theorem State.setCore_residenceSeq (s : State) (c : Nat) (x : CoreUnit) : (s.setCore c x).residenceSeq = s.residenceSeq := rfl
@[simp] theorem State.setCore_pending (s : State) (c : Nat) (x : CoreUnit) : (s.setCore c x).pending = s.pending := rfl
@[simp] theorem State.setCore_focus (s : State) (c : Nat) (x : CoreUnit) : (s.setCore c x).focus = s.focus := rfl
@[simp] theorem State.setCore_chosenNext (s : State) (c : Nat) (x : CoreUnit) : (s.setCore c x).chosenNext = s.chosenNext := rfl
@[simp] theorem State.setCore_eventTurn (s : State) (c : Nat) (x : CoreUnit) : (s.setCore c x).eventTurn = s.eventTurn := rfl
@[simp] theorem State.setCore_lastSource (s : State) (c : Nat) (x : CoreUnit) : (s.setCore c x).lastSource = s.lastSource := rfl
@[simp] theorem State.setCore_agenda (s : State) (c : Nat) (x : CoreUnit) : (s.setCore c x).agenda = s.agenda := rfl
@[simp] theorem State.setCore_ticks (s : State) (c : Nat) (x : CoreUnit) : (s.setCore c x).ticks = s.ticks := rfl
@[simp] theorem State.setCore_freeCount (s : State) (c : Nat) (x : CoreUnit) : (s.setCore c x).freeCount = s.freeCount := rfl

@[simp] theorem State.setCluster_mem (s : State) (c : Nat) (x : ClusterUnit) : (s.setCluster c x).mem = s.mem := rfl
@[simp] theorem State.setCluster_poison (s : State) (c : Nat) (x : ClusterUnit) : (s.setCluster c x).poison = s.poison := rfl
@[simp] theorem State.setCluster_poisonParts (s : State) (c : Nat) (x : ClusterUnit) : (s.setCluster c x).poisonParts = s.poisonParts := rfl
@[simp] theorem State.setCluster_enabled (s : State) (c : Nat) (x : ClusterUnit) : (s.setCluster c x).enabled = s.enabled := rfl
@[simp] theorem State.setCluster_installed (s : State) (c : Nat) (x : ClusterUnit) : (s.setCluster c x).installed = s.installed := rfl
@[simp] theorem State.setCluster_rootRcb (s : State) (c : Nat) (x : ClusterUnit) : (s.setCluster c x).rootRcb = s.rootRcb := rfl
@[simp] theorem State.setCluster_slotBase (s : State) (c : Nat) (x : ClusterUnit) : (s.setCluster c x).slotBase = s.slotBase := rfl
@[simp] theorem State.setCluster_saveWays (s : State) (c : Nat) (x : ClusterUnit) : (s.setCluster c x).saveWays = s.saveWays := rfl
@[simp] theorem State.setCluster_fdBase (s : State) (c : Nat) (x : ClusterUnit) : (s.setCluster c x).fdBase = s.fdBase := rfl
@[simp] theorem State.setCluster_intStatus (s : State) (c : Nat) (x : ClusterUnit) : (s.setCluster c x).intStatus = s.intStatus := rfl
@[simp] theorem State.setCluster_tails (s : State) (c : Nat) (x : ClusterUnit) : (s.setCluster c x).tails = s.tails := rfl
@[simp] theorem State.setCluster_powerLevel (s : State) (c : Nat) (x : ClusterUnit) : (s.setCluster c x).powerLevel = s.powerLevel := rfl
@[simp] theorem State.setCluster_alarm (s : State) (c : Nat) (x : ClusterUnit) : (s.setCluster c x).alarm = s.alarm := rfl
@[simp] theorem State.setCluster_keys (s : State) (c : Nat) (x : ClusterUnit) : (s.setCluster c x).keys = s.keys := rfl
@[simp] theorem State.setCluster_heads (s : State) (c : Nat) (x : ClusterUnit) : (s.setCluster c x).heads = s.heads := rfl
@[simp] theorem State.setCluster_regions (s : State) (c : Nat) (x : ClusterUnit) : (s.setCluster c x).regions = s.regions := rfl
@[simp] theorem State.setCluster_nodes (s : State) (c : Nat) (x : ClusterUnit) : (s.setCluster c x).nodes = s.nodes := rfl
@[simp] theorem State.setCluster_teams (s : State) (c : Nat) (x : ClusterUnit) : (s.setCluster c x).teams = s.teams := rfl
@[simp] theorem State.setCluster_cores (s : State) (c : Nat) (x : ClusterUnit) : (s.setCluster c x).cores = s.cores := rfl
@[simp] theorem State.setCluster_clusters (s : State) (c : Nat) (x : ClusterUnit) : (s.setCluster c x).clusters = mapSet {} s.clusters c x := rfl
@[simp] theorem State.setCluster_passes (s : State) (c : Nat) (x : ClusterUnit) : (s.setCluster c x).passes = s.passes := rfl
@[simp] theorem State.setCluster_storedSignatures (s : State) (c : Nat) (x : ClusterUnit) : (s.setCluster c x).storedSignatures = s.storedSignatures := rfl
@[simp] theorem State.setCluster_contentSignatures (s : State) (c : Nat) (x : ClusterUnit) : (s.setCluster c x).contentSignatures = s.contentSignatures := rfl
@[simp] theorem State.setCluster_units (s : State) (c : Nat) (x : ClusterUnit) : (s.setCluster c x).units = s.units := rfl
@[simp] theorem State.setCluster_execMaps (s : State) (c : Nat) (x : ClusterUnit) : (s.setCluster c x).execMaps = s.execMaps := rfl
@[simp] theorem State.setCluster_tagCounter (s : State) (c : Nat) (x : ClusterUnit) : (s.setCluster c x).tagCounter = s.tagCounter := rfl
@[simp] theorem State.setCluster_uniqueCounter (s : State) (c : Nat) (x : ClusterUnit) : (s.setCluster c x).uniqueCounter = s.uniqueCounter := rfl
@[simp] theorem State.setCluster_acceptSeq (s : State) (c : Nat) (x : ClusterUnit) : (s.setCluster c x).acceptSeq = s.acceptSeq := rfl
@[simp] theorem State.setCluster_residenceSeq (s : State) (c : Nat) (x : ClusterUnit) : (s.setCluster c x).residenceSeq = s.residenceSeq := rfl
@[simp] theorem State.setCluster_pending (s : State) (c : Nat) (x : ClusterUnit) : (s.setCluster c x).pending = s.pending := rfl
@[simp] theorem State.setCluster_focus (s : State) (c : Nat) (x : ClusterUnit) : (s.setCluster c x).focus = s.focus := rfl
@[simp] theorem State.setCluster_chosenNext (s : State) (c : Nat) (x : ClusterUnit) : (s.setCluster c x).chosenNext = s.chosenNext := rfl
@[simp] theorem State.setCluster_eventTurn (s : State) (c : Nat) (x : ClusterUnit) : (s.setCluster c x).eventTurn = s.eventTurn := rfl
@[simp] theorem State.setCluster_lastSource (s : State) (c : Nat) (x : ClusterUnit) : (s.setCluster c x).lastSource = s.lastSource := rfl
@[simp] theorem State.setCluster_agenda (s : State) (c : Nat) (x : ClusterUnit) : (s.setCluster c x).agenda = s.agenda := rfl
@[simp] theorem State.setCluster_ticks (s : State) (c : Nat) (x : ClusterUnit) : (s.setCluster c x).ticks = s.ticks := rfl
@[simp] theorem State.setCluster_freeCount (s : State) (c : Nat) (x : ClusterUnit) : (s.setCluster c x).freeCount = s.freeCount := rfl

@[simp] theorem State.setGroup_mem (s : State) (t g : Nat) (x : Group) : (s.setGroup t g x).mem = s.mem := rfl
@[simp] theorem State.setGroup_poison (s : State) (t g : Nat) (x : Group) : (s.setGroup t g x).poison = s.poison := rfl
@[simp] theorem State.setGroup_poisonParts (s : State) (t g : Nat) (x : Group) : (s.setGroup t g x).poisonParts = s.poisonParts := rfl
@[simp] theorem State.setGroup_enabled (s : State) (t g : Nat) (x : Group) : (s.setGroup t g x).enabled = s.enabled := rfl
@[simp] theorem State.setGroup_installed (s : State) (t g : Nat) (x : Group) : (s.setGroup t g x).installed = s.installed := rfl
@[simp] theorem State.setGroup_rootRcb (s : State) (t g : Nat) (x : Group) : (s.setGroup t g x).rootRcb = s.rootRcb := rfl
@[simp] theorem State.setGroup_slotBase (s : State) (t g : Nat) (x : Group) : (s.setGroup t g x).slotBase = s.slotBase := rfl
@[simp] theorem State.setGroup_saveWays (s : State) (t g : Nat) (x : Group) : (s.setGroup t g x).saveWays = s.saveWays := rfl
@[simp] theorem State.setGroup_fdBase (s : State) (t g : Nat) (x : Group) : (s.setGroup t g x).fdBase = s.fdBase := rfl
@[simp] theorem State.setGroup_intStatus (s : State) (t g : Nat) (x : Group) : (s.setGroup t g x).intStatus = s.intStatus := rfl
@[simp] theorem State.setGroup_tails (s : State) (t g : Nat) (x : Group) : (s.setGroup t g x).tails = s.tails := rfl
@[simp] theorem State.setGroup_powerLevel (s : State) (t g : Nat) (x : Group) : (s.setGroup t g x).powerLevel = s.powerLevel := rfl
@[simp] theorem State.setGroup_alarm (s : State) (t g : Nat) (x : Group) : (s.setGroup t g x).alarm = s.alarm := rfl
@[simp] theorem State.setGroup_keys (s : State) (t g : Nat) (x : Group) : (s.setGroup t g x).keys = s.keys := rfl
@[simp] theorem State.setGroup_heads (s : State) (t g : Nat) (x : Group) : (s.setGroup t g x).heads = s.heads := rfl
@[simp] theorem State.setGroup_regions (s : State) (t g : Nat) (x : Group) : (s.setGroup t g x).regions = s.regions := rfl
@[simp] theorem State.setGroup_nodes (s : State) (t g : Nat) (x : Group) : (s.setGroup t g x).nodes = s.nodes := rfl
@[simp] theorem State.setGroup_teams (s : State) (t g : Nat) (x : Group) : (s.setGroup t g x).teams = s.teams.set t ((s.teamAt t).setGroup g x) := rfl
@[simp] theorem State.setGroup_cores (s : State) (t g : Nat) (x : Group) : (s.setGroup t g x).cores = s.cores := rfl
@[simp] theorem State.setGroup_clusters (s : State) (t g : Nat) (x : Group) : (s.setGroup t g x).clusters = s.clusters := rfl
@[simp] theorem State.setGroup_passes (s : State) (t g : Nat) (x : Group) : (s.setGroup t g x).passes = s.passes := rfl
@[simp] theorem State.setGroup_storedSignatures (s : State) (t g : Nat) (x : Group) : (s.setGroup t g x).storedSignatures = s.storedSignatures := rfl
@[simp] theorem State.setGroup_contentSignatures (s : State) (t g : Nat) (x : Group) : (s.setGroup t g x).contentSignatures = s.contentSignatures := rfl
@[simp] theorem State.setGroup_units (s : State) (t g : Nat) (x : Group) : (s.setGroup t g x).units = s.units := rfl
@[simp] theorem State.setGroup_execMaps (s : State) (t g : Nat) (x : Group) : (s.setGroup t g x).execMaps = s.execMaps := rfl
@[simp] theorem State.setGroup_tagCounter (s : State) (t g : Nat) (x : Group) : (s.setGroup t g x).tagCounter = s.tagCounter := rfl
@[simp] theorem State.setGroup_uniqueCounter (s : State) (t g : Nat) (x : Group) : (s.setGroup t g x).uniqueCounter = s.uniqueCounter := rfl
@[simp] theorem State.setGroup_acceptSeq (s : State) (t g : Nat) (x : Group) : (s.setGroup t g x).acceptSeq = s.acceptSeq := rfl
@[simp] theorem State.setGroup_residenceSeq (s : State) (t g : Nat) (x : Group) : (s.setGroup t g x).residenceSeq = s.residenceSeq := rfl
@[simp] theorem State.setGroup_pending (s : State) (t g : Nat) (x : Group) : (s.setGroup t g x).pending = s.pending := rfl
@[simp] theorem State.setGroup_focus (s : State) (t g : Nat) (x : Group) : (s.setGroup t g x).focus = s.focus := rfl
@[simp] theorem State.setGroup_chosenNext (s : State) (t g : Nat) (x : Group) : (s.setGroup t g x).chosenNext = s.chosenNext := rfl
@[simp] theorem State.setGroup_eventTurn (s : State) (t g : Nat) (x : Group) : (s.setGroup t g x).eventTurn = s.eventTurn := rfl
@[simp] theorem State.setGroup_lastSource (s : State) (t g : Nat) (x : Group) : (s.setGroup t g x).lastSource = s.lastSource := rfl
@[simp] theorem State.setGroup_agenda (s : State) (t g : Nat) (x : Group) : (s.setGroup t g x).agenda = s.agenda := rfl
@[simp] theorem State.setGroup_ticks (s : State) (t g : Nat) (x : Group) : (s.setGroup t g x).ticks = s.ticks := rfl
@[simp] theorem State.setGroup_freeCount (s : State) (t g : Nat) (x : Group) : (s.setGroup t g x).freeCount = s.freeCount := rfl

@[simp] theorem State.putTeam_mem (s : State) (x : Team) : (s.putTeam x).mem = s.mem := rfl
@[simp] theorem State.putTeam_poison (s : State) (x : Team) : (s.putTeam x).poison = s.poison := rfl
@[simp] theorem State.putTeam_poisonParts (s : State) (x : Team) : (s.putTeam x).poisonParts = s.poisonParts := rfl
@[simp] theorem State.putTeam_enabled (s : State) (x : Team) : (s.putTeam x).enabled = s.enabled := rfl
@[simp] theorem State.putTeam_installed (s : State) (x : Team) : (s.putTeam x).installed = s.installed := rfl
@[simp] theorem State.putTeam_rootRcb (s : State) (x : Team) : (s.putTeam x).rootRcb = s.rootRcb := rfl
@[simp] theorem State.putTeam_slotBase (s : State) (x : Team) : (s.putTeam x).slotBase = s.slotBase := rfl
@[simp] theorem State.putTeam_saveWays (s : State) (x : Team) : (s.putTeam x).saveWays = s.saveWays := rfl
@[simp] theorem State.putTeam_fdBase (s : State) (x : Team) : (s.putTeam x).fdBase = s.fdBase := rfl
@[simp] theorem State.putTeam_intStatus (s : State) (x : Team) : (s.putTeam x).intStatus = s.intStatus := rfl
@[simp] theorem State.putTeam_tails (s : State) (x : Team) : (s.putTeam x).tails = s.tails := rfl
@[simp] theorem State.putTeam_powerLevel (s : State) (x : Team) : (s.putTeam x).powerLevel = s.powerLevel := rfl
@[simp] theorem State.putTeam_alarm (s : State) (x : Team) : (s.putTeam x).alarm = s.alarm := rfl
@[simp] theorem State.putTeam_keys (s : State) (x : Team) : (s.putTeam x).keys = s.keys := rfl
@[simp] theorem State.putTeam_heads (s : State) (x : Team) : (s.putTeam x).heads = s.heads := rfl
@[simp] theorem State.putTeam_regions (s : State) (x : Team) : (s.putTeam x).regions = s.regions := rfl
@[simp] theorem State.putTeam_nodes (s : State) (x : Team) : (s.putTeam x).nodes = s.nodes := rfl
@[simp] theorem State.putTeam_teams (s : State) (x : Team) : (s.putTeam x).teams = s.teams.set s.focus.team x := rfl
@[simp] theorem State.putTeam_cores (s : State) (x : Team) : (s.putTeam x).cores = s.cores := rfl
@[simp] theorem State.putTeam_clusters (s : State) (x : Team) : (s.putTeam x).clusters = s.clusters := rfl
@[simp] theorem State.putTeam_passes (s : State) (x : Team) : (s.putTeam x).passes = s.passes := rfl
@[simp] theorem State.putTeam_storedSignatures (s : State) (x : Team) : (s.putTeam x).storedSignatures = s.storedSignatures := rfl
@[simp] theorem State.putTeam_contentSignatures (s : State) (x : Team) : (s.putTeam x).contentSignatures = s.contentSignatures := rfl
@[simp] theorem State.putTeam_units (s : State) (x : Team) : (s.putTeam x).units = s.units := rfl
@[simp] theorem State.putTeam_execMaps (s : State) (x : Team) : (s.putTeam x).execMaps = s.execMaps := rfl
@[simp] theorem State.putTeam_tagCounter (s : State) (x : Team) : (s.putTeam x).tagCounter = s.tagCounter := rfl
@[simp] theorem State.putTeam_uniqueCounter (s : State) (x : Team) : (s.putTeam x).uniqueCounter = s.uniqueCounter := rfl
@[simp] theorem State.putTeam_acceptSeq (s : State) (x : Team) : (s.putTeam x).acceptSeq = s.acceptSeq := rfl
@[simp] theorem State.putTeam_residenceSeq (s : State) (x : Team) : (s.putTeam x).residenceSeq = s.residenceSeq := rfl
@[simp] theorem State.putTeam_pending (s : State) (x : Team) : (s.putTeam x).pending = s.pending := rfl
@[simp] theorem State.putTeam_focus (s : State) (x : Team) : (s.putTeam x).focus = s.focus := rfl
@[simp] theorem State.putTeam_chosenNext (s : State) (x : Team) : (s.putTeam x).chosenNext = s.chosenNext := rfl
@[simp] theorem State.putTeam_eventTurn (s : State) (x : Team) : (s.putTeam x).eventTurn = s.eventTurn := rfl
@[simp] theorem State.putTeam_lastSource (s : State) (x : Team) : (s.putTeam x).lastSource = s.lastSource := rfl
@[simp] theorem State.putTeam_agenda (s : State) (x : Team) : (s.putTeam x).agenda = s.agenda := rfl
@[simp] theorem State.putTeam_ticks (s : State) (x : Team) : (s.putTeam x).ticks = s.ticks := rfl
@[simp] theorem State.putTeam_freeCount (s : State) (x : Team) : (s.putTeam x).freeCount = s.freeCount := rfl

@[simp] theorem State.putGroup_mem (s : State) (x : Group) : (s.putGroup x).mem = s.mem := rfl
@[simp] theorem State.putGroup_poison (s : State) (x : Group) : (s.putGroup x).poison = s.poison := rfl
@[simp] theorem State.putGroup_poisonParts (s : State) (x : Group) : (s.putGroup x).poisonParts = s.poisonParts := rfl
@[simp] theorem State.putGroup_enabled (s : State) (x : Group) : (s.putGroup x).enabled = s.enabled := rfl
@[simp] theorem State.putGroup_installed (s : State) (x : Group) : (s.putGroup x).installed = s.installed := rfl
@[simp] theorem State.putGroup_rootRcb (s : State) (x : Group) : (s.putGroup x).rootRcb = s.rootRcb := rfl
@[simp] theorem State.putGroup_slotBase (s : State) (x : Group) : (s.putGroup x).slotBase = s.slotBase := rfl
@[simp] theorem State.putGroup_saveWays (s : State) (x : Group) : (s.putGroup x).saveWays = s.saveWays := rfl
@[simp] theorem State.putGroup_fdBase (s : State) (x : Group) : (s.putGroup x).fdBase = s.fdBase := rfl
@[simp] theorem State.putGroup_intStatus (s : State) (x : Group) : (s.putGroup x).intStatus = s.intStatus := rfl
@[simp] theorem State.putGroup_tails (s : State) (x : Group) : (s.putGroup x).tails = s.tails := rfl
@[simp] theorem State.putGroup_powerLevel (s : State) (x : Group) : (s.putGroup x).powerLevel = s.powerLevel := rfl
@[simp] theorem State.putGroup_alarm (s : State) (x : Group) : (s.putGroup x).alarm = s.alarm := rfl
@[simp] theorem State.putGroup_keys (s : State) (x : Group) : (s.putGroup x).keys = s.keys := rfl
@[simp] theorem State.putGroup_heads (s : State) (x : Group) : (s.putGroup x).heads = s.heads := rfl
@[simp] theorem State.putGroup_regions (s : State) (x : Group) : (s.putGroup x).regions = s.regions := rfl
@[simp] theorem State.putGroup_nodes (s : State) (x : Group) : (s.putGroup x).nodes = s.nodes := rfl
@[simp] theorem State.putGroup_teams (s : State) (x : Group) : (s.putGroup x).teams = s.teams.set s.focus.team (s.team.setGroup s.focus.group x) := rfl
@[simp] theorem State.putGroup_cores (s : State) (x : Group) : (s.putGroup x).cores = s.cores := rfl
@[simp] theorem State.putGroup_clusters (s : State) (x : Group) : (s.putGroup x).clusters = s.clusters := rfl
@[simp] theorem State.putGroup_passes (s : State) (x : Group) : (s.putGroup x).passes = s.passes := rfl
@[simp] theorem State.putGroup_storedSignatures (s : State) (x : Group) : (s.putGroup x).storedSignatures = s.storedSignatures := rfl
@[simp] theorem State.putGroup_contentSignatures (s : State) (x : Group) : (s.putGroup x).contentSignatures = s.contentSignatures := rfl
@[simp] theorem State.putGroup_units (s : State) (x : Group) : (s.putGroup x).units = s.units := rfl
@[simp] theorem State.putGroup_execMaps (s : State) (x : Group) : (s.putGroup x).execMaps = s.execMaps := rfl
@[simp] theorem State.putGroup_tagCounter (s : State) (x : Group) : (s.putGroup x).tagCounter = s.tagCounter := rfl
@[simp] theorem State.putGroup_uniqueCounter (s : State) (x : Group) : (s.putGroup x).uniqueCounter = s.uniqueCounter := rfl
@[simp] theorem State.putGroup_acceptSeq (s : State) (x : Group) : (s.putGroup x).acceptSeq = s.acceptSeq := rfl
@[simp] theorem State.putGroup_residenceSeq (s : State) (x : Group) : (s.putGroup x).residenceSeq = s.residenceSeq := rfl
@[simp] theorem State.putGroup_pending (s : State) (x : Group) : (s.putGroup x).pending = s.pending := rfl
@[simp] theorem State.putGroup_focus (s : State) (x : Group) : (s.putGroup x).focus = s.focus := rfl
@[simp] theorem State.putGroup_chosenNext (s : State) (x : Group) : (s.putGroup x).chosenNext = s.chosenNext := rfl
@[simp] theorem State.putGroup_eventTurn (s : State) (x : Group) : (s.putGroup x).eventTurn = s.eventTurn := rfl
@[simp] theorem State.putGroup_lastSource (s : State) (x : Group) : (s.putGroup x).lastSource = s.lastSource := rfl
@[simp] theorem State.putGroup_agenda (s : State) (x : Group) : (s.putGroup x).agenda = s.agenda := rfl
@[simp] theorem State.putGroup_ticks (s : State) (x : Group) : (s.putGroup x).ticks = s.ticks := rfl
@[simp] theorem State.putGroup_freeCount (s : State) (x : Group) : (s.putGroup x).freeCount = s.freeCount := rfl

@[simp] theorem State.putPath_mem (s : State) (p : Path) : (s.putPath p).mem = s.mem := rfl
@[simp] theorem State.putPath_poison (s : State) (p : Path) : (s.putPath p).poison = s.poison := rfl
@[simp] theorem State.putPath_poisonParts (s : State) (p : Path) : (s.putPath p).poisonParts = s.poisonParts := rfl
@[simp] theorem State.putPath_enabled (s : State) (p : Path) : (s.putPath p).enabled = s.enabled := rfl
@[simp] theorem State.putPath_installed (s : State) (p : Path) : (s.putPath p).installed = s.installed := rfl
@[simp] theorem State.putPath_rootRcb (s : State) (p : Path) : (s.putPath p).rootRcb = s.rootRcb := rfl
@[simp] theorem State.putPath_slotBase (s : State) (p : Path) : (s.putPath p).slotBase = s.slotBase := rfl
@[simp] theorem State.putPath_saveWays (s : State) (p : Path) : (s.putPath p).saveWays = s.saveWays := rfl
@[simp] theorem State.putPath_fdBase (s : State) (p : Path) : (s.putPath p).fdBase = s.fdBase := rfl
@[simp] theorem State.putPath_intStatus (s : State) (p : Path) : (s.putPath p).intStatus = s.intStatus := rfl
@[simp] theorem State.putPath_tails (s : State) (p : Path) : (s.putPath p).tails = s.tails := rfl
@[simp] theorem State.putPath_powerLevel (s : State) (p : Path) : (s.putPath p).powerLevel = s.powerLevel := rfl
@[simp] theorem State.putPath_alarm (s : State) (p : Path) : (s.putPath p).alarm = s.alarm := rfl
@[simp] theorem State.putPath_keys (s : State) (p : Path) : (s.putPath p).keys = s.keys := rfl
@[simp] theorem State.putPath_heads (s : State) (p : Path) : (s.putPath p).heads = s.heads := rfl
@[simp] theorem State.putPath_regions (s : State) (p : Path) : (s.putPath p).regions = s.regions := rfl
@[simp] theorem State.putPath_nodes (s : State) (p : Path) : (s.putPath p).nodes = s.nodes := rfl
@[simp] theorem State.putPath_teams (s : State) (p : Path) : (s.putPath p).teams = s.teams.set s.focus.team (s.team.setGroup s.focus.group (s.group.setSlot s.focus.slot (some p))) := rfl
@[simp] theorem State.putPath_cores (s : State) (p : Path) : (s.putPath p).cores = s.cores := rfl
@[simp] theorem State.putPath_clusters (s : State) (p : Path) : (s.putPath p).clusters = s.clusters := rfl
@[simp] theorem State.putPath_passes (s : State) (p : Path) : (s.putPath p).passes = s.passes := rfl
@[simp] theorem State.putPath_storedSignatures (s : State) (p : Path) : (s.putPath p).storedSignatures = s.storedSignatures := rfl
@[simp] theorem State.putPath_contentSignatures (s : State) (p : Path) : (s.putPath p).contentSignatures = s.contentSignatures := rfl
@[simp] theorem State.putPath_units (s : State) (p : Path) : (s.putPath p).units = s.units := rfl
@[simp] theorem State.putPath_execMaps (s : State) (p : Path) : (s.putPath p).execMaps = s.execMaps := rfl
@[simp] theorem State.putPath_tagCounter (s : State) (p : Path) : (s.putPath p).tagCounter = s.tagCounter := rfl
@[simp] theorem State.putPath_uniqueCounter (s : State) (p : Path) : (s.putPath p).uniqueCounter = s.uniqueCounter := rfl
@[simp] theorem State.putPath_acceptSeq (s : State) (p : Path) : (s.putPath p).acceptSeq = s.acceptSeq := rfl
@[simp] theorem State.putPath_residenceSeq (s : State) (p : Path) : (s.putPath p).residenceSeq = s.residenceSeq := rfl
@[simp] theorem State.putPath_pending (s : State) (p : Path) : (s.putPath p).pending = s.pending := rfl
@[simp] theorem State.putPath_focus (s : State) (p : Path) : (s.putPath p).focus = s.focus := rfl
@[simp] theorem State.putPath_chosenNext (s : State) (p : Path) : (s.putPath p).chosenNext = s.chosenNext := rfl
@[simp] theorem State.putPath_eventTurn (s : State) (p : Path) : (s.putPath p).eventTurn = s.eventTurn := rfl
@[simp] theorem State.putPath_lastSource (s : State) (p : Path) : (s.putPath p).lastSource = s.lastSource := rfl
@[simp] theorem State.putPath_agenda (s : State) (p : Path) : (s.putPath p).agenda = s.agenda := rfl
@[simp] theorem State.putPath_ticks (s : State) (p : Path) : (s.putPath p).ticks = s.ticks := rfl
@[simp] theorem State.putPath_freeCount (s : State) (p : Path) : (s.putPath p).freeCount = s.freeCount := rfl

@[simp] theorem State.writeBytes_mem (s : State) (a : Nat) (bs : List Byte) : (s.writeBytes a bs).mem = memWrite s.mem a bs := rfl
@[simp] theorem State.writeBytes_enabled (s : State) (a : Nat) (bs : List Byte) : (s.writeBytes a bs).enabled = s.enabled := rfl
@[simp] theorem State.writeBytes_installed (s : State) (a : Nat) (bs : List Byte) : (s.writeBytes a bs).installed = s.installed := rfl
@[simp] theorem State.writeBytes_rootRcb (s : State) (a : Nat) (bs : List Byte) : (s.writeBytes a bs).rootRcb = s.rootRcb := rfl
@[simp] theorem State.writeBytes_slotBase (s : State) (a : Nat) (bs : List Byte) : (s.writeBytes a bs).slotBase = s.slotBase := rfl
@[simp] theorem State.writeBytes_saveWays (s : State) (a : Nat) (bs : List Byte) : (s.writeBytes a bs).saveWays = s.saveWays := rfl
@[simp] theorem State.writeBytes_fdBase (s : State) (a : Nat) (bs : List Byte) : (s.writeBytes a bs).fdBase = s.fdBase := rfl
@[simp] theorem State.writeBytes_intStatus (s : State) (a : Nat) (bs : List Byte) : (s.writeBytes a bs).intStatus = s.intStatus := rfl
@[simp] theorem State.writeBytes_tails (s : State) (a : Nat) (bs : List Byte) : (s.writeBytes a bs).tails = s.tails := rfl
@[simp] theorem State.writeBytes_powerLevel (s : State) (a : Nat) (bs : List Byte) : (s.writeBytes a bs).powerLevel = s.powerLevel := rfl
@[simp] theorem State.writeBytes_alarm (s : State) (a : Nat) (bs : List Byte) : (s.writeBytes a bs).alarm = s.alarm := rfl
@[simp] theorem State.writeBytes_keys (s : State) (a : Nat) (bs : List Byte) : (s.writeBytes a bs).keys = s.keys := rfl
@[simp] theorem State.writeBytes_heads (s : State) (a : Nat) (bs : List Byte) : (s.writeBytes a bs).heads = s.heads := rfl
@[simp] theorem State.writeBytes_regions (s : State) (a : Nat) (bs : List Byte) : (s.writeBytes a bs).regions = s.regions := rfl
@[simp] theorem State.writeBytes_nodes (s : State) (a : Nat) (bs : List Byte) : (s.writeBytes a bs).nodes = s.nodes := rfl
@[simp] theorem State.writeBytes_teams (s : State) (a : Nat) (bs : List Byte) : (s.writeBytes a bs).teams = s.teams := rfl
@[simp] theorem State.writeBytes_cores (s : State) (a : Nat) (bs : List Byte) : (s.writeBytes a bs).cores = s.cores := rfl
@[simp] theorem State.writeBytes_clusters (s : State) (a : Nat) (bs : List Byte) : (s.writeBytes a bs).clusters = s.clusters := rfl
@[simp] theorem State.writeBytes_passes (s : State) (a : Nat) (bs : List Byte) : (s.writeBytes a bs).passes = s.passes := rfl
@[simp] theorem State.writeBytes_storedSignatures (s : State) (a : Nat) (bs : List Byte) : (s.writeBytes a bs).storedSignatures = s.storedSignatures := rfl
@[simp] theorem State.writeBytes_units (s : State) (a : Nat) (bs : List Byte) : (s.writeBytes a bs).units = s.units := rfl
@[simp] theorem State.writeBytes_execMaps (s : State) (a : Nat) (bs : List Byte) : (s.writeBytes a bs).execMaps = s.execMaps := rfl
@[simp] theorem State.writeBytes_tagCounter (s : State) (a : Nat) (bs : List Byte) : (s.writeBytes a bs).tagCounter = s.tagCounter := rfl
@[simp] theorem State.writeBytes_uniqueCounter (s : State) (a : Nat) (bs : List Byte) : (s.writeBytes a bs).uniqueCounter = s.uniqueCounter := rfl
@[simp] theorem State.writeBytes_acceptSeq (s : State) (a : Nat) (bs : List Byte) : (s.writeBytes a bs).acceptSeq = s.acceptSeq := rfl
@[simp] theorem State.writeBytes_residenceSeq (s : State) (a : Nat) (bs : List Byte) : (s.writeBytes a bs).residenceSeq = s.residenceSeq := rfl
@[simp] theorem State.writeBytes_pending (s : State) (a : Nat) (bs : List Byte) : (s.writeBytes a bs).pending = s.pending := rfl
@[simp] theorem State.writeBytes_focus (s : State) (a : Nat) (bs : List Byte) : (s.writeBytes a bs).focus = s.focus := rfl
@[simp] theorem State.writeBytes_chosenNext (s : State) (a : Nat) (bs : List Byte) : (s.writeBytes a bs).chosenNext = s.chosenNext := rfl
@[simp] theorem State.writeBytes_eventTurn (s : State) (a : Nat) (bs : List Byte) : (s.writeBytes a bs).eventTurn = s.eventTurn := rfl
@[simp] theorem State.writeBytes_lastSource (s : State) (a : Nat) (bs : List Byte) : (s.writeBytes a bs).lastSource = s.lastSource := rfl
@[simp] theorem State.writeBytes_agenda (s : State) (a : Nat) (bs : List Byte) : (s.writeBytes a bs).agenda = s.agenda := rfl
@[simp] theorem State.writeBytes_ticks (s : State) (a : Nat) (bs : List Byte) : (s.writeBytes a bs).ticks = s.ticks := rfl
@[simp] theorem State.writeBytes_freeCount (s : State) (a : Nat) (bs : List Byte) : (s.writeBytes a bs).freeCount = s.freeCount := rfl

@[simp] theorem State.interrupt_mem (s : State) (b : Nat) : (s.interrupt b).mem = s.mem := rfl
@[simp] theorem State.interrupt_poison (s : State) (b : Nat) : (s.interrupt b).poison = s.poison := rfl
@[simp] theorem State.interrupt_poisonParts (s : State) (b : Nat) : (s.interrupt b).poisonParts = s.poisonParts := rfl
@[simp] theorem State.interrupt_enabled (s : State) (b : Nat) : (s.interrupt b).enabled = s.enabled := rfl
@[simp] theorem State.interrupt_installed (s : State) (b : Nat) : (s.interrupt b).installed = s.installed := rfl
@[simp] theorem State.interrupt_rootRcb (s : State) (b : Nat) : (s.interrupt b).rootRcb = s.rootRcb := rfl
@[simp] theorem State.interrupt_slotBase (s : State) (b : Nat) : (s.interrupt b).slotBase = s.slotBase := rfl
@[simp] theorem State.interrupt_saveWays (s : State) (b : Nat) : (s.interrupt b).saveWays = s.saveWays := rfl
@[simp] theorem State.interrupt_fdBase (s : State) (b : Nat) : (s.interrupt b).fdBase = s.fdBase := rfl
@[simp] theorem State.interrupt_intStatus (s : State) (b : Nat) : (s.interrupt b).intStatus = s.intStatus ||| BitVec.twoPow 64 b := rfl
@[simp] theorem State.interrupt_tails (s : State) (b : Nat) : (s.interrupt b).tails = s.tails := rfl
@[simp] theorem State.interrupt_powerLevel (s : State) (b : Nat) : (s.interrupt b).powerLevel = s.powerLevel := rfl
@[simp] theorem State.interrupt_alarm (s : State) (b : Nat) : (s.interrupt b).alarm = s.alarm := rfl
@[simp] theorem State.interrupt_keys (s : State) (b : Nat) : (s.interrupt b).keys = s.keys := rfl
@[simp] theorem State.interrupt_heads (s : State) (b : Nat) : (s.interrupt b).heads = s.heads := rfl
@[simp] theorem State.interrupt_regions (s : State) (b : Nat) : (s.interrupt b).regions = s.regions := rfl
@[simp] theorem State.interrupt_nodes (s : State) (b : Nat) : (s.interrupt b).nodes = s.nodes := rfl
@[simp] theorem State.interrupt_teams (s : State) (b : Nat) : (s.interrupt b).teams = s.teams := rfl
@[simp] theorem State.interrupt_cores (s : State) (b : Nat) : (s.interrupt b).cores = s.cores := rfl
@[simp] theorem State.interrupt_clusters (s : State) (b : Nat) : (s.interrupt b).clusters = s.clusters := rfl
@[simp] theorem State.interrupt_passes (s : State) (b : Nat) : (s.interrupt b).passes = s.passes := rfl
@[simp] theorem State.interrupt_storedSignatures (s : State) (b : Nat) : (s.interrupt b).storedSignatures = s.storedSignatures := rfl
@[simp] theorem State.interrupt_contentSignatures (s : State) (b : Nat) : (s.interrupt b).contentSignatures = s.contentSignatures := rfl
@[simp] theorem State.interrupt_units (s : State) (b : Nat) : (s.interrupt b).units = s.units := rfl
@[simp] theorem State.interrupt_execMaps (s : State) (b : Nat) : (s.interrupt b).execMaps = s.execMaps := rfl
@[simp] theorem State.interrupt_tagCounter (s : State) (b : Nat) : (s.interrupt b).tagCounter = s.tagCounter := rfl
@[simp] theorem State.interrupt_uniqueCounter (s : State) (b : Nat) : (s.interrupt b).uniqueCounter = s.uniqueCounter := rfl
@[simp] theorem State.interrupt_acceptSeq (s : State) (b : Nat) : (s.interrupt b).acceptSeq = s.acceptSeq := rfl
@[simp] theorem State.interrupt_residenceSeq (s : State) (b : Nat) : (s.interrupt b).residenceSeq = s.residenceSeq := rfl
@[simp] theorem State.interrupt_pending (s : State) (b : Nat) : (s.interrupt b).pending = s.pending := rfl
@[simp] theorem State.interrupt_focus (s : State) (b : Nat) : (s.interrupt b).focus = s.focus := rfl
@[simp] theorem State.interrupt_chosenNext (s : State) (b : Nat) : (s.interrupt b).chosenNext = s.chosenNext := rfl
@[simp] theorem State.interrupt_eventTurn (s : State) (b : Nat) : (s.interrupt b).eventTurn = s.eventTurn := rfl
@[simp] theorem State.interrupt_lastSource (s : State) (b : Nat) : (s.interrupt b).lastSource = s.lastSource := rfl
@[simp] theorem State.interrupt_agenda (s : State) (b : Nat) : (s.interrupt b).agenda = s.agenda := rfl
@[simp] theorem State.interrupt_ticks (s : State) (b : Nat) : (s.interrupt b).ticks = s.ticks := rfl
@[simp] theorem State.interrupt_freeCount (s : State) (b : Nat) : (s.interrupt b).freeCount = s.freeCount := rfl

/-! ## Fields of a group after an update -/

@[simp] theorem Group.setSlot_cur (g : Group) (b : Bool) (p : Option Path) : (g.setSlot b p).cur = g.cur := by cases b <;> rfl
@[simp] theorem Group.setSlot_issues (g : Group) (b : Bool) (p : Option Path) : (g.setSlot b p).issues = g.issues := by cases b <;> rfl
@[simp] theorem Group.setSlot_age (g : Group) (b : Bool) (p : Option Path) : (g.setSlot b p).age = g.age := by cases b <;> rfl
@[simp] theorem Group.setSlot_docc (g : Group) (b : Bool) (p : Option Path) : (g.setSlot b p).docc = g.docc := by cases b <;> rfl
@[simp] theorem Group.setSlot_dsbase (g : Group) (b : Bool) (p : Option Path) : (g.setSlot b p).dsbase = g.dsbase := by cases b <;> rfl
@[simp] theorem Group.setSlot_record (g : Group) (b : Bool) (p : Option Path) : (g.setSlot b p).record = g.record := by cases b <;> rfl
@[simp] theorem Group.setSlot_pbase (g : Group) (b : Bool) (p : Option Path) : (g.setSlot b p).pbase = g.pbase := by cases b <;> rfl
@[simp] theorem Group.setSlot_quadrant (g : Group) (b : Bool) (p : Option Path) : (g.setSlot b p).quadrant = g.quadrant := by cases b <;> rfl
@[simp] theorem Group.setSlot_retired (g : Group) (b : Bool) (p : Option Path) : (g.setSlot b p).retired = g.retired := by cases b <;> rfl
@[simp] theorem Group.setSlot_live (g : Group) (b : Bool) (p : Option Path) : (g.setSlot b p).live = g.live := by cases b <;> rfl
@[simp] theorem Group.setSlot_helper (g : Group) (b : Bool) (p : Option Path) : (g.setSlot b p).helper = g.helper := by cases b <;> rfl
@[simp] theorem Group.setSlot_homes (g : Group) (b : Bool) (p : Option Path) : (g.setSlot b p).homes = g.homes := by cases b <;> rfl
@[simp] theorem Group.setSlot_vregs (g : Group) (b : Bool) (p : Option Path) : (g.setSlot b p).vregs = g.vregs := by cases b <;> rfl
@[simp] theorem Group.setSlot_wregs (g : Group) (b : Bool) (p : Option Path) : (g.setSlot b p).wregs = g.wregs := by cases b <;> rfl
@[simp] theorem Group.setSlot_preds (g : Group) (b : Bool) (p : Option Path) : (g.setSlot b p).preds = g.preds := by cases b <;> rfl
@[simp] theorem Group.setSlot_masks (g : Group) (b : Bool) (p : Option Path) : (g.setSlot b p).masks = g.masks := by cases b <;> rfl
@[simp] theorem Group.setSlot_flags (g : Group) (b : Bool) (p : Option Path) : (g.setSlot b p).flags = g.flags := by cases b <;> rfl
@[simp] theorem Group.setSlot_tcause (g : Group) (b : Bool) (p : Option Path) : (g.setSlot b p).tcause = g.tcause := by cases b <;> rfl
@[simp] theorem Group.setSlot_tpc (g : Group) (b : Bool) (p : Option Path) : (g.setSlot b p).tpc = g.tpc := by cases b <;> rfl
@[simp] theorem Group.setSlot_taddr (g : Group) (b : Bool) (p : Option Path) : (g.setSlot b p).taddr = g.taddr := by cases b <;> rfl
@[simp] theorem Group.setSlot_tmask (g : Group) (b : Bool) (p : Option Path) : (g.setSlot b p).tmask = g.tmask := by cases b <;> rfl
@[simp] theorem Group.setSlot_tmaskh (g : Group) (b : Bool) (p : Option Path) : (g.setSlot b p).tmaskh = g.tmaskh := by cases b <;> rfl
@[simp] theorem Group.setSlot_tinfo (g : Group) (b : Bool) (p : Option Path) : (g.setSlot b p).tinfo = g.tinfo := by cases b <;> rfl
@[simp] theorem Group.setSlot_trap (g : Group) (b : Bool) (p : Option Path) : (g.setSlot b p).trap = g.trap := by cases b <;> rfl
@[simp] theorem Group.setSlot_shadowV (g : Group) (b : Bool) (p : Option Path) : (g.setSlot b p).shadowV = g.shadowV := by cases b <;> rfl
@[simp] theorem Group.setSlot_shadowW (g : Group) (b : Bool) (p : Option Path) : (g.setSlot b p).shadowW = g.shadowW := by cases b <;> rfl
@[simp] theorem Group.setSlot_latchA (g : Group) (b : Bool) (p : Option Path) : (g.setSlot b p).latchA = g.latchA := by cases b <;> rfl
@[simp] theorem Group.setSlot_latchB (g : Group) (b : Bool) (p : Option Path) : (g.setSlot b p).latchB = g.latchB := by cases b <;> rfl
@[simp] theorem Group.setSlot_batch (g : Group) (b : Bool) (p : Option Path) : (g.setSlot b p).batch = g.batch := by cases b <;> rfl
@[simp] theorem Group.setSlot_yieldHold (g : Group) (b : Bool) (p : Option Path) : (g.setSlot b p).yieldHold = g.yieldHold := by cases b <;> rfl
@[simp] theorem Group.setSlot_yieldCycles (g : Group) (b : Bool) (p : Option Path) : (g.setSlot b p).yieldCycles = g.yieldCycles := by cases b <;> rfl

@[simp] theorem Group.orFlags_path0 (g : Group) (x : BitVec 5) : (g.orFlags x).path0 = g.path0 := rfl
@[simp] theorem Group.orFlags_path1 (g : Group) (x : BitVec 5) : (g.orFlags x).path1 = g.path1 := rfl
@[simp] theorem Group.orFlags_cur (g : Group) (x : BitVec 5) : (g.orFlags x).cur = g.cur := rfl
@[simp] theorem Group.orFlags_issues (g : Group) (x : BitVec 5) : (g.orFlags x).issues = g.issues := rfl
@[simp] theorem Group.orFlags_age (g : Group) (x : BitVec 5) : (g.orFlags x).age = g.age := rfl
@[simp] theorem Group.orFlags_docc (g : Group) (x : BitVec 5) : (g.orFlags x).docc = g.docc := rfl
@[simp] theorem Group.orFlags_dsbase (g : Group) (x : BitVec 5) : (g.orFlags x).dsbase = g.dsbase := rfl
@[simp] theorem Group.orFlags_record (g : Group) (x : BitVec 5) : (g.orFlags x).record = g.record := rfl
@[simp] theorem Group.orFlags_pbase (g : Group) (x : BitVec 5) : (g.orFlags x).pbase = g.pbase := rfl
@[simp] theorem Group.orFlags_quadrant (g : Group) (x : BitVec 5) : (g.orFlags x).quadrant = g.quadrant := rfl
@[simp] theorem Group.orFlags_retired (g : Group) (x : BitVec 5) : (g.orFlags x).retired = g.retired := rfl
@[simp] theorem Group.orFlags_live (g : Group) (x : BitVec 5) : (g.orFlags x).live = g.live := rfl
@[simp] theorem Group.orFlags_helper (g : Group) (x : BitVec 5) : (g.orFlags x).helper = g.helper := rfl
@[simp] theorem Group.orFlags_homes (g : Group) (x : BitVec 5) : (g.orFlags x).homes = g.homes := rfl
@[simp] theorem Group.orFlags_vregs (g : Group) (x : BitVec 5) : (g.orFlags x).vregs = g.vregs := rfl
@[simp] theorem Group.orFlags_wregs (g : Group) (x : BitVec 5) : (g.orFlags x).wregs = g.wregs := rfl
@[simp] theorem Group.orFlags_preds (g : Group) (x : BitVec 5) : (g.orFlags x).preds = g.preds := rfl
@[simp] theorem Group.orFlags_masks (g : Group) (x : BitVec 5) : (g.orFlags x).masks = g.masks := rfl
@[simp] theorem Group.orFlags_tcause (g : Group) (x : BitVec 5) : (g.orFlags x).tcause = g.tcause := rfl
@[simp] theorem Group.orFlags_tpc (g : Group) (x : BitVec 5) : (g.orFlags x).tpc = g.tpc := rfl
@[simp] theorem Group.orFlags_taddr (g : Group) (x : BitVec 5) : (g.orFlags x).taddr = g.taddr := rfl
@[simp] theorem Group.orFlags_tmask (g : Group) (x : BitVec 5) : (g.orFlags x).tmask = g.tmask := rfl
@[simp] theorem Group.orFlags_tmaskh (g : Group) (x : BitVec 5) : (g.orFlags x).tmaskh = g.tmaskh := rfl
@[simp] theorem Group.orFlags_tinfo (g : Group) (x : BitVec 5) : (g.orFlags x).tinfo = g.tinfo := rfl
@[simp] theorem Group.orFlags_trap (g : Group) (x : BitVec 5) : (g.orFlags x).trap = g.trap := rfl
@[simp] theorem Group.orFlags_shadowV (g : Group) (x : BitVec 5) : (g.orFlags x).shadowV = g.shadowV := rfl
@[simp] theorem Group.orFlags_shadowW (g : Group) (x : BitVec 5) : (g.orFlags x).shadowW = g.shadowW := rfl
@[simp] theorem Group.orFlags_latchA (g : Group) (x : BitVec 5) : (g.orFlags x).latchA = g.latchA := rfl
@[simp] theorem Group.orFlags_latchB (g : Group) (x : BitVec 5) : (g.orFlags x).latchB = g.latchB := rfl
@[simp] theorem Group.orFlags_batch (g : Group) (x : BitVec 5) : (g.orFlags x).batch = g.batch := rfl
@[simp] theorem Group.orFlags_yieldHold (g : Group) (x : BitVec 5) : (g.orFlags x).yieldHold = g.yieldHold := rfl
@[simp] theorem Group.orFlags_yieldCycles (g : Group) (x : BitVec 5) : (g.orFlags x).yieldCycles = g.yieldCycles := rfl
@[simp] theorem Group.orFlags_flags (g : Group) (x : BitVec 5) : (g.orFlags x).flags = g.flags ||| x := rfl

@[simp] theorem Group.slot_setSlot_self (g : Group) (b : Bool) (p : Option Path) : (g.setSlot b p).slot b = p := by
  cases b <;> rfl
@[simp] theorem Group.slot_setSlot_other (g : Group) (b : Bool) (p : Option Path) :
    (g.setSlot b p).slot (!b) = g.slot (!b) := by cases b <;> rfl

/-! ## Parts read after they are written -/

theorem State.teamAt_setTeam_self (s : State) {t : Nat} (h : t < s.teams.length) (x : Team) : (s.setTeam t x).teamAt t = x := by
  simp [State.teamAt, State.setTeam, h]

theorem State.teamAt_setTeam_ne (s : State) {t u : Nat} (h : u ≠ t) (x : Team) : (s.setTeam t x).teamAt u = s.teamAt u := by
  simp [State.teamAt, State.setTeam, List.getD_eq_getElem?_getD, List.getElem?_set_ne (Ne.symm h)]

theorem Team.groupAt_setGroup_self (t : Team) {g : Nat} (h : g < t.groups.length) (x : Group) :
    (t.setGroup g x).groupAt g = x := by simp [Team.groupAt, Team.setGroup, h]

theorem Team.groupAt_setGroup_ne (t : Team) {g h : Nat} (n : h ≠ g) (x : Group) :
    (t.setGroup g x).groupAt h = t.groupAt h := by
  simp [Team.groupAt, Team.setGroup, List.getD_eq_getElem?_getD, List.getElem?_set_ne (Ne.symm n)]

/-- The focus names a team and a group. -/
def State.placed (s : State) : Prop := s.focus.team < s.teams.length ∧ s.focus.group < s.team.groups.length

theorem State.placed_of_live {s : State} (h : s.live = true) : s.placed := by
  simp only [State.live, Bool.and_eq_true, decide_eq_true_eq] at h
  exact ⟨h.1.1.1.2, h.1.1.2⟩

theorem State.team_putGroup (s : State) (h : s.placed) (g : Group) :
    (s.putGroup g).team = s.team.setGroup s.focus.group g :=
  s.teamAt_setTeam_self h.1 _

theorem State.group_putGroup (s : State) (h : s.placed) (g : Group) : (s.putGroup g).group = g := by
  unfold State.group
  rw [s.team_putGroup h g]
  exact s.team.groupAt_setGroup_self h.2 g

/-- A write of the executing group keeps what the team is. -/
theorem State.team_putGroup_node (s : State) (g : Group) : (s.putGroup g).team.node = s.team.node := by
  by_cases h : s.focus.team < s.teams.length
  · simp [State.team, State.putGroup, State.setGroup, State.teamAt_setTeam_self s h, Team.setGroup]
  · simp [State.team, State.teamAt, State.putGroup, State.setGroup, State.setTeam, List.getD_eq_getElem?_getD, h]

theorem State.team_putGroup_variant (s : State) (g : Group) : (s.putGroup g).team.variant = s.team.variant := by
  by_cases h : s.focus.team < s.teams.length
  · simp [State.team, State.putGroup, State.setGroup, State.teamAt_setTeam_self s h, Team.setGroup]
  · simp [State.team, State.teamAt, State.putGroup, State.setGroup, State.setTeam, List.getD_eq_getElem?_getD, h]

@[simp] theorem State.node_putGroup (s : State) (g : Group) : (s.putGroup g).node = s.node := by
  simp [State.node, s.team_putGroup_node g, State.nodeAt]

@[simp] theorem State.variant_putGroup (s : State) (g : Group) : (s.putGroup g).variant = s.variant := by
  simp [State.variant, State.variantOf, s.team_putGroup_node g, s.team_putGroup_variant g, State.nodeAt]

@[simp] theorem State.region_putGroup (s : State) (g : Group) : (s.putGroup g).region = s.region := by
  simp [State.region, State.regionAt]

@[simp] theorem State.pfx_putGroup (s : State) (g : Group) : (s.putGroup g).pfx = s.pfx := rfl

theorem State.placed_putGroup {s : State} (h : s.placed) (g : Group) : (s.putGroup g).placed := by
  refine ⟨by simpa using h.1, ?_⟩
  rw [s.team_putGroup h g]
  simpa [Team.setGroup] using h.2

/-- Writing the executing group twice keeps the second. -/
theorem State.putGroup_putGroup (s : State) (h : s.placed) (g g' : Group) : (s.putGroup g).putGroup g' = s.putGroup g' := by
  have ht := s.team_putGroup h g
  simp only [State.putGroup, State.setGroup, State.setTeam, State.team] at ht ⊢
  rw [ht]
  simp [Team.setGroup]

theorem State.putGroup_group (s : State) (h : s.placed) : s.putGroup s.group = s := by
  have h1 : s.team.setGroup s.focus.group s.group = s.team := by
    simp only [Team.setGroup, State.group, Team.groupAt]
    have : s.team.groups.set s.focus.group (s.team.groups.getD s.focus.group {}) = s.team.groups := by
      apply List.ext_getElem
      · simp
      · intro i h1 h2
        by_cases hi : s.focus.group = i
        · subst hi
          simp [h2]
        · simp [hi]
    rw [this]
  have h2 : s.teams.set s.focus.team s.team = s.teams := by
    apply List.ext_getElem
    · simp
    · intro i h1 h2
      by_cases hi : s.focus.team = i
      · subst hi
        simp [State.team, State.teamAt, h2]
      · simp [hi]
  show ({ s with teams := s.teams.set s.focus.team (s.team.setGroup s.focus.group s.group) } : State) = s
  rw [h1, h2]

end Sys2Proof.Machine
end

