-- ==== Sys2Proof/Laws/Registers.lean ====
section
/-!
SUPPORT. Sys2Proof/Laws/Registers.lean: what a register reads after a write of one (R89 to R96).
-/
namespace Sys2Proof.Machine

/-- A vector register that a write reaches: the variant's budget holds it, or it is of the shadow set (R55, R96). -/
def Group.reachesV (g : Group) (v : Variant) (n : Nat) : Bool := v.hasV n || (g.trap.isSome && decide (n < 16))

/-- A uniform register that a write reaches (R55, R89, R96). -/
def Group.reachesW (g : Group) (v : Variant) (n : BitVec 6) : Bool :=
  n != 0 && (v.hasW n.toNat || (g.trap.isSome && decide (56 ≤ n.toNat)))

theorem vregKey_ne {n m l k : Nat} (h : m ≠ n) (hl : l < 64) (hk : k < 64) : 64 * m + l ≠ 64 * n + k := by omega

/-- vget after vset. -/
theorem Group.vget_vset (g : Group) (v : Variant) (n m l : Nat) (hl : l < 64) (mask : LaneMask) (f : Nat → Word) :
    (g.vset v n mask f).vget v m l = if m = n ∧ g.reachesV v n = true ∧ mask.getLsbD l = true then f l else g.vget v m l := by
  have key : ∀ r : NMap Word, mapGet (0#32) (writeLanes r n mask f) (64 * m + l) =
      if m = n ∧ mask.getLsbD l = true then f l else mapGet (0#32) r (64 * m + l) := by
    intro r
    show mapGet 0 _ _ = _
    rw [mapGet_writeLanes]
    by_cases h : m = n
    · subst h
      have e : 64 * m + l - 64 * m = l := by omega
      rw [e]
      simp [hl]
    · rw [if_neg (fun c => by have := c.1; have := c.2.1; omega), if_neg (fun c => h c.1)]
      rfl
  by_cases ht : g.trap.isSome = true
  · by_cases hn : n < 16
    · have e : g.vset v n mask f = { g with
          latchA := g.latchA.filter (fun e => e.reg.toNat != n), latchB := g.latchB.filter (fun e => e.reg.toNat != n)
          shadowV := writeLanes g.shadowV n mask f } := by simp [Group.vset, ht, hn]
      rw [e]
      by_cases hm : m < 16
      · simp [Group.vget, ht, hm, key, Group.reachesV, hn]
      · have : m ≠ n := by omega
        simp [Group.vget, ht, hm, this]
    · by_cases hv : v.hasV n = true
      · have e : g.vset v n mask f = { g with
            latchA := g.latchA.filter (fun e => e.reg.toNat != n), latchB := g.latchB.filter (fun e => e.reg.toNat != n)
            vregs := writeLanes g.vregs n mask f } := by simp [Group.vset, ht, hn, hv]
        rw [e]
        by_cases hm : m < 16
        · have : m ≠ n := by omega
          simp [Group.vget, ht, hm, this]
        · by_cases hmn : m = n
          · subst hmn
            simp [Group.vget, ht, hm, key, Group.reachesV, hv]
          · simp [Group.vget, ht, hm, key, hmn]
      · have e : g.vset v n mask f = { g with
            latchA := g.latchA.filter (fun e => e.reg.toNat != n)
            latchB := g.latchB.filter (fun e => e.reg.toNat != n) } := by simp [Group.vset, ht, hn, hv]
        rw [e, if_neg (by simp [Group.reachesV, hv, hn])]
        rfl
  · by_cases hv : v.hasV n = true
    · have e : g.vset v n mask f = { g with
          latchA := g.latchA.filter (fun e => e.reg.toNat != n), latchB := g.latchB.filter (fun e => e.reg.toNat != n)
          vregs := writeLanes g.vregs n mask f } := by simp [Group.vset, ht, hv]
      rw [e]
      by_cases hmn : m = n
      · subst hmn
        simp [Group.vget, ht, key, Group.reachesV, hv]
      · simp [Group.vget, ht, key, hmn]
    · have e : g.vset v n mask f = { g with
          latchA := g.latchA.filter (fun e => e.reg.toNat != n)
          latchB := g.latchB.filter (fun e => e.reg.toNat != n) } := by simp [Group.vset, ht, hv]
      rw [e, if_neg (by simp [Group.reachesV, hv, ht])]
      rfl

/-- wget after wset: w0 stays zero, and a write beyond the budget is discarded. -/
theorem Group.wget_wset (g : Group) (v : Variant) (n m : BitVec 6) (x : DWord) :
    (g.wset v n x).wget v m = if m = n ∧ g.reachesW v n = true then x else g.wget v m := by
  by_cases h0 : n = 0#6
  · simp [Group.wset, h0, Group.reachesW]
  · by_cases ht : g.trap.isSome = true
    · by_cases hn : 56 ≤ n.toNat
      · have e : g.wset v n x = { g with shadowW := mapSet 0 g.shadowW n.toNat x } := by simp [Group.wset, h0, ht, hn]
        rw [e]
        by_cases hm : m = n
        · subst hm
          simp [Group.wget, h0, ht, hn, Group.reachesW]
        · have hne : m.toNat ≠ n.toNat := fun h => hm (BitVec.eq_of_toNat_eq h)
          simp [Group.wget, hm, show mapGet (0#64) (mapSet (0#64) g.shadowW n.toNat x) m.toNat = _ from mapGet_mapSet_ne 0 g.shadowW hne x]
      · by_cases hw : v.hasW n.toNat = true
        · have e : g.wset v n x = { g with wregs := mapSet 0 g.wregs n.toNat x } := by simp [Group.wset, h0, hn, hw]
          rw [e]
          by_cases hm : m = n
          · subst hm
            simp [Group.wget, h0, hn, hw, Group.reachesW]
          · have hne : m.toNat ≠ n.toNat := fun h => hm (BitVec.eq_of_toNat_eq h)
            simp [Group.wget, hm, show mapGet (0#64) (mapSet (0#64) g.wregs n.toNat x) m.toNat = _ from mapGet_mapSet_ne 0 g.wregs hne x]
        · have e : g.wset v n x = g := by simp [Group.wset, h0, hn, hw]
          rw [e, if_neg (by simp [Group.reachesW, hw, hn])]
    · by_cases hw : v.hasW n.toNat = true
      · have e : g.wset v n x = { g with wregs := mapSet 0 g.wregs n.toNat x } := by simp [Group.wset, h0, ht, hw]
        rw [e]
        by_cases hm : m = n
        · subst hm
          simp [Group.wget, h0, ht, hw, Group.reachesW]
        · have hne : m.toNat ≠ n.toNat := fun h => hm (BitVec.eq_of_toNat_eq h)
          simp [Group.wget, hm, show mapGet (0#64) (mapSet (0#64) g.wregs n.toNat x) m.toNat = _ from mapGet_mapSet_ne 0 g.wregs hne x]
      · have e : g.wset v n x = g := by simp [Group.wset, h0, ht, hw]
        rw [e, if_neg (by simp [Group.reachesW, hw, ht])]

/-- pget after pset: p0 stays all ones. -/
theorem Group.pget_pset (g : Group) (n m : BitVec 3) (mask x : LaneMask) :
    (g.pset n mask x).pget m = if m = n ∧ n ≠ 0 then (g.pget n &&& ~~~mask) ||| (x &&& mask) else g.pget m := by
  by_cases h0 : n = 0#3
  · simp [Group.pset, h0]
  by_cases hz : mask = 0#64
  · by_cases hm : m = n
    · subst hm
      have e : g.pget m &&& ~~~(0#64) = g.pget m := by
        rw [show ~~~(0#64) = BitVec.allOnes 64 from by decide, BitVec.and_allOnes]
      rw [hz, e]
      simp [Group.pset]
    · simp [Group.pset, hz, hm]
  · by_cases hm : m = n
    · subst hm
      simp [Group.pset, Group.pget, h0, hz]
    · have hne : m.toNat ≠ n.toNat := fun h => hm (BitVec.eq_of_toNat_eq h)
      have q : ∀ y, mapGet (0#64) (mapSet (0#64) g.preds n.toNat y) m.toNat = mapGet (0#64) g.preds m.toNat :=
        fun y => mapGet_mapSet_ne 0 g.preds hne y
      simp [Group.pset, Group.pget, h0, hz, hm, q]

/-- Edge mask after a write of one. -/
theorem Group.mask_setMask (g : Group) (n m : Nat) (x : Word) : (g.setMask n x).mask m = if m = n then x else g.mask m := by
  simp [Group.setMask, Group.mask, mapGet_mapSet]

/-- What a write of one vector register leaves of a group: everything but the register file and the latch. -/
theorem Group.vset_rest (g : Group) (v : Variant) (n : Nat) (mask : LaneMask) (f : Nat → Word) :
    { g.vset v n mask f with vregs := g.vregs, shadowV := g.shadowV, latchA := g.latchA, latchB := g.latchB } = g := by
  by_cases h : (g.trap.isSome && decide (n < 16)) = true
  · simp [Group.vset, h]
  · by_cases hv : v.hasV n = true <;> simp [Group.vset, h, hv]

theorem Group.wset_rest (g : Group) (v : Variant) (n : BitVec 6) (x : DWord) :
    { g.wset v n x with wregs := g.wregs, shadowW := g.shadowW } = g := by
  unfold Group.wset
  split
  · rfl
  · split
    · rfl
    · split <;> rfl

theorem Group.pset_rest (g : Group) (n : BitVec 3) (mask x : LaneMask) : { g.pset n mask x with preds := g.preds } = g := by
  unfold Group.pset
  split <;> rfl

end Sys2Proof.Machine
end

