-- ==== Sys2Proof/Laws/Frame.lean ====
section
/-!
SUPPORT. Sys2Proof/Laws/Frame.lean: what the frame of an instruction does with its own effect: completion, the checks of
trap mode and of pure regions, the lanes that are active.
-/
namespace Sys2Proof.Machine

/-! ## Completion -/

theorem State.singleStep_putGroup (s : State) (g : Group) (r : Region) : (s.putGroup g).singleStep r = s.singleStep r := rfl

theorem State.path_putGroup (s : State) (h : s.placed) (g : Group) :
    (s.putGroup g).path = (g.slot s.focus.slot).getD {} := by
  simp [State.path, s.group_putGroup h g]

/-- A group that does not stand in the state cannot be written. -/
theorem State.putGroup_of_not_placed {s : State} (h : ¬ s.placed) (g : Group) : s.putGroup g = s := by
  have same : ∀ {α : Type} (l : List α) (i : Nat) (x d : α), x = l.getD i d → l.set i x = l := by
    intro α l i x d e
    by_cases k : i < l.length
    · rw [e, List.getD_eq_getElem _ _ k, List.set_getElem_self]
    · exact List.set_eq_of_length_le (by omega)
  have q : s.team.setGroup s.focus.group g = s.team ∨ s.teams.length ≤ s.focus.team := by
    by_cases k : s.focus.team < s.teams.length
    · left
      have : s.team.groups.length ≤ s.focus.group := by
        by_contra c
        exact h ⟨k, by omega⟩
      simp [Team.setGroup, List.set_eq_of_length_le this]
    · right; omega
  show s.setTeam s.focus.team (s.team.setGroup s.focus.group g) = s
  have : s.teams.set s.focus.team (s.team.setGroup s.focus.group g) = s.teams := by
    rcases q with q | q
    · rw [q]; exact same _ _ _ {} rfl
    · exact List.set_eq_of_length_le q
  simp [State.setTeam, this]

theorem State.countIssue_path (s : State) : s.countIssue.path = s.path := by
  unfold State.countIssue
  by_cases h : s.placed
  · rw [s.path_putGroup h]; simp [State.path, Group.countIssue, Group.slot]
  · rw [State.putGroup_of_not_placed h]

theorem State.countIssue_steps (s : State) : s.countIssue.steps = s.steps := by
  unfold State.countIssue State.steps
  by_cases h : s.placed
  · rw [s.region_putGroup, s.group_putGroup h]; rfl
  · rw [State.putGroup_of_not_placed h]

/-- Where no single step is due, a completed instruction leaves its path at `pc` and nothing else. -/
theorem State.complete_eq_issued (t : State) (pc : BitVec 64)
    (h : t.singleStep t.region = false ∨ t.group.trap.isSome = true) : t.complete pc = t.issued pc := by
  have e : t.steps = false := by
    rcases h with h | h
    · simp [State.steps, h]
    · simp [State.steps, h]
  have c : ∀ (g : Group) (b : Bool) (p : Path), (g.countIssue b).setSlot b (some p) = (g.setSlot b (some p)).countIssue b := by
    intro g b p
    cases b <;> rfl
  unfold State.complete State.proceed
  rw [t.countIssue_steps, t.countIssue_path, e]
  simp only [Bool.false_eq_true, if_false, State.issued, State.putPath]
  rw [show t.countIssue.focus = t.focus from rfl]
  unfold State.countIssue
  by_cases h : t.placed
  · rw [t.putGroup_putGroup h, t.group_putGroup h, c]
  · simp only [State.putGroup_of_not_placed h]

theorem State.noteWrites_of_closed (t : State) (sh : Shape) (h : t.path.region = none) : t.noteWrites sh = t := by
  simp [State.noteWrites, h]

/-- The effect of an instruction that completes at the next word. -/
theorem State.settle_next (s t : State) (sh : Shape) (w : Nat) (hr : t.path.region = none)
    (h : t.singleStep t.region = false ∨ t.group.trap.isSome = true) :
    s.settle sh w (.next t) = t.issued (s.nextPc w) := by
  simp only [State.settle]
  rw [t.noteWrites_of_closed sh hr, t.complete_eq_issued _ h]

theorem State.settle_goto (s t : State) (sh : Shape) (w : Nat) (pc : BitVec 64) (hr : t.path.region = none)
    (h : t.singleStep t.region = false ∨ t.group.trap.isSome = true) :
    s.settle sh w (.goto t pc) = t.issued pc := by
  simp only [State.settle]
  rw [t.noteWrites_of_closed sh hr, t.complete_eq_issued _ h]

/-- Outside a pure region, an instruction that trap mode allows has its own effect. -/
theorem State.guarded_of_closed (s : State) (sh : Shape) (w : Nat) (eff : State → Res) (hr : s.path.region = none)
    (ht : s.group.trap.isSome = false ∨ sh.inTrap = .allowed) : s.guarded sh w eff = s.settle sh w (eff s) := by
  unfold State.guarded
  rw [if_neg]
  · simp [hr]
  · rcases ht with h | h <;> simp [h]

/-- A group-space instruction whose effect completes. -/
theorem groupInstr_next {s t : State} {sh : Shape} {w : Nat} {eff : State → Res} (hs : s.Runs)
    (ht : s.group.trap.isSome = false ∨ sh.inTrap = .allowed) (he : eff s = .next t) (hr : t.path.region = none)
    (h : t.singleStep t.region = false ∨ t.group.trap.isSome = true) :
    groupInstr sh w s eff = .next (t.issued (s.nextPc w)) := by
  unfold groupInstr
  rw [if_pos hs.1, s.guarded_of_closed sh w eff hs.2.1 ht, he, s.settle_next t sh w hr h]

theorem groupInstr_goto {s t : State} {sh : Shape} {w : Nat} {eff : State → Res} {pc : BitVec 64} (hs : s.Runs)
    (ht : s.group.trap.isSome = false ∨ sh.inTrap = .allowed) (he : eff s = .goto t pc) (hr : t.path.region = none)
    (h : t.singleStep t.region = false ∨ t.group.trap.isSome = true) :
    groupInstr sh w s eff = .next (t.issued pc) := by
  unfold groupInstr
  rw [if_pos hs.1, s.guarded_of_closed sh w eff hs.2.1 ht, he, s.settle_goto t sh w pc hr h]

/-- A group-space instruction whose effect settles where its paths go. -/
theorem groupInstr_moved {s t : State} {sh : Shape} {w : Nat} {eff : State → Res} (hs : s.Runs)
    (ht : s.group.trap.isSome = false ∨ sh.inTrap = .allowed) (he : eff s = .moved t) :
    groupInstr sh w s eff = .next { t with pending := none } := by
  unfold groupInstr
  rw [if_pos hs.1, s.guarded_of_closed sh w eff hs.2.1 ht, he]
  rfl

/-- A group-space instruction that waits. -/
theorem groupInstr_wait {s t : State} {sh : Shape} {w : Nat} {eff : State → Res} {x : Wait} (hs : s.Runs)
    (ht : s.group.trap.isSome = false ∨ sh.inTrap = .allowed) (he : eff s = .wait t x) :
    groupInstr sh w s eff = .next (t.park x) := by
  unfold groupInstr
  rw [if_pos hs.1, s.guarded_of_closed sh w eff hs.2.1 ht, he]
  rfl

/-- A group-space instruction that traps at its own address, before any effect. -/
theorem groupInstr_trap {s : State} {sh : Shape} {w : Nat} {eff : State → Res} {c : BitVec 8} {a i : BitVec 64}
    {m : Option LaneMask} (hs : s.Runs) (ht : s.group.trap.isSome = false ∨ sh.inTrap = .allowed)
    (he : eff s = .trap c a i m) :
    groupInstr sh w s eff =
      .next (s.raiseTrap { cause := c, tpc := s.path.pc, taddr := a, tinfo := i, mask := m.getD s.path.mask } true) := by
  unfold groupInstr
  rw [if_pos hs.1, s.guarded_of_closed sh w eff hs.2.1 ht, he]
  rfl

/-! ## Effects on the executing group alone -/

/-- A group that keeps its slots and its trap mode. -/
def Group.sameSlots (g h : Group) : Prop := h.path0 = g.path0 ∧ h.path1 = g.path1 ∧ h.trap = g.trap

theorem Group.slot_of_sameSlots {g h : Group} (e : g.sameSlots h) (b : Bool) : h.slot b = g.slot b := by
  cases b
  · exact e.1
  · exact e.2.1

theorem Group.sameSlots_rfl (g : Group) : g.sameSlots g := ⟨rfl, rfl, rfl⟩

theorem Group.sameSlots_trans {a b c : Group} (h : a.sameSlots b) (k : b.sameSlots c) : a.sameSlots c :=
  ⟨k.1.trans h.1, k.2.1.trans h.2.1, k.2.2.trans h.2.2⟩

theorem Group.sameSlots_vset (g : Group) (v : Variant) (n : Nat) (m : LaneMask) (f : Nat → Word) :
    g.sameSlots (g.vset v n m f) := by
  have h := g.vset_rest v n m f
  exact ⟨by rw [← congrArg Group.path0 h], by rw [← congrArg Group.path1 h], by rw [← congrArg Group.trap h]⟩

theorem Group.sameSlots_wset (g : Group) (v : Variant) (n : BitVec 6) (x : DWord) : g.sameSlots (g.wset v n x) := by
  have h := g.wset_rest v n x
  exact ⟨by rw [← congrArg Group.path0 h], by rw [← congrArg Group.path1 h], by rw [← congrArg Group.trap h]⟩

theorem Group.sameSlots_pset (g : Group) (n : BitVec 3) (m x : LaneMask) : g.sameSlots (g.pset n m x) := by
  have h := g.pset_rest n m x
  exact ⟨by rw [← congrArg Group.path0 h], by rw [← congrArg Group.path1 h], by rw [← congrArg Group.trap h]⟩

/-- An effect that changes the executing group alone, and keeps its slots. -/
def State.Local (s t : State) : Prop := ∃ g, t = s.putGroup g ∧ s.group.sameSlots g

theorem State.local_rfl {s : State} (h : s.placed) : s.Local s :=
  ⟨s.group, (s.putGroup_group h).symm, s.group.sameSlots_rfl⟩

theorem State.local_placed {s t : State} (h : s.placed) (l : s.Local t) : t.placed := by
  obtain ⟨g, rfl, _⟩ := l
  exact State.placed_putGroup h g

theorem State.local_putGroup {s t : State} (h : s.placed) (l : s.Local t) (g : Group) (hg : t.group.sameSlots g) :
    s.Local (t.putGroup g) := by
  obtain ⟨g', rfl, e⟩ := l
  rw [s.group_putGroup h g'] at hg
  exact ⟨g, s.putGroup_putGroup h g' g, Group.sameSlots_trans e hg⟩

theorem State.local_group {s t : State} (h : s.placed) (l : s.Local t) : s.group.sameSlots t.group := by
  obtain ⟨g, rfl, e⟩ := l
  rwa [s.group_putGroup h g]

theorem State.local_path {s t : State} (h : s.placed) (l : s.Local t) : t.path = s.path := by
  have e := State.local_group h l
  obtain ⟨g, rfl, _⟩ := l
  unfold State.path
  rw [Group.slot_of_sameSlots e]
  rfl

theorem State.local_singleStep {s t : State} (l : s.Local t) : t.singleStep t.region = s.singleStep s.region := by
  obtain ⟨g, rfl, _⟩ := l
  rw [s.singleStep_putGroup g, s.region_putGroup g]

theorem State.local_variant {s t : State} (l : s.Local t) : t.variant = s.variant := by
  obtain ⟨g, rfl, _⟩ := l
  exact s.variant_putGroup g

theorem State.local_writeV {s t : State} (h : s.placed) (l : s.Local t) (n : Nat) (m : LaneMask) (f : Nat → Word) :
    s.Local (t.writeV n m f) := State.local_putGroup h l _ (Group.sameSlots_vset _ _ n m f)

theorem State.local_writeW {s t : State} (h : s.placed) (l : s.Local t) (n : BitVec 6) (x : DWord) :
    s.Local (t.writeW n x) := State.local_putGroup h l _ (Group.sameSlots_wset _ _ n x)

theorem State.local_writeP {s t : State} (h : s.placed) (l : s.Local t) (n : BitVec 3) (m x : LaneMask) :
    s.Local (t.writeP n m x) := State.local_putGroup h l _ (Group.sameSlots_pset _ n m x)

theorem State.local_flag {s t : State} (h : s.placed) (l : s.Local t) (f : BitVec 5) : s.Local (t.flag f) :=
  State.local_putGroup h l _ ⟨rfl, rfl, rfl⟩

theorem State.local_latch {s t : State} (h : s.placed) (l : s.Local t) (k : Hold) : s.Local (t.latch k) :=
  State.local_putGroup h l _ ⟨rfl, rfl, rfl⟩

theorem State.Runs.placed {s : State} (h : s.Runs) : s.placed := State.placed_of_live h.1

theorem State.Runs.closed_local {s t : State} (h : s.Runs) (l : s.Local t) : t.path.region = none := by
  rw [State.local_path h.placed l]
  exact h.2.1

theorem State.Runs.unstepped_local {s t : State} (h : s.Runs) (l : s.Local t) :
    t.singleStep t.region = false ∨ t.group.trap.isSome = true := by
  rw [State.local_singleStep l, (State.local_group h.placed l).2.2]
  exact h.2.2

/-- A group-space instruction whose effect changes the executing group alone. -/
theorem groupInstr_local {s t : State} {sh : Shape} {w : Nat} {eff : State → Res} (hs : s.Runs)
    (ht : s.group.trap.isSome = false ∨ sh.inTrap = .allowed) (he : eff s = .next t) (hl : s.Local t) :
    groupInstr sh w s eff = .next (t.issued (s.nextPc w)) :=
  groupInstr_next hs ht he (hs.closed_local hl) (hs.unstepped_local hl)

/-! ## Lane-space instructions -/

/-- A group but for its operand latch. -/
def Group.strip (g : Group) : Group := { g with latchA := none, latchB := none }

theorem Group.eq_of_strip {g h : Group} (e : g.strip = h.strip) : g = { h with latchA := g.latchA, latchB := g.latchB } := by
  have : { g.strip with latchA := g.latchA, latchB := g.latchB } = { h.strip with latchA := g.latchA, latchB := g.latchB } := by
    rw [e]
  exact this

theorem writeLanes_zero (r : NMap Word) (n : Nat) (f : Nat → Word) : writeLanes r n 0 f = r := by
  simp [writeLanes]

/-- A write of no lane changes the latch alone. -/
theorem Group.strip_vset_zero (g : Group) (v : Variant) (n : Nat) (f : Nat → Word) : (g.vset v n 0 f).strip = g.strip := by
  unfold Group.vset
  simp only [writeLanes_zero]
  split
  · rfl
  · split <;> rfl

theorem Group.strip_vset (g : Group) (v : Variant) (n : Nat) (m : LaneMask) (f : Nat → Word) :
    (g.vset v n m f).strip = (g.strip.vset v n m f).strip := by
  by_cases h : (g.trap.isSome && decide (n < 16)) = true
  · simp [Group.vset, Group.strip, h]
  · by_cases hv : v.hasV n = true <;> simp [Group.vset, Group.strip, h, hv]

theorem Group.strip_vset_congr {g h : Group} (e : g.strip = h.strip) (v : Variant) (n : Nat) (m : LaneMask)
    (f : Nat → Word) : (g.vset v n m f).strip = (h.vset v n m f).strip := by
  rw [Group.strip_vset, e, ← Group.strip_vset]

theorem Group.strip_pset (g : Group) (n : BitVec 3) (m x : LaneMask) : (g.pset n m x).strip = g.strip.pset n m x := by
  unfold Group.pset
  split <;> rfl

theorem Group.strip_pset_congr {g h : Group} (e : g.strip = h.strip) (n : BitVec 3) (m x : LaneMask) :
    (g.pset n m x).strip = (h.pset n m x).strip := by
  rw [Group.strip_pset, e, ← Group.strip_pset]

theorem Group.strip_orFlags_congr {g h : Group} (e : g.strip = h.strip) (f : BitVec 5) :
    (g.orFlags f).strip = (h.orFlags f).strip := by
  have := congrArg (fun x => Group.orFlags x f) e
  exact this

/-- Two states that differ in the executing group's operand latch at most. -/
def State.Alike (s t u : State) : Prop := ∃ g h, t = s.putGroup g ∧ u = s.putGroup h ∧ g.strip = h.strip

theorem State.alike_of_local {s t : State} (h : s.placed) (l : s.Local t) : s.Alike t t := by
  obtain ⟨g, rfl, _⟩ := l
  exact ⟨g, g, rfl, rfl, rfl⟩

theorem State.alike_latch {s t u : State} (h : s.placed) (l : s.Alike t u) (k : Hold) : s.Alike (t.latch k) u := by
  obtain ⟨g, h', rfl, rfl, e⟩ := l
  refine ⟨_, h', s.putGroup_putGroup h g _, rfl, ?_⟩
  rw [s.group_putGroup h g]
  exact e

theorem State.alike_writeV {s t u : State} (h : s.placed) (l : s.Alike t u) (n : Nat) (m : LaneMask) (f : Nat → Word) :
    s.Alike (t.writeV n m f) (u.writeV n m f) := by
  obtain ⟨g, h', rfl, rfl, e⟩ := l
  refine ⟨_, _, s.putGroup_putGroup h g _, s.putGroup_putGroup h h' _, ?_⟩
  rw [s.group_putGroup h g, s.group_putGroup h h', s.variant_putGroup, s.variant_putGroup]
  exact Group.strip_vset_congr e _ n m f

theorem State.alike_writeV_zero {s t u : State} (h : s.placed) (l : s.Alike t u) (n : Nat) (f : Nat → Word) :
    s.Alike t (u.writeV n 0 f) := by
  obtain ⟨g, h', rfl, rfl, e⟩ := l
  refine ⟨g, _, rfl, s.putGroup_putGroup h h' _, ?_⟩
  rw [s.group_putGroup h h', Group.strip_vset_zero]
  exact e

theorem State.alike_writeP {s t u : State} (h : s.placed) (l : s.Alike t u) (n : BitVec 3) (m x : LaneMask) :
    s.Alike (t.writeP n m x) (u.writeP n m x) := by
  obtain ⟨g, h', rfl, rfl, e⟩ := l
  refine ⟨_, _, s.putGroup_putGroup h g _, s.putGroup_putGroup h h' _, ?_⟩
  rw [s.group_putGroup h g, s.group_putGroup h h']
  exact Group.strip_pset_congr e n m x

theorem State.alike_flag {s t u : State} (h : s.placed) (l : s.Alike t u) (f : BitVec 5) : s.Alike (t.flag f) (u.flag f) := by
  obtain ⟨g, h', rfl, rfl, e⟩ := l
  refine ⟨_, _, s.putGroup_putGroup h g _, s.putGroup_putGroup h h' _, ?_⟩
  rw [s.group_putGroup h g, s.group_putGroup h h']
  exact Group.strip_orFlags_congr e f

theorem State.eq_putLatch_of_alike {s t u : State} (h : s.placed) (l : s.Alike t u) : ∃ a b, t = u.putLatch a b := by
  obtain ⟨g, h', rfl, rfl, e⟩ := l
  refine ⟨g.latchA, g.latchB, ?_⟩
  unfold State.putLatch
  rw [s.group_putGroup h h', s.putGroup_putGroup h h', ← Group.eq_of_strip e]

/-- The latch holds nothing that an operand reads. -/
theorem State.vreg_latch (s : State) (h : s.placed) (k : Hold) (n l : Nat) : (s.latch k).vreg n l = s.vreg n l := by
  simp only [State.vreg, State.latch, s.group_putGroup h, s.variant_putGroup]
  rfl

theorem State.lane_latch (s : State) (h : s.placed) (k : Hold) (r : BitVec 7) (l : Nat) : (s.latch k).lane r l = s.lane r l :=
  s.vreg_latch h k r.toNat l

theorem State.pair_latch (s : State) (h : s.placed) (k : Hold) (n l : Nat) : (s.latch k).pair n l = s.pair n l := by
  simp only [State.pair, s.vreg_latch h]

theorem State.pred_latch (s : State) (h : s.placed) (k : Hold) (n : BitVec 3) : (s.latch k).pred n = s.pred n := by
  simp only [State.pred, State.latch, s.group_putGroup h]
  rfl

@[simp] theorem State.pfx_latch (s : State) (k : Hold) : (s.latch k).pfx = s.pfx := rfl

theorem State.guardMask_latch (s : State) (h : s.placed) (k : Hold) : (s.latch k).guardMask = s.guardMask := by
  have : (s.latch k).group.pget s.pfx.pm = s.group.pget s.pfx.pm := s.pred_latch h k _
  simp only [State.guardMask, s.pfx_latch, this]

theorem State.active_latch (s : State) (h : s.placed) (k : Hold) : (s.latch k).active = s.active := by
  have : (s.latch k).path = s.path := State.local_path h (State.local_latch h (State.local_rfl h) k)
  simp only [State.active, s.guardMask_latch h, this]

theorem State.laneFlags_latch (s : State) (h : s.placed) (k : Hold) (f : Nat → BitVec 5) :
    (s.latch k).laneFlags f = s.laneFlags f := by simp only [State.laneFlags, s.active_latch h]

theorem State.laneFlags_none (s : State) (h : s.active = 0) (f : Nat → BitVec 5) : s.laneFlags f = 0 := by
  have e : lanesOf (0 : LaneMask) = [] := by
    unfold lanesOf
    simp
  unfold State.laneFlags
  rw [h, e]
  rfl

theorem State.local_of_alike {s t u : State} (h : s.placed) (a : s.Alike t u) (l : s.Local u) : s.Local t := by
  obtain ⟨g, g', rfl, rfl, e⟩ := a
  have sl := State.local_group h l
  rw [s.group_putGroup h] at sl
  refine ⟨g, rfl, ?_⟩
  rw [Group.eq_of_strip e]
  exact sl

theorem Group.strip_foldl_vset {g h : Group} (e : g.strip = h.strip) (v : Variant) (m : LaneMask) (l : List Nat) :
    (l.foldl (fun g n => g.vset v n m fun _ => 0) g).strip = (l.foldl (fun g n => g.vset v n m fun _ => 0) h).strip := by
  induction l generalizing g h with
  | nil => exact e
  | cons n l ih => exact ih (Group.strip_vset_congr e v n m _)

theorem Group.strip_foldl_pset {g h : Group} (e : g.strip = h.strip) (m : LaneMask) (l : List (BitVec 3)) :
    (l.foldl (fun g n => g.pset n m 0) g).strip = (l.foldl (fun g n => g.pset n m 0) h).strip := by
  induction l generalizing g h with
  | nil => exact e
  | cons n l ih => exact ih (Group.strip_pset_congr e n m 0)

theorem Group.sameSlots_foldl_vset {g h : Group} (e : g.sameSlots h) (v : Variant) (m : LaneMask) (l : List Nat) :
    g.sameSlots (l.foldl (fun g n => g.vset v n m fun _ => 0) h) := by
  induction l generalizing h with
  | nil => exact e
  | cons n l ih => exact ih (Group.sameSlots_trans e (Group.sameSlots_vset h v n m _))

theorem Group.sameSlots_foldl_pset {g h : Group} (e : g.sameSlots h) (m : LaneMask) (l : List (BitVec 3)) :
    g.sameSlots (l.foldl (fun g n => g.pset n m 0) h) := by
  induction l generalizing h with
  | nil => exact e
  | cons n l ih => exact ih (Group.sameSlots_trans e (Group.sameSlots_pset h n m 0))

theorem State.alike_zeroDests {s t u : State} (h : s.placed) (a : s.Alike t u) (sh : Shape) (m : LaneMask) :
    s.Alike (t.zeroDests sh m) (u.zeroDests sh m) := by
  unfold State.zeroDests
  split
  · exact a
  · obtain ⟨g, g', rfl, rfl, e⟩ := a
    refine ⟨_, _, s.putGroup_putGroup h g _, s.putGroup_putGroup h g' _, ?_⟩
    rw [s.group_putGroup h, s.group_putGroup h, s.variant_putGroup, s.variant_putGroup]
    exact Group.strip_foldl_pset (Group.strip_foldl_vset e _ _ _) _ _

theorem State.local_zeroDests {s t : State} (h : s.placed) (l : s.Local t) (sh : Shape) (m : LaneMask) :
    s.Local (t.zeroDests sh m) := by
  unfold State.zeroDests
  split
  · exact l
  · exact State.local_putGroup h l _ (Group.sameSlots_foldl_pset (Group.sameSlots_foldl_vset (Group.sameSlots_rfl _) _ _ _) _ _)

theorem State.alike_trans {s t u w : State} (h : s.placed) (a : s.Alike t u) (b : s.Alike u w) : s.Alike t w := by
  obtain ⟨g, g', rfl, rfl, e⟩ := a
  obtain ⟨k, k', p, rfl, q⟩ := b
  have := congrArg State.group p
  rw [s.group_putGroup h, s.group_putGroup h] at this
  exact ⟨g, k', rfl, rfl, (e.trans (congrArg Group.strip this)).trans q⟩

/-- A lane-space instruction: its effect stands for the active lanes, and zm zeroes its destinations in the lanes
that the guard turns off. `T` is the state the rules give. -/
theorem laneInstr_settles {s : State} {sh : Shape} {k : Hold} {eff : State → Res} {E : State → State} {T : State}
    (hs : s.Runs) (ht : s.group.trap.isSome = false ∨ sh.inTrap = .allowed) (he : eff (s.latch k) = .next (E (s.latch k)))
    (hl : s.Local ((E (s.latch k)).zeroDests sh s.zeroed))
    (ha : s.active ≠ 0 → s.Alike ((E (s.latch k)).zeroDests sh s.zeroed) T)
    (h0 : s.active = 0 → s.Alike (s.zeroDests sh s.zeroed) T) :
    ∃ a b, laneInstr sh k s eff = .next ((T.putLatch a b).issued (s.nextPc 1)) := by
  have zd : ∀ (t : State) (m : LaneMask), t.zeroDests { sh with pr := sh.pr ++ [s.pfx.pm] } m = t.zeroDests sh m := fun _ _ => rfl
  unfold laneInstr
  rw [if_pos hs.1]
  by_cases h : s.active = 0
  · simp only [h, if_true]
    rw [s.guarded_of_closed { sh with pr := sh.pr ++ [s.pfx.pm] } 1 _ hs.2.1 ht]
    simp only [zd]
    have hl1 := State.local_zeroDests hs.placed (State.local_latch hs.placed (State.local_rfl hs.placed) k) sh s.zeroed
    rw [State.settle_next _ _ _ _ (hs.closed_local hl1) (hs.unstepped_local hl1)]
    have al := State.alike_zeroDests hs.placed
      (State.alike_latch hs.placed (State.alike_of_local hs.placed (State.local_rfl hs.placed)) k) sh s.zeroed
    have ⟨a, b, e⟩ := State.eq_putLatch_of_alike hs.placed (State.alike_trans hs.placed al (h0 h))
    exact ⟨a, b, by rw [e]⟩
  · simp only [h, if_false, zd]
    rw [s.guarded_of_closed { sh with pr := sh.pr ++ [s.pfx.pm] } 1 _ hs.2.1 ht]
    simp only [he]
    rw [State.settle_next _ _ _ _ (hs.closed_local hl) (hs.unstepped_local hl)]
    have ⟨a, b, e⟩ := State.eq_putLatch_of_alike hs.placed (ha h)
    exact ⟨a, b, by rw [e]⟩

/-- zeroDests of one vector register. -/
theorem State.zeroDests_one (t : State) (sh : Shape) (m : LaneMask) (n : Nat) (hv : sh.vw = [n]) (hp : sh.pw = []) :
    t.zeroDests sh m = if m = 0 then t else t.writeV n m fun _ => 0 := by
  unfold State.zeroDests
  split
  · rfl
  · simp [hv, hp, State.writeV]

theorem State.zeroDests_pred (t : State) (sh : Shape) (m : LaneMask) (n : BitVec 3) (hv : sh.vw = []) (hp : sh.pw = [n]) :
    t.zeroDests sh m = if m = 0 then t else t.writeP n m 0 := by
  unfold State.zeroDests
  split
  · rfl
  · simp [hv, hp, State.writeP]

end Sys2Proof.Machine
end

