-- ==== Sys2Proof/Laws/Shapes.lean ====
section
/-!
SUPPORT. Sys2Proof/Laws/Shapes.lean: what each shape of register-only instruction leaves, said once.
-/
namespace Sys2Proof.Machine

variable {s : State}

theorem State.local_zeroDests_one {t : State} (h : s.placed) (l : s.Local t) (sh : Shape) (m : LaneMask) (n : Nat)
    (hv : sh.vw = [n]) (hp : sh.pw = []) : s.Local (t.zeroDests sh m) := by
  rw [t.zeroDests_one sh m n hv hp]
  split
  · exact l
  · exact State.local_writeV h l _ _ _

theorem State.alike_zeroDests_one {t u : State} (h : s.placed) (l : s.Alike t u) (sh : Shape) (m : LaneMask) (n : Nat)
    (hv : sh.vw = [n]) (hp : sh.pw = []) : s.Alike (t.zeroDests sh m) (u.writeV n m fun _ => 0) := by
  rw [t.zeroDests_one sh m n hv hp]
  split
  · next e =>
    rw [e]
    exact State.alike_writeV_zero h l n _
  · exact State.alike_writeV h l n m _

/-- One vector register, and flags, from the lanes' operands. -/
theorem laneInstr_one {sh : Shape} {k : Hold} {eff : State → Res} (hs : s.Runs) (hi : sh.inTrap = .allowed) (n : Nat)
    (hv : sh.vw = [n]) (hp : sh.pw = []) (f : Nat → Word) (x : Nat → BitVec 5)
    (he : eff (s.latch k) = .next (((s.latch k).writeV n s.active f).flag (s.laneFlags x))) :
    ∃ a b, laneInstr sh k s eff = .next (((((s.writeV n s.active f).flag (s.laneFlags x)).writeV n s.zeroed
      fun _ => 0).putLatch a b).issued (s.nextPc 1)) := by
  have h := hs.placed
  have l0 := State.local_rfl h
  have al : s.Alike (s.latch k) s := State.alike_latch h (State.alike_of_local h l0) k
  refine laneInstr_settles (E := fun t => (t.writeV n s.active f).flag (s.laneFlags x)) hs (.inr hi) he ?_ ?_ ?_
  · exact State.local_zeroDests_one h
      (State.local_flag h (State.local_writeV h (State.local_latch h l0 k) _ _ _) _) sh _ n hv hp
  · intro _
    exact State.alike_zeroDests_one h (State.alike_flag h (State.alike_writeV h al _ _ _) _) sh _ n hv hp
  · intro ha
    have e : s.laneFlags x = 0 := s.laneFlags_none ha x
    have al1 : s.Alike s ((s.writeV n s.active f).flag (s.laneFlags x)) := by
      rw [ha, e]
      obtain ⟨g, g', e1, e2, e3⟩ := State.alike_writeV_zero h (State.alike_of_local h l0) n f
      refine ⟨g, g'.orFlags 0, e1, ?_, ?_⟩
      · rw [e2]
        unfold State.flag
        rw [s.group_putGroup h, s.putGroup_putGroup h]
      · have : g'.orFlags 0 = g' := by simp [Group.orFlags]
        rw [this, e3]
    exact State.alike_zeroDests_one h al1 sh _ n hv hp

theorem State.flag_zero {t : State} (h : t.placed) : t.flag 0 = t := by
  have : t.group.orFlags 0 = t.group := by simp [Group.orFlags]
  rw [State.flag, this, t.putGroup_group h]

/-- One vector register from the lanes' operands. -/
theorem laneInstr_plain {sh : Shape} {k : Hold} {eff : State → Res} (hs : s.Runs) (hi : sh.inTrap = .allowed) (n : Nat)
    (hv : sh.vw = [n]) (hp : sh.pw = []) (f : Nat → Word)
    (he : eff (s.latch k) = .next ((s.latch k).writeV n s.active f)) :
    ∃ a b, laneInstr sh k s eff = .next (((s.laneResult n f).putLatch a b).issued (s.nextPc 1)) := by
  have h := hs.placed
  have z : s.laneFlags (fun _ => 0) = 0 := by
    unfold State.laneFlags
    generalize lanesOf s.active = l
    induction l with
    | nil => rfl
    | cons a l ih => simp
  have hl := State.local_latch h (State.local_rfl h) k
  have p1 : ((s.latch k).writeV n s.active f).placed :=
    State.local_placed h (State.local_writeV h hl _ _ _)
  have p2 : (s.writeV n s.active f).placed :=
    State.local_placed h (State.local_writeV h (State.local_rfl h) _ _ _)
  have := laneInstr_one (k := k) (eff := eff) hs hi n hv hp f (fun _ => 0) (by rw [z, State.flag_zero p1]; exact he)
  rw [z, State.flag_zero p2] at this
  exact this

/-- vd from va and vb. -/
theorem laneRR_settles (hs : s.Runs) (f : Word → Word → Word) (vd va vb : BitVec 7) (ha hb : Bool) :
    ∃ a b, laneRR f vd va vb ha hb s =
      .next (((s.laneResult vd.toNat fun l => f (s.lane va l) (s.lane vb l)).putLatch a b).issued (s.nextPc 1)) := by
  refine laneInstr_plain hs rfl vd.toNat rfl rfl _ ?_
  simp only [State.lanes, s.active_latch hs.placed, s.lane_latch hs.placed]

/-- vd from va. -/
theorem laneR_settles (hs : s.Runs) (f : Word → Word) (vd va : BitVec 7) (ha : Bool) :
    ∃ a b, laneR f vd va ha s =
      .next (((s.laneResult vd.toNat fun l => f (s.lane va l)).putLatch a b).issued (s.nextPc 1)) := by
  refine laneInstr_plain hs rfl vd.toNat rfl rfl _ ?_
  simp only [State.lanes, s.active_latch hs.placed, s.lane_latch hs.placed]

/-- vd and FLAGS from va and vb. -/
theorem laneFp2_settles (hs : s.Runs) (f : Nat → Word → Word → Word × BitVec 5) (vd va vb : BitVec 7) (ha hb : Bool) :
    ∃ a b, laneFp2 f vd va vb ha hb s =
      .next (((s.flaggedResult vd.toNat fun l => f s.pfx.rnd.toNat (s.lane va l) (s.lane vb l)).putLatch a b).issued
        (s.nextPc 1)) := by
  refine laneInstr_one hs rfl vd.toNat rfl rfl _ _ ?_
  simp only [State.lanes, s.active_latch hs.placed, s.lane_latch hs.placed, State.laneFlags_latch s hs.placed,
    State.pfx_latch]

/-- vd and FLAGS from vd, va and vb. -/
theorem laneFp3_settles (hs : s.Runs) (f : Nat → Word → Word → Word → Word × BitVec 5) (vd va vb : BitVec 7)
    (ha hb : Bool) :
    ∃ a b, laneFp3 f vd va vb ha hb s =
      .next (((s.flaggedResult vd.toNat fun l => f s.pfx.rnd.toNat (s.lane vd l) (s.lane va l) (s.lane vb l)).putLatch
        a b).issued (s.nextPc 1)) := by
  refine laneInstr_one hs rfl vd.toNat rfl rfl _ _ ?_
  simp only [State.lanes, s.active_latch hs.placed, s.lane_latch hs.placed, State.laneFlags_latch s hs.placed,
    State.pfx_latch]

/-- vd and FLAGS from va. -/
theorem laneFp1_settles (hs : s.Runs) (f : Nat → Word → Word × BitVec 5) (vd va : BitVec 7) (ha : Bool) :
    ∃ a b, laneFp1 f vd va ha s =
      .next (((s.flaggedResult vd.toNat fun l => f s.pfx.rnd.toNat (s.lane va l)).putLatch a b).issued (s.nextPc 1)) := by
  refine laneInstr_one hs rfl vd.toNat rfl rfl _ _ ?_
  simp only [State.lanes, s.active_latch hs.placed, s.lane_latch hs.placed, State.laneFlags_latch s hs.placed,
    State.pfx_latch]

theorem State.writeV_writeV (t : State) (h : t.placed) (n m : Nat) (a b : LaneMask) (f g : Nat → Word) :
    (t.writeV n a f).writeV m b g = t.putGroup ((t.group.vset t.variant n a f).vset t.variant m b g) := by
  unfold State.writeV
  rw [t.group_putGroup h, t.variant_putGroup, t.putGroup_putGroup h]

theorem State.zeroDests_two (t : State) (h : t.placed) (sh : Shape) (m : LaneMask) (i j : Nat) (hv : sh.vw = [i, j])
    (hp : sh.pw = []) :
    t.zeroDests sh m = if m = 0 then t else (t.writeV i m fun _ => 0).writeV j m fun _ => 0 := by
  unfold State.zeroDests
  split
  · rfl
  · rw [t.writeV_writeV h]
    simp [hv, hp]

/-- A pair of vector registers from the lanes' operands (R90). -/
theorem laneInstr_pair {sh : Shape} {k : Hold} {eff : State → Res} (hs : s.Runs) (hi : sh.inTrap = .allowed) (n : Nat)
    (hv : sh.vw = [n, n + 1]) (hp : sh.pw = []) (f : Nat → DWord)
    (he : eff (s.latch k) = .next (((s.latch k).writeV n s.active fun l => (f l).extractLsb' 0 32).writeV (n + 1) s.active
      fun l => (f l).extractLsb' 32 32)) :
    ∃ a b, laneInstr sh k s eff = .next (((s.pairResult n f).putLatch a b).issued (s.nextPc 1)) := by
  have h := hs.placed
  have l0 := State.local_rfl h
  have al : s.Alike (s.latch k) s := State.alike_latch h (State.alike_of_local h l0) k
  have lz : ∀ t, s.Local t → s.Local (t.zeroDests sh s.zeroed) := by
    intro t l
    rw [t.zeroDests_two (State.local_placed h l) sh _ n (n + 1) hv hp]
    split
    · exact l
    · exact State.local_writeV h (State.local_writeV h l _ _ _) _ _ _
  have az : ∀ t u, s.Local t → s.Alike t u → s.Alike (t.zeroDests sh s.zeroed)
      ((u.writeV n s.zeroed fun _ => 0).writeV (n + 1) s.zeroed fun _ => 0) := by
    intro t u l a
    rw [t.zeroDests_two (State.local_placed h l) sh _ n (n + 1) hv hp]
    split
    · next e =>
      rw [e]
      exact State.alike_writeV_zero h (State.alike_writeV_zero h a n _) (n + 1) _
    · exact State.alike_writeV h (State.alike_writeV h a n _ _) (n + 1) _ _
  refine laneInstr_settles (E := fun t => (t.writeV n s.active fun l => (f l).extractLsb' 0 32).writeV (n + 1) s.active
      fun l => (f l).extractLsb' 32 32) hs (.inr hi) he ?_ ?_ ?_
  · exact lz _ (State.local_writeV h (State.local_writeV h (State.local_latch h l0 k) _ _ _) _ _ _)
  · intro _
    exact az _ _ (State.local_writeV h (State.local_writeV h (State.local_latch h l0 k) _ _ _) _ _ _)
      (State.alike_writeV h (State.alike_writeV h al n _ _) (n + 1) _ _)
  · intro ha
    refine az _ _ l0 ?_
    rw [ha]
    exact State.alike_writeV_zero h (State.alike_writeV_zero h (State.alike_of_local h l0) n _) (n + 1) _

theorem State.lanesFrom_two (t : State) (n : Nat) (f : Nat → Nat → Word) :
    t.lanesFrom n 2 f = (t.writeV n t.active (f 0)).writeV (n + 1) t.active (f 1) := rfl

/-- The pair at vd from the pairs at va and vb. -/
theorem lanePair_settles (hs : s.Runs) (f : DWord → DWord → DWord) (vd va vb : BitVec 7) (ha hb : Bool) :
    ∃ a b, lanePair f vd va vb ha hb s =
      .next (((s.pairResult vd.toNat fun l => f (s.pair va.toNat l) (s.pair vb.toNat l)).putLatch a b).issued
        (s.nextPc 1)) := by
  refine laneInstr_pair hs rfl vd.toNat rfl rfl _ ?_
  simp only [State.lanesFrom_two, s.active_latch hs.placed, s.pair_latch hs.placed]

/-- A predicate from the lanes' operands. -/
theorem laneInstr_pred {sh : Shape} {k : Hold} {eff : State → Res} (hs : s.Runs) (hi : sh.inTrap = .allowed) (n : BitVec 3)
    (hv : sh.vw = []) (hp : sh.pw = [n]) (x : LaneMask) (he : eff (s.latch k) = .next ((s.latch k).writeP n s.active x)) :
    ∃ a b, laneInstr sh k s eff = .next ((((s.writeP n s.active x).writeP n s.zeroed 0).putLatch a b).issued
      (s.nextPc 1)) := by
  have h := hs.placed
  have l0 := State.local_rfl h
  have al : s.Alike (s.latch k) s := State.alike_latch h (State.alike_of_local h l0) k
  have pz : ∀ (t : State), t.placed → ∀ y, t.writeP n 0 y = t := by
    intro t ht y
    have : t.group.pset n 0 y = t.group := by simp [Group.pset]
    rw [State.writeP, this, t.putGroup_group ht]
  have lz : ∀ t, s.Local t → s.Local (t.zeroDests sh s.zeroed) := by
    intro t l
    rw [t.zeroDests_pred sh _ n hv hp]
    split
    · exact l
    · exact State.local_writeP h l _ _ _
  have az : ∀ t u, u.placed → s.Alike t u → s.Alike (t.zeroDests sh s.zeroed) (u.writeP n s.zeroed 0) := by
    intro t u hu a
    rw [t.zeroDests_pred sh _ n hv hp]
    split
    · next e =>
      rw [e, pz u hu]
      exact a
    · exact State.alike_writeP h a n _ _
  have lx := State.local_writeP h (State.local_latch h l0 k) n s.active x
  have px : (s.writeP n s.active x).placed := State.local_placed h (State.local_writeP h l0 n s.active x)
  refine laneInstr_settles (E := fun t => t.writeP n s.active x) hs (.inr hi) he (lz _ lx) ?_ ?_
  · intro _
    exact az _ _ px (State.alike_writeP h al n _ _)
  · intro ha
    refine az _ _ px ?_
    rw [ha, pz s h]
    exact State.alike_of_local h l0

/-- p[pd] from a test of va and vb. -/
theorem laneTest_settles (hs : s.Runs) (f : Word → Word → Bool) (pd : BitVec 3) (va vb : BitVec 7) (ha hb : Bool) :
    ∃ a b, laneTest f pd va vb ha hb s =
      .next (((s.predResult pd fun l => f (s.lane va l) (s.lane vb l)).putLatch a b).issued (s.nextPc 1)) := by
  refine laneInstr_pred hs rfl pd rfl rfl _ ?_
  simp only [s.active_latch hs.placed, s.lane_latch hs.placed]

/-! ## Any lane-space instruction on registers -/

/-- What an instruction that works on the group's registers comes to: its effect, zm's zeros, and the next word. -/
theorem laneInstr_effect {sh : Shape} {k : Hold} {eff : State → Res} (hs : s.Runs) (hi : sh.inTrap = .allowed)
    (E : State → State) (he : eff (s.latch k) = .next (E (s.latch k))) (hl : s.Local (E s))
    (hE : ∀ t u, s.Alike t u → s.Alike (E t) (E u)) (h0 : s.active = 0 → s.Alike s (E s)) :
    ∃ a b, laneInstr sh k s eff =
      .next ((((E s).zeroDests sh s.zeroed).putLatch a b).issued (s.nextPc 1)) := by
  have h := hs.placed
  have al : s.Alike (s.latch k) s := State.alike_latch h (State.alike_of_local h (State.local_rfl h)) k
  refine laneInstr_settles hs (.inr hi) he ?_ ?_ ?_
  · exact State.local_zeroDests h (State.local_of_alike h (hE _ _ al) hl) sh _
  · intro _
    exact State.alike_zeroDests h (hE _ _ al) sh _
  · intro ha
    exact State.alike_zeroDests h (h0 ha) sh _

theorem State.local_lanesFrom {t : State} (h : s.placed) (l : s.Local t) (n c : Nat) (f : Nat → Nat → Word) :
    s.Local (t.lanesFrom n c f) := by
  unfold State.lanesFrom
  generalize List.range c = r
  generalize t.active = m
  induction r generalizing t with
  | nil => exact l
  | cons i r ih => exact ih (State.local_writeV h l _ _ _)

/-- Consecutive registers, written in the lanes of a mask. -/
def State.writeRange (t : State) (n c : Nat) (m : LaneMask) (f : Nat → Nat → Word) : State :=
  (List.range c).foldl (fun t i => t.writeV (n + i) m (f i)) t

theorem State.lanesFrom_eq_writeRange (t : State) (n c : Nat) (f : Nat → Nat → Word) :
    t.lanesFrom n c f = t.writeRange n c t.active f := rfl

theorem State.alike_writeRange {t u : State} (h : s.placed) (a : s.Alike t u) (n c : Nat) (m : LaneMask)
    (f : Nat → Nat → Word) : s.Alike (t.writeRange n c m f) (u.writeRange n c m f) := by
  unfold State.writeRange
  generalize List.range c = r
  induction r generalizing t u with
  | nil => exact a
  | cons i r ih => exact ih (State.alike_writeV h a _ _ _)

theorem State.alike_writeRange_zero {t u : State} (h : s.placed) (a : s.Alike t u) (n c : Nat) (f : Nat → Nat → Word) :
    s.Alike t (u.writeRange n c 0 f) := by
  unfold State.writeRange
  generalize List.range c = r
  induction r generalizing u with
  | nil => exact a
  | cons i r ih => exact ih (State.alike_writeV_zero h a _ _)

theorem State.flag_none {t : State} (h : s.placed) (l : s.Local t) (ha : s.active = 0) (x : Nat → BitVec 5) :
    t.flag (s.laneFlags x) = t := by
  rw [s.laneFlags_none ha x]
  exact State.flag_zero (State.local_placed h l)

/-- Consecutive registers and flags from the lanes' operands. -/
theorem laneInstr_many {sh : Shape} {k : Hold} {eff : State → Res} (hs : s.Runs) (hi : sh.inTrap = .allowed) (n c : Nat)
    (f : Nat → Nat → Word) (x : Nat → BitVec 5)
    (he : eff (s.latch k) = .next (((s.latch k).lanesFrom n c f).flag (s.laneFlags x))) :
    ∃ a b, laneInstr sh k s eff = .next (((((s.lanesFrom n c f).flag (s.laneFlags x)).zeroDests sh s.zeroed).putLatch
      a b).issued (s.nextPc 1)) := by
  have h := hs.placed
  refine laneInstr_effect hs hi (E := fun t => (t.writeRange n c s.active f).flag (s.laneFlags x)) ?_ ?_ ?_ ?_
  · rw [he, State.lanesFrom_eq_writeRange, s.active_latch h]
  · exact State.local_flag h (State.local_lanesFrom h (State.local_rfl h) n c f) _
  · intro t u a
    exact State.alike_flag h (State.alike_writeRange h a n c _ f) _
  · intro ha
    show s.Alike s ((s.lanesFrom n c f).flag (s.laneFlags x))
    rw [State.flag_none h (State.local_lanesFrom h (State.local_rfl h) n c f) ha, State.lanesFrom_eq_writeRange, ha]
    exact State.alike_writeRange_zero h (State.alike_of_local h (State.local_rfl h)) n c f

/-- A predicate and flags from the lanes' operands. -/
theorem laneInstr_predFlags {sh : Shape} {k : Hold} {eff : State → Res} (hs : s.Runs) (hi : sh.inTrap = .allowed)
    (n : BitVec 3) (hv : sh.vw = []) (hp : sh.pw = [n]) (m : LaneMask) (x : Nat → BitVec 5)
    (he : eff (s.latch k) = .next (((s.latch k).writeP n s.active m).flag (s.laneFlags x))) :
    ∃ a b, laneInstr sh k s eff = .next (((((s.writeP n s.active m).flag (s.laneFlags x)).writeP n s.zeroed 0).putLatch
      a b).issued (s.nextPc 1)) := by
  have h := hs.placed
  have l1 := State.local_flag h (State.local_writeP h (State.local_rfl h) n s.active m) (s.laneFlags x)
  have z : ∀ t : State, t.placed → t.writeP n 0 0 = t := by
    intro t ht
    have : t.group.pset n 0 0 = t.group := by simp [Group.pset]
    rw [State.writeP, this, t.putGroup_group ht]
  have e : ((s.writeP n s.active m).flag (s.laneFlags x)).zeroDests sh s.zeroed
      = ((s.writeP n s.active m).flag (s.laneFlags x)).writeP n s.zeroed 0 := by
    rw [State.zeroDests_pred _ sh _ n hv hp]
    split
    · next c => rw [c, z _ (State.local_placed h l1)]
    · rfl
  rw [← e]
  refine laneInstr_effect hs hi (E := fun t => (t.writeP n s.active m).flag (s.laneFlags x)) he l1 ?_ ?_
  · intro t u a
    exact State.alike_flag h (State.alike_writeP h a n _ _) _
  · intro ha
    show s.Alike s ((s.writeP n s.active m).flag (s.laneFlags x))
    rw [State.flag_none h (State.local_writeP h (State.local_rfl h) n s.active m) ha, ha]
    have : s.writeP n 0 m = s := by
      have : s.group.pset n 0 m = s.group := by simp [Group.pset]
      rw [State.writeP, this, s.putGroup_group h]
    rw [this]
    exact State.alike_of_local h (State.local_rfl h)

/-! ## Cross-lane shapes -/

theorem State.crossesQuad_closed (h : s.path.region = none) (f : Nat → Option Nat) : s.crossesQuad f = false := by
  simp [State.crossesQuad, h]

theorem State.Runs.closed_latch (hs : s.Runs) (k : Hold) : (s.latch k).path.region = none :=
  hs.closed_local (State.local_latch hs.placed (State.local_rfl hs.placed) k)

/-- A shuffle whose source lanes the operand latch does not move. -/
theorem shuffle_settles (hs : s.Runs) {sh : Shape} {k : Hold} (src : State → Nat → Nat) (vd va : BitVec 7)
    (hi : sh.inTrap = .allowed) (hv : sh.vw = [vd.toNat]) (hp : sh.pw = []) (hsrc : src (s.latch k) = src s) :
    ∃ a b, shuffle sh k src vd va s =
      .next (((s.laneResult vd.toNat fun l => if s.active.getLsbD (src s l) then s.lane va (src s l) else s.lane va l).putLatch
        a b).issued (s.nextPc 1)) := by
  refine laneInstr_plain (sh := { sh with purity := .quadUp }) hs hi vd.toNat hv hp _ ?_
  simp only [State.crossesQuad_closed (hs.closed_latch k), hsrc, State.lanes, s.active_latch hs.placed,
    s.lane_latch hs.placed]
  rfl

/-- A member of the MATCH family. -/
theorem matchInstr_settles (hs : s.Runs) (f : Nat → List Nat → Nat) (vd va : BitVec 7) (ha : Bool) :
    ∃ a b, matchInstr f vd va ha s =
      .next (((s.laneResult vd.toNat fun l => BitVec.ofNat 32 (f l (s.equalLanes va l))).putLatch a b).issued
        (s.nextPc 1)) := by
  refine laneInstr_plain hs rfl vd.toNat rfl rfl _ ?_
  simp only [State.lanes, State.equalLanes, s.active_latch hs.placed, s.lane_latch hs.placed]

/-! ## Group-space shapes -/

/-- w[wd] from w[wa] and w[wb]. -/
theorem uniRR_settles (hs : s.Runs) (f : DWord → DWord → DWord) (wd wa wb : BitVec 6) :
    uniRR f wd wa wb s = .next ((s.writeW wd (f (s.uni wa) (s.uni wb))).issued (s.nextPc 1)) :=
  groupInstr_local hs (.inr rfl) rfl (State.local_writeW hs.placed (State.local_rfl hs.placed) _ _)

/-- w[wd] from w[wa]. -/
theorem uniR_settles (hs : s.Runs) (f : DWord → DWord) (wd wa : BitVec 6) :
    uniR f wd wa s = .next ((s.writeW wd (f (s.uni wa))).issued (s.nextPc 1)) :=
  groupInstr_local hs (.inr rfl) rfl (State.local_writeW hs.placed (State.local_rfl hs.placed) _ _)

/-- w[wd] and FLAGS from w[wa] and w[wb]. -/
theorem uniFp_settles (hs : s.Runs) (f : Nat → Nat → Nat × BitVec 5) (wd wa wb : BitVec 6) :
    uniFp f wd wa wb s =
      .next (((s.writeW wd (BitVec.ofNat 64 (f (low32 (s.uni wa)) (low32 (s.uni wb))).1)).flag
        (f (low32 (s.uni wa)) (low32 (s.uni wb))).2).issued (s.nextPc 1)) :=
  groupInstr_local hs (.inr rfl) rfl
    (State.local_flag hs.placed (State.local_writeW hs.placed (State.local_rfl hs.placed) _ _) _)

/-- w[wd] from the path's mask and a predicate. -/
theorem voteInstr_settles (hs : s.Runs) (f : LaneMask → LaneMask → DWord) (w : BitVec 6) (pn : BitVec 3) :
    voteInstr f w pn s = .next ((s.writeW w (f s.path.mask (s.pred pn))).issued (s.nextPc 1)) :=
  groupInstr_local hs (.inr rfl) rfl (State.local_writeW hs.placed (State.local_rfl hs.placed) _ _)

end Sys2Proof.Machine
end

