-- ==== Sys2Proof/Laws/Access.lean ====
section
/-!
SUPPORT. Sys2Proof/Laws/Access.lean: what the shared frames of memory accesses come to once every check passes and nothing
makes them wait, and where they stop.
-/
namespace Sys2Proof.Machine

/-- With no page missing there is nothing to walk. -/
theorem State.walkPages_clear (s : State) (pages : List Nat) (h : s.missingPages pages = []) :
    s.walkPages pages = .ok s := by
  simp [State.walkPages, h]

theorem firstFault_nil : firstFault [] = none := rfl
theorem LaneAccess.first_nil (x : LaneAccess) : x.first [] = none := by unfold LaneAccess.first; split <;> rfl

/-- Rows 6 to 10 find no fault in pieces exactly where the least row does not. -/
theorem State.pieceFaults_of_check (s : State) (a : BitVec 64) (ps : List (Nat × Nat)) (w : Bool)
    (h : s.checkPieces a ps w = none) : s.pieceFaults a ps w = [] := by
  unfold State.checkPieces at h
  cases e : s.pieceFaults a ps w with
  | nil => rfl
  | cons f fs =>
    rw [e] at h
    simp only [leastFault] at h
    split at h
    · split at h <;> simp at h
    · simp at h

/-- With no store of the core under way, a release has nothing to wait for. -/
theorem State.orderWaits_clear (s : State) (ord : Nat) (scope : BitVec 3)
    (h : hasRelease ord = true → wideScope scope = true → s.coreStoresPending s.coreNow = false) :
    s.orderWaits ord scope = false ∧ s.ordered ord scope = s.orderAcquire ord scope := by
  unfold State.orderWaits State.ordered State.orderRelease
  cases a : hasRelease ord
  · simp
  · cases b : wideScope scope
    · simp
    · simp [h a b]

/-- A lane access whose checks all pass and that waits for nothing goes on with its accesses. -/
theorem laneAccess_clear {s : State} {x : LaneAccess} {ord : Nat} {scope : BitVec 3} {as : List Access}
    (h : s.LaneClear x ord scope as) (k : State → List Access → Res) :
    laneAccess x ord scope s k = k (s.orderAcquire ord scope) as := by
  obtain ⟨he, rfl, hm, hc, hp, hr, hw, ho⟩ := h
  obtain ⟨hwait, hord⟩ := s.orderWaits_clear ord scope ho
  have faults : ((lanesOf s.active).filterMap fun l => (x.faultOf s (x.early s l)).map fun f => (l, f)) = [] := by
    rw [List.filterMap_eq_nil_iff]
    intro l hl
    obtain ⟨a, ea⟩ := he l hl
    have mem : ∀ b ∈ a, b ∈ ((lanesOf s.active).flatMap fun l => (x.early s l).toOption.getD []) := fun b hb =>
      List.mem_flatMap.2 ⟨l, hl, by simpa [ea, Except.toOption] using hb⟩
    have rows : (a.flatMap fun a => s.pieceFaults a.addr a.place.pieces x.write) = [] :=
      List.flatMap_eq_nil_iff.2 fun b hb => s.pieceFaults_of_check _ _ _ (hc b (mem b hb))
    have poison : x.texel = true → a.filterMap (x.poisonOf s) = [] := fun hk =>
      List.filterMap_eq_nil_iff.2 fun b hb => by
        cases r : x.reads
        · simp [LaneAccess.poisonOf, r]
        · simp [LaneAccess.poisonOf, (hp r b (mem b hb)).2 hk]
    rw [ea]
    simp only [LaneAccess.faultOf, rows, List.nil_append]
    split
    · rename_i hk
      simp [poison hk, leastFault]
    · simp [leastFault]
  have poison : (((lanesOf s.active).flatMap fun l => (x.early s l).toOption.getD []).filterMap fun a =>
      (x.poisonOf (s.orderAcquire ord scope) a).map fun f => (a.lane, f)) = [] := by
    rw [List.filterMap_eq_nil_iff]
    intro a ha
    cases r : x.reads
    · simp [LaneAccess.poisonOf, r]
    · simp [LaneAccess.poisonOf, (hp r a ha).1]
  unfold laneAccess
  simp only [s.walkPages_clear _ hm, faults, firstFault_nil, LaneAccess.first_nil, hr, hw, hwait, hord, poison, Bool.false_eq_true, if_false]

/-- A group-space access whose checks all pass and that waits for nothing runs. -/
theorem uniAccess_clear {s : State} {wa : BitVec 6} {imm : BitVec 13} {r : Nat} {store : Bool} {p : Place}
    (h : s.UniClear (s.uni wa + imm.signExtend 64) r store p) (k : State → Place → Res) :
    uniAccess wa imm r store s k = k s p := by
  obtain ⟨hr, ha, hm, hc, hp, hi⟩ := h
  unfold uniAccess
  simp only [hr, ha, s.walkPages_clear _ hm, hc]
  cases store
  · simp [hp rfl, hi]
  · simp [hi]

/-! ## Caches hold no mode -/

/-- An effect on core units alone. -/
def State.sameBeyondCores (s t : State) : Prop := ∃ c, t = { s with cores := c }

theorem State.sameBeyondCores_rfl (s : State) : s.sameBeyondCores s := ⟨s.cores, rfl⟩
theorem State.sameBeyondCores_trans {s t u : State} (h : s.sameBeyondCores t) (k : t.sameBeyondCores u) :
    s.sameBeyondCores u := by
  obtain ⟨c, rfl⟩ := h
  obtain ⟨d, rfl⟩ := k
  exact ⟨d, rfl⟩

theorem State.sameBeyondCores_setCore (s : State) (c : Nat) (x : CoreUnit) : s.sameBeyondCores (s.setCore c x) := ⟨_, rfl⟩

theorem State.sameBeyondCores_l1Allocate (s : State) (c n : Nat) : s.sameBeyondCores (s.l1Allocate c n) := by
  unfold State.l1Allocate
  simp only
  split
  · exact s.sameBeyondCores_rfl
  · exact s.sameBeyondCores_setCore _ _

theorem State.sameBeyondCores_orderAcquire (s : State) (ord : Nat) (scope : BitVec 3) :
    s.sameBeyondCores (s.orderAcquire ord scope) := by
  unfold State.orderAcquire
  split
  · exact s.sameBeyondCores_setCore _ _
  · exact s.sameBeyondCores_rfl

theorem State.foldl_sameBeyondCores {α : Type} (f : State → α → State) (h : ∀ (s : State) (a : α), s.sameBeyondCores (f s a)) (l : List α)
    (s : State) : s.sameBeyondCores (l.foldl f s) := by
  induction l generalizing s with
  | nil => exact s.sameBeyondCores_rfl
  | cons a l ih => exact State.sameBeyondCores_trans (h s a) (ih _)

theorem State.sameBeyondCores_allocPieces (s : State) (ps : List (Nat × Nat)) : s.sameBeyondCores (s.allocPieces ps) :=
  State.foldl_sameBeyondCores _ (fun _ _ => State.sameBeyondCores_l1Allocate _ _ _) _ s

theorem State.steady_of_cores {s t : State} (h : s.sameBeyondCores t) (k : s.Steady) : t.Steady := by
  obtain ⟨c, rfl⟩ := h
  exact k

theorem State.placed_of_cores {s t : State} (h : s.sameBeyondCores t) (k : s.placed) : t.placed := by
  obtain ⟨c, rfl⟩ := h
  exact k

theorem State.steady_of_local {s t : State} (h : s.placed) (l : s.Local t) (k : s.Steady) : t.Steady := by
  refine ⟨by rw [State.local_path h l]; exact k.1, ?_⟩
  rw [State.local_singleStep l, (State.local_group h l).2.2]
  exact k.2

theorem State.Runs.steady {s : State} (h : s.Runs) : s.Steady := ⟨h.2.1, h.2.2⟩

/-! ## A lane-space instruction with a lane to run for -/

/-- With a lane active, a lane-space instruction has its effect, and zm zeroes its destinations elsewhere. -/
theorem laneInstr_active {s t : State} {sh : Shape} {k : Hold} {eff : State → Res} (hs : s.Runs) (hi : sh.inTrap = .allowed)
    (ha : s.active ≠ 0) (he : eff (s.latch k) = .next t) (hp : t.placed) (ht : t.Steady) :
    laneInstr sh k s eff = .next ((t.zeroDests sh s.zeroed).issued (s.nextPc 1)) := by
  have zd : t.zeroDests { sh with pr := sh.pr ++ [s.pfx.pm] } s.zeroed = t.zeroDests sh s.zeroed := rfl
  have hl := State.steady_of_local hp (State.local_zeroDests hp (State.local_rfl hp) sh s.zeroed) ht
  unfold laneInstr
  rw [if_pos hs.1]
  simp only [ha, if_false]
  rw [s.guarded_of_closed { sh with pr := sh.pr ++ [s.pfx.pm] } 1 _ hs.2.1 (.inr hi), he]
  simp only [zd]
  rw [s.settle_next _ _ _ hl.1 hl.2]

/-! ## Where an access stops -/

/-- An effect beside the teams and the focus. -/
def State.SameTeams (s t : State) : Prop := t.teams = s.teams ∧ t.focus = s.focus

theorem State.SameTeams.path {s t : State} (h : s.SameTeams t) : t.path = s.path := by
  unfold State.path State.group State.team State.teamAt
  rw [h.1, h.2]

theorem State.sameTeams_setPteBits (s : State) (a bits : Nat) : s.SameTeams (s.setPteBits a bits) := by
  unfold State.setPteBits
  dsimp only
  split <;> exact ⟨rfl, rfl⟩

theorem State.sameTeams_tlbFill (s : State) (c root va : Nat) : s.SameTeams (s.tlbFill c root va) := by
  unfold State.tlbFill
  split
  · exact ⟨rfl, rfl⟩
  · split
    · rename_i e _
      have h := s.sameTeams_setPteBits e.pte 0x20
      unfold State.tlbLoad
      dsimp only
      split <;> exact h
    · exact ⟨rfl, rfl⟩

theorem State.sameTeams_walkedFor (s : State) (pages : List Nat) : s.SameTeams (s.walkedFor pages) := by
  unfold State.walkedFor
  generalize s.missingPages pages = l
  induction l generalizing s with
  | nil => exact ⟨rfl, rfl⟩
  | cons p l ih =>
    have a := s.sameTeams_tlbFill s.coreNow s.rootNow p
    have b := ih (s.tlbFill s.coreNow s.rootNow p)
    exact ⟨b.1.trans a.1, b.2.trans a.2⟩

theorem lanesOf_rising (m : LaneMask) : (lanesOf m).Pairwise (· < ·) :=
  List.Pairwise.filter _ (by rw [List.range_eq_range']; exact List.pairwise_lt_range')

/-- The lowest faulting lane of a rising list gives the fault and, as Table 22.3 or R169 has it, every faulting lane or every lane
of its cause the mask. -/
theorem LaneAccess.first_lanes (y : LaneAccess) (ls : List Nat) (f : Nat → Option AccessFault) (hs : ls.Pairwise (· < ·))
    {l : Nat} (hl : l ∈ ls) {x : AccessFault} (hx : f l = some x) (low : ∀ k ∈ ls, k < l → f k = none) :
    y.first (ls.filterMap fun l => (f l).map fun f => (l, f)) =
      some (x, maskOf fun k => decide (k ∈ ls) && (f k).any fun g => y.texel || g.cause == x.cause) := by
  have all : ∀ k, ((ls.filterMap fun l => (f l).map fun f => (l, f)).any fun p => p.1 == k && (y.texel || p.2.cause == x.cause)) =
      (decide (k ∈ ls) && (f k).any fun g => y.texel || g.cause == x.cause) := by
    intro k
    generalize y.texel = b
    rw [Bool.eq_iff_iff]
    simp only [List.any_eq_true, List.mem_filterMap, Option.map_eq_some_iff, Bool.and_eq_true, beq_iff_eq, decide_eq_true_eq,
      Option.any_eq_true]
    constructor
    · rintro ⟨p, ⟨j, hj, g, hg, rfl⟩, rfl, h⟩
      exact ⟨hj, g, hg, h⟩
    · rintro ⟨hk, g, hg, h⟩
      exact ⟨(k, g), ⟨k, hk, g, hg, rfl⟩, rfl, h⟩
  have head : ∃ rest, (ls.filterMap fun l => (f l).map fun f => (l, f)) = (l, x) :: rest := by
    clear all
    induction ls with
    | nil => cases hl
    | cons a ls ih =>
      rw [List.pairwise_cons] at hs
      by_cases e : a = l
      · subst e
        rw [List.filterMap_cons, hx]; exact ⟨_, rfl⟩
      · have hl' : l ∈ ls := by simpa [Ne.symm e] using hl
        have := low a (by simp) (hs.1 l hl')
        rw [List.filterMap_cons, this]
        exact ih hs.2 hl' fun k hk => low k (by simp [hk])
  obtain ⟨rest, e⟩ := head
  have : y.first ((l, x) :: rest) =
      some (x, maskOf fun i => ((l, x) :: rest).any fun p => p.1 == i && (y.texel || p.2.cause == x.cause)) := by
    unfold LaneAccess.first
    split
    · rename_i t
      simp only [t, Bool.true_or, Bool.and_true]
      rfl
    · rename_i t
      simp only [t, Bool.false_or]
      rfl
  rw [e, this, ← e]
  simp only [all]

/-- The first access that reads a poisoned word gives its address, and the lanes of all such the mask. -/
theorem firstFault_poison {x : LaneAccess} {w : State} (as : List Access) (a : Access)
    (h : as.find? (fun a => x.reads && w.poisonPieces a.place.pieces x.direct) = some a) :
    firstFault (as.filterMap fun a => (x.poisonOf w a).map fun f => (a.lane, f)) =
      some (⟨0x13, a.addr, 0⟩, maskOf fun k => as.any fun b => b.lane == k && (x.reads && w.poisonPieces b.place.pieces x.direct)) := by
  have item : ∀ b : Access, ((x.poisonOf w b).map fun f => (b.lane, f)) =
      if (x.reads && w.poisonPieces b.place.pieces x.direct) = true then some (b.lane, ⟨0x13, b.addr, 0⟩) else none := by
    intro b
    unfold LaneAccess.poisonOf
    split <;> rfl
  have all : ∀ (l : List Access) (k : Nat),
      ((l.filterMap fun a => (x.poisonOf w a).map fun f => (a.lane, f)).any fun p => p.1 == k && p.2.cause == 0x13) =
      l.any fun b => b.lane == k && (x.reads && w.poisonPieces b.place.pieces x.direct) := by
    intro l k
    induction l with
    | nil => rfl
    | cons b l ih =>
      rw [List.any_cons, ← ih, List.filterMap_cons, item b]
      generalize (x.reads && w.poisonPieces b.place.pieces x.direct) = e
      cases e
      · simp
      · simp only [if_true, List.any_cons, Bool.and_true]
        rw [show ((0x13 : BitVec 8) == 0x13) = true from rfl, Bool.and_true]
  have head : ∃ rest, (as.filterMap fun a => (x.poisonOf w a).map fun f => (a.lane, f)) = (a.lane, ⟨0x13, a.addr, 0⟩) :: rest := by
    clear all
    induction as with
    | nil => cases h
    | cons b l ih =>
      rw [List.find?_cons] at h
      rw [List.filterMap_cons, item b]
      split at h
      · cases h
        rename_i e
        rw [if_pos e]
        exact ⟨_, rfl⟩
      · rename_i e
        rw [if_neg (by rw [e]; exact Bool.false_ne_true)]
        exact ih h
  obtain ⟨rest, e⟩ := head
  have : firstFault ((a.lane, (⟨0x13, a.addr, 0⟩ : AccessFault)) :: rest) = some (⟨0x13, a.addr, 0⟩, maskOf fun i =>
    ((a.lane, (⟨0x13, a.addr, 0⟩ : AccessFault)) :: rest).any fun p => p.1 == i && p.2.cause == 0x13) := rfl
  rw [e, this, ← e]
  simp only [all]

/-- Where a lane access made in a state with the path and the lanes of `s` is not to run on, it answers what `State.AccessStops`
says. -/
theorem accessStops_of {s u : State} {sh : Shape} {x : LaneAccess} {ord : Nat} {scope : BitVec 3} {post : State → State}
    {k : State → List Access → Res} {i : Instr} (act : u.active = s.active) (foc : u.focus = s.focus) (wlk : u.path = s.path)
    (ex : exec i s = .next (s.settle sh 1 (match laneAccess x ord scope u k with
      | .next t => .next (post t)
      | r => r))) : s.AccessStops u x ord scope i := by
  unfold State.AccessStops
  refine ⟨?_, ?_⟩
  · intro hm hw
    rw [ex]
    simp only [laneAccess, act, State.walkPages, wlk, hw]
    simp [hm, State.settle]
  · intro hm
    generalize hp : (((lanesOf s.active).flatMap fun l => (x.early u l).toOption.getD []).flatMap
      fun a => pagesOf a.place.pieces) = pages at hm ⊢
    have wp : u.walkPages pages = .ok (u.walkedFor pages) := by
      unfold State.walkPages State.walkedFor
      rw [wlk]
      rcases hm with hm | hm
      · simp [hm]
      · simp [hm]
    have vf : (u.walkedFor pages).focus = s.focus ∧ (u.walkedFor pages).path = s.path := by
      have e := u.sameTeams_walkedFor pages
      exact ⟨e.2.trans foc, e.path.trans wlk⟩
    generalize (u.walkedFor pages) = v at wp vf ⊢
    have fo : ∀ l, x.faultOf v (x.early u l) = x.laneFault u v l := by
      intro l
      unfold LaneAccess.faultOf LaneAccess.laneFault
      cases x.early u l <;> rfl
    have body : laneAccess x ord scope u k =
      match x.first ((lanesOf s.active).filterMap fun l => (x.laneFault u v l).map fun f => (l, f)) with
      | some (f, m) => .trap f.cause f.addr (BitVec.ofNat 64 f.info) (some m)
      | none =>
        let good := (lanesOf s.active).flatMap fun l => (x.early u l).toOption.getD []
        let spans := ownSpans s.focus.team x.bytes (good.map (·.place))
        let writes := ownSpans s.focus.team x.bytes ((x.writers v good).map (·.place))
        if v.interlocked s.focus.team v.acceptSeq spans false then .wait v (.footprint spans false)
        else if v.interlocked s.focus.team v.acceptSeq writes true then .wait v (.footprint writes true)
        else if v.orderWaits ord scope then .wait v .stores
        else
          match firstFault (good.filterMap fun a => (x.poisonOf (v.ordered ord scope) a).map fun f => (a.lane, f)) with
          | some (f, m) => .trap f.cause f.addr 0 (some m)
          | none => k (v.ordered ord scope) good := by
      unfold laneAccess
      simp only [act, hp, wp, fo, vf.1] <;> rfl
    refine ⟨?_, ?_⟩
    · intro l hl f hf hlow
      have e := x.first_lanes (lanesOf s.active) (x.laneFault u v) (lanesOf_rising _) hl hf hlow
      rw [e] at body
      rw [ex, body]
      simp only [State.settle, Option.getD_some, mem_lanesOf, Bool.decide_eq_true]
    · intro hn
      have nf : ((lanesOf s.active).filterMap fun l => (x.laneFault u v l).map fun f => (l, f)) = [] := by
        rw [List.filterMap_eq_nil_iff]
        intro l hl
        simp [hn l hl]
      rw [nf] at body
      simp only [LaneAccess.first_nil] at body
      refine ⟨?_, ?_, ?_⟩
      · intro h
        rw [ex, body]
        simp [h, State.settle]
      · intro h h'
        rw [ex, body]
        simp [h, h', State.settle]
      · intro h h'
        refine ⟨?_, ?_⟩
        · intro hpd hrel
          rw [ex, body]
          have : v.orderWaits ord scope = true := by simp [State.orderWaits, hpd, vf.2, hrel]
          simp [h, h', this, State.settle]
        · intro hpd a hfind
          have ow : v.orderWaits ord scope = false := by
            unfold State.orderWaits
            rw [vf.2]
            rcases hpd with hpd | hpd
            · simp only [not_and, Bool.not_eq_true] at hpd
              cases ha : hasRelease ord
              · rfl
              · cases hb : wideScope scope
                · rfl
                · simp [hpd ha hb]
            · simp [hpd]
          rw [ex, body]
          simp only [h, h', ow, if_false, Bool.false_eq_true]
          rw [firstFault_poison _ _ hfind]
          rfl

/-- Where the access of a lane-space instruction is not to run on, it answers what `State.LaneStops` says. -/
theorem laneStops_of {s : State} {sh : Shape} {x : LaneAccess} {ord : Nat} {scope : BitVec 3} {eff : State → Res}
    {k : State → List Access → Res} {i : Instr} (hs : s.Runs) (hi : sh.inTrap = .allowed) (ha : s.active ≠ 0)
    (hr : exec i s = laneInstr sh {} s eff)
    (he : eff s.unlatched = laneAccess x ord scope s.unlatched k) : s.LaneStops x ord scope i := by
  refine accessStops_of (sh := { sh with pr := sh.pr ++ [s.pfx.pm] }) (k := k) (s.active_latch hs.placed {}) rfl
    (State.local_path hs.placed (State.local_latch hs.placed (State.local_rfl hs.placed) {}))
    (post := fun t => t.zeroDests { sh with pr := sh.pr ++ [s.pfx.pm] } s.zeroed) ?_
  rw [hr]
  unfold laneInstr
  rw [if_pos hs.1]
  simp only [ha, if_false]
  rw [s.guarded_of_closed { sh with pr := sh.pr ++ [s.pfx.pm] } 1 _ hs.2.1 (.inr hi)]
  simp only [← he]
  rfl

/-- Where the access of a group-space instruction over lanes is not to run on, it answers what `State.AccessStops` says. -/
theorem groupAccessStops_of {s : State} {sh : Shape} {x : LaneAccess} {ord : Nat} {scope : BitVec 3} {k : State → List Access → Res}
    {i : Instr} (ex : exec i s = .next (s.settle sh 1 (laneAccess x ord scope s k))) : s.AccessStops s x ord scope i := by
  refine accessStops_of (sh := sh) (k := k) (post := id) rfl rfl rfl ?_
  rw [ex]
  cases laneAccess x ord scope s k <;> rfl

/-- Where a group-space access is not to run on, it answers what `State.UniStops` says. -/
theorem uniStops_of {s : State} {sh : Shape} {wa : BitVec 6} {imm : BitVec 13} {r : Nat} {store : Bool} {k : State → Place → Res}
    {i : Instr} (hs : s.Runs) (hi : sh.inTrap = .allowed)
    (hr : exec i s = groupInstr sh 1 s fun s => uniAccess wa imm r store s k) :
    s.UniStops (s.uni wa + imm.signExtend 64) r store i := by
  have ex : exec i s = .next (s.settle sh 1 (uniAccess wa imm r store s k)) := by
    rw [hr]
    unfold groupInstr
    rw [if_pos hs.1, s.guarded_of_closed sh 1 _ hs.2.1 (.inr hi)]
  have trap : ∀ c a i, s.settle sh 1 (.trap c a i) = s.trapped c a i := fun _ _ _ => rfl
  unfold State.UniStops
  refine ⟨?_, ?_⟩
  · intro f hf
    rw [ex]
    simp only [uniAccess, hf, trap]
  · intro p hp
    refine ⟨?_, ?_⟩
    · intro ha
      rw [ex]
      simp only [uniAccess, hp, ne_eq, ha, not_false_eq_true, if_true, trap]
    · intro ha
      refine ⟨?_, ?_⟩
      · intro hm hw
        rw [ex]
        simp only [uniAccess, hp, ha, State.walkPages, hw]
        simp [hm, State.settle]
      · intro hm
        have wp : s.walkPages (pagesOf p.pieces) = .ok (s.walkedFor (pagesOf p.pieces)) := by
          unfold State.walkPages State.walkedFor
          rcases hm with hm | hm
          · simp [hm]
          · simp [hm]
        have vf := (s.sameTeams_walkedFor (pagesOf p.pieces)).2
        generalize (s.walkedFor (pagesOf p.pieces)) = v at wp vf ⊢
        refine ⟨?_, ?_⟩
        · intro f hf
          rw [ex]
          simp only [uniAccess, hp, ha, wp, hf, ne_eq, not_true_eq_false, if_false, trap]
        · intro hc
          refine ⟨?_, ?_⟩
          · rintro ⟨rfl, hq⟩
            rw [ex]
            simp only [uniAccess, hp, ha, wp, hc, hq, ne_eq, not_true_eq_false, if_false, Bool.not_false, Bool.and_self, if_true, trap]
          · intro hq hb
            have nq : (!store && v.poisonPieces p.pieces false) = false := by
              cases store
              · simpa using hq
              · rfl
            rw [ex]
            simp only [uniAccess, hp, ha, wp, hc, nq, vf, hb, ne_eq, not_true_eq_false, if_false, if_true, Bool.false_eq_true]
            rfl

/-! ## Where a transform and a group image stop -/

/-- With no page missing, or once the path has walked, the pages are walked for. -/
theorem State.walkPages_walked (s : State) (pages : List Nat) (h : s.missingPages pages = [] ∨ s.path.walked = true) :
    s.walkPages pages = .ok (s.walkedFor pages) := by
  unfold State.walkPages State.walkedFor
  rcases h with h | h <;> simp [h]

/-- A group-space instruction outside a pure region has its own effect. -/
theorem groupInstr_settles {s : State} {sh : Shape} {w : Nat} {eff : State → Res} (hs : s.live = true) (hr : s.path.region = none)
    (ht : s.group.trap.isSome = false ∨ sh.inTrap = .allowed) : groupInstr sh w s eff = .next (s.settle sh w (eff s)) := by
  unfold groupInstr
  rw [if_pos hs, s.guarded_of_closed sh w eff hr ht]

/-- Where a transform is not accepted, its instruction answers what `State.TransformStops` says. -/
theorem transformStops_of {s : State} {sh : Shape} {x : Transform} {i : Instr} (hs : s.Runs)
    (ht : s.group.trap.isSome = false ∨ sh.inTrap = .allowed) (hi : exec i s = groupInstr sh 1 s fun s => s.transform x) :
    s.TransformStops x i := by
  rw [groupInstr_settles hs.1 hs.2.1 ht] at hi
  have trap : ∀ c a i, s.settle sh 1 (.trap c a i) = s.trapped c a i := fun _ _ _ => rfl
  have wait : ∀ w, s.settle sh 1 (.wait s w) = s.park w := fun _ => rfl
  unfold State.TransformStops
  simp only [hi, Host.Outcome.next.injEq]
  refine ⟨fun a => ?_, fun a => ⟨fun o b => ?_, fun b => ⟨fun o c => ?_, fun c => ⟨fun d => ?_, fun d => ⟨fun e => ?_, fun e =>
    ⟨fun g h => ?_, fun h => ⟨fun g k => ?_, fun k l => ?_⟩⟩⟩⟩⟩⟩⟩
  all_goals unfold State.transform
  · simp only [a, if_true, trap]; rfl
  · simp only [a, b, Bool.false_eq_true, if_false, trap]; rfl
  · simp only [a, b, c, Bool.false_eq_true, if_false, trap]; rfl
  · simp only [a, b, c, Bool.false_eq_true, if_false]
    rw [if_pos d]
    exact trap _ _ _
  · simp only [a, b, c, d, e, Bool.false_eq_true, if_false, if_true, wait]
  · simp only [a, b, c, d, e, h, Bool.false_eq_true, if_false, trap]
    split <;> simp_all
  · simp only [a, b, c, d, e, h, k, Bool.false_eq_true, if_false, trap]; rfl
  · simp only [a, b, c, d, e, h, k, l, Bool.false_eq_true, if_false, if_true, wait]

/-- The first index of a range at which a function answers. -/
theorem findSome?_range {α : Type} (f : Nat → Option α) (n k : Nat) (x : α) (hk : k < n) (hx : f k = some x)
    (h : ∀ j < k, f j = none) : (List.range n).findSome? f = some x := by
  induction n generalizing k with
  | zero => omega
  | succ n ih =>
    rw [List.range_succ, List.findSome?_append]
    by_cases e : k < n
    · rw [ih k e hx h]; rfl
    · obtain rfl : k = n := by omega
      rw [List.findSome?_eq_none_iff.2 fun j hj => h j (List.mem_range.1 hj)]
      simp [hx]

/-- Where the accesses of a group image do not all go on, the instruction answers what `State.ImageStops` says. -/
theorem imageStops_of {s : State} {sh : Shape} {a : BitVec 64} {n : Nat} {write : Bool} {i : Instr} {k : State → List Place → Res}
    (hi : exec i s = .next (s.settle sh 1 (imageAccess a n write s k))) : s.ImageStops a n write i := by
  have trap : ∀ c a i, s.settle sh 1 (.trap c a i) = s.trapped c a i := fun _ _ _ => rfl
  have good : ((List.range (n / 256)).map fun i => (a + BitVec.ofNat 64 (256 * i), s.resolve none (a + BitVec.ofNat 64 (256 * i)) 256)).filterMap
      (fun p => p.2.toOption) = (List.range (n / 256)).filterMap fun k => (s.resolve none (a + BitVec.ofNat 64 (256 * k)) 256).toOption := by
    rw [List.filterMap_map]; rfl
  unfold State.ImageStops
  simp only [hi, Host.Outcome.next.injEq]
  generalize hg : ((List.range (n / 256)).filterMap fun k => (s.resolve none (a + BitVec.ofNat 64 (256 * k)) 256).toOption) = gs
  rw [hg] at good
  refine ⟨fun hm hw => ?_, fun hm => ?_⟩
  · unfold imageAccess
    simp only [good, State.walkPages, hw]
    simp [hm, State.settle]
  · have wp := s.walkPages_walked _ hm
    have vf := (s.sameTeams_walkedFor (gs.flatMap fun p => pagesOf p.pieces)).2
    generalize (s.walkedFor (gs.flatMap fun p => pagesOf p.pieces)) = v at wp vf ⊢
    have fails : ∀ j f, v.imageFault write (a + BitVec.ofNat 64 (256 * j), s.resolve none (a + BitVec.ofNat 64 (256 * j)) 256) = some f ↔
        (s.resolve none (a + BitVec.ofNat 64 (256 * j)) 256 = .error f ∨ ∃ p, s.resolve none (a + BitVec.ofNat 64 (256 * j)) 256 = .ok p ∧
          (v.checkPieces (a + BitVec.ofNat 64 (256 * j)) p.pieces write = some f ∨
            v.checkPieces (a + BitVec.ofNat 64 (256 * j)) p.pieces write = none ∧ write = false ∧
              v.poisonPieces p.pieces false = true ∧ f = ⟨0x13, a + BitVec.ofNat 64 (256 * j), 1⟩)) := by
      intro j f
      unfold State.imageFault
      cases s.resolve none (a + BitVec.ofNat 64 (256 * j)) 256 with
      | error g => simp
      | ok q =>
        simp only [Except.ok.injEq, exists_eq_left', reduceCtorEq, false_or]
        generalize v.checkPieces (a + BitVec.ofNat 64 (256 * j)) q.pieces write = c
        generalize v.poisonPieces q.pieces false = b
        generalize (⟨0x13, a + BitVec.ofNat 64 (256 * j), 1⟩ : AccessFault) = h
        cases c <;> cases write <;> cases b <;> simp [eq_comm]
    simp only [← fails]
    refine ⟨fun j hj f hf first => ?_, fun none_ hb => ?_⟩
    · have := findSome?_range _ (n / 256) j f hj hf fun k hk => Option.eq_none_iff_forall_ne_some.2 fun g => first k hk g
      unfold imageAccess
      simp only [good, wp, List.findSome?_map, Function.comp_def, this, trap]
    · have : (List.range (n / 256)).findSome? _ = none :=
        List.findSome?_eq_none_iff.2 fun j hj => Option.eq_none_iff_forall_ne_some.2 fun g => none_ j (List.mem_range.1 hj) g
      unfold imageAccess
      simp only [good, wp, List.findSome?_map, Function.comp_def, this, vf, hb, if_true]
      rfl

/-! ## Where matrix operations and the loads of cards stop -/

theorem settle_trap (s : State) (sh : Shape) (c : BitVec 8) (a i : BitVec 64) : s.settle sh 1 (.trap c a i) = s.trapped c a i := rfl
theorem settle_wait (s : State) (sh : Shape) (w : Wait) : s.settle sh 1 (.wait s w) = s.park w := rfl

/-- An operation of the matrix engine waits where the queue is full. -/
theorem State.acceptMatrix_full {s : State} (an : BitVec 4) (kind : MatrixKind) (tag : Option TileTag)
    (h : 8 ≤ (s.coreAt s.coreNow).matrixQ.length) : s.acceptMatrix an kind tag = .wait s (.engineQueue .matrix) := by
  unfold State.acceptMatrix State.matrixFull
  rw [decide_eq_true h]
  rfl

theorem mmaStops_of {s : State} {sh : Shape} {zero : Bool} {an : BitVec 4} {wa wb : BitVec 6} {i : Instr}
    (hi : exec i s = mmaInstr zero an wa wb s)
    (hg : ∀ f, groupInstr (shapeTeam [] (blockRegs wa wb) []) 1 s f = .next (s.settle sh 1 (f s))) :
    s.MmaStops (s.blockAt wa) (s.blockAt wb) i := by
  unfold mmaInstr at hi
  rw [hg] at hi
  unfold State.MmaStops
  simp only [hi, Host.Outcome.next.injEq]
  refine ⟨fun a => ?_, fun a => ⟨fun b => ?_, fun b c => ⟨fun o d => ?_, fun d e => ⟨fun o f => ?_, fun f => ⟨fun g => ?_, fun g =>
    ⟨fun x h => ?_, fun h k => ?_⟩⟩⟩⟩⟩⟩
  · simp only [a, Bool.not_false, if_true]; rfl
  · rcases b with b | b <;> simp only [a, b, Bool.not_true, Bool.false_eq_true, if_false, Bool.or_true, Bool.true_or, if_true] <;> rfl
  · simp only [a, b, c, d, Bool.not_true, Bool.false_eq_true, if_false, Bool.or_false]; rfl
  · simp only [a, b, c, d, e, Option.none_or, f, Bool.not_true, Bool.false_eq_true, if_false, Bool.or_false]; rfl
  · simp only [a, b, c, d, e, Option.none_or, f, g, Bool.not_true, Bool.false_eq_true, if_false, Bool.or_false, if_true]; rfl
  · simp only [a, b, c, d, e, Option.none_or, f, g, h, Bool.not_true, Bool.false_eq_true, if_false, Bool.or_false]; rfl
  · simp only [a, b, c, d, e, Option.none_or, f, g, h, Bool.not_true, Bool.false_eq_true, if_false, Bool.or_false, s.acceptMatrix_full _ _ _ k]; rfl

theorem mmasStops_of {s : State} {sh : Shape} {zero : Bool} {an : BitVec 4} {wa wb : BitVec 6} {i : Instr}
    (hi : exec i s = mmasInstr zero an wa wb s)
    (hg : ∀ f, groupInstr (shapeTeam [] (blockRegs wa wb) []) 1 s f = .next (s.settle sh 1 (f s))) :
    s.MmasStops zero an (s.blockAt wa) (s.blockAt wb) i := by
  unfold mmasInstr at hi
  rw [hg] at hi
  unfold State.MmasStops State.mmasRows
  simp only [hi, Host.Outcome.next.injEq]
  have apart : (((granulesOf (s.mmasRows (s.blockAt wa))).head?.map s.team.gtag).any (fun x =>
      tagLogb x != tagLogb (s.team.gtag ((granulesOf [⟨(s.blockAt wb).off, 64⟩]).headD 0))) ||
      (maskRows (s.group.mask 0) 0).any fun i =>
        ((s.blockAt wa).off + i * (s.blockAt wa).stride) %
            (2 * (16 * 2 ^ tagLogb (s.team.gtag ((granulesOf [⟨(s.blockAt wb).off, 64⟩]).headD 0)))) !=
          64 * i % (2 * (16 * 2 ^ tagLogb (s.team.gtag ((granulesOf [⟨(s.blockAt wb).off, 64⟩]).headD 0)))) ||
        (s.blockAt wb).off % (2 * (16 * 2 ^ tagLogb (s.team.gtag ((granulesOf [⟨(s.blockAt wb).off, 64⟩]).headD 0)))) !=
          64 * i % (2 * (16 * 2 ^ tagLogb (s.team.gtag ((granulesOf [⟨(s.blockAt wb).off, 64⟩]).headD 0))))) = true ↔
      s.MmasApart (s.blockAt wa) (s.blockAt wb) := by
    unfold State.MmasApart
    simp [Option.any_eq_true]
  unfold State.mmasRows at apart
  refine ⟨fun a => ?_, fun a b => ⟨fun o c => ?_, fun c => ⟨fun o d => ?_, fun d => ⟨fun e => ?_, fun e =>
    ⟨fun g f => ?_, fun f => ⟨fun g => ?_, fun g => ⟨fun h => ?_, fun h k => ?_⟩⟩⟩⟩⟩⟩⟩
  · rcases a with a | a <;> simp only [a, Bool.or_true, Bool.true_or, if_true] <;> rfl
  · simp only [a, b, c, Bool.or_false, Bool.false_eq_true, if_false]; rfl
  · simp only [a, b, c, d, Bool.or_false, Bool.false_eq_true, if_false]; rfl
  · simp only [a, b, c, d, e, Bool.or_false, Bool.false_eq_true, if_false, if_true]; rfl
  · simp only [a, b, c, d, e, f, Bool.or_false, Bool.false_eq_true, if_false]; rfl
  · simp only [a, b, c, d, e, f, apart.2 g, Bool.or_false, Bool.false_eq_true, if_false, if_true]; rfl
  all_goals have g' := Bool.eq_false_iff.2 fun x => g (apart.1 x)
  · obtain ⟨rfl, h⟩ := h
    have h' : (!(s.tileTag an).spectral || (s.tileTag an).logb !=
        tagLogb (s.team.gtag ((granulesOf [⟨(s.blockAt wb).off, 64⟩]).headD 0))) = true := by
      rcases h with h | h
      · simp [h]
      · exact Bool.or_eq_true_iff.2 (.inr (bne_iff_ne.2 h))
    simp only [a, b, c, d, e, f, g', h', Bool.or_false, Bool.false_eq_true, if_false, if_true]; rfl
  · cases zero
    · have h' : (!(s.tileTag an).spectral || (s.tileTag an).logb !=
          tagLogb (s.team.gtag ((granulesOf [⟨(s.blockAt wb).off, 64⟩]).headD 0))) = false := by
        simpa using h
      simp only [a, b, c, d, e, f, g', h', Bool.or_false, Bool.false_eq_true, if_false, s.acceptMatrix_full _ _ _ k]; rfl
    · simp only [a, b, c, d, e, f, g', Bool.or_false, Bool.false_eq_true, if_false, if_true, s.acceptMatrix_full _ _ _ k]; rfl

/-- The bytes of an element that ACCST stores are those of its format (Tables 8.1 and 12.6). -/
theorem codeBytes_accst {f : BitVec 8} {z : Nat} (h : accstSize f = some z) : codeBytes f.toNat 1 = z := by
  unfold accstSize at h
  split at h
  · next e => rcases Bool.or_eq_true_iff.1 e with e | e <;> (obtain rfl := of_decide_eq_true e; cases h; rfl)
  · split at h
    · next e => rcases Bool.or_eq_true_iff.1 e with e | e <;> (obtain rfl := of_decide_eq_true e; cases h; rfl)
    · split at h
      · next e => rcases Bool.or_eq_true_iff.1 e with e | e <;> (obtain rfl := of_decide_eq_true e; cases h; rfl)
      · cases h

theorem accstStops_of {s : State} {sh : Shape} {an : BitVec 4} {wa : BitVec 6} (hi : exec (.accst an wa) s = execAccst an wa s)
    (hg : ∀ f, groupInstr (shapeTeam [] [wa] []) 1 s f = .next (s.settle sh 1 (f s))) :
    s.AccstStops (s.uni wa) (.accst an wa) := by
  unfold execAccst at hi
  rw [hg] at hi
  have off : ((s.uni wa).extractLsb' 0 32).toNat = (s.uni wa).toNat % 2 ^ 32 := by simp
  have stride : ((s.uni wa).extractLsb' 32 16).toNat = (s.uni wa).toNat / 2 ^ 32 % 2 ^ 16 := by
    simp [BitVec.extractLsb'_toNat, Nat.shiftRight_eq_div_pow]
  have top : (s.uni wa).extractLsb' 56 8 = 0 ↔ (s.uni wa).toNat / 2 ^ 56 = 0 := by
    have := (s.uni wa).isLt
    rw [← BitVec.toNat_inj, BitVec.extractLsb'_toNat, Nat.shiftRight_eq_div_pow]
    simp; omega
  simp only [off, stride, ne_eq, top] at hi
  have misaligned : ∀ z, ¬((s.uni wa).toNat % 2 ^ 32 % z ≠ 0 ∨ (s.uni wa).toNat / 2 ^ 32 % 2 ^ 16 % 16 ≠ 0 ∨
      (s.uni wa).toNat / 2 ^ 32 % 2 ^ 16 < 32 * z) →
      (decide (¬(s.uni wa).toNat % 2 ^ 32 % z = 0) || decide (¬(s.uni wa).toNat / 2 ^ 32 % 2 ^ 16 % 16 = 0) ||
        decide ((s.uni wa).toNat / 2 ^ 32 % 2 ^ 16 < 32 * z)) = false := fun z c =>
    Bool.eq_false_iff.2 fun x => c (by simpa [or_assoc] using x)
  have w : ∀ z, accstSize ((s.uni wa).extractLsb' 48 8) = some z → ∀ o : MatrixOp,
      o.kind = .accst ((s.uni wa).toNat % 2 ^ 32) ((s.uni wa).toNat / 2 ^ 32 % 2 ^ 16) ((s.uni wa).extractLsb' 48 8) →
      o.masks = s.edgeMasks → o.row = 0 → o.writes =
        (maskRows (s.group.mask 0) 0).flatMap fun i => (maskRows (s.group.mask 1) 0).map fun j =>
          Span.mk ((s.uni wa).toNat % 2 ^ 32 + i * ((s.uni wa).toNat / 2 ^ 32 % 2 ^ 16) + j * z) z := by
    intro z a o h1 h2 h3
    unfold MatrixOp.writes MatrixOp.em0 MatrixOp.em1
    rw [h1, h2, h3, ← codeBytes_accst a]
    rfl
  unfold State.AccstStops
  simp only [hi, Host.Outcome.next.injEq]
  refine ⟨fun a => ?_, fun z a b => ⟨fun c => ?_, fun c => ⟨fun o d => ?_, fun d k => ?_⟩⟩⟩
  · cases hz : accstSize ((s.uni wa).extractLsb' 48 8) with
    | none => rfl
    | some z =>
      have a' : ¬(s.uni wa).toNat / 2 ^ 56 = 0 := by simpa [hz] using a
      simp only [a', not_false_eq_true, if_true]; rfl
  · have c' : (decide (¬(s.uni wa).toNat % 2 ^ 32 % z = 0) || decide (¬(s.uni wa).toNat / 2 ^ 32 % 2 ^ 16 % 16 = 0) ||
        decide ((s.uni wa).toNat / 2 ^ 32 % 2 ^ 16 < 32 * z)) = true := by simpa [or_assoc] using c
    simp only [a, b, c', not_true_eq_false, if_false, if_true]; rfl
  · simp only [a, b, misaligned z c, not_true_eq_false, if_false, Bool.false_eq_true]
    rw [w z a _ rfl rfl rfl, d]
    rfl
  · simp only [a, b, misaligned z c, not_true_eq_false, if_false, Bool.false_eq_true]
    rw [w z a _ rfl rfl rfl, d]
    simp only [s.acceptMatrix_full _ _ _ k]
    rfl

/-- Where the loads of the words of a card do not all go on, the instruction answers what `State.LoadsStop` says. -/
theorem loadsStop_of {s : State} {sh : Shape} {addrs : List (BitVec 64)} {i : Instr} {k : State → List Byte → Res}
    (hi : exec i s = .next (s.settle sh 1 (groupLoad addrs s k))) : s.LoadsStop addrs i := by
  unfold State.LoadsStop
  simp only [hi, Host.Outcome.next.injEq]
  refine ⟨fun before a after f e h hf => ?_, fun ps hp => ?_⟩
  · have : (addrs.map fun a => (a, s.resolve none a 8)).findSome?
        (fun p => placeFault p.2) = some f := by
      subst e
      rw [List.map_append, List.findSome?_append, List.findSome?_eq_none_iff.2]
      · simp [hf, placeFault]
      · intro x hx
        obtain ⟨b, hb, rfl⟩ := List.mem_map.1 hx
        obtain ⟨p, hp⟩ := h b hb
        simp [hp, placeFault]
    unfold groupLoad
    simp only [this]
    rfl
  · have none_ : (addrs.map fun a => (a, s.resolve none a 8)).findSome?
        (fun p => placeFault p.2) = none ∧
        ((addrs.map fun a => (a, s.resolve none a 8)).filterMap fun p => p.2.toOption.map fun q => (p.1, q))
          = addrs.zip ps := by
      clear hi
      induction addrs generalizing ps with
      | nil => cases ps <;> simp
      | cons a l ih =>
        cases ps with
        | nil => simp at hp
        | cons q qs =>
          simp only [List.map_cons, List.cons.injEq] at hp
          have := ih qs hp.2
          refine ⟨?_, ?_⟩
          · rw [List.map_cons, List.findSome?_cons, hp.1]
            exact this.1
          · rw [List.map_cons, List.filterMap_cons, hp.1]
            exact congrArg _ this.2
    have len : addrs.length = ps.length := by simpa using congrArg List.length hp
    have own : (addrs.zip ps).map (·.2) = ps := List.map_snd_zip (by omega)
    have pages : ((addrs.zip ps).flatMap fun p => pagesOf p.2.pieces) = ps.flatMap fun p => pagesOf p.pieces := by
      conv_rhs => rw [← own]
      rw [List.flatMap_map]
    refine ⟨fun hm hw => ?_, fun hm => ?_⟩
    · unfold groupLoad
      simp only [none_.1, none_.2, pages, State.walkPages, hw]
      simp [hm, State.settle]
    · have wp := s.walkPages_walked _ hm
      have vf := (s.sameTeams_walkedFor (ps.flatMap fun p => pagesOf p.pieces)).2
      generalize s.walkedFor (ps.flatMap fun p => pagesOf p.pieces) = v at wp vf ⊢
      refine ⟨fun f hf => ?_, fun hr => ⟨fun p hq => ?_, fun hq hb => ?_⟩⟩
      · unfold groupLoad
        simp only [none_.1, none_.2, pages, wp, hf]
        rfl
      · unfold groupLoad
        simp only [none_.1, none_.2, pages, wp, hr, leastFault, hq]
        rfl
      · unfold groupLoad
        simp only [none_.1, none_.2, pages, wp, hr, leastFault, hq, own, vf, hb, if_true]
        rfl

end Sys2Proof.Machine
end

