-- ==== Sys2Proof/Laws/Dispatch.lean ====
section
/-!
SUPPORT. Sys2Proof/Laws/Dispatch.lean: which meaning `exec` gives each instruction: one equation per constructor.
-/
namespace Sys2Proof.Machine

theorem exec_iadd {vd va vb ha hb s} : exec (.iadd vd va vb ha hb) s = execIadd vd va vb ha hb s := rfl
theorem exec_isub {vd va vb ha hb s} : exec (.isub vd va vb ha hb) s = execIsub vd va vb ha hb s := rfl
theorem exec_imin {vd va vb ha hb s} : exec (.imin vd va vb ha hb) s = execImin vd va vb ha hb s := rfl
theorem exec_imax {vd va vb ha hb s} : exec (.imax vd va vb ha hb) s = execImax vd va vb ha hb s := rfl
theorem exec_iminu {vd va vb ha hb s} : exec (.iminu vd va vb ha hb) s = execIminu vd va vb ha hb s := rfl
theorem exec_imaxu {vd va vb ha hb s} : exec (.imaxu vd va vb ha hb) s = execImaxu vd va vb ha hb s := rfl
theorem exec_iabsd {vd va vb ha hb s} : exec (.iabsd vd va vb ha hb) s = execIabsd vd va vb ha hb s := rfl
theorem exec_imul {vd va vb ha hb s} : exec (.imul vd va vb ha hb) s = execImul vd va vb ha hb s := rfl
theorem exec_imulhs {vd va vb ha hb s} : exec (.imulhs vd va vb ha hb) s = execImulhs vd va vb ha hb s := rfl
theorem exec_imulhu {vd va vb ha hb s} : exec (.imulhu vd va vb ha hb) s = execImulhu vd va vb ha hb s := rfl
theorem exec_imad {vd va vb ha hb s} : exec (.imad vd va vb ha hb) s = execImad vd va vb ha hb s := rfl
theorem exec_and {vd va vb ha hb s} : exec (.and vd va vb ha hb) s = execAnd vd va vb ha hb s := rfl
theorem exec_or {vd va vb ha hb s} : exec (.or vd va vb ha hb) s = execOr vd va vb ha hb s := rfl
theorem exec_xor {vd va vb ha hb s} : exec (.xor vd va vb ha hb) s = execXor vd va vb ha hb s := rfl
theorem exec_andn {vd va vb ha hb s} : exec (.andn vd va vb ha hb) s = execAndn vd va vb ha hb s := rfl
theorem exec_shl {vd va vb ha hb s} : exec (.shl vd va vb ha hb) s = execShl vd va vb ha hb s := rfl
theorem exec_shr {vd va vb ha hb s} : exec (.shr vd va vb ha hb) s = execShr vd va vb ha hb s := rfl
theorem exec_sar {vd va vb ha hb s} : exec (.sar vd va vb ha hb) s = execSar vd va vb ha hb s := rfl
theorem exec_rotl {vd va vb ha hb s} : exec (.rotl vd va vb ha hb) s = execRotl vd va vb ha hb s := rfl
theorem exec_popc {vd va ha s} : exec (.popc vd va ha) s = execPopc vd va ha s := rfl
theorem exec_clz {vd va ha s} : exec (.clz vd va ha) s = execClz vd va ha s := rfl
theorem exec_brev {vd va ha s} : exec (.brev vd va ha) s = execBrev vd va ha s := rfl
theorem exec_bfx {vd va vb ha hb s} : exec (.bfx vd va vb ha hb) s = execBfx vd va vb ha hb s := rfl
theorem exec_icmp {pd va vb rel ha hb s} : exec (.icmp pd va vb rel ha hb) s = execIcmp pd va vb rel ha hb s := rfl
theorem exec_icmpUnsigned {pd va vb rel ha hb s} : exec (.icmpUnsigned pd va vb rel ha hb) s = execIcmpUnsigned pd va vb rel ha hb s := rfl
theorem exec_sel {vd va vb ps ha hb s} : exec (.sel vd va vb ps ha hb) s = execSel vd va vb ps ha hb s := rfl
theorem exec_iadd64 {vd va vb ha hb s} : exec (.iadd64 vd va vb ha hb) s = execIadd64 vd va vb ha hb s := rfl
theorem exec_isub64 {vd va vb ha hb s} : exec (.isub64 vd va vb ha hb) s = execIsub64 vd va vb ha hb s := rfl
theorem exec_imul64 {vd va vb ha hb s} : exec (.imul64 vd va vb ha hb) s = execImul64 vd va vb ha hb s := rfl
theorem exec_madw {vd va vb ha hb s} : exec (.madw vd va vb ha hb) s = execMadw vd va vb ha hb s := rfl
theorem exec_iaddi {vd va imm ha s} : exec (.iaddi vd va imm ha) s = execIaddi vd va imm ha s := rfl
theorem exec_andi {vd va imm ha s} : exec (.andi vd va imm ha) s = execAndi vd va imm ha s := rfl
theorem exec_ori {vd va imm ha s} : exec (.ori vd va imm ha) s = execOri vd va imm ha s := rfl
theorem exec_xori {vd va imm ha s} : exec (.xori vd va imm ha) s = execXori vd va imm ha s := rfl
theorem exec_shli {vd va imm ha s} : exec (.shli vd va imm ha) s = execShli vd va imm ha s := rfl
theorem exec_shri {vd va imm ha s} : exec (.shri vd va imm ha) s = execShri vd va imm ha s := rfl
theorem exec_sari {vd va imm ha s} : exec (.sari vd va imm ha) s = execSari vd va imm ha s := rfl
theorem exec_movi {vd imm s} : exec (.movi vd imm) s = execMovi vd imm s := rfl
theorem exec_fadd {vd va vb ha hb s} : exec (.fadd vd va vb ha hb) s = execFadd vd va vb ha hb s := rfl
theorem exec_fsub {vd va vb ha hb s} : exec (.fsub vd va vb ha hb) s = execFsub vd va vb ha hb s := rfl
theorem exec_fmul {vd va vb ha hb s} : exec (.fmul vd va vb ha hb) s = execFmul vd va vb ha hb s := rfl
theorem exec_ffma {vd va vb ha hb s} : exec (.ffma vd va vb ha hb) s = execFfma vd va vb ha hb s := rfl
theorem exec_fmin {vd va vb ha hb s} : exec (.fmin vd va vb ha hb) s = execFmin vd va vb ha hb s := rfl
theorem exec_fmax {vd va vb ha hb s} : exec (.fmax vd va vb ha hb) s = execFmax vd va vb ha hb s := rfl
theorem exec_fabs {vd va ha s} : exec (.fabs vd va ha) s = execFabs vd va ha s := rfl
theorem exec_fneg {vd va ha s} : exec (.fneg vd va ha) s = execFneg vd va ha s := rfl
theorem exec_fcmp {pd va vb rel ha hb s} : exec (.fcmp pd va vb rel ha hb) s = execFcmp pd va vb rel ha hb s := rfl
theorem exec_haddp {vd va vb ha hb s} : exec (.haddp vd va vb ha hb) s = execHaddp vd va vb ha hb s := rfl
theorem exec_hmulp {vd va vb ha hb s} : exec (.hmulp vd va vb ha hb) s = execHmulp vd va vb ha hb s := rfl
theorem exec_hfmap {vd va vb ha hb s} : exec (.hfmap vd va vb ha hb) s = execHfmap vd va vb ha hb s := rfl
theorem exec_hmaxp {vd va vb ha hb s} : exec (.hmaxp vd va vb ha hb) s = execHmaxp vd va vb ha hb s := rfl
theorem exec_badd2 {vd va vb ha hb s} : exec (.badd2 vd va vb ha hb) s = execBadd2 vd va vb ha hb s := rfl
theorem exec_bmul2 {vd va vb ha hb s} : exec (.bmul2 vd va vb ha hb) s = execBmul2 vd va vb ha hb s := rfl
theorem exec_bfma2 {vd va vb ha hb s} : exec (.bfma2 vd va vb ha hb) s = execBfma2 vd va vb ha hb s := rfl
theorem exec_bmax2 {vd va vb ha hb s} : exec (.bmax2 vd va vb ha hb) s = execBmax2 vd va vb ha hb s := rfl
theorem exec_rcp {vd va ha s} : exec (.rcp vd va ha) s = execRcp vd va ha s := rfl
theorem exec_rsq {vd va ha s} : exec (.rsq vd va ha) s = execRsq vd va ha s := rfl
theorem exec_sqrt {vd va ha s} : exec (.sqrt vd va ha) s = execSqrt vd va ha s := rfl
theorem exec_exp2 {vd va ha s} : exec (.exp2 vd va ha) s = execExp2 vd va ha s := rfl
theorem exec_log2 {vd va ha s} : exec (.log2 vd va ha) s = execLog2 vd va ha s := rfl
theorem exec_sin {vd va ha s} : exec (.sin vd va ha) s = execSin vd va ha s := rfl
theorem exec_cos {vd va ha s} : exec (.cos vd va ha) s = execCos vd va ha s := rfl
theorem exec_tanh {vd va ha s} : exec (.tanh vd va ha) s = execTanh vd va ha s := rfl
theorem exec_cvt {vd va src dst mode ha s} : exec (.cvt vd va src dst mode ha) s = execCvt vd va src dst mode ha s := rfl
theorem exec_qe4 {vd va vb ha hb s} : exec (.qe4 vd va vb ha hb) s = execQe4 vd va vb ha hb s := rfl
theorem exec_qe5 {vd va vb ha hb s} : exec (.qe5 vd va vb ha hb) s = execQe5 vd va vb ha hb s := rfl
theorem exec_qi8 {vd va vb ha hb s} : exec (.qi8 vd va vb ha hb) s = execQi8 vd va vb ha hb s := rfl
theorem exec_qf4 {vd va vb ha hb s} : exec (.qf4 vd va vb ha hb) s = execQf4 vd va vb ha hb s := rfl
theorem exec_de4 {vd va vb ha hb s} : exec (.de4 vd va vb ha hb) s = execDe4 vd va vb ha hb s := rfl
theorem exec_de5 {vd va vb ha hb s} : exec (.de5 vd va vb ha hb) s = execDe5 vd va vb ha hb s := rfl
theorem exec_di8 {vd va vb ha hb s} : exec (.di8 vd va vb ha hb) s = execDi8 vd va vb ha hb s := rfl
theorem exec_df4 {vd va vb ha hb s} : exec (.df4 vd va vb ha hb) s = execDf4 vd va vb ha hb s := rfl
theorem exec_shfl {vd va vb ha hb s} : exec (.shfl vd va vb ha hb) s = execShfl vd va vb ha hb s := rfl
theorem exec_shflx {vd va vb ha hb s} : exec (.shflx vd va vb ha hb) s = execShflx vd va vb ha hb s := rfl
theorem exec_shflr {vd va vb ha hb s} : exec (.shflr vd va vb ha hb) s = execShflr vd va vb ha hb s := rfl
theorem exec_shflh {vd va k ha s} : exec (.shflh vd va k ha) s = execShflh vd va k ha s := rfl
theorem exec_lstep {vd va k op ha s} : exec (.lstep vd va k op ha) s = execLstep vd va k op ha s := rfl
theorem exec_vmatch {vd va ha s} : exec (.vmatch vd va ha) s = execVmatch vd va ha s := rfl
theorem exec_mrank {vd va ha s} : exec (.mrank vd va ha) s = execMrank vd va ha s := rfl
theorem exec_mcnt {vd va ha s} : exec (.mcnt vd va ha) s = execMcnt vd va ha s := rfl
theorem exec_mlast {vd va ha s} : exec (.mlast vd va ha) s = execMlast vd va ha s := rfl
theorem exec_laneid {vd s} : exec (.laneid vd) s = execLaneid vd s := rfl
theorem exec_vmov {vd va ha s} : exec (.vmov vd va ha) s = execVmov vd va ha s := rfl
theorem exec_movp {vd pn s} : exec (.movp vd pn) s = execMovp vd pn s := rfl
theorem exec_setp {pd va ha s} : exec (.setp pd va ha) s = execSetp pd va ha s := rfl
theorem exec_ldb {vt va wb rec s} : exec (.ldb vt va wb rec) s = execLdb vt va wb rec s := rfl
theorem exec_ldh {vt va wb rec s} : exec (.ldh vt va wb rec) s = execLdh vt va wb rec s := rfl
theorem exec_ldw {vt va wb rec s} : exec (.ldw vt va wb rec) s = execLdw vt va wb rec s := rfl
theorem exec_ldd {vt va wb rec s} : exec (.ldd vt va wb rec) s = execLdd vt va wb rec s := rfl
theorem exec_ldq {vt va wb rec s} : exec (.ldq vt va wb rec) s = execLdq vt va wb rec s := rfl
theorem exec_stb {vt va wb rec s} : exec (.stb vt va wb rec) s = execStb vt va wb rec s := rfl
theorem exec_sth {vt va wb rec s} : exec (.sth vt va wb rec) s = execSth vt va wb rec s := rfl
theorem exec_stw {vt va wb rec s} : exec (.stw vt va wb rec) s = execStw vt va wb rec s := rfl
theorem exec_std {vt va wb rec s} : exec (.std vt va wb rec) s = execStd vt va wb rec s := rfl
theorem exec_stq {vt va wb rec s} : exec (.stq vt va wb rec) s = execStq vt va wb rec s := rfl
theorem exec_atom {vt va wb op s} : exec (.atom vt va wb op) s = execAtom vt va wb op s := rfl
theorem exec_atomd {vt va wb op s} : exec (.atomd vt va wb op) s = execAtomd vt va wb op s := rfl
theorem exec_ldl {vt va wb sz s} : exec (.ldl vt va wb sz) s = execLdl vt va wb sz s := rfl
theorem exec_stl {vt va wb sz s} : exec (.stl vt va wb sz) s = execStl vt va wb sz s := rfl
theorem exec_atoml {vt va wb op s} : exec (.atoml vt va wb op) s = execAtoml vt va wb op s := rfl
theorem exec_tex {vt va wb rec s} : exec (.tex vt va wb rec) s = execTex vt va wb rec s := rfl
theorem exec_texl {vt va wb rec s} : exec (.texl vt va wb rec) s = execTexl vt va wb rec s := rfl
theorem exec_texg {vt va wb rec s} : exec (.texg vt va wb rec) s = execTexg vt va wb rec s := rfl
theorem exec_rayq {vt va wb desc s} : exec (.rayq vt va wb desc) s = execRayq vt va wb desc s := rfl
theorem exec_prf {va wb kind s} : exec (.prf va wb kind) s = execPrf va wb kind s := rfl
theorem exec_pfx {pm pinv zm rnd scope vc s} : exec (.pfx pm pinv zm rnd scope vc) s = execPfx pm pinv zm rnd scope vc s := rfl
theorem exec_uadd {wd wa wb s} : exec (.uadd wd wa wb) s = execUadd wd wa wb s := rfl
theorem exec_usub {wd wa wb s} : exec (.usub wd wa wb) s = execUsub wd wa wb s := rfl
theorem exec_umul {wd wa wb s} : exec (.umul wd wa wb) s = execUmul wd wa wb s := rfl
theorem exec_umulh {wd wa wb s} : exec (.umulh wd wa wb) s = execUmulh wd wa wb s := rfl
theorem exec_uand {wd wa wb s} : exec (.uand wd wa wb) s = execUand wd wa wb s := rfl
theorem exec_uor {wd wa wb s} : exec (.uor wd wa wb) s = execUor wd wa wb s := rfl
theorem exec_uxor {wd wa wb s} : exec (.uxor wd wa wb) s = execUxor wd wa wb s := rfl
theorem exec_uandn {wd wa wb s} : exec (.uandn wd wa wb) s = execUandn wd wa wb s := rfl
theorem exec_ushl {wd wa wb s} : exec (.ushl wd wa wb) s = execUshl wd wa wb s := rfl
theorem exec_ushr {wd wa wb s} : exec (.ushr wd wa wb) s = execUshr wd wa wb s := rfl
theorem exec_usar {wd wa wb s} : exec (.usar wd wa wb) s = execUsar wd wa wb s := rfl
theorem exec_umin {wd wa wb s} : exec (.umin wd wa wb) s = execUmin wd wa wb s := rfl
theorem exec_umax {wd wa wb s} : exec (.umax wd wa wb) s = execUmax wd wa wb s := rfl
theorem exec_uminu {wd wa wb s} : exec (.uminu wd wa wb) s = execUminu wd wa wb s := rfl
theorem exec_umaxu {wd wa wb s} : exec (.umaxu wd wa wb) s = execUmaxu wd wa wb s := rfl
theorem exec_upopc {wd wa s} : exec (.upopc wd wa) s = execUpopc wd wa s := rfl
theorem exec_uaddi {wd wa imm s} : exec (.uaddi wd wa imm) s = execUaddi wd wa imm s := rfl
theorem exec_umovi {wd imm s} : exec (.umovi wd imm) s = execUmovi wd imm s := rfl
theorem exec_uli {wd lit s} : exec (.uli wd lit) s = execUli wd lit s := rfl
theorem exec_ulih {wd lit s} : exec (.ulih wd lit) s = execUlih wd lit s := rfl
theorem exec_ucmp {wd wa wb rel s} : exec (.ucmp wd wa wb rel) s = execUcmp wd wa wb rel s := rfl
theorem exec_ufadd {wd wa wb rnd s} : exec (.ufadd wd wa wb rnd) s = execUfadd wd wa wb rnd s := rfl
theorem exec_ufmul {wd wa wb rnd s} : exec (.ufmul wd wa wb rnd) s = execUfmul wd wa wb rnd s := rfl
theorem exec_uffma {wd wa wb rnd s} : exec (.uffma wd wa wb rnd) s = execUffma wd wa wb rnd s := rfl
theorem exec_ufmin {wd wa wb s} : exec (.ufmin wd wa wb) s = execUfmin wd wa wb s := rfl
theorem exec_ufmax {wd wa wb s} : exec (.ufmax wd wa wb) s = execUfmax wd wa wb s := rfl
theorem exec_ufcvt {wd wa src dst rnd s} : exec (.ufcvt wd wa src dst rnd) s = execUfcvt wd wa src dst rnd s := rfl
theorem exec_srd {wd num s} : exec (.srd wd num) s = execSrd wd num s := rfl
theorem exec_swr {wa num s} : exec (.swr wa num) s = execSwr wa num s := rfl
theorem exec_bcast {v w s} : exec (.bcast v w) s = execBcast v w s := rfl
theorem exec_rdfirst {v w s} : exec (.rdfirst v w) s = execRdfirst v w s := rfl
theorem exec_ballot {w pn half s} : exec (.ballot w pn half) s = execBallot w pn half s := rfl
theorem exec_vany {w pn s} : exec (.vany w pn) s = execVany w pn s := rfl
theorem exec_vall {w pn s} : exec (.vall w pn) s = execVall w pn s := rfl
theorem exec_vcnt {w pn s} : exec (.vcnt w pn) s = execVcnt w pn s := rfl
theorem exec_actm {w half s} : exec (.actm w half) s = execActm w half s := rfl
theorem exec_uldw {wd wa imm s} : exec (.uldw wd wa imm) s = execUldw wd wa imm s := rfl
theorem exec_uldd {wd wa imm s} : exec (.uldd wd wa imm) s = execUldd wd wa imm s := rfl
theorem exec_ustw {wd wa imm s} : exec (.ustw wd wa imm) s = execUstw wd wa imm s := rfl
theorem exec_ustd {wd wa imm s} : exec (.ustd wd wa imm) s = execUstd wd wa imm s := rfl
theorem exec_bra {disp s} : exec (.bra disp) s = execBra disp s := rfl
theorem exec_brd {pn disp s} : exec (.brd pn disp) s = execBrd pn disp s := rfl
theorem exec_brany {pn disp s} : exec (.brany pn disp) s = execBrany pn disp s := rfl
theorem exec_brall {pn disp s} : exec (.brall pn disp) s = execBrall pn disp s := rfl
theorem exec_bz {wa disp s} : exec (.bz wa disp) s = execBz wa disp s := rfl
theorem exec_bnz {wa disp s} : exec (.bnz wa disp) s = execBnz wa disp s := rfl
theorem exec_call {disp s} : exec (.call disp) s = execCall disp s := rfl
theorem exec_ret {wa s} : exec (.ret wa) s = execRet wa s := rfl
theorem exec_jset {disp s} : exec (.jset disp) s = execJset disp s := rfl
theorem exec_join {s} : exec (.join) s = execJoin s := rfl
theorem exec_exit {s} : exec (.exit) s = execExit s := rfl
theorem exec_nop {s} : exec (.nop) s = execNop s := rfl
theorem exec_bar {n s} : exec (.bar n) s = execBar n s := rfl
theorem exec_bara {n s} : exec (.bara n) s = execBara n s := rfl
theorem exec_barw {n s} : exec (.barw n) s = execBarw n s := rfl
theorem exec_barr {wd vs op n s} : exec (.barr wd vs op n) s = execBarr wd vs op n s := rfl
theorem exec_bars {vd vs op n s} : exec (.bars vd vs op n) s = execBars vd vs op n s := rfl
theorem exec_fence {ord scope s} : exec (.fence ord scope) s = execFence ord scope s := rfl
theorem exec_batch {wd s} : exec (.batch wd) s = execBatch wd s := rfl
theorem exec_waitb {wa s} : exec (.waitb wa) s = execWaitb wa s := rfl
theorem exec_testb {wd wa s} : exec (.testb wd wa) s = execTestb wd wa s := rfl
theorem exec_msend {ws wa wb ring s} : exec (.msend ws wa wb ring) s = execMsend ws wa wb ring s := rfl
theorem exec_mpoll {wd ws ring s} : exec (.mpoll wd ws ring) s = execMpoll wd ws ring s := rfl
theorem exec_mwait {wd ring s} : exec (.mwait wd ring) s = execMwait wd ring s := rfl
theorem exec_mpop {wd ring s} : exec (.mpop wd ring) s = execMpop wd ring s := rfl
theorem exec_mring {wa wb ring s} : exec (.mring wa wb ring) s = execMring wa wb ring s := rfl
theorem exec_cpy {wa s} : exec (.cpy wa) s = execCpy wa s := rfl
theorem exec_dcmp {wa s} : exec (.dcmp wa) s = execDcmp wa s := rfl
theorem exec_cpyq {wa wb s} : exec (.cpyq wa wb) s = execCpyq wa wb s := rfl
theorem exec_mma {an wa wb s} : exec (.mma an wa wb) s = execMma an wa wb s := rfl
theorem exec_mmaz {an wa wb s} : exec (.mmaz an wa wb) s = execMmaz an wa wb s := rfl
theorem exec_mmas {an wa wb s} : exec (.mmas an wa wb) s = execMmas an wa wb s := rfl
theorem exec_mmasz {an wa wb s} : exec (.mmasz an wa wb) s = execMmasz an wa wb s := rfl
theorem exec_accrd {an v wa s} : exec (.accrd an v wa) s = execAccrd an v wa s := rfl
theorem exec_accwr {an v wa s} : exec (.accwr an v wa) s = execAccwr an v wa s := rfl
theorem exec_accz {an s} : exec (.accz an) s = execAccz an s := rfl
theorem exec_accst {an wa s} : exec (.accst an wa) s = execAccst an wa s := rfl
theorem exec_wmark {an wa s} : exec (.wmark an wa) s = execWmark an wa s := rfl
theorem exec_xft {wa wb lb s} : exec (.xft wa wb lb) s = execXft wa wb lb s := rfl
theorem exec_ixft {an wb s} : exec (.ixft an wb) s = execIxft an wb s := rfl
theorem exec_ixftScratchpad {wa wb s} : exec (.ixftScratchpad wa wb) s = execIxftScratchpad wa wb s := rfl
theorem exec_xact {an wb f s} : exec (.xact an wb f) s = execXact an wb f s := rfl
theorem exec_xactBias {an wa wb f s} : exec (.xactBias an wa wb f) s = execXactBias an wa wb f s := rfl
theorem exec_dtag {wa wb s} : exec (.dtag wa wb) s = execDtag wa wb s := rfl
theorem exec_dtagTile {an wb s} : exec (.dtagTile an wb) s = execDtagTile an wb s := rfl
theorem exec_dset {wa wb s} : exec (.dset wa wb) s = execDset wa wb s := rfl
theorem exec_emset {wa m s} : exec (.emset wa m) s = execEmset wa m s := rfl
theorem exec_emgen {wa s} : exec (.emgen wa) s = execEmgen wa s := rfl
theorem exec_epost {wa wb e s} : exec (.epost wa wb e) s = execEpost wa wb e s := rfl
theorem exec_etake {wd ws e s} : exec (.etake wd ws e) s = execEtake wd ws e s := rfl
theorem exec_etest {wd e s} : exec (.etest wd e) s = execEtest wd e s := rfl
theorem exec_mbegin {wa g c h s} : exec (.mbegin wa g c h) s = execMbegin wa g c h s := rfl
theorem exec_mkey {v t s} : exec (.mkey v t) s = execMkey v t s := rfl
theorem exec_mkeyUniform {w s} : exec (.mkeyUniform w) s = execMkeyUniform w s := rfl
theorem exec_mkeyPredicate {pd s} : exec (.mkeyPredicate pd) s = execMkeyPredicate pd s := rfl
theorem exec_mxcl {v s} : exec (.mxcl v) s = execMxcl v s := rfl
theorem exec_mxclUniform {w s} : exec (.mxclUniform w) s = execMxclUniform w s := rfl
theorem exec_mxclPredicate {pd s} : exec (.mxclPredicate pd) s = execMxclPredicate pd s := rfl
theorem exec_mout {v s} : exec (.mout v) s = execMout v s := rfl
theorem exec_moutUniform {w s} : exec (.moutUniform w) s = execMoutUniform w s := rfl
theorem exec_moutPredicate {pd s} : exec (.moutPredicate pd) s = execMoutPredicate pd s := rfl
theorem exec_mlook {pn disp s} : exec (.mlook pn disp) s = execMlook pn disp s := rfl
theorem exec_mend {s} : exec (.mend) s = execMend s := rfl
theorem exec_minv {h s} : exec (.minv h) s = execMinv h s := rfl
theorem exec_mgen {wd h s} : exec (.mgen wd h) s = execMgen wd h s := rfl
theorem exec_mstat {wd k h s} : exec (.mstat wd k h) s = execMstat wd k h s := rfl
theorem exec_mkeyt {wa wb f s} : exec (.mkeyt wa wb f) s = execMkeyt wa wb f s := rfl
theorem exec_mdecl {wa wb t s} : exec (.mdecl wa wb t) s = execMdecl wa wb t s := rfl
theorem exec_memit {wa s} : exec (.memit wa) s = execMemit wa s := rfl
theorem exec_fout {v w f m s} : exec (.fout v w f m) s = execFout v w f m s := rfl
theorem exec_disc {pn s} : exec (.disc pn) s = execDisc pn s := rfl
theorem exec_regrp {vk n s} : exec (.regrp vk n) s = execRegrp vk n s := rfl
theorem exec_trap {code s} : exec (.trap code) s = execTrap code s := rfl
theorem exec_rte {s} : exec (.rte) s = execRte s := rfl
theorem exec_tsave {wa s} : exec (.tsave wa) s = execTsave wa s := rfl
theorem exec_trest {wa s} : exec (.trest wa) s = execTrest wa s := rfl
theorem exec_swpt {n s} : exec (.swpt n) s = execSwpt n s := rfl
theorem exec_rgrow {wd v s} : exec (.rgrow wd v) s = execRgrow wd v s := rfl
theorem exec_rgroww {wd v s} : exec (.rgroww wd v) s = execRgroww wd v s := rfl
theorem exec_space {wd wa s} : exec (.space wd wa) s = execSpace wd wa s := rfl
theorem exec_scast {wd wa s} : exec (.scast wd wa) s = execScast wd wa s := rfl
theorem exec_scastl {wd wa s} : exec (.scastl wd wa) s = execScastl wd wa s := rfl
theorem exec_cctlf {s} : exec (.cctlf) s = execCctlf s := rfl
theorem exec_cctli {wa wb s} : exec (.cctli wa wb) s = execCctli wa wb s := rfl
theorem exec_cctlw {s} : exec (.cctlw) s = execCctlw s := rfl
theorem exec_yieldIssue {s} : exec (.yieldIssue) s = execYieldIssue s := rfl
theorem exec_sleep {wa s} : exec (.sleep wa) s = execSleep wa s := rfl
theorem exec_tailWrite {region value s} : exec (.tailWrite region value) s = execTailWrite region value s := rfl
theorem exec_interruptStatus {ones s} : exec (.interruptStatus ones) s = execInterruptStatus ones s := rfl
theorem exec_registerWrite {offset value s} : exec (.registerWrite offset value) s = execRegisterWrite offset value s := rfl
theorem exec_nodeValidate {region s} : exec (.nodeValidate region) s = execNodeValidate region s := rfl
theorem exec_nodeFail {node s} : exec (.nodeFail node) s = execNodeFail node s := rfl
theorem exec_nodeReady {node s} : exec (.nodeReady node) s = execNodeReady node s := rfl
theorem exec_ensemblePlacement {node cores images privs s} : exec (.ensemblePlacement node cores images privs) s = execEnsemblePlacement node cores images privs s := rfl
theorem exec_placementHold {node s} : exec (.placementHold node) s = execPlacementHold node s := rfl
theorem exec_teamRetire {team s} : exec (.teamRetire team) s = execTeamRetire team s := rfl
theorem exec_tryGrant {core s} : exec (.tryGrant core) s = execTryGrant core s := rfl
theorem exec_growDeadlockSpill {core s} : exec (.growDeadlockSpill core) s = execGrowDeadlockSpill core s := rfl
theorem exec_variantSwitch {team image privs s} : exec (.variantSwitch team image privs) s = execVariantSwitch team image privs s := rfl
theorem exec_preemption {node ens s} : exec (.preemption node ens) s = execPreemption node ens s := rfl
theorem exec_contextSave {team s} : exec (.contextSave team) s = execContextSave team s := rfl
theorem exec_ensembleRestore {node ens cores s} : exec (.ensembleRestore node ens cores) s = execEnsembleRestore node ens cores s := rfl
theorem exec_faultQueueSpace {region s} : exec (.faultQueueSpace region) s = execFaultQueueSpace region s := rfl
theorem exec_faultDelivery {team group slot s} : exec (.faultDelivery team group slot) s = execFaultDelivery team group slot s := rfl
theorem exec_uncorrectableError {site s} : exec (.uncorrectableError site) s = execUncorrectableError site s := rfl
theorem exec_correctedError {region s} : exec (.correctedError region) s = execCorrectedError region s := rfl
theorem exec_securityAlarm {s} : exec (.securityAlarm) s = execSecurityAlarm s := rfl
theorem exec_reset {s} : exec (.reset) s = execReset s := rfl
theorem exec_governorSample {s} : exec (.governorSample) s = execGovernorSample s := rfl
theorem exec_creditRefill {region controller s} : exec (.creditRefill region controller) s = execCreditRefill region controller s := rfl
theorem exec_budgetPeriodStart {region s} : exec (.budgetPeriodStart region) s = execBudgetPeriodStart region s := rfl
theorem exec_scanoutLine {head scanning fc ln vt lp s} : exec (.scanoutLine head scanning fc ln vt lp) s = execScanoutLine head scanning fc ln vt lp s := rfl
theorem exec_engineSlotRelease {slot next s} : exec (.engineSlotRelease slot next) s = execEngineSlotRelease slot next s := rfl
theorem exec_pathSwitchCount {team group s} : exec (.pathSwitchCount team group) s = execPathSwitchCount team group s := rfl
theorem exec_groupAging {team group s} : exec (.groupAging team group) s = execGroupAging team group s := rfl
theorem exec_yieldHoldExpire {team group s} : exec (.yieldHoldExpire team group) s = execYieldHoldExpire team group s := rfl
theorem exec_sleepExpire {team group slot s} : exec (.sleepExpire team group slot) s = execSleepExpire team group slot s := rfl
theorem exec_sleepWake {team group slot s} : exec (.sleepWake team group slot) s = execSleepWake team group slot s := rfl
theorem exec_tableWalkComplete {team group slot s} : exec (.tableWalkComplete team group slot) s = execTableWalkComplete team group slot s := rfl
theorem exec_footprintWaitEnd {team group slot s} : exec (.footprintWaitEnd team group slot) s = execFootprintWaitEnd team group slot s := rfl
theorem exec_watermarkWaitEnd {team group slot s} : exec (.watermarkWaitEnd team group slot) s = execWatermarkWaitEnd team group slot s := rfl
theorem exec_engineQueueSpace {team group slot s} : exec (.engineQueueSpace team group slot) s = execEngineQueueSpace team group slot s := rfl
theorem exec_edgeSlotFree {team group slot s} : exec (.edgeSlotFree team group slot) s = execEdgeSlotFree team group slot s := rfl
theorem exec_edgeTokenArrive {team group slot s} : exec (.edgeTokenArrive team group slot) s = execEdgeTokenArrive team group slot s := rfl
theorem exec_ringSpace {team group slot s} : exec (.ringSpace team group slot) s = execRingSpace team group slot s := rfl
theorem exec_ringEntryArrive {team group slot s} : exec (.ringEntryArrive team group slot) s = execRingEntryArrive team group slot s := rfl
theorem exec_batchWaitEnd {team group slot s} : exec (.batchWaitEnd team group slot) s = execBatchWaitEnd team group slot s := rfl
theorem exec_copyChunk {core s} : exec (.copyChunk core) s = execCopyChunk core s := rfl
theorem exec_dcmpChunk {cluster s} : exec (.dcmpChunk cluster) s = execDcmpChunk cluster s := rfl
theorem exec_matrixOpStart {core s} : exec (.matrixOpStart core) s = execMatrixOpStart core s := rfl
theorem exec_matrixRowFinal {core s} : exec (.matrixRowFinal core) s = execMatrixRowFinal core s := rfl
theorem exec_transformOpComplete {core s} : exec (.transformOpComplete core) s = execTransformOpComplete core s := rfl
theorem exec_binningJob {cluster s} : exec (.binningJob cluster) s = execBinningJob cluster s := rfl
theorem exec_activate {node s} : exec (.activate node) s = execActivate node s := rfl
theorem exec_deactivate {node s} : exec (.deactivate node) s = execDeactivate node s := rfl
theorem exec_deactivateDone {node s} : exec (.deactivateDone node) s = execDeactivateDone node s := rfl
theorem exec_preEmpt {node s} : exec (.preEmpt node) s = execPreEmpt node s := rfl
theorem exec_kill {node s} : exec (.kill node) s = execKill node s := rfl
theorem exec_mapExecutable {node s} : exec (.mapExecutable node) s = execMapExecutable node s := rfl
theorem exec_unmapExecutable {node s} : exec (.unmapExecutable node) s = execUnmapExecutable node s := rfl
theorem exec_tlbInvalidate {node s} : exec (.tlbInvalidate node) s = execTlbInvalidate node s := rfl
theorem exec_faultResumeReplay {node s} : exec (.faultResumeReplay node) s = execFaultResumeReplay node s := rfl
theorem exec_faultResumeDeliver {node s} : exec (.faultResumeDeliver node) s = execFaultResumeDeliver node s := rfl
theorem exec_faultResumeKill {node s} : exec (.faultResumeKill node) s = execFaultResumeKill node s := rfl
theorem exec_memoSlotCreate {node s} : exec (.memoSlotCreate node) s = execMemoSlotCreate node s := rfl
theorem exec_memoSlotFree {node s} : exec (.memoSlotFree node) s = execMemoSlotFree node s := rfl
theorem exec_memoSlotFreeDone {node s} : exec (.memoSlotFreeDone node) s = execMemoSlotFreeDone node s := rfl
theorem exec_keyWrite {node s} : exec (.keyWrite node) s = execKeyWrite node s := rfl
theorem exec_powerLevel {node s} : exec (.powerLevel node) s = execPowerLevel node s := rfl
theorem exec_slotRelease {node s} : exec (.slotRelease node) s = execSlotRelease node s := rfl
theorem exec_budgetExhausted {region s} : exec (.budgetExhausted region) s = execBudgetExhausted region s := rfl
theorem exec_storesReachSystemCache {team group s} : exec (.storesReachSystemCache team group) s = execStoresReachSystemCache team group s := rfl
theorem exec_memoInstancesActed {team group slot s} : exec (.memoInstancesActed team group slot) s = execMemoInstancesActed team group slot s := rfl
theorem exec_hostCoreWrite {address bytes s} : exec (.hostCoreWrite address bytes) s = execHostCoreWrite address bytes s := rfl

end Sys2Proof.Machine
end

