-- ==== Sys2Proof/Laws/Commands.lean ====
section
/-!
SUPPORT. Sys2Proof/Laws/Commands.lean: what the frame of the command events comes to (R302), said once.
-/
namespace Sys2Proof.Machine

/-- A command whose turn it is runs its code's effect on the begun state. -/
theorem runCommand_turn {s : State} {node code : Nat} {pick : Node → Bool} {k : Node → State → CmdRes}
    (h : s.CommandReady node code) (hp : pick (s.nodeAt node) = true) :
    runCommand node code pick s k =
      match k (s.nodeAt node) (s.begun node) with
      | .done t bytes => .next (t.completeNode node bytes)
      | .refused t => .next (t.failNode node 0x0C)
      | .wait t => .next t := by
  unfold runCommand State.begun
  simp [h.1, h.2, hp] <;> rfl

/-- A command whose turn it is not changes nothing. -/
theorem runCommand_idle {s : State} {node code : Nat} {pick : Node → Bool} {k : Node → State → CmdRes}
    (h : s.commandTurn node = false) : runCommand node code pick s k = .next s := by
  unfold runCommand
  simp [h]

theorem ofRegion_active {n : Node} {u : State} {k : Nat → CmdRes}
    (h : n.opB.toNat < 256 ∧ (u.regionAt n.opB.toNat).active = true) : ofRegion n u k = k n.opB.toNat := by
  unfold ofRegion
  simp [h.1, h.2]

theorem ofRegion_inactive {n : Node} {u : State} {k : Nat → CmdRes}
    (h : ¬(n.opB.toNat < 256 ∧ (u.regionAt n.opB.toNat).active = true)) : ofRegion n u k = .refused u := by
  unfold ofRegion
  rw [if_neg (by simpa using h)]

end Sys2Proof.Machine
end

