-- ==== Sys2Proof/Laws/Memory.lean ====
section
/-!
SUPPORT. Sys2Proof/Laws/Memory.lean: every operation that writes memory keeps its canonical form, and so do the frames
that instructions stand in; the memory of the reset state has it.
-/
namespace Sys2Proof.Machine

/-- The state after reset lists no byte. -/
theorem State.wf_reset : Memory.wf State.reset.mem := rfl

/-- The form speaks of memory alone. -/
theorem State.wf_of_mem {s t : State} (h : Memory.wf s.mem) (e : t.mem = s.mem) : Memory.wf t.mem := by
  rw [e]
  exact h

theorem State.wf_foldl {α : Type} (f : State → α → State) (k : ∀ (s : State) (a : α), Memory.wf s.mem → Memory.wf (f s a).mem) (l : List α)
    {s : State} (h : Memory.wf s.mem) : Memory.wf (l.foldl f s).mem := by
  induction l generalizing s with
  | nil => exact h
  | cons a l ih => exact ih (k s a h)

/-! ## Writes of bytes -/

theorem State.wf_writeBytes {s : State} (h : Memory.wf s.mem) (a : Nat) (bs : List Byte) : Memory.wf (s.writeBytes a bs).mem := memWrite_wf h a bs
theorem State.wf_writePhys {s : State} (h : Memory.wf s.mem) (a n x : Nat) : Memory.wf (s.writePhys a n x).mem := State.wf_writeBytes h a _
theorem State.wf_writePart {s : State} (h : Memory.wf s.mem) (x : Writer) (a : Nat) (bs : List Byte) :
    Memory.wf (s.writePart x a bs).mem := by
  unfold State.writePart
  refine State.wf_foldl _ (fun u w hu => ?_) _ (State.wf_writeBytes h a bs)
  unfold State.partWritten
  dsimp only
  split
  · exact hu
  · split <;> exact hu
theorem State.wf_zeroPhys {s : State} (h : Memory.wf s.mem) (a n : Nat) : Memory.wf (s.zeroPhys a n).mem := mapClear_wf 0 a n h

theorem State.wf_writeFree {s : State} (h : Memory.wf s.mem) (a n : Nat) : Memory.wf (s.writeFree a n).mem := by
  induction n generalizing s a with
  | zero => exact h
  | succ n ih => exact ih (State.wf_writePhys (s := s.free.2) (State.wf_of_mem h rfl) a 8 _) _

/-! ## Parts of the state beside memory -/

theorem State.wf_setTeam {s : State} (h : Memory.wf s.mem) (t : Nat) (x : Team) : Memory.wf (s.setTeam t x).mem := h
theorem State.wf_setNode {s : State} (h : Memory.wf s.mem) (n : Nat) (x : Node) : Memory.wf (s.setNode n x).mem := h
theorem State.wf_setRegion {s : State} (h : Memory.wf s.mem) (r : Nat) (x : Region) : Memory.wf (s.setRegion r x).mem := h
theorem State.wf_setCore {s : State} (h : Memory.wf s.mem) (c : Nat) (x : CoreUnit) : Memory.wf (s.setCore c x).mem := h
theorem State.wf_setCluster {s : State} (h : Memory.wf s.mem) (c : Nat) (x : ClusterUnit) : Memory.wf (s.setCluster c x).mem := h
theorem State.wf_putTeam {s : State} (h : Memory.wf s.mem) (x : Team) : Memory.wf (s.putTeam x).mem := h
theorem State.wf_putGroup {s : State} (h : Memory.wf s.mem) (g : Group) : Memory.wf (s.putGroup g).mem := h
theorem State.wf_putPath {s : State} (h : Memory.wf s.mem) (p : Path) : Memory.wf (s.putPath p).mem := h
theorem State.wf_interrupt {s : State} (h : Memory.wf s.mem) (b : Nat) : Memory.wf (s.interrupt b).mem := h
theorem State.wf_free {s : State} (h : Memory.wf s.mem) : Memory.wf s.free.2.mem := h

theorem State.wf_at {s : State} (h : Memory.wf s.mem) (f : Focus) (k : State → State) (kk : ∀ u : State, Memory.wf u.mem → Memory.wf (k u).mem) :
    Memory.wf (s.at f k).mem := kk { s with focus := f } h

theorem State.wf_zeroDests {s : State} (h : Memory.wf s.mem) (sh : Shape) (m : LaneMask) : Memory.wf (s.zeroDests sh m).mem := by
  unfold State.zeroDests
  split <;> exact h

/-! ## What writes of parts and freed cores leave -/

/-- A write for a store or a job writes its bytes; beside them it changes what it clears of poison alone (R291). -/
theorem State.writePart_eq (s : State) (x : Writer) (a : Nat) (bs : List Byte) :
    ∃ p q, s.writePart x a bs = { s.writeBytes a bs with poison := p, poisonParts := q } := by
  unfold State.writePart
  dsimp only
  generalize s.writeBytes a bs = t
  suffices ∀ (l : List Nat) (u : State), (∃ p q, u = { t with poison := p, poisonParts := q }) →
      ∃ p q, l.foldl (fun v w => v.partWritten x a bs.length w) u = { t with poison := p, poisonParts := q } from
    this _ _ ⟨_, _, rfl⟩
  intro l
  induction l with
  | nil => exact fun _ h => h
  | cons w l ih =>
    rintro u ⟨p, q, rfl⟩
    refine ih _ ?_
    unfold State.partWritten
    dsimp only
    split
    · exact ⟨p, q, rfl⟩
    · split <;> exact ⟨_, _, rfl⟩

/-- Resources that come free change what the nodes hold and the events due, and nothing else (R60, R80). -/
theorem State.freed_eq (s : State) (c : Nat) :
    s.freed c = { s with nodes := s.nodes.map fun n => n.heldCore c, agenda := (s.freed c).agenda } := by
  unfold State.freed State.retryGrants State.due
  dsimp only
  split
  · split <;> rfl
  · rfl

/-! ## Faults and traps -/

theorem State.wf_stageOut {s : State} (h : Memory.wf s.mem) (t : Nat) : Memory.wf (s.stageOut t).mem :=
  State.wf_writeBytes (State.wf_writeBytes h _ _) _ _

theorem State.wf_domainRecord {s : State} (h : Memory.wf s.mem) (d : Nat) (k : Bool) (e : DomainEvent) :
    Memory.wf (s.domainRecord d k e).mem := by
  unfold State.domainRecord
  exact State.wf_interrupt (State.wf_writeBytes h _ _) 4

theorem State.wf_retryGrants {s : State} (h : Memory.wf s.mem) (c : Nat) : Memory.wf (s.retryGrants c).mem := by
  unfold State.retryGrants State.due
  split
  · split <;> exact h
  · exact h

theorem State.wf_freed {s : State} (h : Memory.wf s.mem) (c : Nat) : Memory.wf (s.freed c).mem := by
  unfold State.freed
  refine State.wf_retryGrants ?_ c
  exact h

theorem State.wf_killTeam {s : State} (h : Memory.wf s.mem) (t : Nat) : Memory.wf (s.killTeam t).mem := h

theorem State.wf_stopTeam {s : State} (h : Memory.wf s.mem) (t : Nat) : Memory.wf (s.stopTeam t).mem := by
  unfold State.stopTeam
  have k := State.wf_killTeam h t
  dsimp only
  split
  · split
    · exact State.wf_freed k _
    · exact k
  · exact h

theorem State.wf_doubleFault {s : State} (h : Memory.wf s.mem) (t g c : Nat) (a b : BitVec 64) : Memory.wf (s.doubleFault t g c a b).mem :=
  State.wf_domainRecord (State.wf_stopTeam h t) _ _ _

theorem State.wf_appendRecord {s : State} (h : Memory.wf s.mem) (r : Nat) (f : FaultRecord) : Memory.wf (s.appendRecord r f).mem :=
  State.wf_writePhys (State.wf_of_mem (State.wf_writeBytes h _ _) rfl) _ _ _

theorem State.wf_recordOrWait {s : State} (h : Memory.wf s.mem) (r : Nat) (f : FaultRecord) : Memory.wf (s.recordOrWait r f).mem := by
  unfold State.recordOrWait
  dsimp only
  split
  · exact State.wf_appendRecord h r f
  · exact h

/-- Taking a trap writes its frame and nothing else of memory, or the record of a double fault. -/
theorem State.wf_takeTrap {s : State} (h : Memory.wf s.mem) (i : TrapInfo) : Memory.wf (s.takeTrap i).mem := by
  unfold State.takeTrap
  dsimp only
  split
  · dsimp only
    exact State.wf_doubleFault h _ _ _ _ _
  · have frame := fun a => State.wf_writePhys (State.wf_zeroPhys (State.wf_zeroPhys h s.group.record.toNat 0x800)
      (s.group.record.toNat + 0x3000) 0x1000) s.group.record.toNat 128 a
    dsimp only [State.putGroup, State.setGroup, State.setTeam]
    split
    · refine State.wf_writeFree ?_ _ _
      split
      · exact State.wf_writeFree (frame _) _ _
      · exact frame _
    · split
      · exact State.wf_writeFree (frame _) _ _
      · exact frame _

theorem State.wf_ite_appendRecord {s : State} (h : Memory.wf s.mem) (b : Prop) [Decidable b] (r : Nat) (f : FaultRecord) :
    Memory.wf (if b then s.appendRecord r f else s).mem := by
  split
  · exact State.wf_appendRecord h r f
  · exact h

theorem State.wf_routeFault {s : State} (h : Memory.wf s.mem) (i : TrapInfo) (replay : Bool) : Memory.wf (s.routeFault i replay).mem := by
  unfold State.routeFault
  dsimp only
  refine @State.wf_ite_appendRecord _ ?_ _ _ _ _
  exact h

theorem State.wf_trapNow {s : State} (h : Memory.wf s.mem) (i : TrapInfo) (replay : Bool) :
    Memory.wf (s.trapNow i replay).mem := by
  unfold State.trapNow
  have k : Memory.wf (if i.cause = 0x08 then s.putPath s.path.closeRegion else s).mem := by split <;> exact h
  generalize (if i.cause = 0x08 then s.putPath s.path.closeRegion else s) = u at k
  dsimp only
  split
  · dsimp only
    exact State.wf_doubleFault k _ _ _ _ _
  · split
    · exact State.wf_routeFault k i replay
    · exact State.wf_takeTrap k i

theorem State.wf_countIssue {s : State} (h : Memory.wf s.mem) : Memory.wf s.countIssue.mem := h

theorem State.wf_raiseTrap {s : State} (h : Memory.wf s.mem) (i : TrapInfo) (replay : Bool) :
    Memory.wf (s.raiseTrap i replay).mem := State.wf_trapNow (State.wf_countIssue h) i replay

/-! ## The frames of instructions -/

theorem State.wf_proceed {s : State} (h : Memory.wf s.mem) (pc : BitVec 64) : Memory.wf (s.proceed pc).mem := by
  unfold State.proceed
  dsimp only
  split
  · refine State.wf_trapNow ?_ _ _
    exact h
  · exact h

theorem State.wf_complete {s : State} (h : Memory.wf s.mem) (pc : BitVec 64) : Memory.wf (s.complete pc).mem :=
  State.wf_proceed (State.wf_countIssue h) pc

theorem State.wf_noteWrites {s : State} (h : Memory.wf s.mem) (sh : Shape) : Memory.wf (s.noteWrites sh).mem := by
  unfold State.noteWrites
  split <;> exact h

/-- An effect whose state keeps the form. -/
def Res.Keeps : Res → Prop
  | .next t => Memory.wf t.mem
  | .goto t _ => Memory.wf t.mem
  | .moved t => Memory.wf t.mem
  | .wait t _ => Memory.wf t.mem
  | .trap _ _ _ _ => True
  | .nextTrap t _ _ => Memory.wf t.mem

theorem State.wf_settle {s : State} (h : Memory.wf s.mem) (sh : Shape) (w : Nat) {r : Res} (k : r.Keeps) : Memory.wf (s.settle sh w r).mem := by
  cases r with
  | next t => exact State.wf_complete (State.wf_noteWrites k sh) _
  | goto t pc => exact State.wf_complete (State.wf_noteWrites k sh) _
  | moved t => exact k
  | wait t x => exact k
  | trap c a i m => exact State.wf_raiseTrap h _ _
  | nextTrap t c i =>
    refine State.wf_raiseTrap ?_ _ _
    exact k

theorem State.wf_guarded {s : State} (h : Memory.wf s.mem) (sh : Shape) (w : Nat) {eff : State → Res} (k : (eff s).Keeps) :
    Memory.wf (s.guarded sh w eff).mem := by
  unfold State.guarded
  split
  · dsimp only
    exact State.wf_doubleFault h _ _ _ _ _
  · split
    · exact State.wf_settle h sh w trivial
    · exact State.wf_settle h sh w k

/-- A group-space instruction whose effect keeps the form keeps it. -/
theorem groupInstr_wf {s t : State} {sh : Shape} {w : Nat} {eff : State → Res} (h : Memory.wf s.mem) (k : (eff s).Keeps)
    (e : groupInstr sh w s eff = .next t) : Memory.wf t.mem := by
  unfold groupInstr at e
  split at e
  · cases e
    exact State.wf_guarded h sh w k
  · cases e

/-- A lane-space instruction whose effect keeps the form keeps it. -/
theorem laneInstr_wf {s t : State} {sh : Shape} {b : Hold} {eff : State → Res} (h : Memory.wf s.mem)
    (k : ∀ u : State, Memory.wf u.mem → (eff u).Keeps) (e : laneInstr sh b s eff = .next t) : Memory.wf t.mem := by
  unfold laneInstr at e
  dsimp only at e
  split at e
  · split at e
    · cases e
      exact State.wf_guarded h _ 1 (State.wf_zeroDests (s := s.latch b) h _ _)
    · cases e
      refine State.wf_guarded h _ 1 ?_
      have q := k (s.latch b) h
      cases r : eff (s.latch b) with
      | next u =>
        rw [r] at q
        exact State.wf_zeroDests q _ _
      | goto _ _ => rw [r] at q; exact q
      | moved _ => rw [r] at q; exact q
      | wait _ _ => rw [r] at q; exact q
      | trap _ _ _ _ => trivial
      | nextTrap _ _ _ => rw [r] at q; exact q
  · cases e

/-! ## Translation and stores -/

theorem State.wf_setPteBits {s : State} (h : Memory.wf s.mem) (p b : Nat) : Memory.wf (s.setPteBits p b).mem := by
  unfold State.setPteBits
  dsimp only
  split
  · exact h
  · exact State.wf_writePhys h _ _ _

theorem State.wf_markDirty {s : State} (h : Memory.wf s.mem) (e : TlbEntry) : Memory.wf (s.markDirty e).mem := State.wf_setPteBits h _ _

theorem State.wf_tlbLoad {s : State} (h : Memory.wf s.mem) (c : Nat) (e : TlbEntry) : Memory.wf (s.tlbLoad c e).mem := by
  unfold State.tlbLoad
  have k := State.wf_setPteBits h e.pte 0x20
  dsimp only
  split <;> exact k

theorem State.wf_tlbFill {s : State} (h : Memory.wf s.mem) (c root va : Nat) : Memory.wf (s.tlbFill c root va).mem := by
  unfold State.tlbFill
  split
  · exact h
  · split
    · exact State.wf_tlbLoad h c _
    · exact h

theorem State.wf_walkPages {s t : State} (h : Memory.wf s.mem) (pages : List Nat) (e : s.walkPages pages = .ok t) : Memory.wf t.mem := by
  unfold State.walkPages at e
  dsimp only at e
  split at e
  · cases e
  · cases e
    exact State.wf_foldl _ (fun u p hu => State.wf_tlbFill hu _ _ _) _ h

theorem State.wf_writeMapped {s : State} (h : Memory.wf s.mem) (root va : Nat) (bs : List Byte) :
    Memory.wf (s.writeMapped root va bs).mem := by
  refine State.wf_foldl _ (fun u p hu => ?_) _ h
  split
  · exact State.wf_writeBytes (State.wf_markDirty hu _) _ _
  · exact hu

theorem State.wf_deviceWrite {s t : State} (h : Memory.wf s.mem) (root va : Nat) (bs : List Byte)
    (e : s.deviceWrite root va bs = .ok t) : Memory.wf t.mem := by
  unfold State.deviceWrite at e
  split at e
  · cases e
  · cases e
    exact State.wf_writeMapped h root va bs

theorem State.wf_land {s : State} (h : Memory.wf s.mem) (p : PendingStore) : Memory.wf (s.land p).mem := by
  unfold State.land
  split
  · exact h
  · exact State.wf_writePart h _ _ _

theorem State.wf_drainCore {s : State} (h : Memory.wf s.mem) (c : Nat) : Memory.wf (s.drainCore c).mem :=
  State.wf_foldl _ (fun _ p hu => State.wf_land hu p) _ (State.wf_setCore h _ _)

theorem State.wf_drainAll {s : State} (h : Memory.wf s.mem) : Memory.wf s.drainAll.mem :=
  State.wf_foldl _ (fun _ c hu => State.wf_drainCore hu c) _ h

theorem State.wf_l1Allocate {s : State} (h : Memory.wf s.mem) (c n : Nat) : Memory.wf (s.l1Allocate c n).mem := by
  unfold State.l1Allocate
  dsimp only
  split <;> exact h

theorem State.wf_allocPieces {s : State} (h : Memory.wf s.mem) (ps : List (Nat × Nat)) : Memory.wf (s.allocPieces ps).mem := by
  exact State.wf_foldl _ (fun u p hu => State.wf_l1Allocate hu _ _) _ h

theorem State.wf_storePieces {s : State} (h : Memory.wf s.mem) (ps : List (Nat × Nat)) (bs : List Byte) :
    Memory.wf (s.storePieces ps bs).mem := by
  induction ps generalizing s bs with
  | nil => exact h
  | cons p ps ih =>
    refine ih (State.wf_foldl _ (fun u k hu => ?_) _ h) _
    dsimp only
    split
    · exact State.wf_markDirty hu _
    · exact hu

theorem State.wf_storePlace {s : State} (h : Memory.wf s.mem) (p : Place) (bs : List Byte) : Memory.wf (s.storePlace p bs).mem := by
  cases p with
  | global ps => exact State.wf_storePieces h ps bs
  | pad t o => exact h
  | gone => exact h

theorem State.wf_orderAcquire {s : State} (h : Memory.wf s.mem) (o : Nat) (c : BitVec 3) : Memory.wf (s.orderAcquire o c).mem := by
  unfold State.orderAcquire
  split <;> exact h

theorem State.wf_ordered {s : State} (h : Memory.wf s.mem) (o : Nat) (c : BitVec 3) : Memory.wf (s.ordered o c).mem := by
  unfold State.ordered State.orderRelease
  refine State.wf_orderAcquire ?_ o c
  split
  · exact State.wf_drainCore h _
  · exact h

/-- The frame of lane memory instructions keeps the form where what runs after its checks does. -/
theorem laneAccess_wf {s : State} (x : LaneAccess) (o : Nat) (c : BitVec 3) (k : State → List Access → Res) (h : Memory.wf s.mem)
    (hk : ∀ (u : State) (as : List Access), Memory.wf u.mem → (k u as).Keeps) : (laneAccess x o c s k).Keeps := by
  unfold laneAccess
  dsimp only
  split
  · exact h
  · next u e =>
    have hu := State.wf_walkPages h _ e
    split
    · trivial
    · split
      · exact hu
      · split
        · exact hu
        · split
          · exact hu
          · split
            · trivial
            · exact hk _ _ (State.wf_ordered hu o c)

/-! ## Divergence stacks -/

theorem State.wf_dsWrite {s : State} (h : Memory.wf s.mem) (i : Nat) (e : DsEntry) : Memory.wf (s.dsWrite i e).mem :=
  State.wf_writePhys h _ _ _
theorem State.wf_setDocc {s : State} (h : Memory.wf s.mem) (d : BitVec 32) : Memory.wf (s.setDocc d).mem := h
theorem State.wf_setSlot {s : State} (h : Memory.wf s.mem) (b : Bool) (p : Option Path) : Memory.wf (s.setSlot b p).mem := h

theorem State.wf_dsFree {s : State} (h : Memory.wf s.mem) (i : Nat) : Memory.wf (s.dsFree i).mem := by
  unfold State.dsFree
  exact State.wf_setDocc (State.wf_dsWrite h i _) _

theorem State.wf_dsPush {s : State} (h : Memory.wf s.mem) (i : Nat) (e : DsEntry) : Memory.wf (s.dsPush i e).mem := by
  unfold State.dsPush
  exact State.wf_setDocc (State.wf_dsWrite h i e) _

theorem State.wf_refill {s : State} (h : Memory.wf s.mem) (b : Bool) : Memory.wf (s.refill b).mem := by
  unfold State.refill
  split
  · exact h
  · split
    · exact h
    · dsimp only
      exact State.wf_setSlot (State.wf_dsFree h _) _ _

theorem State.wf_completeFrame {s : State} (h : Memory.wf s.mem) (b : Bool) (f : BitVec 5) (n : Nat) :
    Memory.wf (s.completeFrame b f n).mem := by
  induction n generalizing s f with
  | zero => exact h
  | succ n ih =>
    unfold State.completeFrame
    dsimp only
    split
    · exact h
    · split
      · exact State.wf_dsFree (State.wf_setSlot h _ _) _
      · split
        · exact State.wf_dsFree h _
        · exact ih (State.wf_dsWrite (State.wf_dsFree h _) _ _) _

theorem State.wf_endPath {s : State} (h : Memory.wf s.mem) : Memory.wf s.endPath.mem := by
  unfold State.endPath
  dsimp only
  refine State.wf_putGroup (State.wf_refill ?_ _) _
  split
  · exact State.wf_completeFrame (State.wf_dsWrite (State.wf_setSlot h _ _) _ _) _ _ _
  · exact State.wf_setSlot h _ _

theorem State.wf_dropLanes {s : State} (h : Memory.wf s.mem) (m : LaneMask) (f : BitVec 5) (v : Bool) (n : Nat) :
    Memory.wf (s.dropLanes m f v n).mem := by
  induction n generalizing s f v with
  | zero => exact h
  | succ n ih =>
    unfold State.dropLanes
    split
    · exact h
    · exact ih (State.wf_dsWrite h _ _) _ _

/-- A path's split writes one frame's count and one deferred path at most. -/
theorem State.wf_splitPath {s : State} (h : Memory.wf s.mem) (a b : LaneMask) (pc : BitVec 64) :
    Memory.wf (s.splitPath a b pc).mem := by
  unfold State.splitPath
  dsimp only
  by_cases hf : s.path.fv = true
  · have k := fun e => State.wf_dsWrite h s.path.fi.toNat e
    simp only [if_pos hf]
    split
    · exact State.wf_setSlot (State.wf_putPath (k _) _) _ _
    · split
      · exact State.wf_putPath (k _) _
      · exact State.wf_dsPush (State.wf_putPath (k _) _) _ _
  · simp only [if_neg hf]
    split
    · exact State.wf_setSlot (State.wf_putPath h _) _ _
    · split
      · exact State.wf_putPath h _
      · exact State.wf_dsPush (State.wf_putPath h _) _ _

theorem State.wf_openFrame {s : State} (h : Memory.wf s.mem) (i : Nat) (j : BitVec 64) : Memory.wf (s.openFrame i j).mem := by
  unfold State.openFrame
  exact State.wf_putPath (State.wf_dsPush h i _) _

end Sys2Proof.Machine
end

