-- ==== Sys2Proof/Laws/Step.lean ====
section
/-!
SUPPORT. Sys2Proof/Laws/Step.lean: what a step does when a path has the turn, and what its fetch comes to.
-/
namespace Sys2Proof.Machine

theorem State.turn_pathTurn {s u : State} {f : Focus} (h : s.PathTurn f u) :
    s.turn = match u.fetch with
      | .stop t => .stop t
      | .run i t => .issue i t
      | .pair p i t => .issuePair p i t := by
  obtain ⟨ha, ht, he, hc, rfl⟩ := h
  have ev : (if s.eventTurn = true then ({ s with ticks := s.ticks + 1 } : State).nextDue else none) = none := by
    split
    · next h => exact Option.map_eq_none_iff.mp (he h)
    · rfl
  have hs : s.agenda = [] := ha
  obtain ⟨⟩ := s
  simp only at hs
  subst hs
  unfold State.turn
  simp only
  simp only at ev ht
  rw [ht]
  simp only
  rw [ev]
  simp only
  rw [hc]
  rfl

/-- A step whose turn is a path's does what the path's fetch comes to. -/
theorem step_of_pathTurn {s u : State} {f : Focus} (h : s.PathTurn f u) :
    step s = match u.fetch with
      | .stop t => .next t
      | .run i t => exec i t
      | .pair p i t => match exec p t with
        | .next t => exec i t
        | .fault r => .fault r
        | .refused r => .refused r := by
  unfold step
  rw [s.turn_pathTurn h]
  cases u.fetch <;> rfl

/-- Where the words stand in a passed unit, the fetch goes on there. -/
theorem State.fetch_of_fetches {u v : State} {a : Nat} {p : PassedUnit} (h : u.Fetches a p v) : u.fetch = v.fetchIn p a := by
  obtain ⟨hp, ⟨e, ht, rfl⟩, hu, rfl⟩ := h
  unfold State.fetch
  simp only [ht, hu]
  rw [if_neg (by simpa using hp)]

end Sys2Proof.Machine
end

