-- ==== Sys2Proof/Tests/Slice0.lean ====
section
/-!
SUPPORT. Sys2Proof/Tests/Slice0.lean: the author's own tests. Words and results come from the worked examples and tables of
spec/, named beside each test; a witness theorem shows that the hypotheses of a statement can be met.
-/
namespace Sys2Proof.Tests
set_option Elab.async false
open Sys2Proof.Machine

/-! ## Small states -/

/-- A group whose path of the given lanes stands at 0x10000: registers as (register, lane, value) and (register, value). -/
def grp (mask : LaneMask) (v : List (Nat × Nat × Nat)) (w : List (Nat × Nat)) : Group :=
  { path0 := some { pc := 0x10000, mask := mask }, live := mask, record := 0x400000, dsbase := 0x40FC00
    vregs := v.foldl (fun r x => mapSet 0 r (64 * x.1 + x.2.1) (BitVec.ofNat 32 x.2.2)) []
    wregs := w.foldl (fun r x => mapSet 0 r x.1 (BitVec.ofNat 64 x.2)) [] }

/-- A machine with one team of the given groups, with the largest budgets, in region 0. -/
def machine (gs : List Group) : State :=
  { teams := [{ tag := 1, groups := gs, image := 0x3F0000, imageSize := 0x20000 }]
    nodes := [{ state := .running, image := { variants := [(0, some
      { regs := 128, uregs := 64, groups := gs.length, acc := 16, scratch := 65536 })] }, addr := 0x300000 }]
    regions := [(0, { active := true, root := 0x100000, tvec := 0x20000, rcb := 0x8000 })] }

/-- One group. -/
def box (mask : LaneMask) (v : List (Nat × Nat × Nat)) (w : List (Nat × Nat)) : State := machine [grp mask v w]

/-- One group in the handler of a trap. -/
def handler (mask : LaneMask) (w : List (Nat × Nat)) : State :=
  machine [{ grp mask [] [] with
    trap := some { slot := false, path0 := none, path1 := none, cur := false, docc := 0, dsbase := 0, block := 0 }
    shadowW := w.foldl (fun r x => mapSet 0 r x.1 (BitVec.ofNat 64 x.2)) [] }]

/-- The state after an instruction. -/
def after (i : Instr) (s : State) : State :=
  match exec i s with
  | .next t => t
  | _ => s

/-- The state after the instructions of words, each a step or the prefix of the next. -/
def ran : List (BitVec 32) → State → State
  | [], s => s
  | w :: ws, s =>
    match decodeWord w 0 with
    | .ok i => ran ws (after i s)
    | .error _ => s

/-! ## Lane-space arithmetic -/

/-- R350's example. -/
theorem test_iabsd : (ran [0x021C1038] (box 1 [(2, 0, 5), (3, 0, 0xFFFFFFFE)] [])).vreg 7 0 = 0xFFFFFFF9 := by
  decide +kernel

/-- R348: IADDI of -1 wraps below zero. -/
theorem test_iaddi_wraps : (ran [0x140C1FFE] (box 1 [(3, 0, 0)] [])).vreg 3 0 = 0xFFFFFFFF := by decide +kernel

/-- R352: IMULHS gives 0 and IMULHU 0xFFFFFFFE on all ones. -/
theorem test_imul_high :
    (after (.imulhs 4 2 3 false false) (box 1 [(2, 0, 0xFFFFFFFF), (3, 0, 0xFFFFFFFF)] [])).vreg 4 0 = 0 ∧
    (after (.imulhu 4 2 3 false false) (box 1 [(2, 0, 0xFFFFFFFF), (3, 0, 0xFFFFFFFF)] [])).vreg 4 0 = 0xFFFFFFFE := by
  decide +kernel

/-- R352's pair: IMAD takes v20 of the prefix. -/
theorem test_imad : (ran [0xFE000A00, 0x0420103C] (box 1 [(2, 0, 3), (3, 0, 5), (20, 0, 7)] [])).vreg 8 0 = 22 := by
  decide +kernel

/-- R347's MADW example: the product carries into the high register. -/
theorem test_madw :
    let t := ran [0x1210082C] (box 1 [(4, 0, 0xFFFFFFFF), (1, 0, 0xFFFFFFFF), (2, 0, 0xFFFFFFFF)] [])
    t.vreg 4 0 = 0 ∧ t.vreg 5 0 = 0xFFFFFFFF := by decide +kernel

/-- R347: IADD64 carries, ISUB64 borrows. -/
theorem test_pairs_carry :
    (ran [0x12103080] (box 1 [(6, 0, 0xFFFFFFFF), (8, 0, 1)] [])).vreg 5 0 = 1 ∧
    (ran [0x12103084] (box 1 [(8, 0, 1)] [])).vreg 5 0 = 0xFFFFFFFF := by decide +kernel

/-- R385's BFX example, signed and unsigned. -/
theorem test_bfx :
    (ran [0xFE000400, 0x0A14307C] (box 1 [(6, 0, 0xF0A0), (7, 0, 8), (8, 0, 0x108)] [])).vreg 5 0 = 0xFFFFFFF0 ∧
    (ran [0xFE000400, 0x0A14307C] (box 1 [(6, 0, 0xF0A0), (7, 0, 8), (8, 0, 0x008)] [])).vreg 5 0 = 0xF0 := by
  decide +kernel

/-- R398: only bits 4 to 0 of a count; SAR copies bit 31, ROTL by 0 keeps the word. -/
theorem test_shifts :
    let s := box 1 [(3, 0, 0x80000001), (4, 0, 33)] []
    (ran [0x08081840] s).vreg 2 0 = 2 ∧ (ran [0x08081844] s).vreg 2 0 = 0x40000000 ∧
    (ran [0x08081848] s).vreg 2 0 = 0xC0000000 ∧ (ran [0x0808184C] s).vreg 2 0 = 3 ∧
    (ran [0x0808184C] (box 1 [(3, 0, 5)] [])).vreg 2 0 = 5 := by decide +kernel

/-- R310: ANDN complements its second source; R356 and R377: LANEID and MOVI. -/
theorem test_logic_moves :
    (ran [0x0614307C] (box 1 [(6, 0, 0xF0), (7, 0, 0x30)] [])).vreg 5 0 = 0xC0 ∧
    (ran [0x3E140000] (box 4 [] [])).vreg 5 2 = 2 ∧ (ran [0x221007FE] (box 1 [] [])).vreg 4 0 = 0xFFFFFFFF := by
  decide +kernel

/-- R385: CLZ of zero is 32, BREV mirrors, POPC counts. -/
theorem test_bit_counts :
    (ran [0x0A0C2004] (box 1 [] [])).vreg 3 0 = 32 ∧ (ran [0x0A0C2008] (box 1 [(4, 0, 1)] [])).vreg 3 0 = 0x80000000 ∧
    (ran [0x0A0C2000] (box 1 [(4, 0, 0xF0F)] [])).vreg 3 0 = 8 := by decide +kernel

/-- R349: signed and unsigned relations differ on a sign bit; only active lanes of the predicate change. -/
theorem test_compares :
    let s := box 3 [(1, 0, 0x80000000), (2, 0, 1), (1, 1, 1), (2, 1, 1)] []
    (ran [0x0C040828] s).pred 1 = 1 ∧ (ran [0x0E040820] s).pred 1 = 0 ∧ (ran [0x0C04082C] s).pred 1 = 3 ∧
    (ran [0x0E040824] s).pred 1 = 2 ∧ (ran [0x0C0C0820] s).pred 3 = 2 := by decide +kernel

/-- R9, R108: a guarded-off lane keeps its register, or takes zero under zm. -/
theorem test_guard :
    let s := machine [{ grp 3 [(6, 0, 1), (7, 0, 1), (6, 1, 1), (7, 1, 1), (5, 0, 9), (5, 1, 9)] [] with preds := [(1, 1)] }]
    (after (.and 5 6 7 false false) { s with pending := some { pm := 1 } }).vreg 5 0 = 1 ∧
    (after (.and 5 6 7 false false) { s with pending := some { pm := 1 } }).vreg 5 1 = 9 ∧
    (after (.and 5 6 7 false false) { s with pending := some { pm := 1, zm := true } }).vreg 5 1 = 0 ∧
    (after (.and 5 6 7 false false) { s with pending := some { pm := 1, pinv := true } }).vreg 5 0 = 9 := by decide +kernel

/-- R55: a register beyond the variant's budget reads zero and discards writes. -/
theorem test_budget :
    let s := { box 1 [(2, 0, 5)] [] with
      nodes := [{ state := .running, image := { variants := [(0, some { regs := 4, uregs := 8, groups := 1 })] } }] }
    (after (.vmov 4 2 false) s).vreg 4 0 = 0 ∧ (after (.vmov 3 2 false) s).vreg 3 0 = 5 := by decide +kernel

/-! ## Floating point -/

/-- Table 19.5: the fused form rounds once; FMUL then FADD rounds twice, and FMUL is inexact. -/
theorem test_ffma_fused :
    let s := box 1 [(4, 0, 0x3F800800), (5, 0, 0x3F800800), (7, 0, 0xBF800000), (9, 0, 0xBF800000)] []
    (ran [0x2424205C] s).vreg 9 0 = 0x3A000400 ∧ (ran [0x2424205C] s).group.flags = 0 := by decide +kernel
theorem test_fmul_fadd_separate :
    let s := box 1 [(4, 0, 0x3F800800), (5, 0, 0x3F800800), (7, 0, 0xBF800000)] []
    let t := ran [0x24182058] s
    t.group.flags ≠ 0 ∧ (after (.fadd 6 6 7 false false) t).vreg 6 0 = 0x3A000000 := by decide +kernel

/-- R343: FMAX of -0 and +0 is +0; of a signalling NaN and a number it is the number, and invalid is set. -/
theorem test_fmax :
    (ran [0x26081844] (box 1 [(3, 0, 0x80000000)] [])).vreg 2 0 = 0 ∧
    (let t := ran [0x26081844] (box 1 [(3, 0, 0x7F800001), (4, 0, 0x40000000)] [])
     t.vreg 2 0 = 0x40000000 ∧ t.group.flags = 1) := by decide +kernel

/-- R345's HADDP example, rounded to nearest and toward zero. -/
theorem test_haddp :
    let s := box 1 [(2, 0, 0x7BFF3C00), (3, 0, 0x7BFF1400)] []
    (ran [0x2A201030] s).vreg 8 0 = 0x7C003C01 ∧ (ran [0xFE040000, 0x2A201030] s).vreg 8 0 = 0x7BFF3C01 ∧
    (ran [0xFE040000, 0x2A201030] s).group.flags = (ran [0x2A201030] s).group.flags := by decide +kernel

/-- R391: SQRT of 2 to nearest and upward. -/
theorem test_sqrt :
    let s := box 1 [(4, 0, 0x40000000)] []
    (ran [0x2E0C2008] s).vreg 3 0 = 0x3FB504F3 ∧ (ran [0xFE080000, 0x2E0C2008] s).vreg 3 0 = 0x3FB504F4 := by
  decide +kernel

/-- Table 8.6: RCP of +0 is +infinity, EXP2 of 0 is 1, LOG2 of 1 is +0, SIN of 0 is 0 and COS of 0 is 1. -/
theorem test_elementary_points :
    (after (.rcp 3 4 false) (box 1 [] [])).vreg 3 0 = 0x7F800000 ∧
    (after (.exp2 3 4 false) (box 1 [] [])).vreg 3 0 = 0x3F800000 ∧
    (after (.log2 3 4 false) (box 1 [(4, 0, 0x3F800000)] [])).vreg 3 0 = 0 ∧
    (after (.sin 3 4 false) (box 1 [] [])).vreg 3 0 = 0 ∧
    (after (.cos 3 4 false) (box 1 [] [])).vreg 3 0 = 0x3F800000 := by decide +kernel

/-- R388's QE4 example, with ties away from zero and to even. -/
theorem test_qe4 :
    let s := box 1 [(4, 0, 0x3F800000), (5, 0, 0x40080000), (6, 0, 0x43FA0000), (7, 0, 0x80000000), (8, 0, 0x3F800000)] []
    (ran [0x34242080] s).vreg 9 0 = 0x807E4138 ∧ (ran [0xFE020000, 0x34242080] s).vreg 9 0 = 0x807E4038 := by
  decide +kernel

/-- R333's DI8 example, and DE4 of the same byte 0x7F. -/
theorem test_di8 :
    let s := box 1 [(2, 0, 0x80FF017F), (3, 0, 0x3F000000)] []
    let t := ran [0x36201038] s
    t.vreg 8 0 = 0x427E0000 ∧ t.vreg 9 0 = 0x3F000000 ∧ t.vreg 10 0 = 0xBF000000 ∧ t.vreg 11 0 = 0xC2800000 ∧
    t.group.flags = 0 ∧ (ran [0x36201030] s).vreg 8 0 = 0x7FC00000 := by decide +kernel

/-- Table 8.7: CVT.rz of FP32 2.5 to INT32 is 2 and sets inexact; FP16 into the high half keeps the low half. -/
theorem test_cvt :
    (let t := ran [0x320C2034] (box 1 [(4, 0, 0x40200000)] [])
     t.vreg 3 0 = 2 ∧ t.group.flags = 8) ∧
    (after (.cvt 3 4 1 9 0 false) (box 1 [(3, 0, 0x12345678), (4, 0, 0x3C00)] [])).vreg 3 0 = 0x3C005678 := by
  decide +kernel

/-! ## Across lanes -/

/-- R397's table: lanes 0 to 3 active, v6 = 10, 20, 30, 40. -/
theorem test_shfl :
    let s := fun (n : Nat) => box 15 [(6, 0, 10), (6, 1, 20), (6, 2, 30), (6, 3, 40), (7, 0, n), (7, 1, n), (7, 2, n), (7, 3, n)] []
    let out := fun (t : State) => (List.range 4).map fun l => t.vreg 5 l
    out (ran [0x38143070] (s 3)) = [40, 40, 40, 40] ∧ out (ran [0x38143074] (s 1)) = [20, 10, 40, 30] ∧
    out (ran [0x38143078] (s 1)) = [20, 30, 40, 40] ∧ out (ran [0x3814301C] (s 0)) = [10, 20, 30, 40] := by decide +kernel

/-- R365's prefix sum: one step at k = 0 over lanes 0 to 7. -/
theorem test_lstep :
    let s := box 255 ((List.range 8).map fun l => (6, l, l + 1)) []
    (List.range 8).map (fun l => (ran [0x3A183000] s).vreg 6 l) = [1, 3, 5, 7, 9, 11, 13, 15] := by decide +kernel

/-- R367's example: v4 = 7, 3, 7, 7. -/
theorem test_match :
    let s := box 15 [(4, 0, 7), (4, 1, 3), (4, 2, 7), (4, 3, 7)] []
    let out := fun (t : State) => (List.range 4).map fun l => t.vreg 5 l
    out (ran [0x3C142000] s) = [0, 1, 0, 0] ∧ out (ran [0x3C142004] s) = [0, 0, 1, 2] ∧
    out (ran [0x3C142008] s) = [3, 1, 3, 3] ∧ out (ran [0x3C14200C] s) = [3, 1, 3, 3] := by decide +kernel

/-! ## Uniform instructions and control flow -/

/-- R416: UMUL and UMULH of all ones; w0 stays zero (R89). -/
theorem test_umul :
    let s := box 1 [] [(4, 0xFFFFFFFFFFFFFFFF), (5, 0xFFFFFFFFFFFFFFFF)]
    (after (.umul 3 4 5) s).uni 3 = 1 ∧ (after (.umulh 3 4 5) s).uni 3 = 0xFFFFFFFFFFFFFFFE ∧
    (after (.umul 0 4 5) s).uni 0 = 0 := by decide +kernel

/-- R425, R426: USAR copies the sign, UMIN is signed where UMINU is not, UADDI takes a negative immediate. -/
theorem test_uniform_signs :
    let s := box 1 [] [(4, 0xFFFFFFFFFFFFFFF0), (5, 4)]
    (ran [0x821882A0] s).uni 3 = 0xFFFFFFFFFFFFFFFF ∧ (ran [0x821882B0] s).uni 3 = 0xFFFFFFFFFFFFFFF0 ∧
    (ran [0x821882D0] s).uni 3 = 4 ∧ (ran [0x84189FFF] s).uni 3 = 0xFFFFFFFFFFFFFFEF := by decide +kernel

/-- R418: ULIH replaces bits 63 to 32 and keeps the low half; both GL forms take two words. -/
theorem test_ulih :
    let t := after (.ulih 4 0x40) (box 1 [] [(4, 0x12345678)])
    t.uni 4 = 0x4012345678 ∧ t.path.pc = 0x10008 := by decide +kernel

/-- R328's example: disp22 = 0x40 goes 0x100 on, and w63 holds the next address. -/
theorem test_call :
    let t := ran [0xAC000040] (box 1 [] [])
    t.path.pc = 0x10100 ∧ t.uni 63 = 0x10004 := by decide +kernel

/-- R393: RET goes to w63; a misaligned target traps with cause 0x04 and moves nothing. -/
theorem test_ret :
    (ran [0xAE07E000] (box 1 [] [(63, 0x4000)])).path.pc = 0x4000 ∧
    (let t := ran [0xAE07E000] (box 1 [] [(63, 0x4002)])
     t.group.tcause = 0x04 ∧ t.group.taddr = 0x4002 ∧ t.group.tpc = 0x10000 ∧ t.path.pc = 0x20000) := by decide +kernel

/-- R39: BRD with lanes on both sides splits the path; the lanes not taken go on. -/
theorem test_brd :
    let t := after (.brd 1 4) (machine [{ grp 15 [] [] with preds := [(1, 3)] }])
    (t.group.path0.map (·.mask)).toList ++ (t.group.path1.map (·.mask)).toList = [12, 3] ∨
    (t.group.path0.map (·.mask)).toList ++ (t.group.path1.map (·.mask)).toList = [3, 12] := by decide +kernel

/-- R40's example: JSET with disp22 = 5 opens entry 0 at the path's address + 20. -/
theorem test_jset :
    let t := ran [0xB0000005] (box 15 [] [])
    t.group.docc = 1 ∧ (t.dsRead 0).addr = 0x10014 ∧ (t.dsRead 0).mask = 15 ∧ t.path.fv = true := by decide +kernel

/-- R41: JOIN anywhere but at its frame's address does nothing. R42: EXIT of every lane retires the group. -/
theorem test_join_exit :
    (after .join (box 1 [] [])).path.pc = 0x10004 ∧ (after .exit (box 1 [] [])).group.retired = true := by decide +kernel

/-- R323: votes over the path's lanes: p3 holds lanes 0 and 2 of four. -/
theorem test_votes :
    let s := machine [{ grp 15 [(9, 0, 5), (9, 1, 6)] [(6, 0x77)] with preds := [(3, 5)] }]
    (ran [0x94002630] s).uni 2 = 1 ∧ (ran [0x94002640] s).uni 2 = 0 ∧ (ran [0x94002650] s).uni 2 = 2 ∧
    (ran [0x94106000] s).vreg 4 3 = 0x77 ∧ (ran [0x94247010] s).uni 7 = 5 := by decide +kernel

/-- R98, R97: SRD of FLAGS; SRD of TVEC outside trap mode traps with cause 0x15 and the number. -/
theorem test_srd :
    (ran [0x90180030] (machine [{ grp 1 [] [] with flags := 5 }])).uni 3 = 5 ∧
    (let t := after (.srd 3 0x100) (box 1 [] [])
     t.group.tcause = 0x15 ∧ t.group.tinfo = 0x100) := by decide +kernel

/-! ## Memory -/

/-- The machine with bytes in memory and one 2 MiB page mapped in the core's TLB, virtual equal to physical. -/
def mapped (s : State) (a : Nat) (bs : List Nat) : State :=
  { s with mem := memWrite [] a (bs.map (BitVec.ofNat 8 ·))
           cores := [(0, { tlb := [{ root := 0x100000, va := 0, size := 0x200000, pa := 0, wr := true, cv := false, pte := 0x105000 }] })] }

/-- R358, R4: LDW takes little-endian bytes, LDB extends with zeros, LDD fills a pair. -/
theorem test_loads :
    let s := mapped (box 1 [(7, 0, 4), (2, 0, 4)] [(4, 0x1000), (5, 0x1000)]) 0x1004 [0x78, 0x56, 0x34, 0x92, 1, 0, 0, 0x80]
    (ran [0x44183880] s).vreg 6 0 = 0x92345678 ∧ (after (.ldb 3 2 5 0) s).vreg 3 0 = 0x78 ∧
    (after (.ldd 8 7 0 0) (mapped (box 1 [(7, 0, 0x1008)] []) 0x1008 [1, 0, 0, 0, 2, 0, 0, 0])).vreg 9 0 = 2 := by
  decide +kernel

/-- R169: a misaligned lane traps, no lane loads; TMASK holds the lanes of that cause, TADDR the lowest one's address. -/
theorem test_load_traps :
    let t := ran [0x44183880] (mapped (box 3 [(7, 0, 4), (7, 1, 6), (6, 0, 9)] [(4, 0x1000)]) 0x1004 [1])
    t.group.tcause = 0x04 ∧ t.group.tmask = 2 ∧ t.group.taddr = 0x1006 ∧ (t.group.trap.isSome = true) := by decide +kernel

/-- R171: a store sets D in the table entry; the core reads its own store, memory gets it when it lands (R163). -/
theorem test_store :
    let t := after (.stw 3 2 5 0) (mapped (box 1 [(3, 0, 0xA1B2C3D4), (2, 0, 4)] [(5, 0x1000)]) 0x1004 [])
    t.coreByte 0 0x1004 = 0xD4 ∧ t.coreByte 0 0x1007 = 0xA1 ∧ t.byteAt 0x1004 = 0 ∧ (t.drainCore 0).byteAt 0x1005 = 0xC3 ∧
    t.byteAt 0x105000 = 0x40 := by decide +kernel

/-- R315's example: ATOML.ADD by lanes 0 to 3, guarded by p1. -/
theorem test_atoml :
    let s := machine [{ grp (BitVec.allOnes 64) ((List.range 64).map fun l => (2, l, l + 1)) [(4, 0x100)] with preds := [(1, 15)] }]
    let s := s.putTeam { s.team with sp := [(0x100, 10)] }
    let t := ran [0xFE400000, 0x5C080880] s
    (List.range 5).map (fun l => t.vreg 2 l) = [10, 11, 13, 16, 5] ∧ t.team.padByte 0x100 = 20 := by decide +kernel

/-- Table 18.4: signed and unsigned minima differ; CAS that fails leaves the word. -/
theorem test_atomic_ops :
    atomNew 1 (0xFFFFFFFF : Word) 1 0 = some 0xFFFFFFFF ∧ atomNew 3 (0xFFFFFFFF : Word) 1 0 = some 1 ∧
    atomNew 9 (5 : Word) 7 6 = none ∧ atomNew 9 (5 : Word) 7 5 = some 7 := by decide +kernel

/-- R406, R361: STL then what LDL reads, in the team's scratchpad, whose granule becomes spatial (R162). -/
theorem test_stl :
    let s := box 1 [(2, 0, 0x11223344), (1, 0, 8)] [(4, 0x400)]
    let s := s.putTeam { s.team with gtags := [(1, 1)] }
    let t := ran [0x5A080882] s
    t.team.padByte 0x408 = 0x44 ∧ t.team.gtag 1 = 0 ∧ (ran [0x580C0882] { t with pending := none }).vreg 3 0 = 0x11223344 := by
  decide +kernel

/-- R422: USTW with a negative immediate; ULDD reads a pair of words. -/
theorem test_uniform_memory :
    let t := ran [0x9A189FF8] (mapped (box 1 [] [(3, 0x55), (4, 0x1010)]) 0 [])
    t.coreByte 0 0x1008 = 0x55 ∧ (ran [0x99D72008] (mapped (box 1 [] [(57, 0x1000)]) 0x1008 [7, 0, 0, 0, 9])).uni 58
      = 0x0000000900000007 := by decide +kernel

/-- R401's table, of a team whose tag is 3. -/
theorem test_spaces :
    let s := fun (x : Nat) => let s := box 1 [] [(4, x)]; s.putTeam { s.team with tag := 3 }
    (after (.scast 5 4) (s 0x40)).uni 5 = 0xFFFFFE0003000040 ∧ (after (.space 6 4) (s 0xFFFFFE0003000040)).uni 6 = 2 ∧
    (after (.space 6 4) (s 0xFFFFFE0007000040)).uni 6 = 3 ∧ (after (.space 6 4) (s 0xFFFFFD0000040100)).uni 6 = 4 ∧
    (after (.space 6 4) (s 0xFFFFFF0100000000)).uni 6 = 5 ∧
    (let t := after (.scastl 7 4) (s 0xFFFFFE0007000040)
     t.group.tcause = 0x05 ∧ t.group.tinfo = 7) := by decide +kernel

/-- R330: CCTLI of a huge range empties the core's L1; R342: FENCE.SC.sys waits for the group's stores. -/
theorem test_cache_control :
    (after (.cctli 4 5) { box 1 [] [(5, 0x200000)] with cores := [(0, { l1 := [(3, 1)] })] }).cores = [] ∧
    (ran [0xBA000034] { box 1 [] [] with cores := [(0, { outgoing := [⟨0, 0, 0, 64, [1]⟩] })] }).path.wait = some .stores := by
  decide +kernel

/-! ## Teams and engines -/

/-- R319's example: group 1 completes the scan; group 0 gets l, group 1 gets 64 + 2 l. -/
theorem test_bars :
    let s := machine [grp 3 [(4, 0, 1), (4, 1, 1)] [], grp 3 [(4, 0, 2), (4, 1, 2)] []]
    let t := ran [0xB8488041] s
    let u := ran [0xB8488041] { t with focus := { t.focus with group := 1 } }
    t.path.wait.isSome = true ∧ (u.groupAt 0 0).vget u.variant 9 1 = 1 ∧ (u.groupAt 0 1).vget u.variant 9 1 = 4 ∧
    (u.groupAt 0 0).path0.map (·.pc) = some 0x10004 := by decide +kernel

/-- R47: BAR with one unretired group completes at once; BARW before any arrival goes on. -/
theorem test_bar :
    (ran [0xB8000000] (box 1 [] [])).path.pc = 0x10004 ∧ (ran [0xB8000023] (machine [grp 1 [] [], grp 1 [] []])).path.pc = 0x10004
      ∧ (ran [0xB8000000] (machine [grp 1 [] [], grp 1 [] []])).path.wait = some (.barrier 0 .none) := by decide +kernel

/-- R336's example of EMGEN. -/
theorem test_emgen :
    let g := (ran [0xC800E010] (box 1 [] [(7, 0x000000280020001E)])).group
    (List.range 8).map g.mask = [0x3FFFFFFF, 0xFFFFFFFF, 0xFFFFFFFF, 0xFF, 0, 0, 0, 0] := by decide +kernel

/-- R308: ACCWR then ACCRD of row 0; R309: ACCZ zeroes the tile. -/
theorem test_accumulator :
    let t := ran [0xC4419510] (box 3 [(6, 0, 5), (6, 1, 7)] [])
    t.team.accAt 2 1 = 7 ∧ (after (.accrd 2 4 21) t).vreg 4 1 = 7 ∧ (after (.accz 2) t).team.accAt 2 1 = 0 ∧
    (after (.accrd 2 4 21) (box 1 [] [(21, 32)])).group.tcause = 0x03 := by decide +kernel

/-- R241: DTAG reads a granule's tag; DSET refuses a value that is no tag with TINFO 9. -/
theorem test_granule_tags :
    let s := box 1 [] [(4, 0x800), (5, 0x0013)]
    let t := after (.dset 4 5) s
    t.team.gtag 2 = 0x13 ∧ (after (.dtag 4 6) { t with pending := none }).uni 6 = 0x13 ∧
    (after (.dset 4 5) (box 1 [] [(5, 0x0012)])).group.tinfo = 9 := by decide +kernel

/-- Chapter 13's worked example: the XFT is accepted; bins of x are 1, the even bins of c are 1 at shift 1, the odd ones 0;
and IXFT's y[0] and y[8] are 1 (0x3F800000), y[2] is 0. -/
theorem test_xft :
    let s := box 1 [] [(8, 0x000A002000000000), (9, 0x0010002000040400)]
    let s := s.putTeam { s.team with sp := [(0, 0x80), (1, 0x3F)] }
    let t := after (.transformOpComplete 0) (ran [0xC6041200] s)
    t.team.padRead 0x400 8 = [0x80, 0x3F, 0x80, 0x3F, 0x80, 0x3F, 0, 0] ∧ t.team.gtag 1 = 1 := by decide +kernel
theorem test_transform_values :
    let one := Fmt.bf16.value 0x3F80
    let zero := Fmt.bf16.value 0
    let x := one :: List.replicate 15 zero
    let c := (one :: List.replicate 7 zero) ++ one :: List.replicate 7 zero
    spectralPart (forwardBin 16 x 0).1 0 = 0x3F80 ∧ spectralPart (forwardBin 16 x 3).1 0 = 0x3F80 ∧
    spectralPart (forwardBin 16 x 3).2 0 = 0 ∧ spectralPart (forwardBin 16 c 2).1 1 = 0x3F80 ∧
    spectralPart (forwardBin 16 c 3).1 1 = 0 := by decide +kernel
theorem test_inverse_values :
    let one := Fmt.fp32.value 0x3F800000
    let zero := Fmt.fp32.value 0
    let y := [(one, one), (zero, zero), (one, zero), (zero, zero), (one, zero), (zero, zero), (one, zero), (zero, zero)]
    (rounded .fp32 .rne (inverseScaled 16 y 1 0, false)).1 = 0x3F800000 ∧
    (rounded .fp32 .rne (inverseScaled 16 y 1 8, false)).1 = 0x3F800000 ∧
    (rounded .fp32 .rne (inverseScaled 16 y 1 2, false)).1 = 0 := by decide +kernel

/-- R216: MPOLL of an empty ring reports 1, and a bad capacity of MRING traps with TINFO 0x110. -/
theorem test_rings :
    (ran [0xBE310010] (box 1 [] [])).uni 8 = 1 ∧ (after (.mring 4 5 1) (box 1 [] [(5, 3)])).group.tinfo = 0x110 ∧
    ((after (.mring 4 5 1) (box 1 [] [(4, 0x40), (5, 2)])).team.ring 1).capacity = 2 := by decide +kernel

/-- R202: CPYQ of no card traps with TINFO 0x108; R321: BATCH reads the counter and counts up. -/
theorem test_jobs :
    (ran [0xC00082A0] (box 1 [] [])).group.tinfo = 0x108 ∧
    (let t := ran [0xBC700000] (box 1 [] [])
     t.uni 14 = 1 ∧ t.group.batch = 2) := by decide +kernel

/-- R60: RGROW for the running variant, of those allowed, gives 1; for one not allowed, 2. -/
theorem test_rgrow :
    let s := fun (a : BitVec 4) => let s := box 1 [] []; { s with nodes := [{ s.node with allowed := a }] }
    (after (.rgrow 5 0) (s 1)).uni 5 = 1 ∧ (after (.rgrow 5 3) (s 1)).uni 5 = 2 := by decide +kernel

/-- R431: YIELD goes on; SLEEP parks for its clocks, at most 2^20. -/
theorem test_sleep :
    (after .yieldIssue (box 1 [] [])).path.pc = 0x10004 ∧
    (ran [0xFA00A010] (box 1 [] [(5, 0x7FFFFFFF)])).path.wait = some (.sleep 0x100000) := by decide +kernel

/-- R253, R255: MBEGIN with no declaration traps with TINFO 8, MKEY outside a region with TINFO 5. -/
theorem test_memo_traps :
    (ran [0xD000E0A3] (box 1 [] [])).group.tinfo = 8 ∧ (ran [0xD2040010] (box 1 [] [])).group.tinfo = 5 ∧
    (ran [0xD2040010] (box 1 [] [])).group.tcause = 0x08 := by decide +kernel

/-- R334: DISC outside a fragment node traps with TINFO 12; in one it makes the lanes of p2 helpers. -/
theorem test_disc :
    (ran [0xE4000400] (box 1 [] [])).group.tinfo = 12 ∧
    (let s := machine [{ grp 15 [] [] with preds := [(2, 6)] }]
     (ran [0xE4000400] { s with nodes := [{ s.node with kind := 2 }] }).group.helper = 6) := by decide +kernel

/-! ## Traps -/

/-- R283, R280: TRAP #7 saves the address after it, and the handler starts at TVEC with the path's mask; in trap mode it is a
double fault. -/
theorem test_trap :
    (let t := ran [0xF0000007] (box 5 [] [])
     t.group.tcause = 0x01 ∧ t.group.tpc = 0x10004 ∧ t.group.tinfo = 7 ∧ t.group.tmask = 5 ∧ t.path.pc = 0x20000 ∧
       t.path.mask = 5 ∧ t.group.trap.isSome = true) ∧
    ((ran [0xF0000007] (handler 5 [])).team.status = .killed) := by decide +kernel

/-- R281: RTE puts the interrupted path back at TPC. -/
theorem test_rte :
    let t := after .rte { ran [0xF0000007] (box 5 [] []) with pending := none }
    t.group.trap = none ∧ t.path.pc = 0x10004 ∧ t.path.mask = 5 := by decide +kernel

/-- R97: RTE, TSAVE and TREST outside trap mode trap with cause 0x15. -/
theorem test_handler_only :
    (after .rte (box 1 [] [])).group.tcause = 0x15 ∧ (ran [0xF2070010] (box 1 [] [])).group.tcause = 0x15 ∧
    (ran [0xF2070020] (box 1 [] [])).group.tcause = 0x15 := by decide +kernel

/-- R96: the handler's w56 is of the shadow set. -/
theorem test_shadow :
    let s := handler 1 [(56, 0x99)]
    s.uni 56 = 0x99 ∧ (after (.umovi 56 3) s).group.wregs = [] ∧ (after (.umovi 55 3) s).group.wregs = [(55, 3)] := by
  decide +kernel

/-! ## The device -/

/-- R83's table: the keys of a 3 by 2 ensemble grid. -/
theorem test_hilbert :
    [(0, 0), (1, 0), (1, 1), (0, 1), (2, 1), (2, 0)].map (fun (p : Nat × Nat) => hilbert 4 p.1 p.2) = [0, 1, 2, 3, 13, 14] := by
  decide +kernel

/-- R294: a write of INTSTATUS clears the bits it sets; R291: poison stands on the word, and a write of its bytes clears it. -/
theorem test_host_writes :
    (after (.interruptStatus 5) { State.reset with intStatus := 7 }).intStatus = 2 ∧
    (let t := after (.uncorrectableError (.memoryWord 0x1008)) State.reset
     t.poisonedAt 0x100F = true ∧ t.poisonedAt 0x1010 = false ∧
       (t.writePhys 0x1008 8 1).poisonedAt 0x1008 = false) := by decide +kernel

/-- R68: a tail write before region 0 is active, with no root block that can activate, is only kept. -/
theorem test_tail_write : (after (.tailWrite 3 5) State.reset).tails = [(3, 5)] := by decide +kernel

/-- The focused path's program counter after a step. -/
def pcAfterStep (s : State) : Option (BitVec 64) :=
  match step s with
  | .next t => some t.path.pc
  | _ => none

/-- R106, R107: a step fetches and runs the word placed for it, and a prefixed pair in one step. -/
theorem test_step :
    pcAfterStep (State.reset.withFetchWord 32 0x06143070) = some 0x10004 ∧
    pcAfterStep (State.reset.withFetchWord 64 (0xFE000A00 + 0x0420103C * 2 ^ 32)) = some 0x10008 := by decide +kernel

/-! ## Well-formedness: one ill-formed instruction for each check -/

/-- A predicate destination p0, misaligned pairs and quads, an address pair at an odd register, immediates and register
numbers out of range, sub-codes no member has, and events, which have no word (Table 6.9, R113, R114). -/
theorem test_ill_formed :
    ([.icmp 0 1 2 0 false false, .setp 0 1 false, .mlook 0 4, .mkeyPredicate 0, .iadd64 3 2 4 false false, .madw 5 1 2 false false,
      .qe4 9 5 8 false false, .df4 4 1 2 false false, .ldd 3 1 4 0, .ldw 6 7 0 0, .tex 18 8 10 1, .rayq 20 8 10 2,
      .shli 2 1 32 false, .shflh 5 6 0 false, .shflh 5 6 8 false, .lstep 6 6 7 0 false, .pfx 0 false false 6 0 0,
      .pfx 0 false false 0 5 0, .ufadd 1 2 3 6, .ballot 1 1 2, .mpoll 6 7 0, .mwait 0 1, .mpop 7 1, .cpy 60, .mma 0 63 2,
      .xft 1 2 5, .emset 6 8, .epost 4 5 7, .etake 4 6 8, .etake 4 5 2, .mbegin 7 4 1 1, .mstat 5 7 0, .mkeyt 4 5 4,
      .fout 9 3 0 15, .fout 8 3 0 0, .fout 8 3 2 1, .icmpUnsigned 1 1 2 2 false false, .cvt 3 4 7 0 0 false,
      .cvt 3 4 0 11 0 false, .atom 2 1 4 13, .atomd 4 6 1 1, .ldl 3 1 4 5, .ucmp 3 4 5 6, .ufcvt 6 7 5 0 0, .barr 5 3 5 2,
      .fence 4 0, .fence 3 5, .mkey 1 5, .powerLevel 0, .reset] : List Instr).all (fun i => !i.wellFormed) = true := by
  decide +kernel

/-- The same forms with the nearest value each check accepts. -/
theorem test_well_formed :
    ([.icmp 1 1 2 0 false false, .setp 7 1 false, .mlook 1 4, .iadd64 2 2 4 false false, .madw 4 1 2 false false,
      .qe4 9 4 8 false false, .df4 8 1 2 false false, .ldd 4 1 4 0, .ldw 6 7 1 0, .ldw 6 8 0 0, .tex 16 8 10 1,
      .shli 2 1 31 false, .shflh 5 6 1 false, .shflh 5 6 7 false, .lstep 6 6 6 0 false, .pfx 0 false false 5 4 0,
      .ufadd 1 2 3 5, .ballot 1 1 1, .mpoll 6 8 0, .cpy 59, .mma 0 62 62, .xft 1 2 4, .emset 6 7, .epost 4 5 8, .epost 4 5 15,
      .etake 4 6 7, .mbegin 7 3 1 1, .mstat 5 6 0, .mkeyt 4 5 3, .fout 8 3 0 1, .fout 10 3 1 15,
      .icmpUnsigned 1 1 2 1 false false, .cvt 3 4 6 10 0 false, .atom 2 1 4 12, .atomd 4 6 1 3, .ldl 4 1 4 4, .ucmp 3 4 5 5,
      .barr 5 3 4 2, .fence 3 4, .mkey 1 4] : List Instr).all (fun i => i.wellFormed) = true := by decide +kernel

/-- R110, R111, R119 and chapter 6's example: a PFX before a PFX or a group-space word, with a field Table 6.5 does not accept,
or last in its unit; a member that needs one without it; and the fix, a NOP before the pair. -/
theorem test_verifier :
    verifyUnit [0xFE000A00, 0xFE000A00] = .error ⟨0, 0xFE000A00, .prefixPrefix⟩ ∧
    verifyUnit [0xFE000000, 0xB6000000] = .error ⟨0, 0xFE000000, .prefixGroupSpace⟩ ∧
    verifyUnit [0xFE020000, 0x06143070] = .error ⟨0, 0xFE020000, .prefixField⟩ ∧
    verifyUnit [0x0C040828, 0x140C1FFE, 0x0420103C, 0xFE000A00] = .error ⟨2, 0x0420103C, .prefixAbsent⟩ ∧
    verifyUnit [0xB6000000, 0xFE000A00] = .error ⟨1, 0xFE000A00, .lastPosition⟩ ∧
    verifyUnit [0xFE0A0000, 0x5E000000] = .error ⟨1, 0x5E000000, .reservedMajor⟩ ∧
    verifyUnit [0xFE000A00, 0x0420103C, 0x88280000, 0x12345678] = .ok [3] := by decide +kernel

/-! ## Decoding: the words that the spec prints, family by family -/

/-- The words decode to the instructions beside them, and the instructions encode to the words. -/
def reads (l : List (BitVec 32 × Instr)) : Bool :=
  l.all fun p => (match decodeWord p.1 0 with | .ok i => decide (i = p.2) | .error _ => false) && encode p.2 == [p.1]

theorem test_decode_engines :
    reads [(0xC4011500, .accrd 0 4 21), (0xC4001630, .accst 0 22), (0xC4419510, .accwr 2 6 21), (0xC4200020, .accz 1),
      (0xC0010000, .cpy 8), (0xC00082A0, .cpyq 4 5), (0xC0008010, .dcmp 4), (0xC6020A40, .dset 4 5),
      (0xC6600A31, .dtagTile 3 5), (0xC6020A30, .dtag 4 5), (0xC800E010, .emgen 7), (0xC800C002, .emset 6 2),
      (0xC6401210, .ixft 2 9), (0xC6041211, .ixftScratchpad 8 9), (0xC2082400, .mma 0 16 18),
      (0xC2682410, .mmaz 3 16 18), (0xC4001440, .wmark 0 20), (0xC6401221, .xact 2 9 1),
      (0xC6441225, .xactBias 2 8 9 1), (0xC6041200, .xft 8 9 0), (0xCA008289, .epost 4 5 9),
      (0xCA20C012, .etake 4 6 2)] = true := by decide +kernel

theorem test_decode_status_votes_memory :
    reads [(0x94005061, .actm 5 1), (0x94003220, .ballot 3 1 0), (0x94106000, .bcast 4 6), (0x94247010, .rdfirst 9 7),
      (0x90180030, .srd 3 48), (0x92000030, .swr 0 48), (0x99D72008, .uldd 58 57 8), (0x96188010, .uldw 3 4 16),
      (0x9DC74000, .ustd 56 58 0), (0x9A189FF8, .ustw 3 4 0x1ff8), (0x94002640, .vall 2 3),
      (0x94002630, .vany 2 3), (0x94002650, .vcnt 2 3)] = true := by decide +kernel

theorem test_decode_lane_integer :
    reads [(0x06143070, .and 5 6 7 false false), (0x0614307E, .andn 5 6 7 true false), (0x0A0C2008, .brev 3 4 false),
      (0x0A0C2004, .clz 3 4 false), (0x12103080, .iadd64 4 6 8 false false),
      (0x0C0C0820, .icmp 3 1 2 0 false false), (0x0C04082C, .icmp 1 1 2 3 false false),
      (0x0E040824, .icmpUnsigned 1 1 2 1 false false), (0x0C040828, .icmp 1 1 2 2 false false),
      (0x0E040820, .icmpUnsigned 1 1 2 0 false false), (0x0C0C0824, .icmp 3 1 2 1 false false),
      (0x12103088, .imul64 4 6 8 false false), (0x12103084, .isub64 4 6 8 false false),
      (0x1210082C, .madw 4 1 2 false false), (0x06143074, .or 5 6 7 false false), (0x0A0C2000, .popc 3 4 false),
      (0x0808184C, .rotl 2 3 4 false false), (0x08081848, .sar 2 3 4 false false),
      (0x08081840, .shl 2 3 4 false false), (0x08081844, .shr 2 3 4 false false),
      (0x06143078, .xor 5 6 7 false false), (0x221007FE, .movi 4 0x3FF), (0x140C1FFE, .iaddi 3 3 0x3FF false),
      (0x10143078, .sel 5 6 7 2 false false), (0x0420103C, .imad 8 2 3 false false),
      (0x021C1038, .iabsd 7 2 3 false false), (0x1C080802, .shli 2 1 1 false),
      (0x00102868, .imin 4 5 6 false false)] = true := by decide +kernel

theorem test_decode_prefix :
    reads [(0xFE06C000, .pfx 0 false false 3 3 0), (0xFE000380, .pfx 0 false false 0 0 7),
      (0xFE000400, .pfx 0 false false 0 0 8), (0xFE04C000, .pfx 0 false false 2 3 0),
      (0xFEF40000, .pfx 3 true true 2 0 0), (0xFE02C000, .pfx 0 false false 1 3 0)] = true := by decide +kernel

theorem test_decode_lane_memory :
    reads [(0x56103008, .atomd 4 6 0 8), (0x400C10A0, .ldb 3 2 5 0), (0x46103000, .ldd 4 6 0 0),
      (0x420C10A2, .ldh 3 2 5 2), (0x48200883, .ldq 8 1 4 3), (0x44183880, .ldw 6 7 4 0),
      (0x4A0C10A0, .stb 3 2 5 0), (0x50103000, .std 4 6 0 0), (0x4C0C10A0, .sth 3 2 5 0),
      (0x52200883, .stq 8 1 4 3), (0x60404141, .tex 16 8 10 1), (0x64404141, .texg 16 8 10 1),
      (0x62404141, .texl 16 8 10 1), (0x580C0882, .ldl 3 1 4 2), (0x68001080, .prf 2 4 0),
      (0x66404142, .rayq 16 8 10 2), (0x5C080880, .atoml 2 1 4 0), (0x5A080882, .stl 2 1 4 2)] = true := by decide +kernel

theorem test_decode_lane_float :
    reads [(0x2C201030, .badd2 8 2 3 false false), (0x2C201038, .bfma2 8 2 3 false false),
      (0x2C20103C, .bmax2 8 2 3 false false), (0x2C201034, .bmul2 8 2 3 false false),
      (0x36201030, .de4 8 2 3 false false), (0x36201034, .de5 8 2 3 false false),
      (0x3620103C, .df4 8 2 3 false false), (0x36201038, .di8 8 2 3 false false), (0x2E0C200C, .exp2 3 4 false),
      (0x24284040, .fadd 10 8 4 false false), (0x2424205C, .ffma 9 4 5 false false),
      (0x24182058, .fmul 6 4 5 false false), (0x24284044, .fsub 10 8 4 false false),
      (0x2A201030, .haddp 8 2 3 false false), (0x2A201038, .hfmap 8 2 3 false false),
      (0x2A20103C, .hmaxp 8 2 3 false false), (0x2A201034, .hmulp 8 2 3 false false),
      (0x34242080, .qe4 9 4 8 false false), (0x34242084, .qe5 9 4 8 false false),
      (0x3424410C, .qf4 9 8 16 false false), (0x34242088, .qi8 9 4 8 false false), (0x2E0C2000, .rcp 3 4 false),
      (0x2E0C2004, .rsq 3 4 false), (0x2E0C2008, .sqrt 3 4 false), (0x320C2054, .cvt 3 4 0 5 1 false),
      (0x28082054, .fcmp 2 4 5 1 false false), (0x26081844, .fmax 2 3 4 false false)] = true := by decide +kernel

theorem test_decode_control_team :
    reads [(0xB8000000, .bar 0), (0xB8000013, .bara 3), (0xB8286032, .barr 5 3 0 2), (0xB8488041, .bars 9 4 0 1),
      (0xB8000023, .barw 3), (0xBC700000, .batch 14), (0xBE310010, .mpoll 6 8 0), (0xBE300031, .mpop 6 1),
      (0xBE0082C1, .mring 4 5 1), (0xBE188280, .msend 3 4 5 0), (0xBE300021, .mwait 6 1),
      (0xBC19C020, .testb 3 14), (0xBC01C010, .waitb 14), (0xBA000034, .fence 3 4), (0xAE07E000, .ret 63),
      (0xAC000040, .call 64), (0xB0000005, .jset 5), (0xB6000000, .nop)] = true := by decide +kernel

theorem test_decode_traps_space :
    reads [(0xF8008290, .cctli 4 5), (0xF6288010, .scast 5 4), (0xF630A020, .scastl 6 5), (0xFA00A010, .sleep 5),
      (0xF6288000, .space 5 4), (0xF2070020, .trest 56), (0xF2070010, .tsave 56), (0xF4280023, .rgroww 5 3),
      (0xF0000007, .trap 7)] = true := by decide +kernel

theorem test_decode_mesh_regroup :
    reads [(0xE4000400, .disc 2), (0xE220300F, .fout 8 3 0 15), (0xE0008281, .mdecl 4 5 1), (0xE000C010, .memit 6),
      (0xE600A004, .regrp 5 4)] = true := by decide +kernel

theorem test_decode_lane_cross :
    reads [(0x3E140000, .laneid 5), (0x3C142000, .vmatch 5 4 false), (0x3C142008, .mcnt 5 4 false),
      (0x3C14200C, .mlast 5 4 false), (0x3E0C1008, .movp 3 2), (0x3C142004, .mrank 5 4 false),
      (0x3E10480C, .setp 4 9 false), (0x38143070, .shfl 5 6 7 false false), (0x3814301C, .shflh 5 6 1 false),
      (0x38143078, .shflr 5 6 7 false false), (0x38143074, .shflx 5 6 7 false false),
      (0x3E0C4804, .vmov 3 9 false), (0x3A183010, .lstep 6 6 1 0 false)] = true := by decide +kernel

theorem test_decode_memo :
    reads [(0xD000E0A3, .mbegin 7 1 2 3), (0xDC200010, .mgen 4 0), (0xDC000002, .minv 2), (0xD2040010, .mkey 1 1),
      (0xD2080030, .mkey 2 3), (0xD2080020, .mkey 2 2), (0xD2080040, .mkey 2 4), (0xD2040000, .mkey 1 0),
      (0xD20C0060, .mkeyPredicate 3), (0xD2009050, .mkeyUniform 9), (0xDC0082B1, .mkeyt 4 5 1),
      (0xD6080000, .mout 2), (0xDC280220, .mstat 5 4 0), (0xD4009001, .mxclUniform 9), (0xD8400004, .mlook 1 4)] = true := by decide +kernel

theorem test_decode_uniform :
    reads [(0x84189FFF, .uaddi 3 4 0x1fff), (0x8E188284, .ufadd 3 4 5 4), (0x8E30E0D2, .ufcvt 6 7 0 1 2),
      (0x8E1882A0, .uffma 3 4 5 0), (0x8E1882C0, .ufmax 3 4 5), (0x8E1882B0, .ufmin 3 4 5),
      (0x8E188290, .ufmul 3 4 5 0), (0x821882C0, .umax 3 4 5), (0x821882E0, .umaxu 3 4 5),
      (0x821882B0, .umin 3 4 5), (0x821882D0, .uminu 3 4 5), (0x86280064, .umovi 5 100), (0x82188070, .upopc 3 4),
      (0x821882A0, .usar 3 4 5), (0x82188280, .ushl 3 4 5), (0x82188290, .ushr 3 4 5), (0x8C1882A0, .ucmp 3 4 5 2)] = true := by decide +kernel

/-- R104's example: ULI w5, #0x12345678 is two words. -/
theorem test_decode_literal :
    decode [0x88280000, 0x12345678, 7] = .ok (.uli 5 0x12345678, [7]) ∧ encode (.uli 5 0x12345678) = [0x88280000, 0x12345678]
      ∧ decode [0x88280000] = .error .lastPosition ∧ decode [] = .error .notReadable := by decide +kernel

/-- Reserved majors and members, fields that must be zero, and hold bits where a form has none (R113, R114). -/
theorem test_decode_reserved :
    ([(0x0200000C, .reservedFn), (0x5E000000, .reservedMajor), (0x6A000000, .reservedMajor), (0x9E000000, .reservedMajor),
      (0xCC000000, .reservedMajor), (0xDE000000, .reservedMajor), (0xE8000000, .reservedMajor), (0xFC000000, .reservedMajor),
      (0xFE000001, .mustBeZero), (0xFE0C0000, .operandRange), (0xC6020A41, .operandRange), (0xD2000060, .mustBeZero), (0x0C000828, .writeP0),
      (0x120C3080, .misalignedRegister)]
      : List (BitVec 32 × Reason)).all
        (fun p => match decodeWord p.1 0 with | .error r => decide (r = p.2) | .ok _ => false) = true := by decide +kernel

/-! ## Witnesses: states and operands that meet the hypotheses of the statements -/

/-- Four lanes: values in v1, v2, v7; addresses and counts in w4 to w8. -/
def base : State := box 15 [(1, 0, 5), (2, 0, 9), (2, 1, 4)] [(4, 0x1000), (5, 3), (6, 0x10006), (7, 0x10000), (8, 0x7FFFFFFF)]

theorem base_runs : base.Runs := by
  unfold State.Runs
  decide +kernel

theorem witness_LaneIntegerResults : base.Runs := base_runs
theorem witness_ImmediateResults : base.Runs ∧
    ((0x1C000040 : BitVec 32).extractLsb' 25 7 = 0x0E ∧ 31 < ((0x1C000040 : BitVec 32).extractLsb' 1 10).toNat) ∧
    ((0x1E0007FE : BitVec 32).extractLsb' 25 7 = 0x0F ∧ 31 < ((0x1E0007FE : BitVec 32).extractLsb' 1 10).toNat) ∧
    ((0x20000040 : BitVec 32).extractLsb' 25 7 = 0x10 ∧ 31 < ((0x20000040 : BitVec 32).extractLsb' 1 10).toNat) :=
  ⟨base_runs, by decide +kernel⟩
theorem witness_MoveResults : base.Runs := base_runs
theorem witness_PairResults : base.Runs := base_runs
theorem witness_CompareResults : base.Runs := base_runs
theorem witness_Fp32Results : base.Runs := base_runs
theorem witness_PackedHalfResults : base.Runs := base_runs
theorem witness_ElementaryResults : base.Runs := base_runs
theorem witness_ConversionResults : base.Runs := base_runs
theorem witness_BlockScaleResults : base.Runs := base_runs
theorem witness_CrossLaneResults : base.Runs ∧ (2 ^ (0 : BitVec 7).toNat ≤ 1 ∧ base.active.getLsbD 0 = true) :=
  ⟨base_runs, by decide +kernel⟩
theorem witness_UniformIntegerResults : base.Runs ∧ (5 : BitVec 3).toNat ≤ 5 := ⟨base_runs, by decide⟩
theorem witness_UniformFpResults : base.Runs := base_runs
theorem witness_VoteResults : base.Runs ∧ (0 < 64 ∧ base.path.mask.getLsbD 0 = true ∧ ∀ j < 0, base.path.mask.getLsbD j = false) :=
  ⟨base_runs, by decide +kernel⟩

theorem handler_runs : (handler 5 []).Runs := by
  unfold State.Runs
  decide +kernel

theorem witness_StatusRegisterResults : base.Runs ∧ (0xFF : BitVec 13).toNat < 0x100 ∧
    ((handler 5 []).Runs ∧ (handler 5 []).group.trap.isSome = true) ∧
    (0x100 ≤ (0x100 : BitVec 13).toNat ∧ base.group.trap = none) := by
  refine ⟨base_runs, by decide, ⟨handler_runs, by decide +kernel⟩, by decide +kernel⟩
theorem witness_StatusRegisterFields : base.Runs ∧ base.group.trap = none ∧ (handler 5 []).Runs ∧
    (handler 5 []).group.trap.isSome = true := ⟨base_runs, by decide +kernel, handler_runs, by decide +kernel⟩

theorem witness_BranchResults : base.Runs ∧ (base.uni 7).toNat % 4 = 0 ∧ (base.uni 6).toNat % 4 ≠ 0 :=
  ⟨base_runs, by decide +kernel⟩

/-- A group whose DOCC is given. -/
def stacked (docc : BitVec 32) : State := machine [{ grp 15 [] [] with docc := docc, preds := [(1, 3), (2, 15)] }]

theorem stacked_runs (h : docc = BitVec.allOnes 32 ∨ docc = 0 ∨ docc = 0x7FFFFFFF) : (stacked docc).Runs := by
  rcases h with rfl | rfl | rfl <;> (unfold State.Runs; decide +kernel)

/-- A full stack; entry 0 free; and entry 31 the only free one. -/
theorem witness_JsetOpensFrame :
    ((stacked (BitVec.allOnes 32)).Runs ∧ (stacked (BitVec.allOnes 32)).pending = none ∧
      (stacked (BitVec.allOnes 32)).path.pc.toNat % 4 = 0 ∧ (stacked (BitVec.allOnes 32)).group.docc = BitVec.allOnes 32) ∧
    ((stacked 0).Runs ∧ (stacked 0).group.docc.getLsbD 0 = false ∧ ((stacked 0).openFrame 0 0x10014).Steady) ∧
    ((stacked 0x7FFFFFFF).Runs ∧ (stacked 0x7FFFFFFF).group.docc.getLsbD 31 = false ∧
      (∀ j < 31, (stacked 0x7FFFFFFF).group.docc.getLsbD j = true) ∧ ((stacked 0x7FFFFFFF).openFrame 31 0x10014).Steady) := by
  refine ⟨⟨stacked_runs (.inl rfl), by decide +kernel⟩, ⟨stacked_runs (.inr (.inl rfl)), by decide +kernel, ?_⟩,
    stacked_runs (.inr (.inr rfl)), by decide +kernel, by decide +kernel, ?_⟩ <;> (unfold State.Steady; decide +kernel)

/-- BRD with no lane taken (p3), every lane taken (p2) and both sides taken (p1), the last with a free slot, and with a
sibling path on a full stack; JOIN with no frame and at its frame's address. -/
theorem witness_PathControlResults :
    ((stacked 0).Runs ∧ (stacked 0).group.trap = none ∧ (stacked 0).path.mask &&& (stacked 0).pred 3 = 0 ∧
      (stacked 0).path.mask &&& ~~~(stacked 0).pred 2 = 0 ∧ (stacked 0).path.mask &&& (stacked 0).pred 2 ≠ 0 ∧
      (stacked 0).path.mask &&& (stacked 0).pred 1 ≠ 0 ∧ (stacked 0).path.mask &&& ~~~(stacked 0).pred 1 ≠ 0 ∧
      (stacked 0).group.docc ≠ BitVec.allOnes 32 ∧ ((stacked 0).splitPath 3 12 0x10010).Steady ∧ (stacked 0).path.fv = false) ∧
    (let s := machine [{ grp 15 [] [] with docc := BitVec.allOnes 32, preds := [(1, 3)], path1 := some { pc := 0x10000, mask := 16 } }]
     s.Runs ∧ (s.group.slot (!s.focus.slot)).isSome = true ∧ s.group.docc = BitVec.allOnes 32) ∧
    (let s := after (.jset 5) (stacked 0)
     let t := s.putPath { s.path with pc := 0x10014 }
     t.Runs ∧ t.path.fv = true ∧ (t.dsRead t.path.fi.toNat).addr = t.path.pc) := by
  refine ⟨⟨stacked_runs (.inr (.inl rfl)), ?_⟩, ?_, ?_⟩ <;> (try unfold State.Steady) <;> (try unfold State.Runs) <;> decide +kernel

/-- Stores pending or none; a byte count of zero and above 2^20; sleeps of zero and more. -/
theorem witness_CacheAndIssueResults :
    base.Runs ∧ base.group.trap = none ∧ base.storesPending base.focus.team base.focus.group = false ∧
    (base.uni 0).toNat = 0 ∧ 2 ^ 20 < (base.uni 8).toNat ∧ base.uni 8 ≠ 0 ∧
    (let s := { base with cores := [(0, { outgoing := [⟨0, 0, 0, 64, [1]⟩] })] }
     s.Runs ∧ s.storesPending s.focus.team s.focus.group = true) := by
  refine ⟨base_runs, by decide +kernel, by decide +kernel, by decide +kernel, by decide +kernel, by decide +kernel, ?_⟩
  unfold State.Runs
  decide +kernel

/-- CCTLI of three bytes whose page the core's TLB holds, and of a range whose second page it does not hold; a fence that has
waited. -/
theorem witness_CacheAndIssueResults_range :
    let e : TlbEntry := { root := 0x100000, va := 0, size := 4096, pa := 0x1000, wr := true, cv := false, pte := 0x105000 }
    let s : State := { base with cores := [(0, { l1 := [(32, 1), (33, 2)], tlb := [e], outgoing := [⟨0, 0, 0, 64, [1]⟩] })] }
    let held := fun (p : Nat) => (s.coreAt s.coreNow).tlb.find? fun e => e.covers s.rootNow p
    s.Runs ∧ (s.uni 5).toNat = 3 ∧ (∀ p, p % 4096 = 0 ∧ p < 3 + 3 ∧ 3 < p + 4096 ∧ p < 0xFFFFFD * 2 ^ 40 → (held p).isSome = true) ∧
    ((0x1000 % 4096 = 0 ∧ 0x1000 < 3 + (s.uni 4).toNat ∧ 3 < 0x1000 + 4096) ∧ held 0x1000 = none) ∧
    s.coreStoresPending s.coreNow = true ∧ s.path.released = false ∧
    (let t := s.putPath { s.path with released := true }
     t.Runs ∧ t.coreStoresPending t.coreNow = true ∧ t.path.released = true) := by
  refine ⟨by unfold State.Runs; decide +kernel, by decide +kernel, fun p h => ?_, by decide +kernel, by decide +kernel,
    by decide +kernel, ?_⟩
  · have z : p = 0 := by omega
    subst z
    decide +kernel
  · unfold State.Runs; decide +kernel

/-- A mapped page of global memory, and the team's scratchpad. -/
theorem witness_UniformMemoryResults :
    let s := mapped base 0x1000 [1, 2, 3, 4]
    s.Runs ∧ s.UniClear (s.uni 4 + (0 : BitVec 13).signExtend 64) 4 false (.global [(0x1000, 4)]) ∧
    s.UniClear (s.uni 4 + (0 : BitVec 13).signExtend 64) 8 true (.global [(0x1000, 8)]) ∧
    (s.storePlace (.global [(0x1000, 8)]) (natLe 8 5)).Steady := by
  refine ⟨?_, ?_, ?_, ?_⟩
  · unfold State.Runs; decide +kernel
  · unfold State.UniClear; decide +kernel
  · unfold State.UniClear; decide +kernel
  · unfold State.Steady; decide +kernel

/-- Scratchpad offsets at either side of SPSIZE, and addresses of classes 2, 3, 4 and 5. -/
theorem witness_AddressSpaceResults :
    base.Runs ∧ 0xFFFF < base.spSize ∧ base.spSize ≤ 0x10000 ∧ spaceClass base.team.tag 0xFFFFFE000100FFFF = 2 ∧
    spaceClass base.team.tag 0xFFFFFE0001010000 = 2 ∧ base.spSize ≤ (0xFFFFFE0001010000 : BitVec 64).toNat % 2 ^ 18 ∧
    spaceClass base.team.tag 0xFFFFFE0007000000 = 3 ∧ spaceClass base.team.tag 0xFFFFFD0000000000 = 4 ∧
    spaceClass base.team.tag 0xFFFFFF0100000000 = 5 ∧ spaceClass base.team.tag 0 = 0 := ⟨base_runs, by decide +kernel⟩

theorem witness_NoActiveLaneIsFaultFree :
    let s := { base with pending := some { pinv := true } }
    s.Runs ∧ s.active = 0 ∧ s.zeroed = 0 ∧ (Instr.ldw 6 7 4 0).laneMajor.isSome = true := by
  refine ⟨?_, by decide +kernel, by decide +kernel, by decide +kernel⟩
  unfold State.Runs
  decide +kernel

/-- No lane active, and two to zero. -/
theorem witness_NoActiveLaneIsFaultFree_zeroing :
    let s := { box 3 [(6, 0, 9)] [] with pending := some { pinv := true, zm := true } }
    s.Runs ∧ s.active = 0 ∧ s.zeroed = 3 := by
  unfold State.Runs
  decide +kernel

/-! ### Lane memory -/

def isOk {ε α : Type} : Except ε α → Bool
  | .ok _ => true
  | .error _ => false

theorem exists_ok {ε α : Type} (l : List Nat) (f : Nat → Except ε α) (h : (l.all fun i => isOk (f i)) = true) : ∀ i ∈ l, ∃ a, f i = .ok a := by
  intro i hi
  have q := List.all_eq_true.mp h i hi
  cases e : f i with
  | ok a => exact ⟨a, rfl⟩
  | error _ => simp [e, isOk] at q

/-- Two lanes with addresses w4 + v7 in a mapped page, and offsets in v1. -/
def memory : State := mapped (box 3 [(7, 0, 0), (7, 1, 16), (1, 0, 0x40), (1, 1, 0x50), (2, 0, 7), (3, 0, 1)] [(4, 0x1000)]) 0x1000
  [1, 2, 3, 4]

theorem memory_runs : memory.Runs := by
  unfold State.Runs
  decide +kernel

/-- The accesses that lanes' checks give. -/
def accesses (s : State) (x : LaneAccess) : List Access := (lanesOf s.active).flatMap fun l => ((x.early s l).toOption.getD [])

/-- Everything `LaneClear` asks beside the first check of each lane, which the kernel decides. -/
theorem laneClear_intro {s : State} {x : LaneAccess} {ord : Nat} {scope : BitVec 3}
    (h : ((lanesOf s.active).all fun l => isOk (x.early s l)) = true)
    (m : s.missingPages ((accesses s x).flatMap fun a => pagesOf a.place.pieces) = [])
    (c : ∀ a ∈ accesses s x, s.checkPieces a.addr a.place.pieces x.write = none)
    (p : ∀ a ∈ accesses s x, (s.orderAcquire ord scope).poisonPieces a.place.pieces x.direct = false ∧
      (x.texel = true → s.poisonPieces a.place.pieces x.direct = false))
    (r : s.interlocked s.focus.team s.acceptSeq (ownSpans s.focus.team x.bytes ((accesses s x).map (·.place))) false = false)
    (w : s.interlocked s.focus.team s.acceptSeq (ownSpans s.focus.team x.bytes
      ((x.writers s (accesses s x)).map (·.place))) true = false)
    (o : hasRelease ord = true → wideScope scope = true → s.coreStoresPending s.coreNow = false) : s.LaneClear x ord scope (accesses s x) :=
  ⟨exists_ok _ _ h, rfl, m, c, fun _ => p, r, w, o⟩

theorem load_clear : memory.unlatched.LaneClear (loadAccess 7 4 0 (memory.bufRec 0) 4) 0 0
    (accesses memory.unlatched (loadAccess 7 4 0 (memory.bufRec 0) 4)) := by
  apply laneClear_intro <;> decide +kernel

theorem store_clear : memory.unlatched.LaneClear (storeAccess 7 4 0 (memory.bufRec 0) 4) 0 0
    (accesses memory.unlatched (storeAccess 7 4 0 (memory.bufRec 0) 4)) := by
  apply laneClear_intro <;> decide +kernel

/-- LDW of two lanes through record 0, and LDL of two words of the scratchpad (w8 is zero). -/
theorem witness_LoadResults : memory.Runs ∧ memory.active ≠ 0 ∧
    memory.unlatched.LaneClear (loadAccess 7 4 0 (memory.bufRec 0) 4) 0 0
      (accesses memory.unlatched (loadAccess 7 4 0 (memory.bufRec 0) 4)) ∧
    memory.unlatched.LaneClear (localAccess 1 8 4 false) 0 0 (accesses memory.unlatched (localAccess 1 8 4 false)) := by
  refine ⟨memory_runs, by decide +kernel, load_clear, ?_⟩
  apply laneClear_intro <;> decide +kernel

/-- What STW of the two lanes leaves. -/
def stored : State :=
  (accesses memory.unlatched (storeAccess 7 4 0 (memory.bufRec 0) 4)).foldl (fun t a =>
    t.storePlace a.place (memory.unlatched.regBytes 2 a.lane 4)) memory.unlatched

theorem witness_StoreResults : memory.Runs ∧ memory.active ≠ 0 ∧
    memory.unlatched.LaneClear (storeAccess 7 4 0 (memory.bufRec 0) 4) 0 0
      (accesses memory.unlatched (storeAccess 7 4 0 (memory.bufRec 0) 4)) ∧ stored.Steady ∧
    memory.unlatched.LaneClear (localAccess 1 8 4 true) 0 0 (accesses memory.unlatched (localAccess 1 8 4 true)) := by
  refine ⟨memory_runs, by decide +kernel, store_clear, ?_, ?_⟩
  · unfold State.Steady; decide +kernel
  · apply laneClear_intro <;> decide +kernel

/-- The one entry of the core's TLB maps both lanes' words; and the state after the stores is steady. -/
theorem witness_MemoryFrames : memory.Runs ∧ memory.active ≠ 0 ∧ memory.holdsV 6 = true ∧
    memory.unlatched.LaneClear (loadAccess 7 4 0 (memory.bufRec 0) 4) 0 0
      (accesses memory.unlatched (loadAccess 7 4 0 (memory.bufRec 0) 4)) ∧
    memory.unlatched.LaneClear (storeAccess 7 4 0 (memory.bufRec 0) 4) 0 0
      (accesses memory.unlatched (storeAccess 7 4 0 (memory.bufRec 0) 4)) ∧ stored.Steady ∧
    memory.unlatched.Mapped [.global [(0x1000, 4)], .global [(0x1010, 4)]] := by
  refine ⟨memory_runs, by decide +kernel, by decide +kernel, load_clear, store_clear, ?_, ?_⟩
  · unfold State.Steady; decide +kernel
  · have q : ∀ x < 0x200000, memory.unlatched.tlbFind memory.unlatched.coreNow memory.unlatched.rootNow x =
        some { root := 0x100000, va := 0, size := 0x200000, pa := 0, wr := true, cv := false, pte := 0x105000 } := by
      intro x hx
      have : ({ root := 0x100000, va := 0, size := 0x200000, pa := 0, wr := true, cv := false, pte := 0x105000 } : TlbEntry).covers
          0x100000 x = true := by simp [TlbEntry.covers]; omega
      show (match (([{ root := 0x100000, va := 0, size := 0x200000, pa := 0, wr := true, cv := false, pte := 0x105000 }]
        : List TlbEntry).find? fun e => e.covers 0x100000 x) with | some e => some e | none => _) = _
      simp [this]
    intro p hp q' hq i hi
    refine ⟨_, q _ ?_, fun j hj _ => q _ ?_⟩ <;>
    · simp only [List.mem_cons, List.not_mem_nil, or_false] at hp
      rcases hp with rfl | rfl <;> simp [Place.pieces] at hq <;> subst hq <;> simp at * <;> omega

/-- ATOML.ADD by two lanes of the scratchpad. -/
theorem witness_AtomicResults : memory.Runs ∧ memory.active ≠ 0 ∧
    (let x : LaneAccess := { early := single fun s l => s.localOffset 1 8 l 4, bytes := 4, write := true, reads := true, direct := true
                             writers := fun s as => (s.atomLanes 32 0 (fun _ => 1) (fun _ => 0) as).2.1 }
     memory.unlatched.LaneClear x 0 0 (accesses memory.unlatched x)) ∧
    (memory.unlatched.atomLanes 32 0 (fun _ => 1) (fun _ => 0) (accesses memory.unlatched (localAccess 1 8 4 true))).2.2.Steady := by
  refine ⟨memory_runs, by decide +kernel, ?_, ?_⟩
  · apply laneClear_intro <;> decide +kernel
  · unfold State.Steady; decide +kernel

/-- Two lanes of a deterministic launch, with global addresses. -/
theorem witness_AtomicResults_det :
    let s := { memory with nodes := [{ memory.node with det := true }] }
    s.Runs ∧ s.active ≠ 0 ∧ (lanesOf s.active).head? = some 0 ∧ s.node.det = true ∧
      ∀ l ∈ lanesOf s.active, windowOf (s.laneAddress 7 4 l) = .global ∧ isOk (s.resolve (some l) (s.laneAddress 7 4 l) 8) = true := by
  unfold State.Runs
  decide +kernel

/-- Record 1 of R413's example: a 2 by 2 FP32 image at 0x10100, in a page mapped at 0x200000. Lane 0 samples u = 0.375,
v = 0.5. -/
def imaged (w10 : Nat) : State :=
  let s := box 1 [(8, 0, 0x3EC00000), (9, 0, 0x3F000000)] [(10, w10), (12, 0x10080)]
  let s := { s with
    nodes := [{ s.node with brecbase := 0x10000 }]
    cores := [(0, { tlb := [{ root := 0x100000, va := 0x10000, size := 4096, pa := 0x200000, wr := true, cv := false, pte := 0x105080 }] })] }
  let s := s.mapFetchPage
  let s := (s.writePhys 0x200040 8 0x10100).writePhys 0x20004E 2 0x0808
  let s := (s.writePhys 0x200056 2 2).writePhys 0x200058 2 2
  let s := s.writePhys 0x200080 8 0x10400
  ((s.writePhys 0x200110 4 0x3F800000).writePhys 0x200120 4 0x40000000).writePhys 0x200130 4 0x40400000

/-- R413's table, lane 0: bilinear 1.25, nearest 2.0, and the four components that TEXG gathers. -/
theorem test_tex :
    (after (.tex 16 8 10 1) (imaged 1)).vreg 16 0 = 0x3FA00000 ∧ (after (.tex 16 8 10 1) (imaged 0)).vreg 16 0 = 0x40000000 ∧
    (List.range 4).map (fun k => (after (.texg 16 8 10 1) (imaged 1)).vreg (16 + k) 0) = [0, 0x3F800000, 0x40000000, 0x40400000] := by
  decide +kernel

/-! ### Samples -/

theorem witness_SampleResults :
    let s := imaged 1
    let u := s.unlatched
    s.Runs ∧ s.active ≠ 0 ∧
    (∃ r, s.bufRec 1 = .ok r ∧ r.imageOk = true ∧ samplerOk 1 = true ∧ windowOf (BitVec.ofNat 64 r.base) = .global ∧
      r.base % 16 = 0 ∧
      let x : LaneAccess := { early := fun _ l => r.texelPlaces l (r.sample (samplerOf 1) false 0 (u.vreg 8 l) (u.vreg 9 l)).taps
                              bytes := 0, write := false, reads := true }
      u.LaneClear x 0 0 (accesses u x)) ∧
    (windowOf (s.uni 12) = .global ∧ (s.uni 12).toNat % 64 = 0 ∧ u.missingPages (pagesOf [((s.uni 12).toNat, 16)]) = [] ∧
      ∃ bs, u.rayRead (s.uni 12).toNat 16 = .ok bs ∧ u.rayShared (rayDescOf bs) = none ∧
        let lanes := u.rayLanes (rayDescOf bs) 8 (lanesOf s.active)
        u.missingPages (pagesOf lanes.1) = [] ∧ lanes.2.2.1 = []) := by
  refine ⟨?_, by decide +kernel, ⟨bufRecOf (0x10100 + 0x0808 * 2 ^ 112 + 2 * 2 ^ 176 + 2 * 2 ^ 192), ?_, ?_⟩, ?_⟩
  · unfold State.Runs; decide +kernel
  · decide +kernel
  · refine ⟨by decide +kernel, by decide +kernel, by decide +kernel, by decide +kernel, ?_⟩
    apply laneClear_intro <;> decide +kernel
  · refine ⟨by decide +kernel, by decide +kernel, by decide +kernel, [0, 4, 1] ++ List.replicate 13 0, by decide +kernel,
      by decide +kernel, by decide +kernel⟩
/-- PRF of two mapped lanes whose page is no compressed view. -/
theorem witness_SampleResults_prf : memory.Runs ∧ memory.active ≠ 0 ∧
    (∀ l ∈ lanesOf memory.active, windowOf (memory.unlatched.laneAddress 7 4 l) = .global ∧
      (memory.unlatched.tlbFind memory.unlatched.coreNow memory.unlatched.rootNow
        (memory.unlatched.laneAddress 7 4 l).toNat).map (·.cv) = some false ∧
      (memory.unlatched.tlbFind memory.unlatched.coreNow memory.unlatched.rootNow
        ((memory.unlatched.laneAddress 7 4 l).toNat / 4096 * 4096)).isSome = true) :=
  ⟨memory_runs, by decide +kernel, by decide +kernel⟩

/-! ### Team-level instructions and engines -/

/-- Two groups of a team: the phase stays open; and one group alone: it completes. Barrier 3 has this group's arrival. -/
theorem witness_BarrierResults :
    let two := machine [grp 3 [(3, 0, 7)] [], grp 3 [] []]
    let came := two.putTeam { two.team with barriers := [(3, { arrived := 1 })] }
    (two.Runs ∧ two.group.trap = none ∧
      (((two.arrive 0 0 []).park (.barrier 0 .none)).teamAt 0).phaseReady 0 = false ∧
      (((two.arrive 0 0 []).issued (two.nextPc 1)).teamAt 0).phaseReady 0 = false ∧ (two.team.barrier 15).arrived.getLsbD 0 = false) ∧
    (base.Runs ∧ base.group.trap = none ∧ (((base.arrive 15 0 []).park (.barrier 15 .none)).teamAt 0).phaseReady 15 = true ∧
      (((base.arrive 0 0 []).issued (base.nextPc 1)).teamAt 0).phaseReady 0 = true) ∧
    (came.Runs ∧ (came.team.barrier 3).arrived.getLsbD came.focus.group = true) := by
  unfold State.Runs
  decide +kernel

theorem witness_ReductionResults :
    let x : Barrier := { contributions := [(0, 0, [(0, 5), (63, 7)])] }
    (x.values.map (·.2) ≠ []) ∧ (({} : Barrier).values.map (·.2) = []) ∧ (63 : BitVec 6) ≠ 0 ∧
    ({ regs := 4, uregs := 8 } : Variant).hasW (7 : BitVec 6).toNat = true ∧ ({ regs := 4 } : Variant).hasV (3 : BitVec 7).toNat = true ∧
    (grp 1 [] []).trap = none ∧ 63 < 64 ∧ (BitVec.twoPow 64 63).getLsbD 63 = true ∧ (BitVec.twoPow 64 63).getLsbD 0 = false := by
  decide +kernel

/-- A running job of batch 1, a failed one, and none. -/
theorem witness_BatchResults :
    let running : State := { base with cores := [(0, { copyQ := [{ seq := 0, team := 0, group := 0, batch := 1, card := 0 }] })] }
    let failed := base.putTeam { base.team with faults :=
      [{ seq := 0, group := 0, batch := 1, reason := 0x11, taddr := 0x10, resumable := false }] }
    (running.Runs ∧ running.group.trap = none ∧ (running.resumeJobs (running.uni 5)).runningJobs (running.uni 5) ≠ []) ∧
    (failed.Runs ∧ (failed.resumeJobs (failed.uni 5)).runningJobs (failed.uni 5) = [] ∧
      ((failed.resumeJobs (failed.uni 5)).nextFault (failed.uni 5)).isSome = true) ∧
    (base.Runs ∧ (base.resumeJobs (base.uni 5)).runningJobs (base.uni 5) = [] ∧
      (base.resumeJobs (base.uni 5)).nextFault (base.uni 5) = none ∧ (base.resumeJobs 0).nextFault 0 = none) := by
  unfold State.Runs
  decide +kernel

/-- Eight words of card at w4 that lead to mapped global memory; one queue is full, the other empty. -/
def carded (queue : Nat) (n : Nat) : State :=
  let s := mapped (box 15 [] [(4, 0x1000), (5, n)]) 0x1000 []
  { s with cores := [(0, { s.coreAt 0 with
      copyQ := List.replicate queue { seq := 0, team := 0, group := 0, batch := 1, card := 0 } })] }

theorem carded_clear (k : Nat) (h : k = 5 ∨ k = 8) : (carded 0 1).LoadsClear (wordsAt 0x1000 k)
    ((List.range k).map fun i => .global [(0x1000 + 8 * i, 8)]) := by
  rcases h with rfl | rfl <;> (unfold State.LoadsClear; decide +kernel)

theorem witness_JobIssueResults :
    (base.Runs ∧ base.group.trap = none ∧ (base.cardReason (cardOf (BitVec.allOnes 320))).isSome = true ∧ (base.uni 0).toNat = 0 ∧
      64 < (base.uni 4).toNat ∧ (base.uni 5).toNat % 8 ≠ 0 ∧ (base.uni 5).toNat % 64 ≠ 0) ∧
    ((carded 0 1).Runs ∧ (carded 0 1).group.trap = none ∧ (carded 0 1).uni 4 = 0x1000 ∧ (carded 0 1).uni 5 = 1 ∧
      (carded 0 1).cardReason (cardOf 0) = none ∧ ((carded 0 1).coreAt (carded 0 1).coreNow).copyQ.length < 64 ∧
      ((carded 0 1).acceptCopies [0]).Steady ∧
      (carded 0 1).LoadsClear (wordsAt 0x1000 5) ((List.range 5).map fun i => .global [(0x1000 + 8 * i, 8)]) ∧
      (carded 0 1).LoadsClear (wordsAt 0x1000 8) ((List.range 8).map fun i => .global [(0x1000 + 8 * i, 8)]) ∧
      (carded 0 1).dcmpCount 0 < 64) ∧
    ((carded 64 1).Runs ∧ ((carded 64 1).coreAt (carded 64 1).coreNow).copyQ.length = 64 ∧
      (carded 64 1).cardReason (cardOf 0) = none) ∧
    (let s := { carded 0 1 with clusters := [(0, { dcmpQ := List.replicate 64 { seq := 0, team := 0, group := 0, batch := 1, card := 0 } })] }
     s.Runs ∧ 64 ≤ s.dcmpCount s.focus.team ∧
      s.LoadsClear (wordsAt 0x1000 8) ((List.range 8).map fun i => .global [(0x1000 + 8 * i, 8)])) := by
  refine ⟨?_, ⟨?_, ?_, ?_, ?_, ?_, ?_, ?_, carded_clear 5 (.inl rfl), carded_clear 8 (.inr rfl), ?_⟩, ?_, ?_⟩
  · refine ⟨base_runs, ?_⟩; decide +kernel
  · unfold State.Runs; decide +kernel
  · decide +kernel
  · decide +kernel
  · decide +kernel
  · decide +kernel
  · decide +kernel
  · unfold State.Steady; decide +kernel
  · decide +kernel
  · unfold State.Runs; decide +kernel
  · unfold State.Runs State.LoadsClear; decide +kernel

/-- CPYQ of two cards, the first good, the second not; and of one card before a full queue. -/
theorem witness_JobIssueResults_cards :
    (let s := { carded 0 2 with mem := memWrite [] 0x1028 (List.replicate 40 0xFF) }
     let ps := (List.range 10).map fun i => Place.global [(0x1000 + 8 * i, 8)]
     s.Runs ∧ (s.uni 5).toNat = 2 ∧ s.LoadsClear (wordsAt 0x1000 10) ps ∧
      ((cardsOf 2 (ps.flatMap fun p => s.loadPlace p 8)).map fun c => (s.cardReason (cardOf c)).isSome) = [false, true]) ∧
    (let s := carded 64 1
     s.Runs ∧ 64 < (s.coreAt s.coreNow).copyQ.length + (s.uni 5).toNat ∧
      s.LoadsClear (wordsAt 0x1000 5) ((List.range 5).map fun i => .global [(0x1000 + 8 * i, 8)])) := by
  unfold State.Runs State.LoadsClear
  decide +kernel

/-- A team whose ring 0 is declared, empty or holding one entry, or full; its ensemble has slot 0 alone. -/
def ringed (head tail : BitVec 32) : State :=
  let s := box 1 [] [(4, 0x40), (5, 4096), (6, 3), (7, 1)]
  s.putTeam { s.team with rings := [(0, { base := 0x100, capacity := 1, head := head, tail := tail, declared := true })] }

theorem witness_RingResults :
    ((ringed 0 0).Runs ∧ (ringed 0 0).group.trap = none ∧ (((ringed 0 0).uni 5).toNat = 2 ^ 12 ∧ (0x40 + 16 * 64 ≤ (ringed 0 0).spSize)) ∧
      ((ringed 0 0).uni 4).toNat % 16 = 0 ∧ ((ringed 0 0).uni 6).toNat = 3 ∧ ((ringed 0 0).team.ring 0).used = 0 ∧
      (ringed 0 0).team.ensTeams ≤ ((ringed 0 0).uni 7).toNat ∧ ((ringed 0 0).uni 0).toNat < (ringed 0 0).team.ensTeams ∧
      (ringed 0 0).slotTeam 0 = some 0 ∧ ((ringed 0 0).teamAt 0).alive = true ∧ (ringed 0 0).node.det = false ∧
      ((ringed 0 0).team.barrier 16).draining = false ∧ ((ringed 0 0).team.ring 0).used ≠ ((ringed 0 0).team.ring 0).capacity ∧
      ((ringed 0 0).team.ring 1).declared = false ∧
      (ringed 0 0).interlocked 0 (ringed 0 0).acceptSeq [⟨((ringed 0 0).team.ring 0).entryAt 0, 16⟩] true = false) ∧
    (let d := (ringed 0 0).drainCore 0
     ((d.setTeam 0 ((d.teamAt 0).pushRing 0 5)).wake 0 fun _ => true).Steady) ∧
    ((ringed 0 1).Runs ∧ ((ringed 0 1).team.ring 0).used = ((ringed 0 1).team.ring 0).capacity ∧ ((ringed 0 1).team.ring 0).used ≠ 0 ∧
      (ringed 0 1).entryBusy 0 = none ∧ ((ringed 0 1).team.ring 0).spoiled = false) ∧
    (let s := (ringed 0 0).putTeam { (ringed 0 0).team with ensTeams := 2 }
     s.Runs ∧ (s.uni 7).toNat < s.team.ensTeams ∧ s.slotTeam 1 = none) := by
  refine ⟨?_, ?_, ?_, ?_⟩
  · unfold State.Runs; decide +kernel
  · unfold State.Steady; decide +kernel
  · unfold State.Runs; decide +kernel
  · unfold State.Runs; decide +kernel

/-- A ring of a deterministic launch, bound to another sender, to this one and to none, with room and full. -/
theorem witness_RingResults_det (n : Option (Nat × Nat)) (h : n = none ∨ n = some (0, 0) ∨ n = some (0, 1)) (tail : BitVec 32)
    (f : tail = 0 ∨ tail = 1) :
    let s := { ringed 0 tail with nodes := [{ (ringed 0 tail).node with det := true }] }
    let s := s.putTeam (s.team.setRing 0 { s.team.ring 0 with sender := n })
    s.Runs ∧ s.node.det = true ∧ s.slotTeam 0 = some 0 ∧ (s.team.ring 0).declared = true ∧ (s.team.barrier 16).draining = false ∧
      (s.team.ring 0).sender = n ∧ decide ((s.team.ring 0).used = (s.team.ring 0).capacity) = decide (tail = 1) ∧
      s.interlocked 0 s.acceptSeq [⟨(s.team.ring 0).entryAt (s.team.ring 0).tail, 16⟩] true = false := by
  unfold State.Runs
  rcases h with rfl | rfl | rfl <;> rcases f with rfl | rfl <;> decide +kernel

/-- A node whose edge 0 and edge 8 lead to one record, in a page mapped at 0x200000: stream or one-shot, with a count of
tokens in two places, closed or open. -/
def edged (stream : Nat) (tail : Nat) (closed : Nat) (det : Bool) (staged : Nat) : State :=
  let s := box 1 [] [(4, 1), (5, 2)]
  let s := s.putTeam { s.team with tokens := List.replicate staged (0, 8, 0) }
  let s := { s with nodes := [{ s.node with edges := 0x10200 :: List.replicate 7 0 ++ [0x10200], det := det }] }
  let s := (s.mapFetchPage.writePhys 0x200200 8 0x10300).writePhys 0x200208 2 (1 + 256 * stream)
  (s.writePhys 0x200210 4 tail).writePhys 0x200218 1 closed

theorem witness_EdgeResults :
    (base.Runs ∧ base.group.trap = none ∧ base.node.edge 0 = none ∧ base.node.edge 15 = none) ∧
    ((edged 0 0 0 false 0).Runs ∧ (edged 0 0 0 false 0).node.edge 8 = some 0x10200 ∧
      ((edged 0 0 0 false 0).edgeAt 0x100000 0x10200).toOption.map (·.stream) = some false) ∧
    ((edged 1 0 0 false 0).Runs ∧ (edged 1 0 0 false 0).rootNow = 0x100000 ∧
      ((edged 1 0 0 false 0).edgeAt 0x100000 0x10200).toOption.map (fun r => (r.stream, r.freeSlots, r.tokens, r.closed))
        = some (true, 2, 0, false)) ∧
    (match (edged 1 0 0 false 0).edgeAt 0x100000 0x10200 with
      | .ok r => isOk (((edged 1 0 0 false 0).drainCore 0).pushToken 0x100000 0x10200 r 5)
      | .error _ => false) = true ∧
    ((edged 1 2 0 false 0).edgeAt 0x100000 0x10200).toOption.map (fun r => (r.stream, r.freeSlots)) = some (true, 0) ∧
    ((edged 1 0 1 false 0).edgeAt 0x100000 0x10200).toOption.map (fun r => (r.stream, r.tokens, r.closed)) = some (true, 0, true) ∧
    (isOk ((edged 1 1 0 false 0).deviceNat 0x100000 0x10300 16) = true ∧
      isOk ((edged 1 1 0 false 0).deviceWrite 0x100000 (0x10200 + 20) (natLe 4 1)) = true) ∧
    ((edged 1 0 0 true 15).Runs ∧ (edged 1 0 0 true 15).node.det = true ∧ (edged 1 0 0 true 15).team.tokens.length < 16) ∧
    ((edged 1 0 0 true 16).Runs ∧ 16 ≤ (edged 1 0 0 true 16).team.tokens.length) := by
  refine ⟨⟨base_runs, by decide +kernel⟩, ?_, ?_, by decide +kernel, by decide +kernel, by decide +kernel, by decide +kernel, ?_, ?_⟩ <;>
    (unfold State.Runs; decide +kernel)

/-- ETAKE in a deterministic launch: by group 1, by group 0 behind an earlier team, and in its turn. -/
theorem witness_EdgeResults_det :
    let s := edged 1 1 0 true 0
    let two := s.putTeam { s.team with groups := s.team.groups ++ s.team.groups }
    let one := { two with focus := { two.focus with group := 1 } }
    let behind : State := { s with teams := s.teams.map (fun t => { t with rank := 1 }) ++ s.teams }
    (one.Runs ∧ one.group.trap = none ∧ one.focus.group ≠ 0 ∧ one.node.det = true) ∧
    (behind.Runs ∧ behind.focus.group = 0 ∧ behind.curveTurn behind.focus.team = false) ∧
    s.curveTurn s.focus.team = true := by
  unfold State.Runs
  decide +kernel

/-- A team whose node allows some variants: 0 is the running one, 1 asks for the same, 2 for more registers than stand free. -/
def variants (allowed : BitVec 4) (det : Bool) (regs : Nat) : State :=
  { base with nodes := [{ base.node with allowed := allowed, det := det, image := { variants :=
      [(0, some { regs := 128, uregs := 64, groups := 1, acc := 16, scratch := 65536 }),
       (1, some { regs := regs, uregs := 64, groups := 1, acc := 16, scratch := 65536 })] } }] }

theorem witness_VariantRequestResults :
    ((variants 1 true 128).Runs ∧ (variants 1 true 128).group.trap = none ∧ (variants 1 true 128).node.det = true) ∧
    ((variants 1 false 128).Runs ∧ (variants 1 false 128).node.allowed.getLsbD 1 = false ∧
      (variants 1 false 128).node.allowed.getLsbD 0 = true ∧ (0 : BitVec 2) = (variants 1 false 128).team.variant) ∧
    (let s := variants 3 false 128
     s.Runs ∧ s.node.allowed.getLsbD 1 = true ∧ (1 : BitVec 2) ≠ s.team.variant ∧
      ((s.setRequest { target := 1, valid := true }).tryGrantTeam 0).1 = true) ∧
    (let s := variants 3 false 1000000
     s.Runs ∧ ((s.setRequest { target := 1, valid := true }).tryGrantTeam 0).1 = false) ∧
    (base.group.singlePath = true ∧ base.node.priv = 0) ∧
    (let s := machine [{ grp 15 [] [] with path1 := some { pc := 0x10000, mask := 16 } }]
     s.Runs ∧ s.group.singlePath = false) ∧
    (let x := base.team.barrier 16
     let w := (base.putTeam (base.team.setBarrier 16 { x with arrived := 1, points := [(0, 15)] })).park (.switchPoint 15)
     (w.teamAt 0).phaseReady 16 = true ∧ ((w.teamAt 0).barrier 16).draining = false ∧
      ((w.teamAt 0).barrier 16).samePoint = some 15 ∧ w.switchConditions 0 15 = false) ∧
    (let s := machine [grp 15 [] [], grp 15 [] []]
     let w := (s.putTeam (s.team.setBarrier 17 { arrived := 1 })).park (.regroup 5 15)
     s.Runs ∧ (w.teamAt 0).phaseReady 17 = false) := by
  unfold State.Runs
  decide +kernel

/-- The last group arrives at a switch point that both variants declare, with a request granted at once. -/
theorem witness_VariantRequestResults_switch :
    let vs : NMap (Option Variant) := [(0, some { regs := 8, uregs := 8, groups := 1, swMask := 1 }),
      (1, some { regs := 4, uregs := 8, groups := 1, swMask := 1 })]
    let s : State := { base with
      regions := [(0, { base.region with save := 0x400000, saveSize := 0x100000 })]
      nodes := [{ base.node with image := { variants := vs, maps := [(0, [])] } }] }
    let s := s.putTeam { s.team with request := { target := 1, valid := true } }
    let w := (s.putTeam (s.team.setBarrier 16 { arrived := 1, points := [(0, 0)] })).park (.switchPoint 0)
    s.Runs ∧ s.group.trap = none ∧ (w.teamAt 0).phaseReady 16 = true ∧ ((w.teamAt 0).barrier 16).draining = false ∧
      ((w.teamAt 0).barrier 16).samePoint = some 0 ∧ w.switchConditions 0 0 = true ∧ (w.tryGrantTeam 0).1 = true := by
  unfold State.Runs
  decide +kernel

/-- A switch point whose conditions hold, to a variant whose registers are not free. -/
theorem witness_VariantRequestResults_refused :
    let vs : NMap (Option Variant) := [(0, some { regs := 8, uregs := 8, groups := 1, swMask := 1 }),
      (1, some { regs := 2000, uregs := 8, groups := 1, swMask := 1 })]
    let s : State := { base with
      regions := [(0, { base.region with save := 0x400000, saveSize := 0x10000000 })]
      nodes := [{ base.node with image := { variants := vs, maps := [(0, [])] } }] }
    let s := s.putTeam { s.team with request := { target := 1, valid := true } }
    let w := (s.putTeam (s.team.setBarrier 16 { arrived := 1, points := [(0, 0)] })).park (.switchPoint 0)
    s.Runs ∧ (w.teamAt 0).phaseReady 16 = true ∧ ((w.teamAt 0).barrier 16).draining = false ∧
      ((w.teamAt 0).barrier 16).samePoint = some 0 ∧ w.switchConditions 0 0 = true ∧ (w.tryGrantTeam 0).1 = false := by
  unfold State.Runs
  decide +kernel

/-! ### Engines at issue -/

/-- The first state, with operands at w4 to w7, granule and tile tags, and operations in the matrix queue. -/
def engines (w : List (Nat × Nat)) (gtags : List (Nat × Word)) (tile : TileTag) (queue : List MatrixOp) : State :=
  let s := box 15 [] w
  { s.putTeam { s.team with gtags := gtags, ttags := mapSet {} [] 1 tile } with cores := [(0, { matrixQ := queue })] }

/-- An MMA on tile 1 that stands in the queue. -/
def queuedMma : MatrixOp :=
  { seq := 0, team := 0, group := 0, batch := 1, tile := 1, masks := List.replicate 8 (BitVec.allOnes 32)
    kind := .mma true ⟨0, 96, 1, 0, 0, none⟩ ⟨0x1000, 96, 1, 0, 0, none⟩ }

/-- Rows of INT8, 96 bytes each; an FP8 operand beside them; spectral rows of 64 bytes; and a card of ACCST. -/
def intRows : State := engines [(4, 0x0001006000000000), (6, 0x0001006000001000), (8, 0x000B006000000000)] [] {} []
def spectralRows (tile : TileTag) : State :=
  engines [(4, 0x0010004000000000), (5, 0xFFFFFFFF00000000), (6, 0x0010004000001000), (7, 0xFFFFFFFF00000000)]
    [(0, 1), (1, 1), (4, 1)] tile []

theorem witness_MatrixIssueResults :
    (intRows.Runs ∧ intRows.group.trap = none ∧ (intRows.coreAt intRows.coreNow).matrixQ.length < 8 ∧
      goodPair (intRows.blockAt 4).fmt (intRows.blockAt 8).fmt = false ∧ goodPair (intRows.blockAt 4).fmt (intRows.blockAt 6).fmt = true ∧
      (intRows.blockAt 4).reservedBad 96 false = false ∧ (intRows.blockAt 6).reservedBad 96 false = false ∧
      (intRows.blockAt 4).misaligned 96 false = none ∧ (intRows.blockAt 6).misaligned 96 false = none ∧
      (let spans := (intRows.blockAt 4).block.footprint 96 false (intRows.group.mask 0) ++
        (intRows.blockAt 6).block.footprint 96 false (intRows.group.mask 1)
       Within spans intRows.spSize ∧ intRows.tagPending 0 intRows.acceptSeq (granulesOf spans) = false ∧
        ∀ g ∈ granulesOf spans, (intRows.team.gtag g).getLsbD 0 = false) ∧
      depthOf (intRows.blockAt 4).fmt.toNat (intRows.blockAt 6).fmt.toNat = 96 ∧ intRows.hasTile 1 = true) := by
  unfold State.Runs Within
  decide +kernel

/-- Spectral operands of one tag, a tile of that tag and a spatial one. -/
theorem witness_MatrixIssueResults_spectral (tile : TileTag) (h : tile = {} ∨ tile = { spectral := true }) :
    let s := spectralRows tile
    let rows := maskRows (s.group.mask 0) 0
    let sa := rows.map fun i => Span.mk ((s.blockAt 4).off + i * (s.blockAt 4).stride) 64
    let sb := [Span.mk (s.blockAt 6).off 64]
    s.Runs ∧ s.group.trap = none ∧ (s.blockAt 4).mmasBad = false ∧ (s.blockAt 6).mmasBad = false ∧
      mmasMisaligned (s.blockAt 4) (s.blockAt 6) = none ∧ Within (sa ++ sb) s.spSize ∧
      s.tagPending 0 s.acceptSeq (granulesOf (sa ++ sb)) = false ∧ s.team.badGranule (granulesOf sa) = none ∧
      s.team.badGranule (granulesOf sb) = none ∧ (granulesOf sa).head?.map s.team.gtag = some 1 ∧
      s.team.gtag ((granulesOf sb).headD 0) = 1 ∧ tagLogb 1 = 0 ∧
      (∀ i ∈ rows, ((s.blockAt 4).off + i * (s.blockAt 4).stride) % 32 = 64 * i % 32 ∧ (s.blockAt 6).off % 32 = 64 * i % 32) ∧
      s.tileTag 1 = tile := by
  rcases h with rfl | rfl <;> (unfold State.Runs Within; decide +kernel)

/-- ACCST of FP32 with rows of 128 bytes, and a format it does not take. -/
theorem witness_MatrixIssueResults_store :
    let s := engines [(4, 0x0008008000000000), (5, 0x0002008000000000)] [] {} []
    s.Runs ∧ s.group.trap = none ∧ accstSize ((s.uni 5).extractLsb' 48 8) = none ∧ accstSize ((s.uni 4).extractLsb' 48 8) = some 4 ∧
      (s.uni 4).toNat / 2 ^ 56 = 0 ∧ (s.uni 4).toNat / 2 ^ 32 % 2 ^ 16 = 128 ∧ (s.uni 4).toNat % 2 ^ 32 = 0 ∧
      Within ((maskRows (s.group.mask 0) 0).flatMap fun i => (maskRows (s.group.mask 1) 0).map fun j =>
        ⟨0 + i * 128 + j * 4, 4⟩) s.spSize := by
  unfold State.Runs Within
  decide +kernel

/-- The row's first element 0 and 960, 5 that starts no half row; an idle tile, a busy one, and one outside the budget. -/
theorem witness_AccumulatorResults :
    let s := engines [(4, 0), (5, 960), (6, 5)] [] {} []
    let busy := engines [(4, 0), (5, 960)] [] {} [queuedMma]
    let small := { s with nodes := [{ s.node with image := { variants := [(0, some { regs := 4, uregs := 8, groups := 1, acc := 1 })] } }] }
    (s.Runs ∧ s.group.trap = none ∧ (s.uni 4).toNat % 64 = 0 ∧ (s.uni 5).toNat < 1024 ∧ (s.uni 5).toNat % 64 = 0 ∧
      (s.uni 6).toNat % 64 ≠ 0 ∧ ((s.uni 5).toNat + 63) / 32 < s.watermark 0 1 ∧ s.tileBusy 0 1 = false ∧ s.hasTile 1 = true) ∧
    (busy.Runs ∧ busy.watermark 0 1 ≤ ((busy.uni 4).toNat + 63) / 32 ∧ busy.tileBusy 0 1 = true) ∧
    (small.Runs ∧ small.tileBusy 0 1 = false ∧ small.hasTile 1 = false) := by
  unfold State.Runs
  decide +kernel

/-- Descriptors at w4 (spatial FP32), w5 (spectral) and w6 (spatial, one vector), of vectors of 16 elements. -/
def vectors (tile : TileTag) : State :=
  engines [(4, 0x0008004000000000), (5, 0x0010002000041000), (6, 0x0008004000042000), (7, 0x0010002000001400)] [(5, 1)] tile []

/-- The clauses of `TransformClear` with the two kinds of source tags told apart by hand. -/
theorem transformClear_intro {s : State} {x : Transform} (src gs : _) (hs : src = x.src.toList.flatMap fun y => y.spans x.len x.dst.desc.count)
    (hg : gs = granulesOf src)
    (a : ∀ y ∈ x.dst :: x.src.toList, y.fieldsBad ((if x.tile.isSome then 1024 else 16384) / x.len) x.shift = false ∧
      y.misaligned x.len = none)
    (b : ∀ y ∈ x.dst.spans x.len x.dst.desc.count ++ src, y.start + y.len ≤ s.spSize) (c : x.tile ≠ some false)
    (d : s.tagPending s.focus.team s.acceptSeq gs = false)
    (e : (x.src.any (·.spectral) = true ∧ s.team.badGranule gs = none) ∨
      (x.src.any (·.spectral) = false ∧ ∀ g ∈ gs, (s.team.gtag g).getLsbD 0 = false))
    (f : ∀ g ∈ gs, g ∉ granulesOf (x.dst.spans x.len x.dst.desc.count))
    (h : (s.coreAt s.coreNow).transformQ.length < 2) : s.TransformClear x := by
  subst hs hg
  refine ⟨a, fun y m => b y (List.mem_append.mpr (.inl m)), fun y m => b y (List.mem_append.mpr (.inr m)), c, d, ?_, f, h⟩
  rcases e with ⟨e, g⟩ | ⟨e, g⟩ <;> simpa [e] using g

theorem vectors_runs : (vectors { spectral := true }).Runs := by
  unfold State.Runs
  decide +kernel

/-- One vector for XFT and IXFT, from the tile and from granule 5, and for XACT with and without a bias. -/
theorem witness_TransformIssueResults :
    let s := vectors { spectral := true }
    s.Runs ∧ s.group.trap = none ∧ (s.tileTag 1).spectral = true ∧ (s.tileTag 1).logb = 0 ∧
    s.TransformClear { len := 16, tile := none, dst := { desc := s.descAt 5, spectral := true, dest := true }
                       src := some { desc := s.descAt 4, spectral := false }, shift := true, kind := .xft (s.descAt 4) } ∧
    s.TransformClear { len := 16, tile := some true, dst := { desc := s.descAt 6, spectral := false, dest := true }
                       src := none, shift := false, kind := .ixftTile 1 0 } ∧
    s.TransformClear { len := 16, tile := some true, dst := { desc := s.descAt 5, spectral := true, dest := true }
                       src := none, shift := true, kind := .xact 1 0 1 none } ∧
    s.TransformClear { len := 16, tile := some true, dst := { desc := s.descAt 5, spectral := true, dest := true }
                       src := some { desc := s.descAt 4, spectral := false, bias := true }, shift := true
                       kind := .xact 1 0 1 (some (s.descAt 4)) } ∧
    s.tagPending 0 s.acceptSeq [(s.descAt 7).off / 1024] = false ∧
    s.TransformClear { len := 16, tile := none, dst := { desc := s.descAt 6, spectral := false, dest := true }
                       src := some { desc := s.descAt 7, spectral := true }, shift := false
                       kind := .ixftScratch (s.descAt 7) (tagExp 1) } := by
  refine ⟨vectors_runs, by decide +kernel, by decide +kernel, by decide +kernel, ?_, ?_, ?_, ?_, by decide +kernel, ?_⟩ <;>
    (refine transformClear_intro _ _ rfl rfl ?_ ?_ ?_ ?_ ?_ ?_ ?_ <;> decide +kernel)

/-- Offsets inside (0xFFFF) and outside (0x10000) the scratchpad, values that are tags (1, 9) and not (2, 11), and a
granule that an accepted MMA reads. -/
theorem witness_GranuleTagResults :
    let s := engines [(4, 0xFFFF), (5, 0x10000), (6, 9), (7, 11)] [] {} [queuedMma]
    s.Runs ∧ s.group.trap = none ∧ (s.uni 4).toNat < s.spSize ∧ s.spSize ≤ (s.uni 5).toNat ∧
      s.tagPending 0 s.acceptSeq [(s.uni 4).toNat / 1024] = false ∧
      ({ s with acceptSeq := 1 } : State).tagPending 0 1 [0] = true ∧
      ((s.uni 6).toNat % 2 = 1 ∧ (s.uni 6).toNat / 2 % 8 ≤ 4 ∧ (s.uni 6).toNat / 2 ^ 12 = 0) ∧
      ((s.uni 7).toNat % 2 = 1 ∧ ¬(s.uni 7).toNat / 2 % 8 ≤ 4) ∧ s.uni 0 = 0 := by
  unfold State.Runs
  decide +kernel

/-! ### Memoisation -/

/-- One lane with an open region of handle 2, bound to slot 3: a table of 8-byte keys. -/
def pureIn (r : PureRegion) (m : MemoSlot) (policy : Nat) : State :=
  let s := machine [{ grp 1 [(1, 0, 7)] [(4, 0x40), (5, 8), (6, 1)] with
    path0 := some { pc := 0x10000, mask := 1, region := some r } }]
  { s with
    nodes := [{ s.node with memo := [255, 255, 3], image := { s.node.image with
      memo := [{ handle := 2, logent := 2, ways := 1, keyb := 8, outb := 0, home := m.home, wayMask := 0, mode := 0, policy := policy }] } }]
    regions := [(0, { s.region with slots := [(3, some m)], cores := 1 })] }

def groupRegion : PureRegion := { handle := 2, cls := 0, gran := 2, cost := 1 }
def slot8 : MemoSlot := { keyb := 8, home := 1 }

theorem inRegion_of {s : State} {r : PureRegion} (h : (s.live && s.group.trap.isNone && !s.singleStep s.region && s.path.region == some r) = true) :
    s.InRegion r := by
  unfold State.InRegion
  simp only [Bool.and_eq_true, Option.isNone_iff_eq_none, Bool.not_eq_true', beq_iff_eq] at h
  exact ⟨h.1.1.1, h.1.1.2, h.1.2, h.2⟩

/-- Lane and group granularity, and a tile region whose MKEYT operands are keyed. -/
theorem witness_KeyingResults :
    ((pureIn { groupRegion with gran := 0 } slot8 0).InRegion { groupRegion with gran := 0 } ∧ groupRegion.looked = false) ∧
    ((pureIn groupRegion slot8 0).InRegion groupRegion ∧ groupRegion.unkeyed { wr := [0, 0] } = none ∧ groupRegion.gran ≠ 3) ∧
    (let r := { groupRegion with gran := 3, keyed := { w := 0x30 } }
     let s := pureIn r slot8 0
     s.InRegion r ∧ r.unkeyed { wr := [4, 5] } = none ∧ (s.uni 4).toNat < 2 ^ 18 ∧ (s.uni 5).toNat ≠ 0 ∧
      (s.uni 4).toNat + (s.uni 5).toNat ≤ s.spSize ∧ (s.uni 4).toNat % 4 = 0 ∧ (s.uni 5).toNat % 4 = 0 ∧
      s.interlocked s.focus.team s.acceptSeq [⟨(s.uni 4).toNat, (s.uni 5).toNat⟩] false = false) := by
  refine ⟨⟨inRegion_of ?_, ?_⟩, ⟨inRegion_of ?_, ?_⟩, inRegion_of ?_, ?_⟩ <;> decide +kernel

theorem witness_RegionTraps :
    (base.Runs ∧ base.group.trap = none) ∧ (pureIn groupRegion slot8 0).InRegion groupRegion ∧ groupRegion.looked = false ∧
    (pureIn { groupRegion with looked := true } slot8 0).InRegion { groupRegion with looked := true } := by
  refine ⟨⟨base_runs, ?_⟩, inRegion_of ?_, ?_, inRegion_of ?_⟩ <;> decide +kernel

/-- The region keyed with one word, before its MLOOK, and behind an MLOOK that missed. -/
def keyedRegion : PureRegion := { groupRegion with keys := [(0, { halves := [1, 2, 3, 4] })] }
def missedRegion : PureRegion := { keyedRegion with looked := true, units := 1 }

/-- The table once that region has ended and its unit is inserted. -/
def filled : MemoSlot := ((after .mend (pureIn missedRegion slot8 0)).memoSlot 0 3).getD {}

/-- Every member of the witness's `declared`. -/
def isDeclared (s : State) (d : MemoDecl) (m : MemoSlot) : Prop :=
  s.node.image.memoDecl 2 = some d ∧ s.boundSlot s.node 2 = some 3 ∧ s.memoSlot s.node.region 3 = some m

def decl8 (home policy : Nat) : MemoDecl :=
  { handle := 2, logent := 2, ways := 1, keyb := 8, outb := 0, home := home, wayMask := 0, mode := 0, policy := policy }

/-- No region, on a handle declared and not declared, and with the sibling's region open. -/
theorem witness_LookupResults_begin :
    let s := pureIn groupRegion slot8 0
    let t := s.putPath { s.path with region := none }
    let u := t.putGroup { t.group with path1 := some { pc := 0x10000, mask := 2, region := some groupRegion } }
    (t.Runs ∧ t.group.trap = none ∧ t.node.image.memoDecl 1 = none ∧ isDeclared t (decl8 1 0) slot8 ∧
      ((t.group.slot (!t.focus.slot)).bind (·.region)) = none) ∧
    (u.Runs ∧ u.group.trap = none ∧ isDeclared u (decl8 1 0) slot8 ∧
      ((u.group.slot (!u.focus.slot)).bind (·.region)).isSome = true) := by
  unfold State.Runs isDeclared
  decide +kernel

/-- MLOOK with keys of a wrong size, on an empty table, and on the filled one. -/
theorem witness_LookupResults_look :
    let looked := fun (s : State) (r : PureRegion) (m : MemoSlot) => (unitsOf r.gran s.path.mask).foldl
      (State.lookUnit (memoDetRefuses s.node.det r.cls.toNat m) 3)
      (s, { r with epoch := (m.instanceAt s.coreNow).epoch, units := s.path.mask, looked := true })
    ((pureIn groupRegion slot8 0).InRegion groupRegion ∧ isDeclared (pureIn groupRegion slot8 0) (decl8 1 0) slot8 ∧
      groupRegion.sizesWrong (decl8 1 0) 1 = true) ∧
    ((pureIn keyedRegion slot8 0).InRegion keyedRegion ∧ isDeclared (pureIn keyedRegion slot8 0) (decl8 1 0) slot8 ∧
      keyedRegion.sizesWrong (decl8 1 0) 1 = false ∧ keyedRegion.gran ≠ 3 ∧
      (looked (pureIn keyedRegion slot8 0) keyedRegion slot8).2.hit ≠ 1) ∧
    ((pureIn keyedRegion filled 0).InRegion keyedRegion ∧ isDeclared (pureIn keyedRegion filled 0) (decl8 1 0) filled ∧
      keyedRegion.sizesWrong (decl8 1 0) 1 = false ∧ (looked (pureIn keyedRegion filled 0) keyedRegion filled).2.hit = 1) := by
  unfold isDeclared
  refine ⟨⟨inRegion_of ?_, ?_⟩, ⟨inRegion_of ?_, ?_⟩, inRegion_of ?_, ?_⟩ <;> decide +kernel

/-- MEND with an output that was never written, in a table whose policy inserts, and in one whose policy does not. -/
theorem witness_LookupResults_end :
    let bad := { missedRegion with outputs := [.uniform 5] }
    let inserts := fun (d : MemoDecl) (s : State) => d.policy = 0 ∧ (slot8.instanceAt s.coreNow).epoch = missedRegion.epoch ∧
      memoDetRefuses s.node.det missedRegion.cls.toNat slot8 = false
    ((pureIn bad slot8 0).InRegion bad ∧ bad.looked = true ∧ bad.badOutput = some 261) ∧
    ((pureIn missedRegion slot8 0).InRegion missedRegion ∧ missedRegion.looked = true ∧ missedRegion.badOutput = none ∧
      isDeclared (pureIn missedRegion slot8 0) (decl8 1 0) slot8 ∧ inserts (decl8 1 0) (pureIn missedRegion slot8 0)) ∧
    ((pureIn missedRegion slot8 1).InRegion missedRegion ∧ isDeclared (pureIn missedRegion slot8 1) (decl8 1 1) slot8 ∧
      ¬inserts (decl8 1 1) (pureIn missedRegion slot8 1)) := by
  unfold isDeclared
  refine ⟨⟨inRegion_of ?_, ?_⟩, ⟨inRegion_of ?_, ?_⟩, inRegion_of ?_, ?_⟩ <;> decide +kernel

theorem witness_MemoTableResults :
    let plain := fun (m : MemoSlot) => let s := pureIn groupRegion m 0; s.putPath { s.path with region := none }
    ((plain slot8).Runs ∧ (plain slot8).group.trap = none ∧ (plain slot8).node.image.memoDecl 1 = none ∧
      isDeclared (plain slot8) (decl8 1 0) slot8 ∧ slot8.home ≠ 0 ∧ ((plain slot8).actAll 0 3 false).Steady ∧
      (let t := (plain slot8).actAll 0 3 true
       (t.writeW 5 (t.memoGen 0 3 t.coreNow)).Steady)) ∧
    (let m : MemoSlot := { slot8 with home := 0 }
     (plain m).Runs ∧ isDeclared (plain m) (decl8 0 0) m) := by
  unfold State.Runs State.Steady isDeclared
  decide +kernel

/-! ### Mesh and fragment output -/

/-- A mesh team with a declaration of one triangle at 0x100. -/
def meshing (flag : Bool) : State :=
  let s := box 15 [] [(4, 0x100), (5, 0x10003), (6, 0x10003)]
  let s := s.putTeam { s.team with decl := some { off := 0x100, verts := 3, prims := 1, trapOnFlag := flag }
                                   sp := [(0x131, 1), (0x132, 2)] }
  { s with nodes := [{ s.node with kind := 1, vstride := 16 }] }

/-- A fragment team of four lanes of a pass with one FP32 target in a mapped page. -/
def shading : State :=
  let s := mapped (box 15 [(8, 0, 0x3F800000)] []) 0 []
  { s with nodes := [{ s.node with kind := 2, passRecord := 0x900, pass := some 0 }]
           passes := [{ region := 0, opener := 0, record := 0x900,
                        targets := [{ base := 0x2000, pitch := 0x400, width := 32, height := 32, fmt := 8
                                      retained := false, sigBase := 0, cost := 0 }] }] }

theorem witness_MeshAndFragmentResults_mesh :
    let d : MeshDecl := { off := 0x100, verts := 3, prims := 1, trapOnFlag := false }
    let s := meshing false
    let found := (List.range (min 1 d.prims)).map (s.meshPrim d (min 3 d.verts))
    base.Runs ∧ base.group.trap = none ∧ base.node.kind ≠ 1 ∧ base.node.kind ≠ 2 ∧
    s.Runs ∧ s.group.trap = none ∧ s.node.kind = 1 ∧ (s.uni 4).toNat % 16 = 0 ∧ (s.uni 5).toNat % 2 ^ 16 ≤ 256 ∧
      (s.uni 5).toNat / 2 ^ 16 % 2 ^ 16 ≤ 512 ∧ (s.uni 5).toNat < 2 ^ 32 ∧ 0x100 + 3 * s.node.vstride + 4 * 1 ≤ s.spSize ∧
      s.team.decl = some d ∧ (s.uni 6).toNat < 2 ^ 32 ∧
      s.interlocked s.focus.team s.acceptSeq [⟨d.off, d.verts * s.node.vstride + 4 * d.prims⟩] false = false ∧
      found.length = 1 ∧ found.any (·.2) = false ∧ found.any (·.1.isSome) = true := by
  unfold State.Runs
  decide +kernel

theorem witness_MeshAndFragmentResults_fragment :
    let s := shading
    let t : Target := { base := 0x2000, pitch := 0x400, width := 32, height := 32, fmt := 8, retained := false, sigBase := 0, cost := 0 }
    let comps := (List.range 4).filter fun c => (15 : BitVec 4).getLsbD c
    let lit := lanesOf (s.path.mask &&& ~~~s.group.helper)
    let spot := fun (p : Nat × Nat) => t.at_ (s.lanePixel p.1).1 (s.lanePixel p.1).2 p.2
    let pairs := lit.flatMap fun l => comps.map fun c => (l, c)
    let as := pairs.map (fun p => ({ lane := p.1, addr := spot p, place := .global [((spot p).toNat, t.comp)] } : Access))
    s.Runs ∧ s.group.trap = none ∧ s.node.kind = 2 ∧ (s.passOf s.node).map (·.targets) = some [t] ∧ (s.uni 0).toNat < 8 ∧
      as.length = 16 ∧ s.missingPages (as.flatMap fun a => pagesOf a.place.pieces) = [] ∧
      (∀ a ∈ as, s.checkPieces a.addr a.place.pieces true = none) ∧ s.pfx.pm = 0 ∧ s.pfx.pinv = false ∧
      (pairs.foldl (fun (u : State) p => u.storePlace (.global [((spot p).toNat, t.comp)])
        (foutBytes t.fmt false (s.foutSource 8 false p.1 p.2))) s).Steady := by
  unfold State.Runs State.Steady
  decide +kernel

/-- MDECL's operands at each of its traps, and MEMIT of more than was declared, where the trap was asked for. -/
theorem witness_MeshAndFragmentResults_traps :
    (let s := meshing false
     s.Runs ∧ s.node.kind = 1 ∧ (s.uni 6).toNat % 16 ≠ 0 ∧ s.spSize < 0xFFF0 + 3 * s.node.vstride + 4 * 1) ∧
    (let s := box 1 [] [(4, 0x100), (5, 257), (6, 2 ^ 32), (7, 0xFFF0)]
     256 < (s.uni 5).toNat % 2 ^ 16 ∧ 2 ^ 32 ≤ (s.uni 6).toNat ∧ (s.uni 7).toNat % 16 = 0) ∧
    (let d : MeshDecl := { off := 0x100, verts := 3, prims := 1, trapOnFlag := true }
     let s := meshing true
     s.Runs ∧ s.team.decl = some d ∧ (s.uni 5).toNat < 2 ^ 32 ∧
      s.interlocked s.focus.team s.acceptSeq [⟨d.off, d.verts * s.node.vstride + 4 * d.prims⟩] false = false ∧
      (s.uni 4).toNat % 2 ^ 16 > d.verts) := by
  unfold State.Runs
  decide +kernel

/-! ### Traps -/

theorem witness_TrapInstruction :
    (base.live = true ∧ base.pending = none ∧ base.group.trap = none ∧ base.path.region = none) ∧
    ((handler 5 []).live = true ∧ (handler 5 []).pending = none ∧ (handler 5 []).group.trap.isSome = true ∧
      (handler 5 []).path.region = none) := by
  decide +kernel

theorem witness_TrapEntry :
    base.live = true ∧ base.group.trap = none ∧ (0x01 : BitVec 8) ≠ 0x08 ∧ base.routed 0x01 = false ∧ base.region.tvec ≠ 0 := by
  decide +kernel

/-- A trap of a pure region's own cause, with the region open after a lookup. -/
theorem witness_TrapEntry_region :
    let s := pureIn { groupRegion with looked := true, hit := 2 } slot8 0
    s.live = true ∧ s.group.trap = none ∧ s.routed 0x08 = false ∧ s.region.tvec ≠ 0 ∧ s.path.region.isSome = true := by
  decide +kernel

theorem witness_TrapModeRefusals : (handler 5 []).live = true ∧ (handler 5 []).group.trap.isSome = true := by
  decide +kernel

/-- The context of `handler`, whose frame is zero. -/
def kept : TrapContext := { slot := false, path0 := none, path1 := none, cur := false, docc := 0, dsbase := 0, block := 0 }

/-- A handler alone, with its frame as the device wrote it and with one byte changed, and one with an entry on its stack; and
its group image, of a team of four registers, at 0x1000. -/
theorem witness_HandlerInstructions :
    (base.live = true ∧ base.path.region = none ∧ base.group.trap = none) ∧
    (let s := handler 5 [(60, 8)]
     let t := { s with mem := [(0x400000, 1)] }
     let u := s.putGroup { s.group with docc := 1 }
     s.live = true ∧ s.path.region = none ∧ s.group.trap = some kept ∧ s.group.path1 = none ∧ s.group.docc = 0 ∧
      s.frameIntact kept = true ∧ (s.uni 60).toNat % 256 ≠ 0 ∧
      t.live = true ∧ t.group.trap = some kept ∧ t.group.path1 = none ∧ t.group.docc = 0 ∧ t.frameIntact kept = false ∧
      u.live = true ∧ u.group.trap = some kept ∧ u.group.docc ≠ 0) := by
  decide +kernel

theorem witness_HandlerInstructions_image :
    let s := mapped (handler 5 [(60, 0x1000)]) 0 []
    let s := { s with nodes := [{ s.node with image := { variants := [(0, some { regs := 4, uregs := 8, groups := 1 })] } }] }
    let places := fun n => (List.range n).map fun i => Place.global [(0x1000 + 256 * i, 256)]
    s.live = true ∧ s.path.region = none ∧ s.group.trap = some kept ∧ (s.uni 60).toNat % 256 = 0 ∧
      s.ImageClear (s.uni 60) (imageBytes s.variant.regs) true (places 23) ∧
      s.ImageClear (s.uni 60) (0x300 + 256 * s.variant.regs) false (places 7) := by
  unfold State.ImageClear
  decide +kernel

/-! ### Commands -/

/-- Node 1 is a command of a code and operands, behind one running node; region 1 is active, its control block at 0x8000. -/
def cmd (code a b c : Nat) (d : BitVec 32) : State :=
  { base with
    nodes := [{ base.node with memo := [5] }, { kind := 3, state := .ready, addr := 0x7000, imageAddr := BitVec.ofNat 64 code
                                                opA := BitVec.ofNat 64 a, opB := BitVec.ofNat 64 b, opC := BitVec.ofNat 64 c, opD := d }]
    regions := [(0, { base.region with root := 0x100000, memotab := 0x6000 }), (1, { active := true, rcb := 0x8000 })] }

/-- Such a command that has started. -/
def cmdStarted (code a b c : Nat) (d : BitVec 32) : State :=
  let s := cmd code a b c d
  s.setNode 1 { s.nodeAt 1 with started := true, state := .running }

/-- ACTIVATE with a good block at 0x9000 and a bad one; DEACTIVATE of an active, a dead and the root region, and once it
has started with a node of the region left (region 0) and with none; PRE_EMPT likewise; KILL. -/
theorem witness_CommandResults_regions :
    (let s := { cmd 1 0x9000 2 0 0 with mem := [(0x9014, 4)] }
     s.CommandReady 1 1 ∧ ((s.begun 1).activate 2 0x9000).isSome = true) ∧
    (let s := cmd 1 0x9000 0 0 0
     s.CommandReady 1 1 ∧ (s.begun 1).activate 0 0x9000 = none) ∧
    (cmd 2 0 1 0 0).CommandReady 1 2 ∧ (((cmd 2 0 1 0 0).begun 1).regionAt 1).active = true ∧
    (cmd 2 0 5 0 0).CommandReady 1 2 ∧ (((cmd 2 0 5 0 0).begun 1).regionAt 5).active = false ∧
    (let s := cmdStarted 2 0 1 0 0
     s.CommandReady 1 2 ∧ (s.nodeAt 1).started = true ∧ (s.begun 1).regionBusy 1 = false) ∧
    (let s := cmdStarted 2 0 0 0 0
     s.CommandReady 1 2 ∧ (s.nodeAt 1).started = true ∧ (s.begun 1).regionBusy 0 = true) ∧
    ((cmd 3 0 0 0 0).CommandReady 1 3 ∧ ((cmd 3 0 0 0 0).begun 1).regionOff 0 = false ∧
      (((cmd 3 0 0 0 0).begun 1).regionAt 0).active = true) ∧
    ((cmd 3 0 1 0 0).CommandReady 1 3 ∧ ((cmd 3 0 1 0 0).begun 1).regionOff 1 = true) ∧
    (cmd 4 0 63 0 0).CommandReady 1 4 ∧ (cmd 4 0 64 0 0).CommandReady 1 4 ∧
    (cmd 4 0 64 0 0).commandTurn 0 = false := by
  unfold State.CommandReady
  decide +kernel

/-- The page at 0x10000, mapped for execution or not, its unit passed or not, its first word a reserved one. -/
def pages (code c : Nat) (x passed : Bool) : State :=
  let s := (cmd code 0x10000 0x100000 c 0).mapFetchPage.writePhys 0x200000 4 0xFFFFFFFF
  let s := s.writePhys (0x105000 + 8 * 16) 1 (if x then 0x0B else 0x03)
  { s with units := if passed then [{ unit := 0x200, literals := [] }] else [] }

theorem witness_CommandResults_pages :
    let leaf := fun (s : State) => match s.walk 0x100000 0x10000 with
      | .leaf e => some e
      | _ => none
    let e : TlbEntry := { root := 0x100000, va := 0x10000, size := 4096, pa := 0x200000, wr := false, cv := false, pte := 0x105080 }
    ((pages 5 4095 false false).CommandReady 1 5 ∧ leaf ((pages 5 4095 false false).begun 1) = some e) ∧
    (let s := pages 5 4096 true false
     s.CommandReady 1 5 ∧ leaf (s.begun 1) = some e ∧ (s.begun 1).executable e.pte = true) ∧
    (let s := pages 5 4096 false true
     s.CommandReady 1 5 ∧ leaf (s.begun 1) = some e ∧ (s.begun 1).executable e.pte = false ∧
      isOk (((s.begun 1).refuseStores e).checkUnits e (pageUnits e)) = true) ∧
    (let s := pages 5 4096 false false
     s.CommandReady 1 5 ∧ leaf (s.begun 1) = some e ∧ (s.begun 1).executable e.pte = false ∧
      isOk (((s.begun 1).refuseStores e).checkUnits e (pageUnits e)) = false) ∧
    ((pages 6 0 false false).CommandReady 1 6 ∧ leaf ((pages 6 0 false false).begun 1) = some e ∧
      ((pages 6 0 false false).begun 1).executable e.pte = false) ∧
    ((pages 6 0 true true).CommandReady 1 6 ∧ leaf ((pages 6 0 true true).begun 1) = some e ∧
      ((pages 6 0 true true).begun 1).executable e.pte = true) ∧
    (cmd 7 0 0x100000 0x1000 0).CommandReady 1 7 := by
  unfold State.CommandReady
  decide +kernel

/-- A leaf of the size asked for, of another size, and one whose page is not installed. -/
theorem witness_CommandResults_leaf :
    let leaf := fun (s : State) => (s.begun 1).presentLeaf 0x100000 0x10000
    let broken : State := { pages 5 4096 false false with installed := 0x200000 }
    (pages 5 4096 false false).CommandReady 1 5 ∧ leaf (pages 5 4096 false false) = some (1, 0x105080, 0x200003) ∧
    pageSize 1 (bitField 0x200003 11 8) = some 4096 ∧ 0x10000 % 4096 = 0 ∧ pageSize 1 (bitField 0x200003 11 8) ≠ some 4095 ∧
    broken.CommandReady 1 5 ∧ leaf broken = some (1, 0x105080, 0x200003) ∧ (broken.begun 1).executable 0x105080 = false ∧
    leafOf (broken.begun 1).installed 0x100000 0x10000 1 0x105080 0x200003 = .malformed ∧
    (let s := { pages 5 4096 false false with mem := [] }
     s.CommandReady 1 5 ∧ leaf s = none) := by
  unfold State.CommandReady
  decide +kernel

/-- A path that waits on record 9 of region 0, which the command names. -/
def parkedCmd (d : BitVec 32) : State :=
  let s := cmd 8 0 0 9 d
  s.putPath { s.path with wait := some (.parked 9 { cause := 2, tpc := 0x10000 } true) }

theorem witness_CommandResults_resume (d : BitVec 32) (h : d = 0 ∨ d = 1 ∨ d = 2) :
    ((parkedCmd d).CommandReady 1 8 ∧ (((parkedCmd d).begun 1).regionAt 0).active = true ∧
      (((parkedCmd d).begun 1).parkedOn 0 9).isSome = true ∧ ((parkedCmd d).nodeAt 1).opD = d) ∧
    ((cmd 8 0 0 9 d).CommandReady 1 8 ∧ (((cmd 8 0 0 9 d).begun 1).parkedOn 0 9).isNone = true ∧
      ((cmd 8 0 0 9 d).nodeAt 1).opD = d) := by
  unfold State.CommandReady
  rcases h with rfl | rfl | rfl <;> decide +kernel

/-- The memo slots 0 (of zero bytes), 2 (of a good geometry) and 5 (bound); a key, power levels and slots. -/
theorem witness_CommandResults_others :
    (let s := (cmd 9 0 0 2 0).writePhys 0x6040 4 0x01010102
     s.CommandReady 1 9 ∧ (s.begun 1).createDetail 0 2 ((s.begun 1).readPhys 0x6040 32) = 0) ∧
    (let s := cmd 9 0 0 0 0
     s.CommandReady 1 9 ∧ (s.begun 1).createDetail 0 0 ((s.begun 1).readPhys 0x6000 32) = 1) ∧
    (cmd 9 0 0 5 1).CommandReady 1 9 ∧
    (∀ c ∈ [4, 5], let s := cmdStarted 9 0 0 c 1
      s.CommandReady 1 9 ∧ (s.nodeAt 1).started = true ∧ (s.begun 1).slotBound 0 c = decide (c = 5)) ∧
    (cmd 10 0 255 0 0).CommandReady 1 10 ∧ (cmd 10 0 256 0 0).CommandReady 1 10 ∧
    (∀ a ∈ [149, 150, 700, 701], (cmd 11 a 0 0 0).CommandReady 1 11) ∧
    (∀ c ∈ [63, 64], (cmd 12 0 0 c 0).CommandReady 1 12) := by
  unfold State.CommandReady
  decide +kernel

/-! ### Events -/

/-- Region 1 with a queue of 16 records, an error count, credit and a budget, and one waiting fault record. -/
def hosted : State :=
  { base with
    regions := (0, base.region) :: [(1, { active := true, rcb := 0x8000, qhead := 3, qtail := 5, share := 1, budget := 1
                                          waitingRecords := [{ info := { cause := 2, tpc := 0 }, group := 0, core := 0, node := 0 }] })]
    mem := memWrite [] 0x2014 [0, 1], slotBase := 0x2000
    units := [{ unit := 0x200, literals := [] }] }

/-- Tails 15 and 4 of a queue that stands at 3 to 5; region 0 before its activation and after; a host write beside and on
a passed unit; a slot that a media engine holds; an error in a team that is idempotent or not. -/
theorem witness_HostEventResults :
    let x := hosted.regionAt 1
    (x.active = true ∧ 15 < 2 ^ x.logq ∧ (x.qtail + 2 ^ x.logq - x.qhead) % 2 ^ x.logq ≤ (15 + 2 ^ x.logq - x.qhead) % 2 ^ x.logq ∧
      (4 + 2 ^ x.logq - x.qhead) % 2 ^ x.logq < (x.qtail + 2 ^ x.logq - x.qhead) % 2 ^ x.logq ∧ (hosted.regionAt 2).active = false) ∧
    (let s : State := { State.reset with rootRcb := 0x9000, fdBase := 0xA000, mem := [(0x9014, 4)] }
     (s.regionAt 0).active = false ∧ s.activateRoot.isSome = true) ∧ (hosted.regionAt 0).active = true ∧
    (State.reset.regionAt 0).active = false ∧
    (hosted.passed 0x1FFFFF = false ∧ hosted.passed 0x200000 = true) ∧
    ((hosted.handSlot 0).holder = 0x100) ∧ (x.share ≠ 0 ∧ x.budget ≠ 0 ∧ hosted.faultRoom x = true ∧ x.waitingRecords.length = 1) ∧
    ((hosted.teamAt 0).onCore = true ∧ 0 < hosted.teams.length ∧ (hosted.nodeAt 0).idempotent = false) ∧
    (let s := { hosted with nodes := [{ hosted.node with idempotent := true }] }
     (s.teamAt 0).onCore = true ∧ (s.nodeAt 0).idempotent = true ∧ (s.teamAt 0).relaunches < 3) := by
  decide +kernel

/-- The first path of group 0 waits. -/
def waiting (w : Wait) : State := base.putPath { base.path with wait := some w }

/-- A group with 256 issues and a second path; one that has aged; one that holds back; and each wait, with its condition
met and not met. -/
theorem witness_PathEventResults :
    (let s := machine [{ grp 15 [] [] with path1 := some { pc := 0x10000, mask := 16 }, issues := 256 }]
     (s.teamAt 0).status = .resident ∧ (s.groupAt 0 0).ready (!(s.groupAt 0 0).cur) = true) ∧
    ((base.groupAt 0 0).issues < 256 ∧ (base.groupAt 0 0).age < 256) ∧
    (let s := machine [{ grp 15 [] [] with age := 256, yieldHold := true }]
     (s.teamAt 0).status = .resident ∧ (s.groupAt 0 0).issueSlot = some false ∧ (s.groupAt 0 0).yieldHold = true) ∧
    (∀ w ∈ [.sleep 5, .walk [0x10000], .footprint [⟨0, 4⟩] true, .tags [0], .watermark 1 0, .tileIdle 1,
        .engineQueue (.copy 1), .engineQueue .dcmp, .engineQueue .matrix, .engineQueue .transform, .edgeSlot 8 0, .edgeToken 0 1 2,
        .ringSpace 0 0 0, .ringEntry 0 1 true, .batch 0, .memo 3 none, .delivery { cause := 2, tpc := 0 }],
      (waiting w).waitNow 0 0 false = some w ∧ ((waiting w).teamAt 0).status = .resident ∧ ((waiting w).groupAt 0 0).trap = none) ∧
    (let s := waiting (.footprint [⟨0, 4⟩] true)
     s.interlocked 0 s.acceptSeq [⟨0, 4⟩] true = false ∧ s.tagPending 0 s.acceptSeq [0] = false ∧ 0 < s.watermark 0 1 ∧
      s.tileBusy 0 1 = false ∧ (s.coreAt 0).copyQ.length + 1 ≤ 64) ∧
    (let s := { waiting (.tileIdle 1) with cores := [(0, { matrixQ := [queuedMma] })], acceptSeq := 1 }
     s.interlocked 0 s.acceptSeq [⟨0, 4⟩] true = true ∧ s.tagPending 0 s.acceptSeq [0] = true ∧ ¬0 < s.watermark 0 1 ∧
      s.tileBusy 0 1 = true) := by
  decide +kernel

/-- A group whose hold has lasted 16 cycles and one whose hold has not; a path whose sibling waits for its region; and a
path that waits for the fault queue. -/
theorem witness_PathEventResults_waits :
    (let s := machine [{ grp 15 [] [] with yieldHold := true, yieldCycles := 16 }]
     (s.groupAt 0 0).yieldHold = true ∧ 16 ≤ (s.groupAt 0 0).yieldCycles) ∧
    (base.groupAt 0 0).yieldHold = false ∧
    (let s := machine [{ grp 15 [] [] with path1 := some { pc := 0x10000, mask := 16, wait := some .siblingRegion } }]
     s.live = true ∧ (s.group.slot (!s.focus.slot)).bind (·.wait) = some .siblingRegion) ∧
    (let w : Wait := .faultQueue { cause := 2, tpc := 0x10000 } true
     let s := waiting w
     let x := s.regionAt 0
     x.active = true ∧ s.faultRoom x = true ∧ x.waitingRecords = [] ∧ s.waiters 0 Wait.forQueue = [(0, 0, false)] ∧
      ((s.groupAt 0 0).interrupted false).bind (·.wait) = some w) := by
  decide +kernel

/-! ### Engines at work -/

/-- A card of a scratchpad copy of rows of 16 bytes, to 0x1000, and one with the hash flag. -/
def padCard (rows flags : Nat) : BitVec 320 :=
  BitVec.ofNat 320 (0x1000 * 2 ^ 64 + 16 * 2 ^ 96 + flags * 2 ^ 112 + 16 * 2 ^ 128 + rows * 2 ^ 160 + 16 * 2 ^ 176 + rows * 2 ^ 192
    + 16 * 2 ^ 208)

def copyJob (seq : Nat) (card : BitVec 320) (chunk : Nat) : CopyJob :=
  { seq := seq, team := 0, group := 0, batch := 1, card := card, chunk := chunk }

/-- The core's queues. -/
def working (m : List MatrixOp) (x : List TransformOp) (c : List CopyJob) : State :=
  { base with acceptSeq := 9, cores := [(0, { matrixQ := m, transformQ := x, copyQ := c })] }

def tileOp (seq : Nat) : TransformOp :=
  { seq := seq, team := 0, group := 0, batch := 1, len := 16
    dst := { off := 0x2000, count := 1, stride := 32, fmt := 0x10, shift := 0, reserved := 0 }, kind := .xact 1 0 1 none }

/-- Idle engines, and each queue with an operation that may go on, and with one that waits for an earlier one. -/
theorem witness_EngineEventResults_cores :
    let started := { queuedMma with started := true }
    ((base.coreAt 0).matrixQ = [] ∧ (base.coreAt 0).transformQ = [] ∧ base.copyHead 0 = none ∧ base.dcmpHead 0 = none ∧
      (base.clusterAt 0).binQ = []) ∧
    queuedMma.started = false ∧
    (∀ row ∈ [0, 31, 32], (working [{ started with row := row }] [] []).matrixBlocked 0 { started with row := row } = false) ∧
    maskRows started.em0 32 = [] ∧ maskRows started.em0 31 = [31] ∧ 2 ≤ (maskRows started.em0 0).length ∧
    (working [{ started with seq := 1 }] [tileOp 0] []).matrixBlocked 0 { started with seq := 1 } = true ∧
    (working [] [tileOp 0] []).transformBlocked 0 (tileOp 0) = false ∧
    (working [queuedMma] [tileOp 1] []).transformBlocked 0 (tileOp 1) = true := by
  decide +kernel

/-- A copy job of one chunk, of two, behind its last, of a hash without a key, and behind an MMA that reads where it
writes. -/
theorem witness_EngineEventResults_copy :
    let s := fun j => working [] [] [j]
    let x := fun (j : CopyJob) => ({ core := 0, root := 0x100000, team := 0, seq := j.seq, card := cardOf j.card, dcmp := none } : CopyCtx)
    (∀ rows ∈ [1, 2], let j := copyJob 0 (padCard rows 0x101) 0
      (s j).copyHead 0 = some j ∧ (s j).copyBlocked j = false ∧ (cardOf j.card).chunks = rows ∧
        (match (s j).copyStart (x j) j 0 with
         | .ok (t, k) => isOk (t.copyStep (x j) k) && k.chunk == 0 && k.hash.isNone && k.dcmp.isNone
         | .error _ => false) = true) ∧
    (let j := copyJob 0 (padCard 1 0x101) 1
     (s j).copyHead 0 = some j ∧ (s j).copyBlocked j = false ∧
        (match (s j).copyStart (x j) j 0 with
         | .ok (t, k) => isOk (t.copyFinish (x j) k) && decide ((cardOf j.card).chunks ≤ k.chunk)
         | .error _ => false) = true) ∧
    (let j := copyJob 0 (padCard 1 0x121) 0
     (s j).copyHead 0 = some j ∧ (s j).copyBlocked j = false ∧ isOk ((s j).copyStart (x j) j 0) = false) ∧
    (let j := copyJob 1 (padCard 1 0x101) 0
     (working [queuedMma] [] [j]).copyHead 0 = some j ∧ (working [queuedMma] [] [j]).copyBlocked j = true) := by
  decide +kernel

/-- A DCMP job of one chunk of one byte, whose table entry is of no bytes: before and behind that chunk. -/
def dcmpJob (chunk : Nat) : DcmpJob :=
  { seq := 0, team := 0, group := 0, batch := 1, chunk := chunk, addr := 0x800
    card := BitVec.ofNat 512 (0x1000 + 0x3000 * 2 ^ 64 + 2 ^ 128 + 0x2000 * 2 ^ 192 + 2 ^ 256 + 0x4000 * 2 ^ 320 + 0x5000 * 2 ^ 384) }

theorem witness_EngineEventResults_dcmp :
    let d := dcmpCardOf (dcmpJob 0).card.toNat
    let s := fun k => ({ mapped base 0x1000 [] with clusters := [(0, { dcmpQ := [dcmpJob k] })] } : State)
    ((s 0).dcmpHead 0 = some (dcmpJob 0) ∧ (match (s 0).dcmpStart 0 0x100000 d (dcmpJob 0) with
      | .ok (t, k) => isOk (t.dcmpStep 0 0x100000 false d k) && decide (k.chunk < d.nChunk)
      | .error _ => false) = true) ∧
    ((s 1).dcmpHead 0 = some (dcmpJob 1) ∧ (match (s 1).dcmpStart 0 0x100000 d (dcmpJob 1) with
      | .ok (t, k) => isOk (t.dcmpFinish 0 0x100000 false d k 0) && decide (d.nChunk ≤ k.chunk)
      | .error _ => false) = true) := by
  decide +kernel

/-- One primitive in a cluster's binning queue, of a node that runs and of one that has ended. -/
theorem witness_EngineEventResults_binning :
    let p : MeshPrim := { node := 0, key := 0, draw := 0, v0 := 0, v1 := 0, v2 := 0 }
    let s : State := { base with clusters := [(0, { binQ := [p] })] }
    let u : State := { s with nodes := [{ s.node with state := .complete }] }
    (s.clusterAt 0).binQ = [p] ∧ (s.nodeAt p.node).failing = none ∧ (s.nodeAt p.node).state = .running ∧
      (u.clusterAt 0).binQ = [p] ∧ (u.nodeAt p.node).state ≠ .running := by
  decide +kernel

/-- Copies whose destination no page maps, in a chunk and at the end; DCMPs whose destination, whose done word and whose table
no page maps; two primitives of
regions of different priorities, the second node's the higher, and the job the unit is at. -/
theorem witness_EngineEventResults_failures :
    (let j := copyJob 0 (padCard 1 0x100) 0
     let s := working [] [] [j]
     let x : CopyCtx := { core := 0, root := 0x100000, team := 0, seq := 0, card := cardOf j.card, dcmp := none }
     s.copyHead 0 = some j ∧ s.copyBlocked j = false ∧ (match s.copyStart x j 0 with
       | .ok (t, k) => decide (k.chunk < x.card.chunks) && (match t.copyStep x k with
         | .error f => decide (f.reason = 0x10)
         | .ok _ => false)
       | .error _ => false) = true) ∧
    (let j := { copyJob 0 (padCard 1 0x120) 1 with hash := some (sipInit 0) }
     let s := working [] [] [j]
     let x : CopyCtx := { core := 0, root := 0x100000, team := 0, seq := 0, card := cardOf j.card, dcmp := none }
     s.copyHead 0 = some j ∧ s.copyBlocked j = false ∧ (match s.copyStart x j 0 with
       | .ok (t, k) => decide (x.card.chunks ≤ k.chunk) && !isOk (t.copyFinish x k)
       | .error _ => false) = true) ∧
    (∀ k ∈ [0, 1],
      let j := { dcmpJob k with card := (dcmpJob k).card + BitVec.ofNat 512 (0x400000 * 2 ^ 64 + 0x400000 * 2 ^ 384) }
      let d := dcmpCardOf j.card.toNat
      let s : State := { mapped base 0x1000 [] with clusters := [(0, { dcmpQ := [j] })] }
      s.dcmpHead 0 = some j ∧ (match s.dcmpStart 0 0x100000 d j with
        | .ok (t, i) => if i.chunk < d.nChunk then !isOk (t.dcmpStep 0 0x100000 false d i)
          else !isOk (t.dcmpFinish 0 0x100000 false d i 0)
        | .error _ => false) = true) ∧
    (let s : State := { base with clusters := [(0, { dcmpQ := [dcmpJob 0] })] }
     s.dcmpHead 0 = some (dcmpJob 0) ∧ (match s.dcmpStart 0 0x100000 (dcmpCardOf (dcmpJob 0).card.toNat) (dcmpJob 0) with
       | .error f => decide (f.reason = 0x10)
       | .ok _ => false) = true) ∧
    (let p : MeshPrim := { node := 0, team := 0, job := 5, key := 0, draw := 0, v0 := 0, v1 := 0, v2 := 0 }
     let q := { p with node := 1, job := 6 }
     let s := fun (at_ : Option Nat) => ({ base with
       nodes := [base.node, { base.node with region := 1 }]
       regions := (0, base.region) :: [(1, { active := true, prio := base.region.prio + 1 })]
       clusters := [(0, { binQ := [p, q], binJob := at_ })] } : State)
     (s none).binHead 0 = some q ∧ (s (some 5)).binHead 0 = some p) := by
  decide +kernel

/-! ### Nodes and ensembles -/

/-- A region with room for one image, whose one core is core 0. -/
def island (prio : Nat) : Region :=
  { active := true, root := 0x100000, prio := prio, cores := 1, save := 0x400000, saveSize := 0x100000, rcb := 0x8000 }

/-- A node of one small team per ensemble. -/
def smallNode (region : Nat) (st : NodeState) : Node :=
  { region := region, state := st, addr := 0x7000, allowed := 1
    image := { variants := [(0, some { regs := 4, uregs := 8, groups := 1 })] } }

/-- Region 0 with one node. -/
def oneNode (n : Node) : State := { nodes := [n], regions := [(0, island 3)] }

/-- A queue in region 0 with one record at 0x10000. -/
def queuedRecord (bs : List (Nat × Nat)) : State :=
  { regions := [(0, { island 3 with qbase := 0x10000, qtail := 1 })]
    mem := bs.foldl (fun m p => memWrite m (0x10000 + p.1) (natLe 4 p.2)) [] }

/-- What the checks of the first record come to. -/
def checked (s : State) : Checked (Node × Option (PassRec × List Target)) :=
  let raw := memRead s.mem 0x10000 256
  let u := (s.setRegion 0 { s.regionAt 0 with qhead := 1 }).writePhys 0x8010 4 1
  u.checkNode (nodeOf 0 0x10000 raw) raw

/-- A record of an empty grid; one whose image cannot be read; a power command; the conditions of the first two clauses. -/
theorem witness_NodeEventResults_validate :
    let grid := [(0x20, 0x200001), (0x24, 0x400), (0x28, 0x10111)]
    let command := [(8, 0x0B), (0x10, 600), (0x2C, 3)]
    (∀ r ∈ [[], grid, command], ((queuedRecord r).regionAt 0).active = true ∧ ((queuedRecord r).regionAt 0).qhead ≠
      ((queuedRecord r).regionAt 0).qtail ∧ (queuedRecord r).poolFull = false) ∧
    (match checked (queuedRecord []) with
      | .error x => x.reason == 0x01 && x.fault.isNone
      | .ok _ => false) = true ∧
    (match checked (queuedRecord grid) with
      | .error x => x.reason == 0x02 && x.fault.isSome
      | .ok _ => false) = true ∧
    (match checked (queuedRecord command) with
      | .error _ => false
      | .ok x => x.2.isNone) = true := by
  decide +kernel

/-- Nodes that fail and do not, that get ready, and a fragment node with and without a tile to shade. -/
theorem witness_NodeEventResults_ready :
    (let s := oneNode (smallNode 0 .waiting)
     s.failReason 0 = none ∧ s.conditionsMet (s.nodeAt 0) = true ∧ (s.nodeAt 0).kind ≠ 2) ∧
    (let s := oneNode { smallNode 0 .running with teamKilled := true }
     s.failReason 0 = some 0x07) ∧
    (let s := oneNode { smallNode 0 .waiting with edges := [0x10000] }
     s.failReason 0 = some 0x04 ∧ (s.nodeAt 0).failing = none ∧ (s.edgeFaultOf (s.nodeAt 0)).isSome = true) ∧
    (∀ tiles ∈ [[], [(0, 0)]], let s := { oneNode { smallNode 0 .waiting with kind := 2, pass := some 0 } with
        passes := [{ region := 0, opener := 0, record := 0, tiles := tiles }] }
      let v := (s.enter 0 .ready).closePass 0
      s.failReason 0 = none ∧ s.conditionsMet (s.nodeAt 0) = true ∧ ((v.passOf (s.nodeAt 0)).map fun p => p.tiles.isEmpty) =
        some tiles.isEmpty) := by
  decide +kernel

/-- The ready node's ensemble goes to core 0; one whose core is taken is held for. -/
theorem witness_NodeEventResults_place :
    let s := oneNode (smallNode 0 .ready)
    let n := s.nodeAt 0
    let vs := s.variantsOn n [0]
    (s.mayPlace 0 = true ∧ s.topPlaceable 0 = true ∧ s.coresAllowed 0 [0] = true ∧
      imagesFree 0x400000 0x100000 (vs.map fun v => (n.variant v).imageBytes) [0x400000] (s.usedImages n.region s.teams.length)
        = true ∧ n.privCount vs = 0 ∧ s.privsFree n.region n.privBytes [] (s.usedPrivs n.region) = true) ∧
    (let t := { s with enabled := 0 }
     t.unplaced 0 = true ∧ t.mayPlace 0 = false) := by
  decide +kernel

/-- A team whose one group has retired, with a token for a full edge, for one with room, and with none. -/
theorem witness_NodeEventResults_retire :
    let ended := fun (tail staged : Nat) =>
      let s := edged 1 tail 0 false staged
      s.putTeam { s.team with groups := s.team.groups.map fun g => { g with retired := true } }
    let left := fun (s : State) => ((s.drainCore 0).appendTokens 0 (s.teamAt 0).tokenOrder).2
    ((ended 0 0).mayRetire 0 = true ∧ left (ended 0 0) = []) ∧ ((ended 0 1).mayRetire 0 = true ∧ left (ended 0 1) = []) ∧
    ((ended 2 1).mayRetire 0 = true ∧ left (ended 2 1) ≠ []) ∧ base.mayRetire 0 = false := by
  decide +kernel

/-- A team alone on its core that waits for a grant, and one that does not. -/
theorem witness_NodeEventResults_spill :
    (waiting (.grow 1 2)).growDeadlocked 0 = true ∧ ((waiting (.grow 1 2)).byAge 0).getLast? = some 0 ∧
    base.growDeadlocked 0 = false := by
  decide +kernel

/-- A draining switch with its work done, to the same budget, at the image's place. -/
theorem witness_NodeEventResults_switch :
    let s := base.putTeam { base.team.setBarrier 16 { arrived := 1, points := [(0, 0)], draining := true } with
      request := { target := 1, valid := true, granted := true } }
    let s : State := { s with
      regions := [(0, { base.region with save := 0x400000, saveSize := 0x100000 })]
      nodes := [{ s.node with image := { variants := s.node.image.variants ++ [(1, some { regs := 4, uregs := 8, groups := 1 })] } }] }
    let goal := (s.nodeAt 0).variant (s.teamAt 0).request.target
    (s.teamAt 0).status = .resident ∧ ((s.teamAt 0).barrier switchBarrier).draining = true ∧ s.teamDrained 0 = true ∧
      rangeFree 0x400000 0x100000 (s.usedImages 0 0) 0x400000 goal.imageBytes = true ∧ (s.nodeAt 0).priv = 0 ∧
      s.privsFree 0 0 [] (s.usedPrivs 0) = true := by
  decide +kernel

/-- The team of a region of priority 3 on the one core, and a node of a region of priority 5 that wants it. -/
def contended : State :=
  { oneNode (smallNode 0 .running) with
    nodes := [{ smallNode 0 .running with placed := 1, image := { variants := [(0, some { regs := 128, uregs := 64, groups := 16 })] } },
              { smallNode 1 .ready with image := { variants := [(0, some { regs := 128, uregs := 64, groups := 16 })] } }]
    regions := [(0, island 3), (1, { island 5 with save := 0x600000 })]
    teams := [{ groups := (List.range 16).map fun i => { grp 15 [] [] with quadrant := i % 4 }, image := 0x400000, imageSize := 0x90000 }] }

theorem witness_NodeEventResults_preempt :
    (contended.nextVictim = some (0, 0)) ∧
    (let s := contended.setRegion 0 { island 3 with preemptAsked := true }
     (s.regionAt (s.nodeAt 0).region).preemptAsked = true ∧ (0, 0) ∈ s.residentEnsembles) := by
  decide +kernel

/-- A halted team with no operation in flight, the running one, and a saved ensemble with its core free and not. -/
theorem witness_NodeEventResults_save :
    (let s := contended.setTeam 0 { contended.teamAt 0 with status := .halted }
     s.saveReady 0 = true) ∧ contended.saveReady 0 = false ∧
    (let s := { contended with nodes := contended.nodes.take 1 }
     let s := s.setTeam 0 { s.teamAt 0 with status := .saved }
     s.mayRestore 0 0 = true ∧ s.topRestorable 0 = true ∧ s.restoreAllowed 0 (s.savedTeams 0 0) [0] = true) ∧
    contended.mayRestore 0 0 = false := by
  decide +kernel

/-- A ready pool of 4,096 nodes; a switch whose grant was lost; a node that is held for, and one that is not yet. -/
theorem witness_NodeEventResults_pool :
    ({ nodes := List.replicate 4096 (smallNode 0 .ready) } : State).poolFull = true ∧ base.poolFull = false ∧
    base.team.request.granted = false := by
  decide +kernel

/-! ### The whole machine -/

/-- The word AND placed after reset. -/
def ready : State := State.reset.withFetchWord 32 0x06143070

/-- The path that has the turn, and the state in which it fetches. -/
def turnOf (s : State) : State :=
  ((({ { { s with ticks := s.ticks + 1 } with eventTurn := false } with eventTurn := true, chosenNext := false } : State).turnTo
    ⟨0, 0, false⟩)).ageOthers

theorem pathTurn_of {s : State} (a : s.agenda = []) (q : ({ s with ticks := s.ticks + 1 } : State).slotTurn = none)
    (e : s.eventTurn = false)
    (c : ({ { s with ticks := s.ticks + 1 } with eventTurn := false } : State).chosen = some ⟨0, 0, false⟩) :
    s.PathTurn ⟨0, 0, false⟩ (turnOf s) := ⟨a, q, by simp [e], c, rfl⟩

def codePage : TlbEntry :=
  { root := 0x100000, va := 0x10000, size := 4096, pa := 0x200000, wr := false, cv := false, pte := 0x105080 }

theorem fetches_of {u : State} {p : PassedUnit} (a : u.path.pc.toNat = 0x10000)
    (w : (match u.translate u.team.core u.region.root 0x10000 with | .leaf e => e == codePage | _ => false) = true)
    (h : u.units.find? (fun x => x.unit == 0x200) = some p) :
    u.Fetches 0x200000 p (u.tlbFill u.team.core u.region.root 0x10000) := by
  refine ⟨by rw [a], ⟨codePage, ?_, by rw [a]; rfl⟩, h, by rw [a]⟩
  rw [a]
  split at w
  · rename_i e q
    rw [q, eq_of_beq w]
  · cases w

/-- Memory in canonical form and a step that answers a next state. -/
theorem witness_StepKeepsMemoryForm : Memory.wf ready.mem ∧ pcAfterStep ready = some 0x10004 := by decide +kernel

theorem witness_EncodeDecodeRoundTrip :
    (Instr.and 5 6 7 false false).wellFormed = true ∧ decodeWord 0x06143070 0 = .ok (.and 5 6 7 false false) := by decide +kernel

/-- A word that decodes; a prefix and the word after it. -/
theorem witness_StepRunsDecodedInstruction (w : Nat) (h : w = 0x06143070 ∨ w = 0xFE000A00 + 0x0420103C * 2 ^ 32) :
    let s := State.reset.withFetchWord 64 w
    let u := turnOf s
    let v := u.tlbFill u.team.core u.region.root 0x10000
    s.PathTurn ⟨0, 0, false⟩ u ∧ u.Fetches 0x200000 { unit := 0x200, literals := [] } v ∧ v.breakpoint v.path.pc = none := by
  rcases h with rfl | rfl <;>
    exact ⟨pathTurn_of (by decide +kernel) (by decide +kernel) (by decide +kernel) (by decide +kernel),
      fetches_of (by decide +kernel) (by decide +kernel) (by decide +kernel), by decide +kernel⟩

theorem witness_StepRunsDecodedInstruction_words :
    (let v := turnOf ready
     decodeWord (v.wordAt 0x200000) (v.wordAt 0x200004) = .ok (.and 5 6 7 false false)) ∧
    (let v := turnOf (State.reset.withFetchWord 64 (0xFE000A00 + 0x0420103C * 2 ^ 32))
     (decodeWord (v.wordAt 0x200000) (v.wordAt 0x200004)).toOption.isSome = true ∧
      (decodeWord (v.wordAt 0x200004) 0).toOption.isSome = true) := by
  decide +kernel

/-- A turn whose path stands at a given program counter. -/
def atPc (pc : BitVec 64) (units : List PassedUnit) : State :=
  let s := ready.putPath { ready.path with pc := pc }
  { s with units := units }

theorem witness_FetchTraps :
    let kind := fun (s : State) => let u := turnOf s
      match u.translate u.team.core u.region.root u.path.pc.toNat with
      | .absent => 0
      | .malformed => 1
      | .leaf _ => 2
    ([0x10002, 0x20000, 0x10000].all fun pc => (turnOf (atPc pc [])).path.pc == pc && (atPc pc []).agenda == [] &&
      (atPc pc []).eventTurn == false && ({ atPc pc [] with ticks := 1 } : State).slotTurn == none &&
      ({ { atPc pc [] with ticks := 1 } with eventTurn := false } : State).chosen == some ⟨0, 0, false⟩) = true ∧
    kind (atPc 0x20000 []) = 0 ∧ kind ((atPc 0x10000 []).writePhys 0x105081 1 0x0F) = 1 ∧ kind (atPc 0x10000 []) = 2 ∧
    (turnOf (atPc 0x10000 [])).units.find? (fun x => x.unit == 0x200) = none ∧
    (let s := ready.writePhys 0x80 8 0x10000
     (turnOf s).breakpoint 0x10000 = some 0) := by
  decide +kernel

/-- A literal at the program counter. -/
theorem witness_FetchTraps_literal :
    let s := atPc 0x10000 [{ unit := 0x200, literals := [0] }]
    let u := turnOf s
    s.PathTurn ⟨0, 0, false⟩ u ∧
      u.Fetches 0x200000 { unit := 0x200, literals := [0] } (u.tlbFill u.team.core u.region.root 0x10000) :=
  ⟨pathTurn_of (by decide +kernel) (by decide +kernel) (by decide +kernel) (by decide +kernel),
    fetches_of (by decide +kernel) (by decide +kernel) (by decide +kernel)⟩

/-! ### Frames -/

theorem witness_RegisterFrames : base.live = true ∧ base.holdsV 3 = true ∧ base.holdsW 5 = true ∧ base.holdsW 0 = false := by
  decide +kernel

/-! ### A fragment node that keeps every rule -/

/-- A record of a fragment node, its image of one variant, its pass and target, and tables that map the first 1 GiB. -/
def fragmentQueue : State := queuedRecord
  [(8, 0x20000), (0x20, 0x200001), (0x24, 0x400), (0x28, 0x10111), (0x2C, 2), (0x38, 0x30000), (0xC0, 0xFFFFFFFF),
   (0xC4, 0xFFFFFFFF), (0xC8, 0xFFFFFFFF), (0xCC, 0xFFFFFFFF),
   (0x10000, 0x494B5350), (0x10004, 0x10001), (0x10008, 0x2000), (0x1000C, 0x1000), (0x10010, 0x1000), (0x1002C, 0x200),
   (0x10030, 1), (0x10040, 0x04080401), (0x10200, 0x6B), (0x1021C, 2),
   (0x20008, 0x30040), (0x20054, 0x01000100), (0x20058, 0x200),
   (0xF0000, 0x101001), (0xF1000, 0x102001), (0xF2000, 0x103001), (0xF3000, 3)]

/-- The memory when the record is checked. -/
def fragmentMem : List (Nat × Byte) :=
  [(0x8010, 1),
   (0x1000A, 2), (0x10020, 1), (0x10022, 0x20), (0x10025, 4), (0x10028, 0x11), (0x10029, 1), (0x1002A, 1), (0x1002C, 2),
   (0x1003A, 3), (0x100C0, 0xFF), (0x100C1, 0xFF), (0x100C2, 0xFF), (0x100C3, 0xFF), (0x100C4, 0xFF), (0x100C5, 0xFF),
   (0x100C6, 0xFF), (0x100C7, 0xFF), (0x100C8, 0xFF), (0x100C9, 0xFF), (0x100CA, 0xFF), (0x100CB, 0xFF), (0x100CC, 0xFF),
   (0x100CD, 0xFF), (0x100CE, 0xFF), (0x100CF, 0xFF)] ++
  [(0x20000, 0x50), (0x20001, 0x53), (0x20002, 0x4B), (0x20003, 0x49), (0x20004, 1), (0x20006, 1), (0x20009, 0x20),
   (0x2000D, 0x10), (0x20011, 0x10), (0x2002D, 2), (0x20030, 1), (0x20040, 1), (0x20041, 4), (0x20042, 8), (0x20043, 4),
   (0x20200, 0x6B), (0x2021C, 2), (0x30008, 0x40), (0x3000A, 3), (0x30055, 1), (0x30057, 1), (0x30059, 2)] ++
  [(0x100000, 1), (0x100001, 0x10), (0x100002, 0x10), (0x101000, 1), (0x101001, 0x20), (0x101002, 0x10), (0x102000, 1),
   (0x102001, 0x30), (0x102002, 0x10), (0x103000, 3)]

/-- The state in which the record is checked. -/
def fragmentChecked : State :=
  { regions := [(0, { island 3 with qbase := 0x10000, qtail := 1, qhead := 1 })], mem := fragmentMem }

theorem fragmentChecked_eq :
    let s := fragmentQueue
    (s.setRegion 0 { s.regionAt 0 with qhead := (0 + 1) % 2 ^ (s.regionAt 0).logq }).writePhys 0x8010 4
      ((0 + 1) % 2 ^ (s.regionAt 0).logq) = fragmentChecked := by
  decide +kernel

/-- A table entry that points to the next table. -/
theorem walkFrom_table (s : State) (va table level low e : Nat) (rest : List (Nat × Nat))
    (z : va / 2 ^ low % 512 = 0) (r : s.readPhys table 8 = e) (v : e.testBit 0 = true) (l : e.testBit 1 = false)
    (n : level ≠ 1) :
    s.walkFrom va table ((level, low) :: rest) = s.walkFrom va (bitField e 51 12 * 4096) rest := by
  simp only [State.walkFrom, z, Nat.mul_zero, Nat.add_zero, r, v, l, n, Bool.true_eq_false, Bool.false_eq_true, if_false]

theorem fragmentChecked_walk (va : Nat) (h : va < 2 ^ 30) : fragmentChecked.walk 0x100000 va =
    .leaf { root := 0x100000, va := 0, size := 2 ^ 30, pa := 0, wr := false, cv := false, pte := 0x103000 } := by
  have z : ∀ l, 30 ≤ l → va / 2 ^ l % 512 = 0 := fun l hl => by
    rw [Nat.div_eq_of_lt (Nat.lt_of_lt_of_le h (Nat.pow_le_pow_right (by omega) hl))]
  have leaf : leafOf fragmentChecked.installed 0x100000 va 3 0x103000 3 =
      .leaf { root := 0x100000, va := 0, size := 2 ^ 30, pa := 0, wr := false, cv := false, pte := 0x103000 } := by
    have p : pageSize 3 (bitField 3 11 8) = some (2 ^ 30) := by decide
    have i : fragmentChecked.installed = 2 ^ 36 := rfl
    have b : bitField 3 51 12 = 0 := by decide
    have t : (3 : Nat).testBit 2 = false := by decide
    have u : (3 : Nat).testBit 4 = false := by decide
    simpa [leafOf, p, i, b, t, u] using h
  have found : fragmentChecked.presentLeaf 0x100000 va = some (3, 0x103000, 3) := by
    unfold State.presentLeaf walkLevels
    rw [walkFrom_table _ _ _ _ _ 0x101001 _ (z _ (by decide)) (by decide +kernel) (by decide) (by decide) (by decide),
      walkFrom_table _ _ _ _ _ 0x102001 _ (z _ (by decide)) (by decide +kernel) (by decide) (by decide) (by decide),
      walkFrom_table _ _ _ _ _ 0x103001 _ (z _ (by decide)) (by decide +kernel) (by decide) (by decide) (by decide)]
    have b : bitField 0x103001 51 12 * 4096 = 0x103000 := by decide
    have r : fragmentChecked.readPhys 0x103000 8 = 3 := by decide +kernel
    have t : (3 : Nat).testBit 0 = true := by decide
    have u : (3 : Nat).testBit 1 = true := by decide
    simp only [b, State.walkFrom, z _ (Nat.le_refl 30), Nat.mul_zero, Nat.add_zero, r, t, u, Bool.true_eq_false, if_false,
      if_true, Nat.reduceLeDiff]
  rw [State.walk, found]
  exact leaf

theorem fragmentChecked_deviceAddr (va : Nat) (h : va < 2 ^ 30) : fragmentChecked.deviceAddr 0x100000 va = .ok va := by
  have p : ∀ a, fragmentChecked.passed a = false := fun _ => rfl
  unfold State.deviceAddr
  simp [fragmentChecked_walk va h, State.checkLeaf, TlbEntry.physical, p]

theorem fragmentChecked_deviceRead (n va : Nat) (h : va + n ≤ 2 ^ 30) :
    fragmentChecked.deviceRead 0x100000 va n = .ok (memRead fragmentMem va n) := by
  induction n generalizing va with
  | zero => simp [State.deviceRead, memRead]
  | succ n ih =>
    have m : fragmentChecked.mem = fragmentMem := rfl
    rw [State.deviceRead, fragmentChecked_deviceAddr va (by omega)]
    simp only [ih (va + 1) (by omega), m]
    simp [Except.map, memRead, List.range_succ_eq_map, Function.comp_def, Nat.add_comm, Nat.add_left_comm]


/-- The header of the image, and the image it is read as. -/
def fragmentHeader : List Byte := memRead fragmentMem 0x20000 0x200
def fragmentVariant : Variant := { groups := 4, swOff := List.replicate 16 0 }
def fragmentImage : Image :=
  { variants := [(0, some fragmentVariant)], codeOff := 0x1000, tolerance := List.replicate 8 {} }

theorem fragmentHeader_fields :
    (headerOf fragmentHeader).codeOff = 0x1000 ∧ (headerOf fragmentHeader).codeSize = 0x1000 ∧
    (headerOf fragmentHeader).mapCount = 0 ∧ (headerOf fragmentHeader).mapOff = 0 ∧
    (headerOf fragmentHeader).brecCount = 0 ∧ (headerOf fragmentHeader).brecOff = 0 ∧
    (headerOf fragmentHeader).memoCount = 0 ∧ (headerOf fragmentHeader).memoOff = 0 ∧
    (headerOf fragmentHeader).symOff = 0x200 ∧ (headerOf fragmentHeader).symCount = 1 ∧
    (headerOf fragmentHeader).constOff = 0 ∧ (headerOf fragmentHeader).constSize = 0 ∧ fieldOf fragmentHeader 6 1 = 1 := by
  decide +kernel

theorem fragmentHeader_ok :
    ((headerOf fragmentHeader).ok && (List.range 8).all (toleranceOk fragmentHeader)) = true := by
  decide +kernel

theorem fragmentHeader_variants :
    variantOfEntry ((headerOf fragmentHeader).variantBytes 0) = some fragmentVariant ∧
    (∀ n ∈ [1, 2, 3], variantOfEntry ((headerOf fragmentHeader).variantBytes n) = none) ∧
    variantOk 0x1000 ((headerOf fragmentHeader).variantBytes 0) fragmentVariant = true := by
  decide +kernel


theorem fragmentChecked_bytes (off n : Nat) (h : 0x20000 + off + n ≤ 2 ^ 30) :
    fragmentChecked.imageBytesAt 0x100000 0x20000 off n = .ok (memRead fragmentMem (0x20000 + off) n) := by
  rw [State.imageBytesAt, fragmentChecked_deviceRead n _ h]

/-- A variant with no switch point. -/
theorem switchWords_none (s : State) (root base : Nat) (h : ImageHeader) (v : Variant)
    (z : ∀ n, v.swMask.getLsbD n = false) (l : List Nat) : s.switchWords root base h v l = .ok true := by
  induction l with
  | nil => rfl
  | cons n l ih => simp only [State.switchWords, z n, Bool.false_eq_true, if_false, ih]

theorem fragmentChecked_variants :
    fragmentChecked.readVariants 0x100000 0x20000 (headerOf fragmentHeader) (List.range 4) =
      .ok [(0, some fragmentVariant)] := by
  obtain ⟨v0, v, k⟩ := fragmentHeader_variants
  have c := fragmentHeader_fields.2.1
  have w : fragmentChecked.switchWords 0x100000 0x20000 (headerOf fragmentHeader) fragmentVariant (List.range 16) = .ok true :=
    switchWords_none _ _ _ _ _ (fun n => by simp [fragmentVariant]) _
  have l : List.range 4 = [0, 1, 2, 3] := rfl
  rw [l]
  simp only [State.readVariants, v0, v 1 (by simp), v 2 (by simp), v 3 (by simp), c, k, w, require, if_true, Except.map]

/-- An image with no map, buffer record or memo table is read where its rules hold. -/
theorem readImage_plain (s : State) (root base : Nat) (hb sb : List Byte) (vs : NMap (Option Variant))
    (b : s.imageBytesAt root base 0 0x200 = .ok hb)
    (p : (base % 4096 == 0) = true) (ok : ((headerOf hb).ok && (List.range 8).all (toleranceOk hb)) = true)
    (v : s.readVariants root base (headerOf hb) (List.range 4) = .ok vs)
    (c : (vs.length == fieldOf hb 6 1 && !vs.isEmpty) = true)
    (m : (headerOf hb).mapCount = 0) (r : (headerOf hb).brecCount = 0) (t : (headerOf hb).memoCount = 0)
    (n : vs.all (fun p => match p.2 with
      | none => true
      | some v => (List.range 16).all fun n => !v.swMask.getLsbD n || ([] : List (Nat × List LiveValue)).any (·.1 == n)) = true)
    (y : s.imageBytesAt root base (headerOf hb).symOff (32 * (headerOf hb).symCount) = .ok sb)
    (q : ((entriesOf sb 32 (headerOf hb).symCount).all symbolOk &&
      kernelSymbolOk ((entriesOf sb 32 (headerOf hb).symCount).headD [])) = true)
    (o : sectionsInOrder (headerOf hb).codeOff 0x200 [((headerOf hb).mapOff, 0), ((headerOf hb).brecOff, 48 * 0),
      ((headerOf hb).memoOff, 16 * 0), ((headerOf hb).symOff, 32 * (headerOf hb).symCount),
      ((headerOf hb).constOff, (headerOf hb).constSize)] = true) :
    s.readImage root base = .ok { variants := vs, codeOff := (headerOf hb).codeOff, maps := []
                                  tolerance := (List.range 8).map (toleranceOf hb), memo := [] } := by
  have e : ∀ off, s.imageBytesAt root base off 0 = .ok [] := fun _ => rfl
  have z : ∀ k, entriesOf [] k 0 = [] := fun _ => rfl
  simp only [State.readImage, bind, Except.bind, b, p, Bool.true_and, ok, require, if_true, v, c, m, State.readMaps, r, Nat.mul_zero, e, z,
    List.all_nil, List.map_nil, rising, Bool.and_true, t, y, q, o, pure, Except.pure]
  erw [if_pos n]

theorem fragmentChecked_image : fragmentChecked.readImage 0x100000 0x20000 = .ok fragmentImage := by
  obtain ⟨f1, f2, f3, f4, f5, f6, f7, f8, f9, f10, f11, f12, f13⟩ := fragmentHeader_fields
  have tol : (List.range 8).map (toleranceOf fragmentHeader) = List.replicate 8 {} := by decide +kernel
  have b : fragmentChecked.imageBytesAt 0x100000 0x20000 0 0x200 = .ok fragmentHeader := by
    rw [fragmentChecked_bytes 0 0x200 (by decide), Nat.add_zero, fragmentHeader]
  have y := fragmentChecked_bytes 0x200 (32 * 1) (by decide)
  have r := readImage_plain fragmentChecked 0x100000 0x20000 fragmentHeader (memRead fragmentMem (0x20000 + 0x200) (32 * 1))
    [(0, some fragmentVariant)] b rfl fragmentHeader_ok fragmentChecked_variants (by rw [f13]; rfl) f3 f5 f7 (by rfl)
    (by rw [f9, f10]; exact y) (by rw [f10]; decide +kernel) (by rw [f1, f4, f6, f8, f9, f10, f11, f12]; rfl)
  rw [r, f1, tol, fragmentImage]


/-! The node of the record, and its checks in turn. -/

def fragmentRaw : List Byte := memRead fragmentMem 0x10000 256

def fragmentNode : Node :=
  { addr := 0x10000, kind := 2, imageAddr := 0x20000, allowed := 1, passRef := 0x30000, edges := List.replicate 16 0
    memo := List.replicate 16 0xFF, opC := 0x40000200001, opD := 0x10111 }

theorem fragmentNode_eq : nodeOf 0 0x10000 fragmentRaw = fragmentNode := by
  decide +kernel

theorem fragmentRaw_ok : recordReserved fragmentRaw = true ∧ fieldOf fragmentRaw 0xF0 8 = 0 := by
  decide +kernel

def fragmentTarget : Target :=
  { base := 0, pitch := 0, width := 1, height := 1, fmt := 2, retained := false, sigBase := 0, cost := 0 }
def fragmentPass : PassRec := { arenaSize := 0, arena := 0, count := 1, targets := 0x30040, pass := 0 }

theorem deviceNat_of (s : State) (root a n : Nat) (bs : List Byte) (h : s.deviceRead root a n = .ok bs) :
    s.deviceNat root a n = .ok (leNat bs) := by
  rw [State.deviceNat, h]; rfl

theorem fragmentPass_bytes : leNat (memRead fragmentMem 0x30000 64) = 0x30040 * 2 ^ 64 := by decide +kernel
theorem fragmentTarget_bytes : leNat (memRead fragmentMem 0x30040 64) = 2 ^ 168 + 2 ^ 184 + 2 ^ 201 := by decide +kernel

/-- A pass of one target is read where its rules hold. -/
theorem readPass_one (s : State) (root x y : Nat) (a : BitVec 64) (i : a.toNat % 64 = 0) (r : s.deviceNat root a.toNat 64 = .ok x)
    (v : passRecValid x = true) (c : (passRecOf x).count = 1)
    (t : s.deviceNat root (passRecOf x).targets.toNat 64 = .ok y) (w : targetValid y = true) :
    s.readPass root a = .ok (passRecOf x, [targetOf y]) := by
  simp [State.readPass, bind, Except.bind, pure, Except.pure, must, readable, i, r, v, c, t, w, List.range_succ]

theorem fragmentChecked_pass : fragmentChecked.readPass 0x100000 0x30000 = .ok (fragmentPass, [fragmentTarget]) := by
  have p := deviceNat_of _ _ _ _ _ (fragmentChecked_deviceRead 64 0x30000 (by decide))
  have q := deviceNat_of _ _ _ _ _ (fragmentChecked_deviceRead 64 0x30040 (by decide))
  rw [fragmentPass_bytes] at p
  rw [fragmentTarget_bytes] at q
  have a : passRecOf (0x30040 * 2 ^ 64) = fragmentPass := by decide +kernel
  have b : targetOf (2 ^ 168 + 2 ^ 184 + 2 ^ 201) = fragmentTarget := by decide +kernel
  have r := readPass_one fragmentChecked 0x100000 _ _ 0x30000 (by decide) p (by decide +kernel) (by rw [a]; rfl)
    (by rw [a]; exact q) (by decide +kernel)
  rw [r, a, b]

/-- A record of a fragment node is taken where its checks answer as here. -/
theorem checkNode_fragment (s : State) (n : Node) (raw : List Byte) (img : Image) (p : PassRec) (ts : List Target)
    (k : n.kind = 2) (v : recordReserved raw = true)
    (g : (decide (1 ≤ n.gx) && decide (1 ≤ n.gy) && decide (1 ≤ n.gz) && decide (1 ≤ n.ex * n.ey * n.ez)
      && decide (n.ex * n.ey * n.ez ≤ 8) && n.gx % n.ex == 0 && n.gy % n.ey == 0 && n.gz % n.ez == 0
      && n.priv % 16 == 0 && decide (n.priv ≤ 2 ^ 20)) = true)
    (i : s.readImage (s.regionAt n.region).root n.imageAddr.toNat = .ok img)
    (a : (n.allowed.getLsbD n.preferred.toNat &&
      (List.range 4).all fun v => !n.allowed.getLsbD v || (mapGet none img.variants v).isSome) = true)
    (w : (let gs := img.variants.filterMap fun p => p.2.map (·.groups)
      gs.all fun g => g == gs.headD 0 && (g * Config.width == 256 || g * Config.width == 512 || g * Config.width == 1024)) = true)
    (r : s.readPass (s.regionAt n.region).root n.passRef = .ok (p, ts))
    (o : s.passOpen n.region n.passRef = true)
    (e : ∀ m : Node, m.edges = n.edges → m.region = n.region → s.checkEdges m = .ok ())
    (b : ∀ m : Node, m.region = n.region → m.memo = n.memo → m.image = img → s.memoBound m = true)
    (l : fieldOf raw 0xF0 8 = 0) :
    ∃ m, s.checkNode n raw = .ok (m, some (p, ts)) := by
  have e' := e { n with targetFrame := (mapGet ({} : Head) s.heads n.head).fc + n.targetFrame, image := img,
                        passRecord := n.passRef } rfl rfl
  have b' := b { n with targetFrame := (mapGet ({} : Head) s.heads n.head).fc + n.targetFrame, image := img,
                        passRecord := n.passRef } rfl rfl rfl
  simp only [State.checkNode, State.checkFragment, bind, Except.bind, pure, Except.pure, must, v, k, g, i, a, w, r, o, l,
    Except.map, if_true]
  simp only [k] at e' b'
  simp [e', b', State.readResources]

/-- No edge, none to check. -/
theorem checkEdges_none (s : State) (m : Node) (h : m.edges = List.replicate 16 0) : s.checkEdges m = .ok () := by
  unfold State.checkEdges
  rw [h]
  rfl

theorem fragmentNode_checked :
    ∃ m, fragmentChecked.checkNode (nodeOf 0 0x10000 fragmentRaw) fragmentRaw = .ok (m, some (fragmentPass, [fragmentTarget])) := by
  rw [fragmentNode_eq]
  have root : (fragmentChecked.regionAt fragmentNode.region).root = 0x100000 := rfl
  refine checkNode_fragment _ _ _ fragmentImage fragmentPass _ rfl fragmentRaw_ok.1 (by decide) ?_ (by decide) (by decide) ?_
    (by decide +kernel) (fun m h _ => checkEdges_none _ m h) ?_ fragmentRaw_ok.2
  · rw [root]; exact fragmentChecked_image
  · rw [root]; exact fragmentChecked_pass
  · intro m _ h i
    have n : ∀ x, fragmentImage.memoDecl x = none := fun _ => rfl
    have f : (List.range 16).all (fun x => ((List.replicate 16 (0xFF : BitVec 8)).getD x 0xFF).toNat == 0xFF) = true := by decide
    simp only [State.memoBound, i, n, h, fragmentNode]
    refine List.all_eq_true.mpr fun x hx => ?_
    rw [List.all_eq_true.mp f x hx, Bool.true_or]

/-- The check of a fragment node's record answers its pass: its condition of the validation clauses. -/
theorem witness_NodeEventResults_pass :
    let s := fragmentQueue
    let x := s.regionAt 0
    let raw := memRead s.mem (x.qbase + 256 * x.qhead) 256
    let head := (x.qhead + 1) % 2 ^ x.logq
    let u := (s.setRegion 0 { x with qhead := head }).writePhys (x.rcb + 0x10) 4 head
    x.active = true ∧ x.qhead ≠ x.qtail ∧ s.poolFull = false ∧
      ∃ m p targets, u.checkNode (nodeOf 0 (x.qbase + 256 * x.qhead) raw) raw = .ok (m, some (p, targets)) := by
  have e : memRead fragmentQueue.mem 0x10000 256 = fragmentRaw := by decide +kernel
  obtain ⟨m, h⟩ := fragmentNode_checked
  refine ⟨by decide +kernel, by decide +kernel, by decide +kernel, m, fragmentPass, [fragmentTarget], ?_⟩
  rw [← fragmentChecked_eq, ← e] at h
  exact h

/-! ### Stops, waits, regions, routes and single step -/

/-- FP32 1.0 (0x3F800000) and 2.0 stand in that order, as the infinities and numbers do; two NaNs, one signalling; the zeros. -/
theorem witness_CompareResults_values :
    let v := fun (x : Nat) => Fmt.fp32.value x
    (v 0x3F800000).Below (v 0x40000000) ∧ (v 0xFF800000).Below (v 0x40000000) ∧ ¬(v 0).Below (v 0x80000000) ∧
    ¬(v 0x80000000).Below (v 0) ∧ (v 0x7FC00000).isNan = true ∧ (v 0x7FC00000).signalling = false ∧
    (v 0x7F800001).signalling = true ∧ (v 0).isNan = false ∧ (v 0x80000000).isNan = false := by
  have one : Fmt.fp32.value 0x3F800000 = .num false (2 ^ 23) (-23) := by decide +kernel
  have two : Fmt.fp32.value 0x40000000 = .num false (2 ^ 23) (-22) := by decide +kernel
  have low : Fmt.fp32.value 0xFF800000 = .inf true := by decide +kernel
  have zero : Fmt.fp32.value 0 = .num false 0 (-149) := by decide +kernel
  have minus : Fmt.fp32.value 0x80000000 = .num true 0 (-149) := by decide +kernel
  simp only [one, two, low, zero, minus]
  refine ⟨?_, ?_, ?_, ?_, by decide +kernel⟩ <;> norm_num [FVal.Below, FVal.real]

/-- A normal place of FP32 (1.0), a subnormal one, and a value beyond the largest finite one. -/
theorem witness_Fp32Results_rounding :
    let top := fun (q : Int) => (2 : Rat) ^ (q + Fmt.fp32.mant)
    (Fmt.fp32.emin ≤ -23 ∧ top (-23) ≤ (FVal.num false 1 0).real ∧ (FVal.num false 1 0).real < 2 * top (-23)) ∧
    (Fmt.fp32.emin = -149 ∧ (FVal.num false 1 (-149)).real < 2 * top (-149)) ∧
    (Fmt.fp32.emin ≤ 105 ∧ top 105 ≤ (FVal.num false 1 128).real ∧ (FVal.num false 1 128).real < 2 * top 105 ∧
      (Fmt.fp32.value Fmt.fp32.maxFinite).real < (roundedNat .rne false ((FVal.num false 1 128).real / 2 ^ (105 : Int)) : Rat) *
        2 ^ (105 : Int)) ∧ Fmt.fp32 ≠ .e3m5 := by
  have m : Fmt.fp32.mant = 23 := rfl
  have e : Fmt.fp32.emin = -149 := rfl
  have x : Fmt.fp32.value Fmt.fp32.maxFinite = .num false (2 ^ 24 - 1) 104 := by decide +kernel
  refine ⟨?_, ?_, ?_, by decide⟩
  · rw [m, e]; norm_num [FVal.real]
  · rw [m, e]; norm_num [FVal.real]
  · rw [m, e, x]; norm_num [FVal.real, roundedNat]

/-- A group-space access that misses the TLBs, before and behind its walk; one outside every window, one misaligned, one of a
poisoned word, and one of a granule that an MMA in flight reads. -/
theorem witness_UniformMemoryResults_stops :
    let page : Place := .global [(0x1000, 4)]
    let walked := base.putPath { base.path with walked := true }
    (base.Runs ∧ isOk (base.resolve none 0x1000 4) = true ∧ base.missingPages (pagesOf page.pieces) ≠ [] ∧ base.path.walked = false) ∧
    (walked.Runs ∧ isOk (walked.resolve none 0x1000 4) = true ∧ walked.path.walked = true ∧
      ((walked.walkedFor (pagesOf page.pieces)).checkPieces 0x1000 page.pieces false).isSome = true) ∧
    (isOk (base.resolve none 0xFFFFFF0100000000 4) = false ∧ isOk (base.resolve none 0x1002 4) = true) ∧
    (let s := { mapped base 0x1000 [] with poison := [0x200] }
     s.Runs ∧ s.resolve none 0x1000 4 = .ok page ∧ s.missingPages (pagesOf page.pieces) = [] ∧
      (s.walkedFor (pagesOf page.pieces)).checkPieces 0x1000 page.pieces false = none ∧
      (s.walkedFor (pagesOf page.pieces)).poisonPieces page.pieces false = true) := by
  unfold State.Runs
  decide +kernel

/-- A word of the scratchpad that a transform in flight writes, and one that an MMA in flight reads. -/
theorem witness_UniformMemoryResults_footprints :
    let a : BitVec 64 := 0xFFFFFE0001002000
    let s : State := { working [queuedMma] [tileOp 1] [] with acceptSeq := 9 }
    s.Runs ∧ s.resolve none a 4 = .ok (.pad 0 0x2000) ∧ s.interlocked 0 s.acceptSeq (ownSpans 0 4 [.pad 0 0x2000]) false = true ∧
    s.resolve none 0xFFFFFE0001000000 4 = .ok (.pad 0 0) ∧ s.interlocked 0 s.acceptSeq (ownSpans 0 4 [.pad 0 0]) true = true := by
  unfold State.Runs
  decide +kernel

/-- The pages of the accesses, and the faults and poisoned accesses of a lane access, as `LaneStops` has them. -/
def stopPages (s : State) (x : LaneAccess) : List Nat := (accesses s.unlatched x).flatMap fun a => pagesOf a.place.pieces
def stopFaults (s : State) (x : LaneAccess) : List (Option (BitVec 8)) :=
  (lanesOf s.active).map fun l => (x.laneFault s.unlatched (s.unlatched.walkedFor (stopPages s x)) l).map (·.cause)

/-- Two lanes whose page misses the TLBs, before the walk and behind it, where it is absent; a second lane misaligned. -/
theorem witness_LaneStops_checks :
    let x := loadAccess 7 4 0 (memory.bufRec 0) 4
    let lost := { memory with cores := [] }
    let walked := lost.putPath { lost.path with walked := true }
    let odd := memory.writeV 7 2 fun _ => 0x12
    (lost.Runs ∧ lost.active ≠ 0 ∧ lost.unlatched.missingPages (stopPages lost x) ≠ [] ∧ lost.path.walked = false) ∧
    (walked.Runs ∧ walked.path.walked = true ∧ stopFaults walked x = [some 0x02, some 0x02]) ∧
    (odd.Runs ∧ odd.unlatched.missingPages (stopPages odd x) = [] ∧ stopFaults odd x = [none, some 0x04]) := by
  unfold State.Runs
  decide +kernel

/-- Every check passes, and then: bytes of the scratchpad that a transform in flight writes, and that an MMA reads; stores of
the core under a release, before and behind its wait; and a poisoned word that a load reads. -/
theorem witness_LaneStops_waits :
    let store := localAccess 1 8 4 true
    let busy : State := { memory with cores := [(0, { memory.coreAt 0 with matrixQ := [queuedMma], transformQ := [tileOp 1] })], acceptSeq := 9 }
    let far := busy.writeV 1 3 fun l => BitVec.ofNat 32 (0x2000 + 16 * l)
    let near := busy.writeV 1 3 fun l => BitVec.ofNat 32 (16 * l)
    let spans := fun (s : State) => ownSpans 0 4 ((accesses s.unlatched store).map (·.place))
    (far.Runs ∧ stopFaults far store = [none, none] ∧ far.unlatched.interlocked 0 9 (spans far) false = true) ∧
    (near.Runs ∧ stopFaults near store = [none, none] ∧ near.unlatched.interlocked 0 9 (spans near) false = false ∧
      near.unlatched.interlocked 0 9 (spans near) true = true) ∧
    (let load := loadAccess 7 4 0 (memory.bufRec 0) 4
     let s : State := { memory with pending := some { rnd := 2, scope := 2 }
                                    cores := [(0, { memory.coreAt 0 with outgoing := [⟨0, 0, 0, 64, [1]⟩] })] }
     let t := s.putPath { s.path with released := true }
     s.Runs ∧ stopFaults s load = [none, none] ∧ hasRelease s.pfx.rnd.toNat = true ∧ wideScope s.pfx.scope = true ∧
      s.unlatched.coreStoresPending s.coreNow = true ∧ s.path.released = false ∧ t.Runs ∧ t.path.released = true) ∧
    (let load := loadAccess 7 4 0 (memory.bufRec 0) 4
     let s : State := { memory with poison := [0x202] }
     s.Runs ∧ stopFaults s load = [none, none] ∧
      ((accesses s.unlatched load).map fun a => s.unlatched.poisonPieces a.place.pieces false) = [false, true]) := by
  unfold State.Runs
  decide +kernel

/-- A state's path stands in the handler of a trap. -/
def inHandler (s : State) : State :=
  s.putGroup { s.group with trap := some { slot := false, path0 := none, path1 := none, cur := false, docc := 0, dsbase := 0, block := 0 } }

/-- Edges in trap mode; a record that no page maps; and a ring that none maps, posted to and taken from. -/
theorem witness_EdgeResults_faults :
    let lost := fun (tail : Nat) => let s := edged 1 tail 0 false 0; s.writePhys 0x200200 8 0x7000000
    let unread := { edged 1 0 0 false 0 with nodes := [{ base.node with edges := 0x7000000 :: List.replicate 15 0 }] }
    (inHandler (edged 1 1 0 false 0)).Runs ∧ (inHandler (edged 1 1 0 false 0)).group.trap.isSome = true ∧
    isOk ((inHandler (edged 1 1 0 false 0)).edgeAt 0x100000 0x10200) = true ∧
    (unread.Runs ∧ unread.group.trap = none ∧ unread.node.edge 0 = some 0x7000000 ∧ isOk (unread.edgeAt unread.rootNow 0x7000000) = false) ∧
    ((lost 0).Runs ∧ (match (lost 0).edgeAt 0x100000 0x10200 with
      | .ok r => r.stream && r.freeSlots != 0 && !isOk (((lost 0).drainCore 0).pushToken 0x100000 0x10200 r 5)
      | .error _ => false) = true) ∧
    ((lost 1).Runs ∧ (match (lost 1).edgeAt 0x100000 0x10200 with
      | .ok r => r.stream && r.tokens != 0 && !isOk ((lost 1).deviceNat 0x100000 (r.tokenAt r.head) 16)
      | .error _ => false) = true) := by
  unfold State.Runs
  decide +kernel

/-- Trap mode, with a half row and a watermark that its row has passed or not. -/
theorem witness_AccumulatorResults_handler :
    let s := inHandler (engines [(4, 0), (5, 960), (6, 5)] [] {} [])
    let busy := inHandler (engines [(4, 0), (5, 960)] [] {} [queuedMma])
    s.Runs ∧ s.group.trap.isSome = true ∧ (s.uni 5).toNat < 1024 ∧ (s.uni 5).toNat % 64 = 0 ∧ (s.uni 6).toNat % 64 ≠ 0 ∧
      ((s.uni 5).toNat + 63) / 32 < s.watermark 0 1 ∧ busy.Runs ∧ busy.watermark 0 1 ≤ ((busy.uni 4).toNat + 63) / 32 := by
  unfold State.Runs
  decide +kernel

/-- Regions of each granularity with registers keyed and not; one of quads in which a shuffle leaves its quad; and a loop over
the two members whose records are raw. -/
theorem witness_RegionTraps_registers :
    let keyed : PureRegion := { groupRegion with keyed := { v := 0x0E, p := 2, w := 0x70 } }
    let quads : PureRegion := { keyed with gran := 1 }
    let s := pureIn quads slot8 0
    let q := (s.putPath { s.path with mask := 0x11 }).writeV 3 0x11 fun _ => 4
    (pureIn keyed slot8 0).InRegion keyed ∧ (keyed.keyed.hasV 1 && keyed.keyed.hasV 3 && !keyed.keyed.hasV 4 && keyed.keyed.hasP 1 &&
      !keyed.keyed.hasP 2 && keyed.keyed.hasW 4 && !keyed.keyed.hasW 3) = true ∧ 2 ≤ keyed.gran.toNat ∧
    (pureIn { keyed with gran := 0 } slot8 0).InRegion { keyed with gran := 0 } ∧ (0 : BitVec 13) ≠ 1 ∧
    q.InRegion quads ∧ quads.keyed.hasV 2 = true ∧ quads.keyed.hasV 3 = true ∧ q.pfx.pm = 0 ∧
    (q.active.getLsbD 0 = true ∧ q.active.getLsbD ((q.lane 3 0).toNat % 64) = true ∧ (q.lane 3 0).toNat % 64 / 4 ≠ 0 / 4) ∧
    (let t := (s.putPath { s.path with mask := BitVec.allOnes 64 }).writeV 3 (BitVec.allOnes 64) fun _ => 4
     t.InRegion quads ∧ t.active = BitVec.allOnes 64) := by
  refine ⟨inRegion_of ?_, ?_, ?_, inRegion_of ?_, ?_, inRegion_of ?_, ?_, ?_, ?_, ?_, inRegion_of ?_, ?_⟩ <;> decide +kernel

/-- A routed trap (cause 0x02) with room in the fault queue and with none; a region without a vector; and a trap of the path that
is not its group's current one. -/
theorem witness_TrapEntry_routes :
    let route := fun (tail : BitVec 32) =>
      ({ base with regions := [(0, { base.region with fqbase := 0x40000, fqtail := tail })], mem := [(0x8019, 1)] } : State)
    let bare : State := { base with regions := [(0, { base.region with tvec := 0 })] }
    let other := base.putGroup { base.group with cur := true }
    ((route 255).live = true ∧ (route 255).group.trap = none ∧ (route 255).routed 0x02 = true ∧
      (route 255).faultRoom (route 255).region = true ∧ 0x40000 + 64 * (255 % 256) + 64 ≥ 0x807C) ∧
    ((route 256).live = true ∧ (route 256).routed 0x02 = true ∧ (route 256).faultRoom (route 256).region = false) ∧
    (bare.live = true ∧ bare.group.trap = none ∧ bare.routed 0x02 = false ∧ bare.region.tvec = 0) ∧
    (other.live = true ∧ other.group.trap = none ∧ other.routed 0x01 = false ∧ other.region.tvec ≠ 0 ∧ other.group.cur ≠ other.focus.slot) := by
  decide +kernel

/-- UNMAP_EXECUTABLE where no leaf is present, and where one stands whose page is not installed any more. -/
theorem witness_CommandResults_unmap :
    let broken : State := { pages 6 0 true true with installed := 0x200000 }
    (let s := { pages 6 0 false false with mem := [] }
     s.CommandReady 1 6 ∧ (s.begun 1).presentLeaf 0x100000 0x10000 = none) ∧
    (broken.CommandReady 1 6 ∧ (broken.begun 1).presentLeaf 0x100000 0x10000 = some (1, 0x105080, 0x20000B) ∧
      (broken.begun 1).executable 0x105080 = true) ∧
    ((pages 6 0 false false).CommandReady 1 6 ∧
      ((pages 6 0 false false).begun 1).presentLeaf 0x100000 0x10000 = some (1, 0x105080, 0x200003)) := by
  unfold State.CommandReady
  decide +kernel

/-- A suspended copy and one behind it that writes the same bytes: the later one runs. The decompression engine at a job, and at none.
A later job of the group that takes bytes, and an earlier one that writes them. -/
theorem witness_EngineEventResults_order :
    let a := { copyJob 0 (padCard 1 0x100) 0 with suspended := true }
    let b := copyJob 1 (padCard 1 0x100) 0
    let s := working [] [] [a, b]
    (s.copyHead 0 = some b ∧ s.copyHalted b = false ∧ s.jobGroup 1 = some (0, 0)) ∧
    (let t := fun (at_ : Option Nat) => ({ mapped base 0x1000 [] with clusters := [(0, { dcmpQ := [dcmpJob 0], dcmpAt := at_ })] } : State)
     ((t (some 0)).engineHead 0).map (·.seq) = some 0 ∧ ((t (some 0)).clusterAt 0).dcmpAt = some 0 ∧
      ((t none).engineHead 0).map (·.seq) = some 0 ∧ ((t none).clusterAt 0).dcmpAt = none) ∧
    (let s := mapped base 0x1000 []
     (match s.enginePages 0 0x100000 0x1FFF 2 true false 2 with
      | .ok (ps, _) => ps == [(0x1FFF, 1), (0x2000, 1)]
      | .error _ => false) = true ∧ isOk (s.engineMerge 0 0x100000 0 0x1FFF [(255, 1), (15, 2)]) = true) := by
  decide +kernel

/-- Single step set by the host, outside trap mode and in it. -/
theorem witness_FetchTraps_step :
    let s : State := { base with mem := [(0x8017, 8)] }
    (s.live = true ∧ s.path.region = none ∧ s.singleStep s.region = true ∧ s.group.trap = none) ∧
    ((inHandler s).live = true ∧ (inHandler s).path.region = none ∧ (inHandler s).singleStep (inHandler s).region = true ∧
      (inHandler s).group.trap.isSome = true) := by
  decide +kernel

/-- Single step: NOP traps with cause 0x11 and the next address in TPC; in the handler it does not (R285). -/
theorem test_single_step :
    let s : State := { base with mem := [(0x8017, 8)] }
    (after .nop s).group.tcause = 0x11 ∧ (after .nop s).group.tpc = 0x10004 ∧ (after .nop (inHandler s)).path.pc = 0x10004 := by
  decide +kernel

/-- RGROW of a team in which another path waits in RGROWW: its request is replaced, and that path goes on with 0 (R60). -/
theorem witness_VariantRequestResults_replaced :
    let s := variants 3 false 128
    let t := s.putTeam { s.team with groups := s.team.groups ++ [{ grp 1 [] [] with path0 := some { pc := 0x10000, mask := 1, wait := some (.grow 5 1) } }] }
    let big := { t with nodes := (variants 3 false 1000000).nodes }
    t.Runs ∧ t.group.trap = none ∧ t.waitOf 0 1 false = some (.grow 5 1) ∧ t.node.allowed.getLsbD 1 = true ∧ (1 : BitVec 2) ≠ t.team.variant ∧
    big.Runs ∧ ((big.setRequest { target := 1, valid := true }).tryGrantTeam 0).1 = false ∧
    (let u := after (.rgrow 5 0) t
     u.waitOf 0 1 false = none ∧ (u.groupAt 0 1).wget u.variant 5 = 0 ∧ (u.groupAt 0 0).wget u.variant 5 = 1) := by
  unfold State.Runs
  decide +kernel

/-- A record whose written-resource list no page maps, rejected for its grid and for its image. -/
theorem witness_NodeEventResults_list :
    let lost := fun (s : State) => isOk (s.readResources 0x100000 0x5000)
    (∀ r ∈ ([[(0xF0, 0x5000)], [(0x20, 0x200001), (0x24, 0x400), (0x28, 0x10111), (0xF0, 0x5000)]] : List (List (Nat × Nat))),
      lost (queuedRecord r) = false ∧ isOk (checked (queuedRecord r)) = false) := by
  decide +kernel

/-! ## Witnesses of the laws and of the stops -/

/-- Values at which the clauses of a sum and a product meet: cancelling terms, the two zeros, the infinities, a signalling NaN. -/
theorem witness_Fp32Results_values :
    let one := FVal.num false 1 0
    let minus := FVal.num true 1 0
    (one.add .rne minus).1 = .num false 0 0 ∧ (one.add .rdn minus).1 = .num true 0 0 ∧
    ((FVal.num true 0 5).add .rne (.num true 0 0)).1 = .num true 0 0 ∧ ((FVal.num true 0 5).add .rdn (.num false 0 0)).1 = .num true 0 0 ∧
    (FVal.inf false).add .rne (.inf true) = (.nan false, true) ∧ (FVal.inf true).add .rne one = (.inf true, false) ∧
    (FVal.inf true).mul (.num false 0 3) = (.nan false, true) ∧ minus.mul (.inf true) = (.inf false, false) ∧
    (FVal.nan true).add .rne one = (.nan false, true) ∧ one.mul (.nan false) = (.nan false, false) := by
  decide +kernel

/-- Underflow of FP32: 3 × 2^-150 is tiny and inexact, 2^-149 tiny and exact, and a value that rounds to the smallest normal is
not tiny. -/
theorem witness_Fp32Results_underflow :
    roundTo .fp32 .rne (.num false 3 (-150)) = (2, 0b01100) ∧ roundTo .fp32 .rne (.num false 1 (-149)) = (1, 0) ∧
    roundTo .fp32 .rne (.num false (2 ^ 26 - 1) (-152)) = (0x00800000, 0b01000) ∧
    roundTo .fp32 .rne (.num false (2 ^ 24 - 1) (-150)) = (0x00800000, 0b01100) := by
  decide +kernel

/-- Table 8.8, and the encodings at the ends of their fields. -/
theorem witness_ConversionResults_values :
    let row := fun (f : CvtFmt) (code x : Nat) => f.convert code (Fmt.fp32.value x)
    row (.float .bf16) 0 0x3F808000 = (0x3F80, 0b01000) ∧ row (.float .e4m3) 0 0x43E80000 = (0x7E, 0b11000) ∧
    row (.float .e4m3) 2 0x7F800000 = (0x7E, 0b11000) ∧ row .int8 0 0xC0200000 = (0xFFFFFFFD, 0b01000) ∧
    row .int8 0 0x43960000 = (0x7F, 0b11000) ∧ row .int32 4 0x7FA00000 = (0, 0b00001) ∧ row .uint32 0 0xBF800000 = (0, 0b11000) ∧
    Fmt.e4m3.value 0x7E = .num false 14 5 ∧ Fmt.e4m3.value 0x7F = .nan false ∧ Fmt.e5m2.value 0xFC = .inf true ∧
    Fmt.fp16.value 0x7C01 = .nan true ∧ Fmt.fp16.value 0x7E00 = .nan false ∧ Fmt.fp16.value 0x8001 = .num true 1 (-24) := by
  decide +kernel

/-- The last codes of each element format that are numbers, and NaNs and infinities as they are quantised. -/
theorem witness_BlockScaleResults_values :
    QFmt.e4m3.quantise 0 (QFmt.e4m3.element 0xFE, false) = (0xFE, 0) ∧ QFmt.e2m1.quantise 0 (QFmt.e2m1.element 8, false) = (8, 0) ∧
    QFmt.int8.quantise 0 (QFmt.int8.element 0x80, false) = (0x80, 0) ∧ (QFmt.e5m2.element 0x7E).isNan = true ∧
    QFmt.e2m1.quantise 0 (.nan false, false) = (0, 0b00001) ∧ QFmt.e4m3.quantise 0 (.nan true, true) = (0x7F, 0b00001) ∧
    QFmt.e4m3.quantise 0 (.inf true, false) = (0xFE, 0b11000) ∧ QFmt.int8.quantise 0 (.num false 255 (-1), false) = (127, 0b11000) := by
  decide +kernel

/-- The rows of R421's table, and a UINT64 to itself. -/
theorem witness_UniformFpResults_values :
    ufcvt 0 1 0 0xC0300000 = (0xFFFFFFFFFFFFFFFD, 0b01000) ∧ ufcvt 3 0 4 16777217 = (0x4B800001, 0b01000) ∧
    ufcvt 1 2 0 0x80000000 = (0, 0b11000) ∧ ufcvt 4 4 0 0xFFFFFFFFFFFFFFFF = (0xFFFFFFFFFFFFFFFF, 0) ∧
    ufcvt 4 3 0 0xFFFFFFFFFFFFFFFF = (0x7FFFFFFFFFFFFFFF, 0b11000) := by
  decide +kernel

/-- R365: a step of a scan in each of its operations, of 2 and of 1 below it. -/
theorem witness_CrossLaneResults_steps :
    stepCombine 0 0 0xFFFFFFFF 2 = (1, 0) ∧ stepCombine 1 0 0x3F800000 0x40000000 = (0x40400000, 0) ∧
    stepCombine 2 0 0x3F800000 0x40000000 = (0x3F800000, 0) ∧ stepCombine 3 0 0x3F800000 0x40000000 = (0x40000000, 0) := by
  decide +kernel

/-- Record 0; a reserved bit of the sampler; images in a window, off 16 bytes, of an unmapped page and of a poisoned word. -/
theorem witness_SampleResults_traps :
    let image := bufRecOf (0x10100 + 0x0808 * 2 ^ 112 + 2 * 2 ^ 176 + 2 * 2 ^ 192)
    let texels := fun (r : BufRec) (u : State) =>
      texAccess fun l => r.texelPlaces l (r.sample (samplerOf 1) false 0 (u.vreg 8 l) (u.vreg 9 l)).taps
    let lost := { image with base := 0x900000 }
    let s := imaged 1
    let walked := s.putPath { s.path with walked := true }
    let bad := { s with poison := [0x200110 / 8] }
    (isOk (s.bufRec 0) = true ∧ s.bufRec 1 = .ok image ∧ image.imageOk = true ∧ samplerOk 0x4000 = false ∧ samplerOk 0xE00 = true ∧
      samplerOk 0xF00 = false) ∧
    (windowOf (BitVec.ofNat 64 0xFFFFFF0000000000) ≠ .global ∧ (0x10108 : Nat) % 16 ≠ 0 ∧ { image with tilex := 0 }.imageOk = false) ∧
    (s.Runs ∧ s.unlatched.missingPages (stopPages s (texels lost s.unlatched)) ≠ [] ∧ s.path.walked = false) ∧
    (walked.Runs ∧ stopFaults walked (texels lost walked.unlatched) = [some 0x02]) ∧
    (bad.Runs ∧ stopFaults bad (texels image bad.unlatched) = [some 0x13]) := by
  unfold State.Runs
  decide +kernel

/-- A query of a descriptor in a window, off 64 bytes, of an unmapped page; of a structure off 64 bytes and one with a reserved
flag; and of a structure that no page maps. -/
theorem witness_SampleResults_queries :
    let d := rayDescOf ([0, 4, 1] ++ List.replicate 13 0)
    let at_ := fun (a : Nat) => (imaged 1).writePhys 0x200080 8 a
    let s := imaged 1
    let lost := (at_ 0x900000).putPath { s.path with walked := true }
    (windowOf (s.uni 12) = .global ∧ (s.uni 12).toNat % 64 = 0 ∧ (s.uni 12 + 1).toNat % 64 ≠ 0 ∧
      windowOf (BitVec.ofNat 64 0xFFFFFF0000000000) ≠ .global) ∧
    (d.structureAt = 0x10400 ∧ d.reserved = false ∧ d.memo = false ∧ d.structureAt % 64 = 0) ∧
    ((rayDescOf (natLe 8 0x10410 ++ List.replicate 8 0)).structureAt % 64 ≠ 0 ∧
      (rayDescOf (natLe 12 0x10400 ++ [8, 0, 0, 0])).reserved = true) ∧
    (s.unlatched.rayRead 0x10080 16 = .ok ([0, 4, 1] ++ List.replicate 13 0) ∧ isOk (s.unlatched.rayRead 0x900000 16) = false ∧
      s.unlatched.missingPages (pagesOf [(0x900000, 16)]) ≠ []) ∧
    (lost.Runs ∧ (lost.unlatched.rayRead 0x10080 16).toOption.map (fun bs => (rayDescOf bs).structureAt) = some 0x900000 ∧
      (((lost.unlatched.walkedFor (pagesOf [(0x900000, 32)])).rayLanes { d with structureAt := 0x900000 } 8 [0]).2.2.1.map fun p =>
        (p.1, p.2.cause)) = [(0, 0x02)]) := by
  unfold State.Runs
  decide +kernel

/-- Each kind of reference, a node that ends beyond its structure, and a walk at its budget. -/
theorem witness_SampleResults_walks :
    let d := rayDescOf ([0, 4, 1] ++ List.replicate 13 0)
    let s := (imaged 1).unlatched
    let walk := fun (r : Word) (e budget : Nat) => match s.rayLoop d (List.replicate 8 0) e budget 3 { stack := [r], tmax := 0 } with
      | .ok (st, w) => some (st, w.visits)
      | .error _ => none
    (rayVisit 0).kind = 0 ∧ (rayVisit 0x40000001).kind = 1 ∧ (rayVisit 0x80000001).kind = 2 ∧ (rayVisit 0xC0000000).kind = 3 ∧
    (rayVisit 0x40000001).off = 64 ∧ walk 0 0 1 = some (.finished, 1) ∧ walk 0 0 0 = some (.abandoned, 1) ∧
    walk 0xC0000000 256 1 = some (.malformed, 1) ∧ walk 0x40000001 319 1 = some (.malformed, 1) ∧ isOk (s.rayRead 0x10440 224) = true ∧
    isOk (s.rayRead 0x10440 44) = true := by
  decide +kernel

/-- Each check of Table 13.5 in turn: a field, the alignment, the end, the tile's tag, the tags of the source, one granule in both
places; and the waits. -/
theorem witness_TransformIssueResults_stops :
    let side := fun (x : Nat) (spectral : Bool) => ({ desc := transformDescOf x, spectral := spectral } : Side)
    let into := fun (x : Nat) => ({ desc := transformDescOf x, spectral := true, dest := true } : Side)
    let xft := fun (a b : Nat) => ({ len := 16, tile := none, dst := into b, src := some (side a false), shift := true
                                     kind := .xft (transformDescOf a) } : Transform)
    let good := 0x0010002000041000
    let stops := fun (s : State) (x : Transform) =>
      match s.transform x with
      | .trap c a i _ => some (c.toNat, a.toNat, i.toNat)
      | _ => none
    let s := vectors { spectral := true }
    stops s (xft 0x0018004000000000 good) = some (3, 0, 4) ∧ stops s (xft 0x0008004000000001 good) = some (4, 1, 0) ∧
    stops s (xft 0x000800400000FFF0 good) = some (6, 0x10000, 2) ∧ stops s (xft 0x000800400000FFC0 0x001000207FF41000) = some (3, 0, 4) ∧
    stops s (xft 0x000800400000FFC0 0x0010002000081000) = some (6, 0x10000, 2) ∧
    stops s { xft 0 good with tile := some false, src := none } = some (0x0A, 0, 3) ∧
    stops s (xft 0x0008004000001400 good) = some (0x0A, 0x1400, 2) ∧ stops s (xft 0x0008004000001040 good) = some (0x0A, 0x1000, 5) ∧
    stops s { xft 0 good with src := some (side 0x0010002000000000 true) } = some (0x0A, 0, 1) ∧
    (let busy := { s with acceptSeq := 9, cores := [(0, { transformQ := [tileOp 1, tileOp 2] })] }
     let waits := fun (x : Transform) => match busy.transform x with
       | .wait _ w => some w
       | _ => none
     busy.Runs ∧ waits (xft 0x0008004000000000 good) = some (.engineQueue .transform) ∧
       waits (xft 0x0008004000002000 good) = some (.tags [8])) := by
  unfold State.Runs
  decide +kernel

/-- An MKEYT above bit 17, of length 0, beyond the scratchpad, misaligned, and over a footprint; MLOOK of a tile region without one. -/
theorem witness_KeyingResults_tile :
    let r := { groupRegion with gran := 3, keyed := { w := 0xF0 } }
    let s := pureIn r slot8 0
    let busy := { s with acceptSeq := 9, cores := [(0, { transformQ := [{ tileOp 1 with dst := { (tileOp 1).dst with off := 0x40 } }] })] }
    s.InRegion r ∧ r.unkeyed { wr := [4, 5] } = none ∧ ¬(2 ^ 18 < 2 ^ 18) ∧ (s.uni 0).toNat = 0 ∧
    s.spSize < 0xFFFC + (s.uni 5).toNat ∧ (s.uni 6).toNat % 4 ≠ 0 ∧ (s.uni 6).toNat ≠ 0 ∧
    busy.InRegion r ∧ busy.interlocked 0 9 [⟨0x40, 8⟩] false = true ∧
    (let k := { keyedRegion with gran := 3 }
     (pureIn k slot8 0).InRegion k ∧ isDeclared (pureIn k slot8 0) (decl8 1 0) slot8 ∧ k.sizesWrong (decl8 1 0) 1 = false ∧
      k.sawMkeyt = false) := by
  unfold isDeclared
  refine ⟨inRegion_of ?_, ?_, ?_, ?_, ?_, ?_, ?_, inRegion_of ?_, ?_, inRegion_of ?_, ?_⟩ <;> decide +kernel

/-- A group image at an address whose page misses the TLBs, before its walk and behind it, at one in the group's own
window, which no image may hold, and over a scratchpad that a transform writes. -/
theorem witness_HandlerInstructions_stops :
    let s := handler 5 [(60, 0x1000)]
    let walked := s.putPath { s.path with walked := true }
    let place := fun (s : State) (a : BitVec 64) (k : Nat) => s.resolve none (a + BitVec.ofNat 64 (256 * k)) 256
    (s.live = true ∧ s.group.trap = some kept ∧ isOk (place s 0x1000 0) = true ∧ s.missingPages (pagesOf [(0x1000, 256)]) ≠ [] ∧
      s.path.walked = false) ∧
    (walked.live = true ∧ walked.path.walked = true ∧
      ((walked.walkedFor (pagesOf [(0x1000, 256)])).checkPieces 0x1000 [(0x1000, 256)] true).isSome = true) ∧
    isOk (place s 0xFFFFFF0000000000 0) = false ∧
    (let busy := { s with acceptSeq := 9, cores := [(0, { transformQ := [tileOp 1] })] }
     place busy 0xFFFFFE0001002000 0 = .ok (.pad 0 0x2000) ∧ busy.missingPages [] = [] ∧
      busy.interlocked 0 9 (ownSpans 0 256 [.pad 0 0x2000]) true = true) := by
  decide +kernel

/-- A barrier, a switch point and a regrouping that a restore has the path issue again, before their phase ends and behind it. -/
theorem witness_BarrierResults_again :
    let again := fun (w : Wait) (ended : Bool) => base.putPath { base.path with again := some { wait := w, ended := ended } }
    (∀ w ∈ ([.barrier 3 .none, .barrier 3 (.uniform 5 4), .switchPoint 0, .regroup 5 3] : List Wait), ∀ e ∈ [true, false],
      (again w e).live = true ∧ (again w e).group.trap = none ∧ (again w e).path.again.map (fun r => (decide (r.wait = w), r.ended)) =
        some (true, e)) ∧
    (again (.regroup 5 3) true).group.singlePath = true ∧ (again (.regroup 5 3) true).node.priv = 0 := by
  decide +kernel

/-- Issued again, BAR counts nothing and waits, or goes on where its phase has ended since; halted in it, a path keeps that wait. -/
theorem test_bar_again :
    let again := fun (ended : Bool) => base.putPath { base.path with again := some { wait := .barrier 3 .none, ended := ended } }
    (after (.bar 3) (again false)).path.wait = some (.barrier 3 .none) ∧
    ((after (.bar 3) (again false)).team.barrier 3).arrived = 0 ∧ (after (.bar 3) (again true)).path.pc = 0x10004 ∧
    ((({ base.path with wait := some (.barrier 3 .none) } : Path).halt).again.map (·.ended)) = some false := by
  decide +kernel

/-- A copy that stands suspended on an absent leaf and has not been reported, beside one that runs (R210). -/
theorem witness_BatchResults_suspended :
    let s : State := { base with cores := [(0, { copyQ := [{ seq := 1, team := 0, group := 0, batch := 1, card := 0 }] })] }
    let t := s.putTeam { s.team with faults :=
      [{ seq := 0, group := 0, batch := 1, reason := 0x10, taddr := 0x10, resumable := true }] }
    let u := t.resumeJobs (t.uni 5)
    t.Runs ∧ t.group.trap = none ∧ u.runningJobs (t.uni 5) ≠ [] ∧ u.leafUnreported (t.uni 5) = true ∧
      (u.nextFault (t.uni 5)).isSome = true := by
  unfold State.Runs
  decide +kernel

/-- A store beside a spectrum that a transform in flight writes into the same granule waits, since both set its tag (R195); a path that
waits hands the turn to its sibling (R43). -/
theorem test_tag_and_turn :
    let x : TransformOp := { tileOp 1 with dst := { (tileOp 1).dst with off := 0x2000 } }
    let s : State := { working [] [x] [] with acceptSeq := 9 }
    s.interlocked 0 9 [⟨0x2100, 4⟩] true = true ∧ s.interlocked 0 9 [⟨0x2400, 4⟩] true = false ∧
    s.interlocked 0 9 [⟨0x2100, 4⟩] false = false ∧
    (let two := machine [{ grp 1 [] [] with path1 := some { pc := 0x10000, mask := 2 } }]
     (two.park .stores).group.cur = true ∧ (base.park .stores).group.cur = false) := by
  decide +kernel

/-- TMASKH in trap mode, and outside it (R99). -/
theorem test_tmaskh : ((handler 5 []).setStatus 0x016 7).status 0x016 = 7 ∧ (base.setStatus 0x016 7).status 0x016 = 0 := by
  decide +kernel

/-- IADDI behind a guard with zm, and behind a prefix with a rounding mode (Table 6.5). -/
theorem witness_ImmediateResults_prefix :
    pairFault { pm := 3, pinv := true, zm := true, rnd := 0, scope := 0, vc := 0 } (.iaddi 3 3 1 false) = none ∧
    pairFault { pm := 0, pinv := false, zm := false, rnd := 1, scope := 0, vc := 0 } (.sari 3 3 1 false) = some (true, .prefixField) := by
  decide +kernel

/-- PRF of two lanes whose page misses the TLBs, before its walk, and behind a walk that finds no leaf; and one whose page is a
compressed view. -/
theorem witness_SampleResults_prefetch :
    let lost := { memory with cores := [] }
    let walked := lost.putPath { lost.path with walked := true }
    let viewed := { memory with cores := memory.cores.map fun c => (c.1, { c.2 with tlb := c.2.tlb.map fun e => { e with cv := true } }) }
    let reached := fun (s : State) => (lanesOf s.active).filter fun l => windowOf (s.unlatched.laneAddress 7 4 l) = .global
    let pages := fun (s : State) => (reached s).map fun l => (s.unlatched.laneAddress 7 4 l).toNat / 4096 * 4096
    let leaf := fun (s : State) (l : Nat) => let v := s.unlatched.walkedFor (pages s)
      match v.translate v.coreNow v.rootNow (s.unlatched.laneAddress 7 4 l).toNat with
      | .leaf e => some e.cv
      | _ => none
    (lost.Runs ∧ lost.active ≠ 0 ∧ lost.unlatched.missingPages (pages lost) ≠ [] ∧ lost.path.walked = false) ∧
    (walked.Runs ∧ walked.path.walked = true ∧ (reached walked).map (leaf walked) = [none, none] ∧
      (walked.unlatched.walkedFor (pages walked)).Steady) ∧
    (viewed.Runs ∧ viewed.unlatched.missingPages (pages viewed) = [] ∧ (reached viewed).map (leaf viewed) = [some true, some true]) := by
  unfold State.Runs State.Steady
  decide +kernel

/-- The words of a card in a page that the TLBs miss, before its walk and behind it, where it is absent; a word in a window that
no slot backs; a poisoned word; and words of the scratchpad that a transform in flight writes. -/
theorem witness_JobIssueResults_stops :
    let s := carded 0 1
    let lost := { s with cores := [] }
    let walked := lost.putPath { lost.path with walked := true }
    let places := fun (k : Nat) => (List.range k).map fun i => Place.global [(0x1000 + 8 * i, 8)]
    let pages := fun (k : Nat) => (places k).flatMap fun p => pagesOf p.pieces
    let rows := fun (t : State) (k : Nat) => ((wordsAt 0x1000 k).zip (places k)).flatMap fun p =>
      (t.walkedFor (pages k)).pieceFaults p.1 p.2.pieces false
    (∀ k ∈ [5, 8], (wordsAt 0x1000 k).map (fun a => s.resolve none a 8) = (places k).map Except.ok ∧
      lost.missingPages (pages k) ≠ [] ∧ ((leastFault (rows walked k)).map (·.cause)) = some 0x02 ∧ rows s k = []) ∧
    (lost.Runs ∧ lost.path.walked = false ∧ walked.Runs ∧ walked.path.walked = true) ∧
    isOk (s.resolve none 0xFFFFFF0000000000 8) = false ∧
    (let t := { s with poison := [0x201] }
     t.Runs ∧ t.poisonPieces [(0x1000, 8)] false = false ∧ t.poisonPieces [(0x1008, 8)] false = true) ∧
    (let t := { s with acceptSeq := 9, cores := [(0, { transformQ := [tileOp 1] })] }
     let a : BitVec 64 := 0xFFFFFE0001002000
     t.Runs ∧ t.resolve none a 8 = .ok (.pad 0 0x2000) ∧ t.interlocked 0 9 (ownSpans 0 8 [.pad 0 0x2000]) false = true) := by
  unfold State.Runs
  decide +kernel

/-- A send over bytes that a transform in flight writes; and a deterministic one to a ring that is not declared, and to a team that drains. -/
theorem witness_RingResults_waits :
    let s := ringed 0 0
    let at_ := s.putTeam { s.team with rings := [(0, { base := 0x2000, capacity := 1, declared := true })] }
    let busy := { at_ with acceptSeq := 9, cores := [(0, { transformQ := [tileOp 1] })] }
    let det := { s with nodes := [{ s.node with det := true }] }
    let drains := det.putTeam { det.team with barriers := mapSet {} det.team.barriers 16 { draining := true } }
    (busy.Runs ∧ busy.group.trap = none ∧ busy.slotTeam 0 = some 0 ∧ (busy.team.ring 0).declared = true ∧
      (busy.team.ring 0).used ≠ (busy.team.ring 0).capacity ∧
      busy.interlocked 0 9 [⟨(busy.team.ring 0).entryAt (busy.team.ring 0).tail, 16⟩] true = true) ∧
    (det.Runs ∧ det.node.det = true ∧ det.slotTeam 0 = some 0 ∧ (det.teamAt 0).alive = true ∧ (det.team.ring 1).declared = false) ∧
    (drains.Runs ∧ drains.node.det = true ∧ (drains.teamAt 0).alive = true ∧ (drains.team.barrier 16).draining = true) := by
  unfold State.Runs
  decide +kernel

/-- A pass without a target 7 or 8; pixels of a page that the TLBs miss, before the walk and behind it; and a MEMIT whose window a
transform in flight writes. -/
theorem witness_MeshAndFragmentResults_stops :
    let t : Target := { base := 0x2000, pitch := 0x400, width := 32, height := 32, fmt := 8, retained := false, sigBase := 0, cost := 0 }
    let stores := fun (s : State) => ({
      early := fun u l => if u.group.helper.getLsbD l then .ok [] else .ok (((List.range 4).filter fun c => (15 : BitVec 4).getLsbD c).map fun c =>
        { lane := l, addr := t.at_ (s.lanePixel l).1 (s.lanePixel l).2 c
          place := .global [((t.at_ (s.lanePixel l).1 (s.lanePixel l).2 c).toNat, t.comp)] })
      bytes := t.comp, write := true, reads := false } : LaneAccess)
    let faults := fun (s : State) => (lanesOf s.active).map fun l =>
      ((stores s).laneFault s (s.walkedFor ((accesses s (stores s)).flatMap fun a => pagesOf a.place.pieces)) l).map (·.cause)
    let lost := { shading with cores := [] }
    let walked := lost.putPath { lost.path with walked := true }
    let busy := { meshing false with acceptSeq := 9, cores := [(0, { transformQ := [{ tileOp 1 with dst := { (tileOp 1).dst with off := 0x100 } }] })] }
    ((shading.passOf shading.node).map (·.targets) = some [t] ∧ [t].length ≤ 7 ∧ (8 : Nat) ≤ 8) ∧
    (lost.Runs ∧ lost.group.trap = none ∧ lost.node.kind = 2 ∧ lost.path.walked = false ∧
      lost.missingPages ((accesses lost (stores lost)).flatMap fun a => pagesOf a.place.pieces) ≠ []) ∧
    (walked.Runs ∧ walked.path.walked = true ∧ faults walked = List.replicate 4 (some 0x02)) ∧
    (busy.Runs ∧ busy.team.decl = some { off := 0x100, verts := 3, prims := 1, trapOnFlag := false } ∧
      busy.interlocked 0 9 [⟨0x100, 3 * busy.node.vstride + 4 * 1⟩] false = true) := by
  unfold State.Runs
  decide +kernel

/-- Each check of Tables 12.4, 13.2 and 18.1 in turn, and the waits. -/
theorem witness_MatrixIssueResults_stops :
    let stops := fun (i : Instr) (s : State) => let g := (after i s).group
      (g.tcause.toNat, g.taddr.toNat, g.tinfo.toNat)
    let waits := fun (i : Instr) (s : State) => (after i s).path.wait
    let mma := fun (a b : Nat) (tags : List (Nat × Word)) => stops (.mmaz 1 4 6) (engines [(4, a), (6, b)] tags {} [])
    let good := 0x0001006000000000
    let mmas := fun (zero : Bool) (a b : Nat) (tags : List (Nat × Word)) (tile : TileTag) =>
      stops (if zero then .mmasz 1 4 6 else .mmas 1 4 6)
        (engines [(4, a), (5, 0xFFFFFFFF00000000), (6, b), (7, 0xFFFFFFFF00000000)] tags tile [])
    let a := 0x0010004000000000
    let b := 0x0010004000001000
    let tags : List (Nat × Word) := [(0, 1), (1, 1), (2, 1), (4, 1)]
    let accst := fun (d : Nat) => stops (.accst 1 4) (engines [(4, d)] [] {} [])
    mma good 0x000B006000001000 [] = (3, 0, 4) ∧ mma (good + 2 ^ 60) good [] = (3, 0, 4) ∧ mma (good + 8) good [] = (4, 8, 0) ∧
    mma (good + 0xFFF0) good [] = (6, 0x10000, 2) ∧ mma good 0x0001006000001000 [(4, 1)] = (0x0A, 0x1000, 2) ∧
    mmas true (a + 2 ^ 56) b tags {} = (3, 0, 4) ∧ mmas true (a + 1) b tags {} = (4, 1, 0) ∧ mmas true (a + 0xFFF0) b tags {} = (6, 0x10000, 2) ∧
    mmas true a b [(0, 1), (1, 1)] {} = (0x0A, 0x1000, 1) ∧ mmas true (a + 16) b tags {} = (0x0A, 16, 4) ∧
    mmas false a b tags {} = (0x0A, 0, 3) ∧
    accst 0x0002008000000000 = (3, 0, 4) ∧ accst 0x0008008000000001 = (4, 1, 0) ∧ accst 0x000800800000FFF0 = (6, 0x10000, 2) ∧
    (let full := List.replicate 8 queuedMma
     waits (.mmaz 1 4 6) (engines [(4, good), (6, 0x0001006000001000)] [] {} full) = some (.engineQueue .matrix) ∧
     waits (.accst 1 4) (engines [(4, 0x0008008000000000)] [] {} full) = some (.engineQueue .matrix) ∧
     waits (.mmasz 1 4 6) (engines [(4, a), (5, 0xFFFFFFFF00000000), (6, b), (7, 0xFFFFFFFF00000000)] tags {} full) =
       some (.engineQueue .matrix)) ∧
    (let busy := { engines [(4, good), (6, 0x0001006000001000)] [] {} [] with acceptSeq := 9, cores := [(0, { transformQ := [{ tileOp 1 with dst := { (tileOp 1).dst with off := 0x400 } }] })] }
     waits (.mmaz 1 4 6) busy = some (.tags [0, 1, 2, 4, 5, 6])) := by
  decide +kernel

/-- Job 1 has written the byte at 0x1000 and the low nibble of that at 0x1001: job 0 of the same group, whose turn comes later, leaves
these alone and writes the rest (R208). A job of another group is free to write them. -/
theorem test_taken_bytes :
    let s := fun (group : Nat) => { mapped base 0x1000 [0x11, 0x22, 0x33] with
      cores := [(0, { (mapped base 0 []).coreAt 0 with
        copyQ := [{ copyJob 0 0 0 with group := group, suspended := true }, copyJob 1 0 0] })] }
    let wrote := fun (group seq : Nat) (bs : List (Byte × Byte)) (t : State) => match t.engineMerge 0 0x100000 seq 0x1000 bs with
      | .ok t => t
      | .error _ => s group
    let t := wrote 0 1 [(255, 0xAA), (15, 0x0B)] (s 0)
    let u := wrote 0 0 [(255, 1), (255, 2), (255, 3)] t
    let v := wrote 1 0 [(255, 1), (255, 2), (255, 3)] (wrote 1 1 [(255, 0xAA), (15, 0x0B)] (s 1))
    (t.coreAt 0).copyQ.map (·.taken) = [[⟨0x1000, 1, 255⟩, ⟨0x1001, 1, 15⟩], []] ∧
    memRead t.mem 0x1000 3 = [0xAA, 0x2B, 0x33] ∧ memRead u.mem 0x1000 3 = [0xAA, 0x0B, 3] ∧
    memRead v.mem 0x1000 3 = [1, 2, 3] := by
  decide +kernel

/-- A release has the stores on their way reach memory before the next holder's turn (R27). -/
theorem test_release_drains :
    let s := { base with slotBase := 0x2000, cores := [(0, { outgoing := [⟨0, 0, 0, 0x3000, [7]⟩] })] }
    s.byteAt 0x3000 = 0 ∧ ((s.releaseSlot 2 0x101 0).byteAt 0x3000 = 7) := by
  decide +kernel

/-- A trap that trap mode has kept back is delivered before the group issues (R280). -/
theorem test_delivery_first :
    let s := waiting (.delivery { cause := 2, tpc := 0x10000 })
    s.slotTurn = some (.faultDelivery 0 0 false) := by
  decide +kernel

/-- R412: rows 5 to 7 set TMASK to every lane whose read faults: lane 0 reads beyond the extent, lane 2 a poisoned line. -/
theorem test_texel_mask :
    let l : List (Nat × AccessFault) := [(0, ⟨3, 8, 5⟩), (2, ⟨0x13, 16, 0⟩)]
    ((texAccess fun _ => .ok []).first l).map (·.2) = some 5 ∧ (Machine.firstFault l).map (·.2) = some 1 := by
  decide +kernel

/-- R78, R51: what an exhausted region lost to a waiting one is not restored while that one waits. -/
theorem test_budget_bars :
    let s := { contended with regions := [(0, island 7), (1, { island 5 with save := 0x600000, saveSize := 0x400000 }),
                                          (2, { island 3 with budgetSpent := true })] }
    let s := s.setNode 0 { s.nodeAt 0 with region := 2 }
    let s := s.setTeam 0 { s.teamAt 0 with status := .saved }
    let alone := { s with nodes := s.nodes.take 1 }
    s.mayRestore 0 0 = false ∧ s.mayPlace 1 = true ∧ alone.mayRestore 0 0 = true := by
  decide +kernel

/-- R126, R450: of a passed unit the verifier's own record answers for a switch point, and no access is made; another unit is read. -/
theorem test_image_switch :
    let s := fun (passed : Bool) => ({ (cmd 0 0 0 0 0).mapFetchPage.writePhys 0x200004 4 0xF4000003 with
      units := if passed then [{ unit := 0x200, literals := [], switches := [(1, 3)] }] else [] } : State)
    let ask := fun (p : Bool) (n : Nat) => match (s p).imageSwitch 0x100000 0x10004 n with
      | .ok b => some b
      | .error _ => none
    ask true 3 = some true ∧ ask true 2 = some false ∧ ask false 3 = some true ∧ ask false 2 = some false ∧
    switchesOf [0, 0xF4000003] = [(1, 3)] := by
  decide +kernel

/-- A frame stack: entries by index, with the path in frame 0 at its join point 0x10014. -/
def framed (docc : BitVec 32) (sibling : Bool) (entries : List (Nat × DsEntry)) : State :=
  let s := stacked docc
  let s := entries.foldl (fun s e => s.dsWrite e.1 e.2) s
  let s := if sibling then s.putGroup { s.group with path1 := some { pc := 0x10020, mask := 16 } } else s
  s.putPath { s.path with pc := 0x10014, fi := 0, fv := true }

/-- Frames with a count left, a deferred path beside them or not; with the last count and lanes left; and without lanes, whose outer
frame ends with them or keeps a count; for JOIN, and for EXIT of the path's four lanes. -/
theorem witness_PathControlResults_frames :
    let e : DsEntry := { kind := 2, addr := 0x10014, parent := 1, pv := true, cnt := 2, mask := 0x3F }
    let last : DsEntry := { e with cnt := 1 }
    let empty : DsEntry := { e with cnt := 1, mask := 0 }
    let exits := fun (s : State) => s.dropLanes s.path.mask s.path.fi s.path.fv 32
    (let s := framed 1 false [(0, e)]
     s.Runs ∧ s.path.fv = true ∧ (s.dsRead 0).addr = s.path.pc ∧ s.dsRead 0 = e ∧ s.group.docc.getLsbD 0 = true ∧
      s.group.trap = none ∧ ∀ k < 32, s.group.docc.getLsbD k = true → (s.dsRead k).kind ≠ 1) ∧
    (let s := framed 9 true [(0, e), (3, { e with kind := 1 })]
     s.Runs ∧ (s.dsRead 3).kind = 1 ∧ s.group.docc.getLsbD 3 = true ∧ (s.group.slot (!s.focus.slot)).isSome = true ∧
      ∀ j < 32, 3 < j → s.group.docc.getLsbD j = true → (s.dsRead j).kind ≠ 1) ∧
    (let s := framed 1 false [(0, last)]
     s.Runs ∧ (s.dsRead 0).addr = s.path.pc ∧ s.dsRead 0 = last ∧ ((exits s).dsRead 0).mask = 0x30) ∧
    (∀ cnt ∈ [1, 2], let s := framed 3 false [(0, empty), (1, { e with cnt := cnt, pv := false })]
     s.Runs ∧ (s.dsRead 0).addr = s.path.pc ∧ s.dsRead 0 = empty ∧ (s.dsRead 1).cnt = cnt ∧ (s.dsRead 1).mask ≠ 0 ∧
      s.group.docc.getLsbD 1 = true ∧ ((exits s).dsRead 0).mask = 0 ∧ ((exits s).dsRead 1).mask ≠ 0) := by
  unfold State.Runs
  decide +kernel

/-- R41: the last path of a frame joins: the merged path goes on behind the JOIN in the outer frame, and the entry is free. R42: after
EXIT the frame has lost the lanes. -/
theorem test_join_completes :
    let e : DsEntry := { kind := 2, addr := 0x10014, parent := 1, pv := true, cnt := 1, mask := 0x3F }
    let p := fun (i : Instr) => ((after i (framed 3 false [(0, e)])).group.path0.map fun p => (p.pc, p.mask, p.fi, p.fv))
    p .join = some (0x10018, 0x3F, 1, true) ∧ p .exit = some (0x10018, 0x30, 1, true) ∧
    (after .join (framed 3 false [(0, e)])).group.docc = 2 := by
  decide +kernel

/-- A created slot, slots of each refusal's fields, and a slot number and a region out of range. -/
theorem witness_CommandResults_memo :
    let slot := fun (c lo hi : Nat) => ((cmd 9 0 0 c 0).writePhys (0x6000 + 32 * c) 4 lo).writePhys (0x6004 + 32 * c) 4 hi
    let detail := fun (s : State) (c : Nat) => (s.begun 1).createDetail 0 c ((s.begun 1).readPhys (0x6000 + 32 * c) 32)
    let cored := fun (s : State) => s.setRegion 0 { s.regionAt 0 with cores := 1 }
    (let s := (slot 2 0x01010102 0).setMemoSlot 0 2 (some (memoSlotOf 0))
     s.CommandReady 1 9 ∧ ((s.begun 1).memoSlot 0 2).isSome = true ∧ detail s 2 = 4) ∧
    (let s := slot 2 0x01010302 0
     s.CommandReady 1 9 ∧ ((s.begun 1).memoSlot 0 2).isSome = false ∧ detail s 2 = 1) ∧
    (let s := cored (slot 2 0x40400110 0)
     s.CommandReady 1 9 ∧ detail s 2 = 2) ∧
    (let s := slot 2 0x01010102 1
     s.CommandReady 1 9 ∧ detail s 2 = 3) ∧
    (cmd 9 0 0 64 0).CommandReady 1 9 ∧ (cmd 9 0 0 64 1).CommandReady 1 9 ∧
    (cmd 9 0 7 2 0).CommandReady 1 9 ∧ (((cmd 9 0 7 2 0).begun 1).regionAt 7).active = false := by
  unfold State.CommandReady
  decide +kernel

/-- A handler in slot 0 that broke off a path of slot 1. -/
theorem witness_HandlerInstructions_left :
    let c := { kept with slot := true, path1 := some { pc := 0x10000, mask := 3 } }
    c.path1 = some { pc := 0x10000, mask := 3 } ∧ c.slot = true ∧ c.path0 = none := by
  decide

/-- The last team of its node; a resident team with a sleeping path and one at a barrier; a saved team of one group; and a switch between
variants that share a live value. -/
theorem witness_NodeEventResults_fields :
    (let s := base.setNode 0 { base.nodeAt 0 with placed := base.ensembleCount (base.nodeAt 0) }
     0 < s.teams.length ∧ s.lastTeam 0 = true ∧ (s.teamAt 0).node < s.nodes.length ∧ (s.nodeAt 0).teamKilled = false ∧
      (s.nodeAt 0).failing = none ∧ (s.nodeAt 0).finished = false ∧ (s.nodeAt 0).late = false) ∧
    (∀ w ∈ [Wait.sleep 5, .barrier 1 .none, .switchPoint 2, .regroup 1 2, .delivery { cause := 2, tpc := 0 }],
      let s := waiting w
      0 ∈ s.ensembleTeams 0 0 ∧ (s.teamAt 0).status = .resident ∧ ((s.groupAt 0 0).slot false).bind (·.wait) = some w) ∧
    (let s := { base with mem := [(0x400034, 1)] }
     s.readPhys ((s.groupAt 0 0).record.toNat + 52) 1 % 2 = 1 ∧ s.readPhys ((s.groupAt 0 0).record.toNat + 56) 1 % 2 = 0) ∧
    (let v : LiveValue := { cls := 0, regs := [1, 2] }
     (base.teamAt 0).groups.length = ((base.nodeAt 0).variant (base.teamAt 0).variant).groups ∧ liveMoves [v] 0 0 1 = [(1, 2)]) := by
  decide +kernel

/-- With convert set and equal formats a NaN keeps its bits (R135) and a number is rounded again (R200). -/
theorem test_copy_nan :
    let c := { cardOf 0 with flags := 4, sfmt := 8, dfmt := 8 }
    c.convertElem 0x7F800001 (.num false 1 0) = 0x7F800001 ∧ c.convertElem 0xFFC12345 (.num false 1 0) = 0xFFC12345 ∧
      c.convertElem 0x3F800000 (.num false 1 1) = 0x40000000 := by
  decide +kernel

/-- Sources of events take turns: an MMA that is always due keeps no copy from its turn, nor the copy it (R51). -/
theorem test_event_turns :
    let s := working [{ queuedMma with seq := 1 }] [] [copyJob 0 (padCard 1 0x101) 0]
    s.nextDue = some ((3, 0), .matrixOpStart 0) ∧ ((s.tookFrom (3, 0)).nextDue).map (·.1) = some (5, 0) ∧
      ((s.tookFrom (5, 0)).nextDue).map (·.1) = some (3, 0) := by
  decide +kernel

end Sys2Proof.Tests
end

section
/-!
SUPPORT. Divergence-stack entries in memory (R37, Table 2.2), and JSET (R40): what an entry reads after it is written, which
entry is the lowest free one, and the state with a frame opened.
-/
namespace Sys2Proof.Machine

/-! ## Numbers in physical memory -/

theorem State.readPhys_writePhys_self (s : State) (a n x : Nat) : (s.writePhys a n x).readPhys a n = x % 256 ^ n :=
  memNat_memWriteNat s.mem a n x

theorem State.readPhys_writePhys_of_apart (s : State) {a n b k : Nat} (x : Nat) (h : b + k ≤ a ∨ a + n ≤ b) :
    (s.writePhys a n x).readPhys b k = s.readPhys b k := by
  show leNat (memRead (memWrite s.mem a (natLe n x)) b k) = leNat (memRead s.mem b k)
  rw [memRead_memWrite_of_apart s.mem a b k _ (by rwa [natLe_length])]

/-! ## Entries -/

/-- The fields fit their bits of Table 2.2. -/
def DsEntry.Fits (e : DsEntry) : Prop := e.kind < 4 ∧ e.addr.toNat % 4 = 0 ∧ e.cnt < 256

theorem DsEntry.bits_lt {e : DsEntry} (h : e.Fits) : e.bits < 256 ^ 32 := by
  obtain ⟨hk, ha, hc⟩ := h
  have := e.addr.isLt
  have := e.parent.isLt
  have := e.pv.toNat_lt
  have := e.mask.isLt
  simp only [DsEntry.bits]
  omega

/-- An entry whose fields fit is read back from its 32 bytes. -/
theorem dsEntryOf_bits {e : DsEntry} (h : e.Fits) : dsEntryOf e.bits = e := by
  obtain ⟨kind, addr, parent, pv, cnt, mask⟩ := e
  obtain ⟨hk, ha, hc⟩ := h
  simp only at hk ha hc
  have hx := addr.isLt
  have hp := parent.isLt
  have hv := pv.toNat_lt
  have hm := mask.isLt
  have ofNat_of_mod : ∀ {w : Nat} (b : BitVec w) (x : Nat), x % 2 ^ w = b.toNat → BitVec.ofNat w x = b := fun b x e =>
    BitVec.eq_of_toNat_eq (by rw [BitVec.toNat_ofNat, e])
  simp only [dsEntryOf, DsEntry.bits, bitField, DsEntry.mk.injEq]
  refine ⟨by omega, ofNat_of_mod _ _ (by omega), ofNat_of_mod _ _ (by omega), ?_, by omega, ofNat_of_mod _ _ (by omega)⟩
  rw [Nat.testBit_eq_decide_div_mod_eq]
  cases pv <;> simp only [Bool.toNat_false, Bool.toNat_true, decide_eq_true_eq, decide_eq_false_iff_not] <;> omega

theorem State.group_writeBytes (s : State) (a : Nat) (bs : List Byte) : (s.writeBytes a bs).group = s.group := rfl

theorem State.placed_writeBytes {s : State} (h : s.placed) (a : Nat) (bs : List Byte) : (s.writeBytes a bs).placed := h

@[simp] theorem State.group_dsWrite (s : State) (i : Nat) (e : DsEntry) : (s.dsWrite i e).group = s.group :=
  s.group_writeBytes _ _

@[simp] theorem State.focus_dsWrite (s : State) (i : Nat) (e : DsEntry) : (s.dsWrite i e).focus = s.focus :=
  s.writeBytes_focus _ _

theorem State.placed_dsWrite {s : State} (h : s.placed) (i : Nat) (e : DsEntry) : (s.dsWrite i e).placed :=
  State.placed_writeBytes h _ _

theorem State.dsRead_dsWrite_self (s : State) (i : Nat) {e : DsEntry} (h : e.Fits) : (s.dsWrite i e).dsRead i = e := by
  rw [State.dsRead, s.group_dsWrite, State.dsWrite, State.readPhys_writePhys_self, Nat.mod_eq_of_lt (DsEntry.bits_lt h),
    dsEntryOf_bits h]

theorem State.dsRead_dsWrite_ne (s : State) {i j : Nat} (h : j ≠ i) (e : DsEntry) :
    (s.dsWrite i e).dsRead j = s.dsRead j := by
  rw [State.dsRead, s.group_dsWrite, State.dsWrite, State.readPhys_writePhys_of_apart s _ (by omega), State.dsRead]

/-- A write of the executing group that keeps where its stack stands keeps every entry. -/
theorem State.dsRead_putGroup {s : State} (h : s.placed) {g : Group} (hg : g.dsbase = s.group.dsbase) (j : Nat) :
    (s.putGroup g).dsRead j = s.dsRead j := by
  rw [State.dsRead, s.group_putGroup h, hg]
  rfl

/-! ## The lowest free entry -/

theorem State.dsLowest_of_full {s : State} (h : s.group.docc = BitVec.allOnes 32) : s.dsLowest = none := by
  rw [State.dsLowest, List.find?_range_eq_none]
  intro i hi
  rw [h, BitVec.getLsbD_allOnes, decide_eq_true hi]
  rfl

theorem State.dsLowest_of_lowest {s : State} {i : Nat} (hi : i < 32) (hf : s.group.docc.getLsbD i = false)
    (hb : ∀ j < i, s.group.docc.getLsbD j = true) : s.dsLowest = some i := by
  rw [State.dsLowest, List.find?_range_eq_some]
  exact ⟨by simp [hf], List.mem_range.mpr hi, fun j hj => by simp [hb j hj]⟩

/-! ## The state after a completed instruction -/

theorem Group.slot_countIssue (g : Group) (a b : Bool) : (g.countIssue a).slot b = g.slot b := rfl

theorem State.path_issued {t : State} (h : t.placed) (pc : BitVec 64) : (t.issued pc).path =
    { t.path with pc := pc, wait := none, walked := false, released := false, bpSkip := false, again := none } := by
  show (t.putGroup _).path = _
  rw [t.path_putGroup h, Group.slot_countIssue, Group.slot_setSlot_self, Option.getD_some]

theorem State.docc_issued {t : State} (h : t.placed) (pc : BitVec 64) : (t.issued pc).group.docc = t.group.docc := by
  show (t.putGroup _).group.docc = _
  rw [t.group_putGroup h]
  simp [Group.countIssue]

theorem State.dsRead_issued {t : State} (h : t.placed) (pc : BitVec 64) (j : Nat) :
    (t.issued pc).dsRead j = t.dsRead j :=
  State.dsRead_putGroup h (by simp [Group.countIssue]) j

/-! ## A frame opened -/

/-- The entry of the frame that the executing path opens at a join point (R40). -/
def State.joinFrame (s : State) (j : BitVec 64) : DsEntry :=
  { kind := 2, addr := j, parent := s.path.fi, pv := s.path.fv, cnt := 1, mask := s.path.mask }

theorem State.joinFrame_fits (s : State) {j : BitVec 64} (h : j.toNat % 4 = 0) : (s.joinFrame j).Fits :=
  ⟨show 2 < 4 by decide, h, show 1 < 256 by decide⟩

/-- Opening a frame writes its entry, and the executing group's occupancy and path at once. -/
theorem State.openFrame_eq {s : State} (h : s.placed) (i : Nat) (j : BitVec 64) :
    s.openFrame i j = (s.dsWrite i (s.joinFrame j)).putGroup
      (({ s.group with docc := s.group.docc ||| BitVec.twoPow 32 i } : Group).setSlot s.focus.slot
        (some { s.path with fi := BitVec.ofNat 5 i, fv := true })) := by
  have hw := State.placed_dsWrite h i (s.joinFrame j)
  unfold State.joinFrame at hw ⊢
  unfold State.openFrame State.dsPush State.setDocc State.putPath
  rw [State.putGroup_putGroup _ hw, State.group_putGroup _ hw, State.putGroup_focus, State.focus_dsWrite,
    State.group_dsWrite]

theorem State.placed_openFrame {s : State} (h : s.placed) (i : Nat) (j : BitVec 64) : (s.openFrame i j).placed := by
  rw [State.openFrame_eq h]
  exact State.placed_putGroup (State.placed_dsWrite h i _) _

theorem State.path_openFrame {s : State} (h : s.placed) (i : Nat) (j : BitVec 64) :
    (s.openFrame i j).path = { s.path with fi := BitVec.ofNat 5 i, fv := true } := by
  rw [State.openFrame_eq h, State.path_putGroup _ (State.placed_dsWrite h i _), State.focus_dsWrite,
    Group.slot_setSlot_self, Option.getD_some]

theorem State.docc_openFrame {s : State} (h : s.placed) (i : Nat) (j : BitVec 64) :
    (s.openFrame i j).group.docc = s.group.docc ||| BitVec.twoPow 32 i := by
  rw [State.openFrame_eq h, State.group_putGroup _ (State.placed_dsWrite h i _), Group.setSlot_docc]

theorem State.dsRead_openFrame {s : State} (h : s.placed) (i : Nat) (j : BitVec 64) (k : Nat) :
    (s.openFrame i j).dsRead k = (s.dsWrite i (s.joinFrame j)).dsRead k := by
  rw [State.openFrame_eq h, State.dsRead_putGroup (State.placed_dsWrite h i _)]
  rw [Group.setSlot_dsbase, s.group_dsWrite]

/-! ## JSET -/

theorem State.target_aligned {s : State} (h : s.path.pc.toNat % 4 = 0) {n : Nat} (disp : BitVec n) :
    (s.target disp).toNat % 4 = 0 := by
  rw [State.target, BitVec.toNat_add, BitVec.toNat_mul, show (4#64).toNat = 4 from rfl]
  omega

theorem State.nextPc_one {s : State} (h : s.pending = none) : s.nextPc 1 = s.path.pc + 4 := by
  simp [State.nextPc, h]

theorem exec_jset_full {s : State} (hs : s.Runs) (h : s.group.docc = BitVec.allOnes 32) (disp : BitVec 22) :
    exec (.jset disp) s = .next (s.raiseTrap { cause := 0x0C, tpc := s.path.pc, mask := s.path.mask } true) := by
  rw [exec_jset, execJset]
  exact groupInstr_trap (m := none) hs (.inr rfl) (by rw [State.dsLowest_of_full h])

theorem exec_jset_free {s : State} (hs : s.Runs) (hn : s.pending = none) {i : Nat} (h : s.dsLowest = some i)
    (disp : BitVec 22) (ht : (s.openFrame i (s.target disp)).Steady) :
    exec (.jset disp) s = .next ((s.openFrame i (s.target disp)).issued (s.path.pc + 4)) := by
  rw [exec_jset, execJset, ← State.nextPc_one hn]
  exact groupInstr_next hs (.inr rfl) (by rw [h]) ht.1 ht.2

/-- Settles O18: the opened frame is read back from its 32 bytes, which lie apart from those of every other entry. -/
theorem jsetOpensFrame : Obligations.JsetOpensFrame := by
  intro s hs hn hpc disp
  refine ⟨fun hd => exec_jset_full hs hd disp, fun i hi hf hb ht => ?_⟩
  have hp := hs.placed
  have ho := State.placed_openFrame hp i (s.target disp)
  have path := State.path_issued ho (s.path.pc + 4)
  rw [State.path_openFrame hp] at path
  have entry : ∀ k, ((s.openFrame i (s.target disp)).issued (s.path.pc + 4)).dsRead k =
      (s.dsWrite i (s.joinFrame (s.target disp))).dsRead k := fun k => by
    rw [State.dsRead_issued ho, State.dsRead_openFrame hp]
  refine ⟨_, exec_jset_free hs hn (State.dsLowest_of_lowest hi hf hb) disp ht, ?goesOn, ?mask, ?fi, ?fv, ?docc, ?opened,
    fun j _ hj => ?others⟩
  case goesOn => rw [path]
  case mask => rw [path]
  case fi => rw [path]; exact Nat.mod_eq_of_lt hi
  case fv => rw [path]
  case docc => rw [State.docc_issued ho, State.docc_openFrame hp]
  case opened => exact (entry i).trans (s.dsRead_dsWrite_self i (s.joinFrame_fits (State.target_aligned hpc disp)))
  case others => exact (entry j).trans (s.dsRead_dsWrite_ne hj _)

end Sys2Proof.Machine
end

section
/-!
SUPPORT. TRAP (R283): the words that decode to it, the trap that it raises, and the kill that a trap in trap mode comes to
(R286).
-/
namespace Sys2Proof

/-! ## Words of format GI -/

theorem toNat_append_eq_add {m n : Nat} (x : BitVec m) (y : BitVec n) : (x ++ y).toNat = x.toNat * 2 ^ n + y.toNat := by
  rw [BitVec.toNat_append, ← Nat.shiftLeft_add_eq_or_of_lt y.isLt, Nat.shiftLeft_eq]

theorem GI.toNat_toWord {m : Nat} (hm : m < 64) (f : GI) : (f.toWord m).toNat =
    2 ^ 31 + m * 2 ^ 25 + f.wd.toNat * 2 ^ 19 + f.wa.toNat * 2 ^ 13 + f.imm.toNat := by
  simp only [GI.toWord, groupWord, toNat_append_eq_add, BitVec.toNat_ofNat, Nat.mod_eq_of_lt hm]
  omega

/-- A word is that of a major and fields where its space, its major and its fields are theirs (Table 6.3). -/
theorem GI.eq_toWord_iff {w : BitVec 32} {m : Nat} (hm : m < 64) {f : GI} :
    w = f.toWord m ↔ w.getLsbD 31 = true ∧ (w.extractLsb' 25 6).toNat = m ∧ GI.ofWord w = f := by
  obtain ⟨wd, wa, imm⟩ := f
  simp only [GI.ofWord, GI.mk.injEq, ← BitVec.toNat_inj, GI.toNat_toWord hm, BitVec.extractLsb'_toNat, BitVec.getLsbD,
    Nat.testBit_eq_decide_div_mod_eq, Nat.shiftRight_eq_div_pow, decide_eq_true_eq]
  omega

/-! ## Which words are TRAP's -/

/-- A member that is accepted has passed every check of R119, and is the member that its decoder names. -/
theorem accept_eq_ok_iff {zeros : List Nat} {holds : List Bool} {i j : Instr} :
    accept zeros holds i = .ok j ↔ i = j ∧ i.subCodesOk = true ∧ zeros.any (· != 0) = false ∧ i.operandFault = none ∧
      holds.any id = false := by
  unfold accept
  cases i.subCodesOk with
  | false => simp
  | true =>
    cases zeros.any (· != 0) with
    | true => simp
    | false =>
      cases i.operandFault with
      | some r => simp
      | none => cases holds.any id <;> simp

/-- Every arm of the lane-space map (Table 6.6) names members other than TRAP. -/
theorem decodeLane_ne_trap (w : BitVec 32) (code : BitVec 13) : decodeLane w ≠ .ok (.trap code) := by
  intro h
  unfold decodeLane at h
  split at h
  case h_53 => cases h -- a reserved major
  all_goals
    simp only [decodeLane00, decodeLane01, decodeLane02, decodeLane03, decodeLane04, decodeLane05, decodeLane06, decodeLane07,
      decodeLane08, decodeLane09, decodeLane0A, decodeLane0B, decodeLane0C, decodeLane0D, decodeLane0E, decodeLane0F,
      decodeLane10, decodeLane11, decodeLane12, decodeLane13, decodeLane14, decodeLane15, decodeLane16, decodeLane17,
      decodeLane18, decodeLane19, decodeLane1A, decodeLane1B, decodeLane1C, decodeLane1D, decodeLane1E, decodeLane1F,
      decodeLane20, decodeLane21, decodeLane22, decodeLane23, decodeLane24, decodeLane25, decodeLane26, decodeLane27,
      decodeLane28, decodeLane29, decodeLane2A, decodeLane2B, decodeLane2C, decodeLane2D, decodeLane2E, decodeLane30,
      decodeLane31, decodeLane32, decodeLane33, decodeLane34] at h
    repeat' split at h
    all_goals simp [accept_eq_ok_iff] at h

/-- So does every arm of the group-space map (Table 6.7) but that of major 0x38. -/
theorem decodeGroup_ne_trap {w : BitVec 32} (lit : BitVec 32) (code : BitVec 13) (h38 : (w.extractLsb' 25 6).toNat ≠ 0x38) :
    decodeGroup w lit ≠ .ok (.trap code) := by
  intro h
  unfold decodeGroup at h
  split at h
  case h_49 major => exact h38 major
  case h_56 => cases h -- a reserved major
  all_goals
    simp only [decodeGroup00, decodeGroup01, decodeGroup02, decodeGroup03, decodeGroup04, decodeGroup05, decodeGroup06,
      decodeGroup07, decodeGroup08, decodeGroup09, decodeGroup0A, decodeGroup0B, decodeGroup0C, decodeGroup0D,
      decodeGroup0E, decodeGroup10, decodeGroup11, decodeGroup12, decodeGroup13, decodeGroup14, decodeGroup15,
      decodeGroup16, decodeGroup17, decodeGroup18, decodeGroup19, decodeGroup1A, decodeGroup1B, decodeGroup1C,
      decodeGroup1D, decodeGroup1E, decodeGroup1F, decodeGroup20, decodeGroup21, decodeGroup22, decodeGroup23,
      decodeGroup24, decodeGroup25, decodeGroup28, decodeGroup29, decodeGroup2A, decodeGroup2B, decodeGroup2C,
      decodeGroup2D, decodeGroup2E, decodeGroup30, decodeGroup31, decodeGroup32, decodeGroup33, decodeGroup39,
      decodeGroup3A, decodeGroup3B, decodeGroup3C, decodeGroup3D, decodeGroup3F] at h
    repeat' split at h
    all_goals simp [accept_eq_ok_iff] at h

theorem decodeGroup_of_major_38 {w : BitVec 32} (lit : BitVec 32) (h : (w.extractLsb' 25 6).toNat = 0x38) :
    decodeGroup w lit = decodeGroup38 (GI.ofWord w) := by
  simp only [decodeGroup, h]

theorem decodeGroup38_eq_trap_iff {f : GI} {code : BitVec 13} :
    decodeGroup38 f = .ok (.trap code) ↔ f = ⟨0, 0, code⟩ := by
  obtain ⟨wd, wa, imm⟩ := f
  simp [decodeGroup38, accept_eq_ok_iff, Instr.subCodesOk, Instr.operandFault, ← BitVec.toNat_inj, and_comm, and_assoc]

theorem decodeWord_eq_trap_iff {w lit : BitVec 32} {code : BitVec 13} :
    decodeWord w lit = .ok (.trap code) ↔ w = GI.toWord 0x38 ⟨0, 0, code⟩ := by
  rw [GI.eq_toWord_iff (by decide)]
  unfold decodeWord
  split
  next group =>
    by_cases major : (w.extractLsb' 25 6).toNat = 0x38
    · rw [decodeGroup_of_major_38 lit major, decodeGroup38_eq_trap_iff]
      simp [group, major]
    · exact iff_of_false (decodeGroup_ne_trap lit code major) fun ⟨_, h, _⟩ => major h
  next lane => exact iff_of_false (decodeLane_ne_trap w code) fun ⟨h, _⟩ => lane h

theorem trapWord_eq (code : BitVec 13) : GI.toWord 0x38 ⟨0, 0, code⟩ = 0xF0000000 ||| code.setWidth 32 := by
  apply BitVec.eq_of_toNat_eq
  rw [GI.toNat_toWord (by decide), BitVec.toNat_or, BitVec.toNat_setWidth_of_le (by decide)]
  simpa using Nat.two_pow_add_eq_or_of_lt code.isLt 0x78000

theorem encode_trap (code : BitVec 13) : encode (.trap code) = [GI.toWord 0x38 ⟨0, 0, code⟩] := rfl

/-- TRAP is a group-space word, so a PFX before it is reported at the PFX (R111). -/
theorem pairFault_trap (p : Prefix) (code : BitVec 13) : pairFault p (.trap code) = some (true, .prefixGroupSpace) := by
  have group : (Instr.trap code).firstWord.getLsbD 31 = true := ((GI.eq_toWord_iff (by decide)).1 rfl).1
  simp [pairFault, Instr.laneMajor, group]

namespace Machine

/-! ## A trap in trap mode -/

@[simp] theorem State.freed_teams (s : State) (c : Nat) : (s.freed c).teams = s.teams := by rw [State.freed_eq]

theorem State.stopJobs_teams (s : State) (t : Nat) : (s.stopJobs t).teams = s.teams := rfl

@[simp] theorem State.domainRecord_teams (s : State) (d : Nat) (k : Bool) (e : DomainEvent) :
    (s.domainRecord d k e).teams = s.teams := by
  rw [State.domainRecord, State.interrupt_teams, State.writeBytes_teams]

theorem State.doubleFault_teams (s : State) (t g c : Nat) (a b : BitVec 64) :
    (s.doubleFault t g c a b).teams = (s.stopTeam t).teams := by
  rw [State.doubleFault, State.domainRecord_teams]

theorem State.status_killTeam (s : State) {t : Nat} (h : t < s.teams.length) :
    ((s.killTeam t).teamAt t).status = .killed :=
  congrArg Team.status (State.teamAt_setTeam_self (s.stopJobs t) (by rwa [State.stopJobs_teams]) _)

theorem State.teamAt_of_teams {s t : State} (h : t.teams = s.teams) (k : Nat) : t.teamAt k = s.teamAt k := by
  rw [State.teamAt, h, State.teamAt]

theorem State.teamAt_withPending (s : State) (p : Option Prefix) (k : Nat) :
    ({ s with pending := p } : State).teamAt k = s.teamAt k := rfl

theorem State.status_stopTeam {s : State} {t : Nat} (h : t < s.teams.length) (ha : (s.teamAt t).alive = true) :
    ((s.stopTeam t).teamAt t).status = .killed := by
  unfold State.stopTeam
  rw [if_pos ha]
  split
  · rw [State.teamAt_of_teams (State.freed_teams _ _), s.status_killTeam h]
  · exact s.status_killTeam h

theorem State.status_doubleFault {s : State} {t : Nat} (h : t < s.teams.length) (ha : (s.teamAt t).alive = true)
    (g c : Nat) (a b : BitVec 64) : ((s.doubleFault t g c a b).teamAt t).status = .killed := by
  rw [State.teamAt_of_teams (s.doubleFault_teams t g c a b), State.status_stopTeam h ha]

/-- The focused group of a team that has not gone is in trap mode. -/
def State.Handles (s : State) : Prop := s.placed ∧ s.team.alive = true ∧ s.group.trap.isSome = true

theorem State.handles_of_live {s : State} (hs : s.live = true) (ht : s.group.trap.isSome = true) : s.Handles := by
  refine ⟨State.placed_of_live hs, ?_, ht⟩
  simp only [State.live, Bool.and_eq_true, decide_eq_true_eq] at hs
  simp [Team.alive, hs]

theorem State.Handles.putGroup {s : State} (h : s.Handles) {g : Group} (hg : g.trap = s.group.trap) :
    (s.putGroup g).Handles := by
  obtain ⟨hp, ha, ht⟩ := h
  refine ⟨State.placed_putGroup hp g, ?_, ?_⟩
  · rw [s.team_putGroup hp g]
    exact ha
  · rw [s.group_putGroup hp g, hg]
    exact ht

theorem State.Handles.putPath {s : State} (h : s.Handles) (p : Path) : (s.putPath p).Handles :=
  h.putGroup (Group.setSlot_trap ..)

theorem State.Handles.trapNow_killed {s : State} (h : s.Handles) (i : TrapInfo) (replay : Bool) :
    ((s.trapNow i replay).teamAt s.focus.team).status = .killed := by
  unfold State.trapNow
  have focus : (if i.cause = 0x08 then s.putPath s.path.closeRegion else s).focus = s.focus := by split <;> rfl
  have handles : (if i.cause = 0x08 then s.putPath s.path.closeRegion else s).Handles := by
    split
    · exact h.putPath _
    · exact h
  generalize (if i.cause = 0x08 then s.putPath s.path.closeRegion else s) = u at focus handles
  obtain ⟨placed, alive, trapMode⟩ := handles
  dsimp only
  rw [if_pos trapMode, State.teamAt_withPending, ← focus]
  exact State.status_doubleFault placed.1 alive ..

/-- A trap of a group in trap mode kills its team (R286). -/
theorem State.Handles.raiseTrap_killed {s : State} (h : s.Handles) (i : TrapInfo) (replay : Bool) :
    ((s.raiseTrap i replay).teamAt s.focus.team).status = .killed :=
  (h.putGroup (g := s.group.countIssue s.focus.slot) rfl).trapNow_killed i replay

/-! ## TRAP -/

/-- The focused path with no mark of an instruction that is still to complete. -/
def State.settledPath (s : State) : Path :=
  { s.path with walked := false, released := false, bpSkip := false, again := none }

/-- Outside a pure region TRAP raises its trap at the next word, in trap mode too. -/
theorem exec_trap_raises {s : State} (hs : s.live = true) (hn : s.pending = none) (hr : s.path.region = none)
    (code : BitVec 13) : exec (.trap code) s = .next ((s.putPath s.settledPath).raiseTrap
      { cause := 0x01, tpc := s.path.pc + 4, tinfo := code.setWidth 64, mask := s.path.mask } false) := by
  have unprefixed : ({ s.putPath s.settledPath with pending := none } : State) = s.putPath s.settledPath := by
    rw [← hn]; rfl
  rw [exec_trap, execTrap, groupInstr, if_pos hs, s.guarded_of_closed _ _ _ hr (.inr rfl), ← State.nextPc_one hn,
    ← unprefixed]
  rfl

/-- Settles O44: among all words TRAP's are those of major 0x38 with zero operand fields, and the trap that it raises is a
double fault where the group is in trap mode. -/
theorem trapInstruction : Obligations.TrapInstruction := by
  refine ⟨fun code => ?words, rfl, fun w lit code => ?decoded, pairFault_trap, fun s hs hn code => ⟨fun _ hr => ?traps,
    fun ht hr => ?doubleFault⟩⟩
  case words => rw [encode_trap, trapWord_eq]
  case decoded => rw [decodeWord_eq_trap_iff, trapWord_eq]
  case traps => exact exec_trap_raises hs hn hr code
  case doubleFault =>
    exact ⟨_, exec_trap_raises hs hn hr code, ((State.handles_of_live hs ht).putPath _).raiseTrap_killed _ _⟩

end Machine
end Sys2Proof
end

section
/-!
SUPPORT. The lane-space immediate instructions IADDI, ORI, XORI, SHLI, SHRI and SARI (R348, R383, R429, R399, R400, R395):
the space and the major of a word, the check of a shift count, which PFX a word takes that reads nothing of it
but the guard and zm (Table 6.5), and results of one register and an immediate.
-/
namespace Sys2Proof

/-! ## Spaces and majors (R100) -/

theorem getLsbD_31_groupWord (major : Nat) (fields : BitVec 25) : (groupWord major fields).getLsbD 31 = true := by
  unfold groupWord
  rw [BitVec.getLsbD_append, BitVec.getLsbD_append]
  rfl

theorem getLsbD_31_laneWord (major : Nat) (fields : BitVec 25) : (laneWord major fields).getLsbD 31 = false := by
  unfold laneWord
  rw [BitVec.getLsbD_append, BitVec.getLsbD_append]
  rfl

theorem toNat_major_laneWord {major : Nat} (h : major < 64) (fields : BitVec 25) :
    ((laneWord major fields).extractLsb' 25 6).toNat = major := by
  simp only [laneWord, BitVec.extractLsb'_toNat, toNat_append_eq_add, BitVec.toNat_ofNat, Nat.mod_eq_of_lt h,
    Nat.shiftRight_eq_div_pow]
  omega

/-- The lane-space major of an instruction is the one its word is written with. -/
theorem Instr.laneMajor_of_laneWord {i : Instr} {major : Nat} {fields : BitVec 25} (h : major < 64)
    (word : i.isWord = true) (first : i.firstWord = laneWord major fields) : i.laneMajor = some major := by
  rw [Instr.laneMajor, word, first, getLsbD_31_laneWord, toNat_major_laneWord h]
  rfl

theorem Instr.laneMajor_of_groupWord {i : Instr} {major : Nat} {fields : BitVec 25}
    (first : i.firstWord = groupWord major fields) : i.laneMajor = none := by
  simp only [Instr.laneMajor, first, getLsbD_31_groupWord, Bool.not_true, Bool.and_false, Bool.false_eq_true, if_false]

/-- A word whose bit 31 is clear is read by the lane-space map (Table 6.1). -/
theorem decodeWord_of_lane {w : BitVec 32} (lit : BitVec 32) (h : (w.extractLsb' 25 7).toNat < 64) :
    decodeWord w lit = decodeLane w := by
  have lane : w.getLsbD 31 = false := by
    simp only [BitVec.extractLsb'_toNat, Nat.shiftRight_eq_div_pow] at h
    simp only [BitVec.getLsbD, Nat.testBit_eq_decide_div_mod_eq, decide_eq_false_iff_not]
    omega
  rw [decodeWord, lane]
  rfl

theorem toNat_major_of_lane {w : BitVec 32} {m : BitVec 7} (h : w.extractLsb' 25 7 = m) (hm : m.toNat < 64) :
    (w.extractLsb' 25 6).toNat = m.toNat := by
  have := congrArg BitVec.toNat h
  simp only [BitVec.extractLsb'_toNat, Nat.shiftRight_eq_div_pow] at this ⊢
  omega

theorem decodeWord_of_major_0E {w : BitVec 32} (lit : BitVec 32) (h : w.extractLsb' 25 7 = 0x0E) :
    decodeWord w lit = decodeLane0E (LI.ofWord w) := by
  rw [decodeWord_of_lane lit (by rw [h]; decide)]
  simp only [decodeLane, toNat_major_of_lane h (by decide), BitVec.reduceToNat]

theorem decodeWord_of_major_0F {w : BitVec 32} (lit : BitVec 32) (h : w.extractLsb' 25 7 = 0x0F) :
    decodeWord w lit = decodeLane0F (LI.ofWord w) := by
  rw [decodeWord_of_lane lit (by rw [h]; decide)]
  simp only [decodeLane, toNat_major_of_lane h (by decide), BitVec.reduceToNat]

theorem decodeWord_of_major_10 {w : BitVec 32} (lit : BitVec 32) (h : w.extractLsb' 25 7 = 0x10) :
    decodeWord w lit = decodeLane10 (LI.ofWord w) := by
  rw [decodeWord_of_lane lit (by rw [h]; decide)]
  simp only [decodeLane, toNat_major_of_lane h (by decide), BitVec.reduceToNat]

/-! ## The range of an operand -/

/-- A member whose one rule is a range is well-formed where the range holds. -/
theorem Instr.wellFormed_of_range {i : Instr} {inRange : Bool} (word : i.isWord = true) (codes : i.subCodesOk = true)
    (range : i.operandFault = if inRange then none else some .operandRange) : i.wellFormed = inRange := by
  unfold Instr.wellFormed
  rw [word, codes, range]
  cases inRange <;> rfl

theorem accept_of_fault {i : Instr} {r : Reason} (codes : i.subCodesOk = true) (fault : i.operandFault = some r) :
    accept [] [] i = .error r := by
  simp [accept, codes, fault]

theorem operandFault_shli (vd va : BitVec 7) (imm : BitVec 10) (ha : Bool) :
    (Instr.shli vd va imm ha).operandFault = if decide (imm.toNat ≤ 31) then none else some .operandRange := rfl

theorem operandFault_shri (vd va : BitVec 7) (imm : BitVec 10) (ha : Bool) :
    (Instr.shri vd va imm ha).operandFault = if decide (imm.toNat ≤ 31) then none else some .operandRange := rfl

theorem operandFault_sari (vd va : BitVec 7) (imm : BitVec 10) (ha : Bool) :
    (Instr.sari vd va imm ha).operandFault = if decide (imm.toNat ≤ 31) then none else some .operandRange := rfl

/-- The decoder refuses a shift by an immediate count above 31 (R399, R400, R395). -/
theorem decodeWord_shift_outOfRange {w : BitVec 32} (lit : BitVec 32)
    (major : w.extractLsb' 25 7 = 0x0E ∨ w.extractLsb' 25 7 = 0x0F ∨ w.extractLsb' 25 7 = 0x10)
    (count : 31 < (w.extractLsb' 1 10).toNat) : decodeWord w lit = .error .operandRange := by
  have refused : (if decide ((w.extractLsb' 1 10).toNat ≤ 31) then none else some Reason.operandRange) =
      some .operandRange := if_neg (by rw [decide_eq_true_eq]; exact Nat.not_le.2 count)
  rcases major with h | h | h
  · rw [decodeWord_of_major_0E lit h]
    exact accept_of_fault rfl ((operandFault_shli ..).trans refused)
  · rw [decodeWord_of_major_0F lit h]
    exact accept_of_fault rfl ((operandFault_shri ..).trans refused)
  · rw [decodeWord_of_major_10 lit h]
    exact accept_of_fault rfl ((operandFault_sari ..).trans refused)

/-! ## The PFX of a pair -/

/-- Of its PFX the instruction takes the guard and zm alone: rounding code and scope are zero in it, and vc is not read
(Table 6.5). -/
def Instr.guardOnly (i : Instr) : Prop :=
  (∀ r, i.prefixRndOk r = (r == 0)) ∧ (∀ s, i.prefixScopeOk s = (s == 0)) ∧ (∀ z, i.prefixZmOk z = true) ∧
    i.readsVc = false

/-- A lane-space word below the LM majors that takes the guard and zm alone: a PFX that sets any other field is refused. -/
theorem pairFault_of_guardOnly (p : Prefix) {i : Instr} {m : Nat} (lane : i.laneMajor = some m) (low : m < 0x20)
    (h : i.guardOnly) :
    pairFault p i = if p.rnd = 0 ∧ p.scope = 0 ∧ p.vc = 0 then none else some (true, .prefixField) := by
  obtain ⟨rnd, scope, zm, vc⟩ := h
  have notLM : i.isLM = false := by simp [Instr.isLM, lane, low]
  unfold pairFault
  split
  next => cases (Instr.laneMajor_of_groupWord rfl).symm.trans lane -- a PFX is no lane-space word
  next =>
    rw [if_neg (by simp [lane]), if_neg (by simp [notLM]), if_neg ?notOddPair]
    · rw [rnd, scope, zm, vc]
      have fields : (p.rnd == 0 && p.scope == 0 && true && (false || p.vc == 0)) =
          decide (p.rnd = 0 ∧ p.scope = 0 ∧ p.vc = 0) := by
        simp [Bool.beq_eq_decide_eq, Bool.and_assoc]
      simp only [fields, Bool.not_eq_true', decide_eq_false_iff_not, ite_not]
    case notOddPair =>
      split
      next op _ =>
        rw [show (op == 9) = false from vc]
        exact Bool.false_ne_true
      next => exact Bool.false_ne_true

/-- None of the six takes a field of its PFX beside the guard and zm (Table 6.5). -/
theorem pairFault_immediate (p : Prefix) (vd va : BitVec 7) (imm : BitVec 10) (ha : Bool) :
    ∀ i ∈ [Instr.iaddi vd va imm ha, .ori vd va imm ha, .xori vd va imm ha, .shli vd va imm ha, .shri vd va imm ha,
      .sari vd va imm ha],
      pairFault p i = if p.rnd = 0 ∧ p.scope = 0 ∧ p.vc = 0 then none else some (true, .prefixField) := by
  simp only [List.forall_mem_cons, List.not_mem_nil, false_imp_iff, implies_true, and_true]
  refine ⟨?iaddi, ?ori, ?xori, ?shli, ?shri, ?sari⟩ <;>
    exact pairFault_of_guardOnly p (Instr.laneMajor_of_laneWord (by decide) rfl rfl) (by decide)
      ⟨fun _ => rfl, fun _ => rfl, fun _ => rfl, rfl⟩

namespace Machine

/-! ## Results of a register and an immediate -/

theorem ofInt_toInt_eq_imm32 (imm : BitVec 10) : BitVec.ofInt 32 imm.toInt = imm32 imm := rfl

theorem add_imm32 (a : Word) (imm : BitVec 10) : a + imm32 imm = BitVec.ofInt 32 (a.toNat + imm.toInt) := by
  rw [BitVec.ofInt_add, ofInt_toInt_eq_imm32, BitVec.ofInt_natCast, BitVec.ofNat_toNat, BitVec.setWidth_eq]

theorem shiftLeft_eq_ofNat (a : Word) (n : Nat) : a <<< n = BitVec.ofNat 32 (a.toNat * 2 ^ n) := by
  apply BitVec.eq_of_toNat_eq
  rw [BitVec.toNat_shiftLeft, BitVec.toNat_ofNat, Nat.shiftLeft_eq]

theorem ushiftRight_eq_ofNat (a : Word) (n : Nat) : a >>> n = BitVec.ofNat 32 (a.toNat / 2 ^ n) := by
  rw [← Nat.shiftRight_eq_div_pow, ← BitVec.toNat_ushiftRight, BitVec.ofNat_toNat, BitVec.setWidth_eq]

theorem sshiftRight_eq_ofInt (a : Word) (n : Nat) : a.sshiftRight n = BitVec.ofInt 32 (a.toInt / 2 ^ n) := by
  rw [BitVec.sshiftRight, Int.shiftRight_eq_div_pow]
  norm_cast

/-- An instruction of the shape `laneR` gives vd the value of a rule that agrees with its function. -/
theorem laneSettles_of_laneR {i : Instr} {s : State} {f g : Word → Word} {vd va : BitVec 7} {ha : Bool} (hs : s.Runs)
    (meaning : exec i s = laneR f vd va ha s) (rule : ∀ a, f a = g a) :
    LaneSettles i s (s.laneResult vd.toNat fun l => g (s.lane va l)) := by
  rw [← funext rule, LaneSettles, meaning]
  exact laneR_settles hs f vd va ha

/-- Settles O2: the shape `laneR` gives the results, and the fields of the word give the rest. -/
theorem immediateResults : Obligations.ImmediateResults := by
  refine ⟨?baseWords, ?printedWords, fun vd va imm ha => ⟨rfl, rfl, rfl, ?shli, ?shri, ?sari⟩,
    fun w => decodeWord_shift_outOfRange 0, fun p vd va imm ha i hi => ?pair, fun s hs vd va imm ha => ?results⟩
  case baseWords => exact ⟨rfl, rfl, rfl, rfl, rfl, rfl⟩
  case printedWords => exact ⟨rfl, rfl, rfl, rfl, rfl, rfl, rfl, rfl⟩
  case shli => exact Instr.wellFormed_of_range rfl rfl (operandFault_shli vd va imm ha)
  case shri => exact Instr.wellFormed_of_range rfl rfl (operandFault_shri vd va imm ha)
  case sari => exact Instr.wellFormed_of_range rfl rfl (operandFault_sari vd va imm ha)
  case pair =>
    rw [pairFault_immediate p vd va imm ha i hi, ite_eq_left_iff, ite_eq_right_iff]
    simp
  case results =>
    intro result
    have settles : ∀ {i : Instr} {f g : Word → Word}, exec i s = laneR f vd va ha s → (∀ a, f a = g a) → result i g :=
      laneSettles_of_laneR hs
    clear_value result
    exact ⟨settles exec_iaddi (add_imm32 · imm), settles exec_ori fun _ => rfl, settles exec_xori fun _ => rfl,
      settles exec_shli (shiftLeft_eq_ofNat · imm.toNat), settles exec_shri (ushiftRight_eq_ofNat · imm.toNat),
      settles exec_sari (sshiftRight_eq_ofInt · imm.toNat)⟩

end Machine
end Sys2Proof
end
